-- ==== Sys2Proof/Word.lean ====
section
/-! DEFINITION. The two bit-vector widths of the block: 32-bit words (registers, codes, command words) and bytes
(symbols, buffer bytes, opcodes). 00_scope R7, R13, R14. -/

namespace Sys2Proof

/-- A 32-bit register or word, bit 0 the least significant (R14). -/
abbrev Word := BitVec 32

/-- A symbol or a buffer byte (R7: a symbol is one 8-bit byte). -/
abbrev Byte := BitVec 8

/-- NONE = 0xFFFFFFFF, the word that says "no index" (10_state R36, R46). -/
abbrev noneWord : Word := 0xFFFFFFFF#32

end Sys2Proof
end

