-- ==== Sys2Proof/Syntax.lean ====
section
/-! DEFINITION. The commands: one constructor per row of spec/opcode_table.json (30_encoding R104). No command takes
operand fields (R100). -/

namespace Sys2Proof

/-- The twenty commands of 30_encoding R104, in the table's order. -/
inductive Instr where
  | nop
  | pack
  | unpack
  | analyze
  | rank
  | huffBuild
  | huffCodes
  | sfCodes
  | encode
  | decode
  | lzwCompress
  | lzwDecompress
  | serializeHuf
  | serializeSf
  | serializeLzw
  | deserialize
  | compressHuf
  | compressSf
  | compressLzw
  | decompress
  deriving DecidableEq, Repr

end Sys2Proof
end

