-- ==== Sys2Proof/Config.lean ====
section
/-! DEFINITION. What an implementation fixes (the six capacities of 00_scope R8) and the values the spec leaves open.
The free values are opaque constants with no body: nothing can be proved of their value. -/

namespace Sys2Proof

/-- The six capacity parameters (00_scope R8). The machine carries them in its state, where the capacity registers
(10_state R38) read them; no step changes them. Log entry 2. -/
structure Caps where
  /-- IN_CAP, bytes. -/
  inCap : Nat
  /-- OUT_CAP, bytes. -/
  outCap : Nat
  /-- BITS_CAP, bits. -/
  bitsCap : Nat
  /-- PAYLOAD_CAP, bytes. -/
  payloadCap : Nat
  /-- CODES_CAP, 32-bit words. -/
  codesCap : Nat
  /-- DICT_CAP, LZW entries beyond the 256-entry seed. -/
  dictCap : Nat
  deriving DecidableEq, Repr

/-- The default capacities of 00_scope R8. -/
def Caps.default : Caps where
  inCap := 2 ^ 24
  outCap := 2 ^ 24
  bitsCap := 2 ^ 27
  payloadCap := 2 ^ 24
  codesCap := 2 ^ 24
  dictCap := 2 ^ 24 - 256

/-- What the Host reads from a byte of IN, BITS or PAYLOAD that nothing has written since the last reset
(93_implementation_defined U1, U2: "any value"): the number of resets so far, the space, the offset. Log entry 4. -/
opaque Config.unwrittenByte : Nat → Nat → Nat → Byte

/-- What the Host reads from a word of CODES that nothing has written since the last reset (U2: "any value"): the
number of resets so far, the index. Log entry 4. -/
opaque Config.unwrittenWord : Nat → Nat → Word

/-- What a word of CODES holds after a failed LZW_COMPRESS (U3: "any value"): the number of resets so far, which
failure since the last reset it was, the index. Log entry 5. -/
opaque Config.scrubbedWord : Nat → Nat → Nat → Word

/-- What the Host receives from a read that reset cut off (U4: "any value"): the number of resets before it.
Log entry 13. -/
opaque Config.cutOffRead : Nat → Word

/-- BLOCK_BASE, the platform address of each space (20_memory R87, 92_eei_decisions D4: OPEN). Log entry 17. -/
opaque Config.blockBase : Nat → Nat

/-- IRQ_LINE, the platform interrupt number of the output (92_eei_decisions D22: OPEN). Log entry 17. -/
opaque Config.irqLine : Nat

end Sys2Proof
end

