-- ==== Sys2Proof/Machine/HostProgram.lean ====
section
/-! DEFINITION. The Host agent's side of the bus as data: transactions and responses (20_memory R70), the names of
the control and status registers (10_state R22) and the statements of Host programs (30_encoding R111). -/

namespace Sys2Proof.Machine

/-- The 28 control and status registers of 10_state R22, in the order of their offsets. -/
inductive CsrName where
  | id | cmd | ctrl | status | error | errInfo | inLen | outLen | bitsLen | pad | payloadLen | codesLen
  | nsym | symTotal | rankN | nnodes | root | ctabN | nextCode | artKind | origSize | compSize
  | inCapR | outCapR | bitsCapR | payloadCapR | codesCapR | dictCapR
  deriving DecidableEq, Repr

/-- Whether a transaction reads or writes (20_memory R70, `op`). -/
inductive Access where
  | read
  | write
  deriving DecidableEq, Repr

/-- The width of a transaction, 8 or 32 bits (20_memory R70). -/
inductive Width where
  | w8
  | w32
  deriving DecidableEq, Repr

/-- One bus transaction (20_memory R70). `space` is any number: a space above 10 is answered with BUS_ERROR (R75 (a)).
`data` is used by writes only. -/
structure Txn where
  op : Access
  space : Nat
  off : Word
  width : Width
  data : Word
  deriving DecidableEq, Repr

/-- The block's answer to a transaction (20_memory R70). -/
inductive Response where
  | ok
  | okData (data : Word)
  | busError
  deriving DecidableEq, Repr

/-- A Host variable t0 to t7 (30_encoding R111): a 32-bit value, or no data after a refused read
(70_reset_and_hazards R383: a BUS_ERROR read has no value). -/
inductive HostVar where
  | word (value : Word)
  | noData
  deriving DecidableEq, Repr

/-- A statement of a Host program (30_encoding R111). `write` and `read` are the bus transactions behind every `W`
and `R` form; Machine/HostNotation.lean spells the forms of R111. Labels are numbers. -/
inductive Stmt where
  | write (space : Nat) (off : Word) (width : Width) (data : Word)
  | read (t : Fin 8) (space : Nat) (off : Word) (width : Width)
  | bnz (t : Fin 8) (mask : Word) (label : Nat)
  | bz (t : Fin 8) (mask : Word) (label : Nat)
  | jump (label : Nat)
  | halt
  deriving DecidableEq, Repr

/-- A line of a Host program: `label:` may mark it (30_encoding R111). -/
structure Line where
  label : Option Nat
  stmt : Stmt
  deriving DecidableEq, Repr

/-- A Host program (30_encoding R111). -/
abbrev HostProgram := List Line

/-- The labels a Host program declares. -/
abbrev HostProgram.labels (p : HostProgram) : List Nat := p.filterMap Line.label

/-- The label a statement jumps to, if it is a control transfer (30_encoding R112). -/
def Stmt.target : Stmt → Option Nat
  | .bnz _ _ l => some l
  | .bz _ _ l => some l
  | .jump l => some l
  | .write _ _ _ _ => none
  | .read _ _ _ _ => none
  | .halt => none

/-- The Host agent (00_scope R10): its program, the line it executes next, its variables and the response of its last
transaction. They belong to the Host, not to the block (30_encoding R111). Log entries 9 and 10. -/
structure HostAgent where
  prog : HostProgram
  pos : Nat
  vars : Vector HostVar 8
  resp : Option Response
  deriving DecidableEq, Repr

end Sys2Proof.Machine
end

