-- ==== Sys2Proof/WellFormed.lean ====
section
/-! DEFINITION. The well-formedness checks: the capacities (00_scope R9), the fields of a command word
(30_encoding R101 to R103, R105) and Host programs (30_encoding R111, R112). -/

namespace Sys2Proof

/-- 00_scope R9: the constraints every choice of the capacities meets. -/
def Caps.wf (c : Caps) : Bool :=
  (decide (1 ≤ c.inCap) && decide (c.inCap ≤ 2 ^ 32 - 1)) &&
  (decide (1 ≤ c.outCap) && decide (c.outCap ≤ 2 ^ 32 - 1)) &&
  (decide (1 ≤ c.bitsCap) && decide (c.bitsCap ≤ 2 ^ 32 - 1)) &&
  (decide (1 ≤ c.payloadCap) && decide (c.payloadCap ≤ 2 ^ 32 - 1)) &&
  (decide (1 ≤ c.codesCap) && decide (c.codesCap ≤ 2 ^ 32 - 1)) &&
  decide (4 * c.codesCap ≤ 2 ^ 32 - 1) &&
  (decide (1 ≤ c.dictCap) && decide (c.dictCap ≤ 2 ^ 32 - 256)) &&
  decide (c.bitsCap ≤ 8 * c.payloadCap)

/-- The three fields of a command word (30_encoding R100). -/
structure CmdFields where
  opc : BitVec 8
  codec : BitVec 2
  rsvd : BitVec 22
  deriving DecidableEq, Repr

/-- R103: RSVD must be 0. -/
def CmdFields.rsvdOk (f : CmdFields) : Bool := f.rsvd == 0

/-- The opcodes that require CODEC = 0 (R105). -/
def CmdFields.plainOpc (f : CmdFields) : Bool :=
  decide (f.opc.toNat ≤ 0x0B) || f.opc == 0x0D || f.opc == 0x11

/-- The opcodes that require a codec (R105): SERIALIZE and COMPRESS. -/
def CmdFields.codecOpc (f : CmdFields) : Bool := f.opc == 0x0C || f.opc == 0x10

/-- R101: the opcode is assigned. -/
def CmdFields.opcOk (f : CmdFields) : Bool := f.plainOpc || f.codecOpc

/-- R102: CODEC is 0 for the opcodes that take none and 1, 2 or 3 for the others. -/
def CmdFields.codecOk (f : CmdFields) : Bool :=
  if f.codecOpc then f.codec != 0 else f.codec == 0

/-- R105: a legal command word. -/
def CmdFields.wf (f : CmdFields) : Bool := f.rsvdOk && f.opcOk && f.codecOk

/-- Every command is well formed: no command takes operand fields (R100). -/
def Instr.wf (_ : Instr) : Bool := true

namespace Machine

/-- R111: no label marks two lines. -/
def HostProgram.labelsDistinct (p : HostProgram) : Bool := decide p.labels.Nodup

/-- R112: every control transfer goes to a label of the program. -/
def HostProgram.targetsExist (p : HostProgram) : Bool :=
  p.all fun line => match line.stmt.target with
    | some l => p.labels.contains l
    | none => true

/-- A well-formed Host program (R111, R112). -/
def HostProgram.wf (p : HostProgram) : Bool := p.labelsDistinct && p.targetsExist

end Machine

end Sys2Proof
end

