-- ==== Sys2Proof/Decode.lean ====
section
/-! DEFINITION. The decoder and encoder of command words (30_encoding R100 to R109), from the tables of R102 and R104. -/

namespace Sys2Proof

/-- Why a word is illegal (30_encoding R106). The block answers every one with ILLEGAL_COMMAND. -/
inductive DecodeError where
  /-- Some bit of RSVD is set (R103). -/
  | reservedBits
  /-- The opcode is not assigned (R101, R104). -/
  | unassignedOpcode
  /-- A non-zero CODEC on an opcode that takes none (R102). -/
  | codecNotAllowed
  /-- CODEC = 0 on SERIALIZE or COMPRESS (R102). -/
  | codecMissing
  deriving DecidableEq, Repr

/-- The fields of a word (R100): OPC [7:0], CODEC [9:8], RSVD [31:10]. -/
def wordFields (w : Word) : CmdFields :=
  ⟨w.extractLsb' 0 8, w.extractLsb' 8 2, w.extractLsb' 10 22⟩

/-- The word with given fields (R100). -/
def fieldsWord (f : CmdFields) : Word := f.rsvd ++ f.codec ++ f.opc

/-- The rows of R104 whose opcode takes no codec. -/
def plainRow (opc : Byte) : Option Instr :=
  if opc = 0x00 then some .nop
  else if opc = 0x01 then some .pack
  else if opc = 0x02 then some .unpack
  else if opc = 0x03 then some .analyze
  else if opc = 0x04 then some .rank
  else if opc = 0x05 then some .huffBuild
  else if opc = 0x06 then some .huffCodes
  else if opc = 0x07 then some .sfCodes
  else if opc = 0x08 then some .encode
  else if opc = 0x09 then some .decode
  else if opc = 0x0A then some .lzwCompress
  else if opc = 0x0B then some .lzwDecompress
  else if opc = 0x0D then some .deserialize
  else if opc = 0x11 then some .decompress
  else none

/-- The rows of R104 whose opcode takes a codec. -/
def codecRow (opc : Byte) (codec : BitVec 2) : Option Instr :=
  if opc = 0x0C then
    if codec = 1 then some .serializeHuf
    else if codec = 2 then some .serializeSf
    else if codec = 3 then some .serializeLzw
    else none
  else if opc = 0x10 then
    if codec = 1 then some .compressHuf
    else if codec = 2 then some .compressSf
    else if codec = 3 then some .compressLzw
    else none
  else none

/-- The decode procedure of R109, total on 32-bit words (R107). -/
def decode (w : Word) : Except DecodeError Instr :=
  let f := wordFields w
  if f.rsvd ≠ 0 then .error .reservedBits
  else match plainRow f.opc with
    | some i => if f.codec = 0 then .ok i else .error .codecNotAllowed
    | none =>
      if f.codecOpc then
        match codecRow f.opc f.codec with
        | some i => .ok i
        | none => .error .codecMissing
      else .error .unassignedOpcode

/-- The OPC column of R104. -/
def opcOf : Instr → Byte
  | .nop => 0x00
  | .pack => 0x01
  | .unpack => 0x02
  | .analyze => 0x03
  | .rank => 0x04
  | .huffBuild => 0x05
  | .huffCodes => 0x06
  | .sfCodes => 0x07
  | .encode => 0x08
  | .decode => 0x09
  | .lzwCompress => 0x0A
  | .lzwDecompress => 0x0B
  | .serializeHuf => 0x0C
  | .serializeSf => 0x0C
  | .serializeLzw => 0x0C
  | .deserialize => 0x0D
  | .compressHuf => 0x10
  | .compressSf => 0x10
  | .compressLzw => 0x10
  | .decompress => 0x11

/-- The CODEC column of R104 (R102: 0 none, 1 HUF, 2 SF, 3 LZW). -/
def codecOf : Instr → BitVec 2
  | .serializeHuf => 1
  | .serializeSf => 2
  | .serializeLzw => 3
  | .compressHuf => 1
  | .compressSf => 2
  | .compressLzw => 3
  | .nop => 0
  | .pack => 0
  | .unpack => 0
  | .analyze => 0
  | .rank => 0
  | .huffBuild => 0
  | .huffCodes => 0
  | .sfCodes => 0
  | .encode => 0
  | .decode => 0
  | .lzwCompress => 0
  | .lzwDecompress => 0
  | .deserialize => 0
  | .decompress => 0

/-- The word of a command (R100, R104): RSVD = 0. -/
def encode (i : Instr) : Word := fieldsWord ⟨opcOf i, codecOf i, 0⟩

/-- What the decoder reads from a command whose bits are `w`, bit 0 the least significant. A command is one 32-bit
word (R108), so bits above `nbits` are 0 and more than 32 bits are no command. -/
def decodeTableWord (nbits w : Nat) : Option Instr :=
  if nbits ≤ 32 then
    match decode (BitVec.ofNat 32 (w % 2 ^ nbits)) with
    | .ok i => some i
    | .error _ => none
  else none

end Sys2Proof
end

