-- ==== Sys2Proof/Machine/State.lean ====
section
/-! DEFINITION. The machine's state, as plain data, and its value right after reset (10_state.md). -/

namespace Sys2Proof.Machine

/-- Storage as a list of (address, value) pairs, addresses strictly rising (`Memory.wf` in Machine/Ops.lean). An
address that is not listed has not been written since reset; the list holds no entry for it (log entry 3). With bytes
for values it is a list of `Host.Cell`. -/
abbrev Memory (α : Type) := List (Nat × α)

/-- A buffer of 10_state section 3: its storage and its length register. -/
structure Buffer (α : Type) where
  mem : Memory α
  len : Word
  deriving DecidableEq, Repr

/-- The error codes of 60_exceptions R330. `notFound` is never raised by the block (R333). -/
inductive ErrCode where
  | none
  | notFound
  | emptyInput
  | formatError
  | corruptData
  | capacityExceeded
  | illegalCommand
  | unmappedSymbol
  deriving DecidableEq, Repr

/-- The ERROR register (10_state R27). -/
structure ErrorReg where
  code : ErrCode
  opc : Byte
  sub : Byte
  deriving DecidableEq, Repr

/-- The command latch, the control and status bits and the error registers (10_state R24 to R28). STATUS.ERR and
STATUS.IRQ are views (R26), defined in Machine/Flags.lean. -/
structure Control where
  /-- CMD, the command latch (R24, R62). -/
  cmd : Word
  /-- CTRL.IE (R25). -/
  ie : Bool
  /-- STATUS.BUSY (R26). -/
  busy : Bool
  /-- STATUS.DONE (R26). -/
  done : Bool
  /-- STATUS.WBUSY (R26). -/
  wbusy : Bool
  /-- ERROR (R27). -/
  error : ErrorReg
  /-- ERR_INFO (R28). -/
  errInfo : Word
  deriving DecidableEq, Repr

/-- FREQ[s] and FIRST[s] of a symbol that occurs (10_state R46): its count and its first-occurrence index. -/
structure FreqEntry where
  count : Nat
  first : Nat
  deriving DecidableEq, Repr

/-- The frequency table (10_state R46), listed by symbol: a symbol that is not listed has FREQ = 0 and FIRST = NONE.
With it, NSYM and SYM_TOTAL (R35). -/
structure FreqTable where
  table : Memory FreqEntry
  nsym : Word
  symTotal : Word
  deriving DecidableEq, Repr

/-- An entry of the ranked list (10_state R47). -/
structure RankEntry where
  sym : Byte
  count : Nat
  deriving DecidableEq, Repr

/-- The ranked list (10_state R47) and RANK_N (R36). -/
structure RankTable where
  entries : List RankEntry
  rankN : Word
  deriving DecidableEq, Repr

/-- An entry of the tree arena (10_state R48). Children are arena indices. -/
inductive Node where
  | leaf (sym : Byte) (weight : Nat)
  | internal (weight left right : Nat)
  deriving DecidableEq, Repr

/-- The tree arena (10_state R48), NNODES and ROOT (R36). `root = none` is ROOT = NONE. -/
structure TreeArena where
  nodes : List Node
  nnodes : Word
  root : Option Nat
  deriving DecidableEq, Repr

/-- A bit string (00_scope R15), first bit first. -/
abbrev BitString := List Bool

/-- The code table (10_state R49), listed by symbol: a symbol that is not listed has length 0. With it, CTAB_N (R37). -/
structure CodeTable where
  codes : Memory BitString
  ctabN : Word
  deriving DecidableEq, Repr

/-- An entry of the LZW dictionary (10_state R51). -/
structure DictEntry where
  parent : Nat
  byte : Byte
  deriving DecidableEq, Repr

/-- The LZW dictionary beyond the implicit seed (10_state R51): the entry of code 256 + i stands at position i. With it,
NEXT_CODE (R37). -/
structure Dictionary where
  entries : List DictEntry
  nextCode : Word
  deriving DecidableEq, Repr

/-- ORIG_SIZE and COMP_SIZE (10_state R37, 46_top_level R311). -/
structure Sizes where
  orig : Word
  comp : Word
  deriving DecidableEq, Repr

/-- Who moves next (00_scope R10, R12; 93 U7; 70_reset R370): the Host, the Block, a reset between transactions, or a
reset that catches the Host's transaction in progress (93 U4). Log entries 1 and 13. -/
inductive Turn where
  | host
  | block
  | reset
  | resetInAccess
  deriving DecidableEq, Repr

/-- The state of the machine: the block's registers, buffers and scratch structures (10_state.md), the Host agent, and
the model's own `turns`, `resetCount` and `scrubs` (log entries 1, 5 and 6). -/
structure State where
  /-- CMD, CTRL, STATUS, ERROR, ERR_INFO (R24 to R28). -/
  ctl : Control
  /-- The capacity registers (R38). -/
  caps : Caps
  /-- IN and IN_LEN (R41, R29). -/
  inp : Buffer Byte
  /-- OUT and OUT_LEN (R42, R30). -/
  out : Buffer Byte
  /-- BITS, as storage bytes, and BITS_LEN (R43, R31). -/
  bits : Buffer Byte
  /-- PAYLOAD and PAYLOAD_LEN (R44, R33). -/
  payload : Buffer Byte
  /-- CODES and CODES_LEN (R45, R34). -/
  codes : Buffer Word
  /-- PAD (R32). -/
  pad : BitVec 3
  /-- FREQ, FIRST, NSYM, SYM_TOTAL (R46, R35). -/
  freq : FreqTable
  /-- RANKED, RANK_N (R47, R36). -/
  rank : RankTable
  /-- NODE, NNODES, ROOT (R48, R36). -/
  tree : TreeArena
  /-- CTAB, CTAB_N (R49, R37). -/
  ctab : CodeTable
  /-- DICT, NEXT_CODE (R51, R37). -/
  dict : Dictionary
  /-- ART_KIND [7:0] (R37). -/
  artKind : Byte
  /-- ORIG_SIZE, COMP_SIZE (R37). -/
  sizes : Sizes
  /-- The Host agent (00_scope R10, 30_encoding R111). -/
  host : HostAgent
  /-- The turns still to come; when there is none, a busy block completes and otherwise the Host moves. -/
  turns : List Turn
  /-- Reset events so far: the free values of unwritten storage depend on it. -/
  resetCount : Nat
  /-- Failed LZW_COMPRESS since the last reset: above 0, every word of CODES not listed holds a free value. -/
  scrubs : Nat
  deriving DecidableEq, Repr

/-- Why a step stops with a fault. Every one is a fault of the Host program, never of the block (60_exceptions R331). -/
inductive Fault where
  /-- A command read byte `i` of IN, which nothing has written since reset (70_reset R376, 93 U1). Safe. -/
  | unwrittenIn (i : Nat)
  /-- A command read storage byte `i` of BITS, which nothing has written since reset (R376, U2). Safe. -/
  | unwrittenBits (i : Nat)
  /-- A command read byte `i` of PAYLOAD, which nothing has written since reset (R376, U2). Safe. -/
  | unwrittenPayload (i : Nat)
  /-- A command read word `j` of CODES, which nothing has written since reset (R376, U2). Safe. -/
  | unwrittenCodes (j : Nat)
  /-- The Host program tests variable `t`, which holds no data after a refused read (70_reset R383, 93 U16). Safe. -/
  | hostUsesRefusedRead (t : Fin 8)
  /-- The Host program jumps to a label it does not have (30_encoding R112); its well-formedness check refuses such a
  program. Safe. -/
  | hostLabelMissing (label : Nat)
  deriving DecidableEq, Repr

/-- Why a step is refused. No command of this model is refused. -/
inductive Refusal where
  /-- Raised by the dispatch arm of a command without a meaning. Safe. -/
  | notModelled (mnemonic : String)
  deriving DecidableEq, Repr

/-- How a command's own check stops its rule: an error of 60_exceptions R342 with its ERR_INFO, or a fault. -/
inductive Stop where
  | error (code : ErrCode) (info : Nat)
  | fault (f : Fault)
  deriving DecidableEq, Repr

/-- A computation inside a command: its result, or how it stopped. -/
abbrev Run (α : Type) := Except Stop α

/-- How a command's rule ends, before completion writes the status (60_exceptions R341 step 3): `done` and the state
the rule leaves, `raise ERR(code, info)` by the step whose opcode is `sub` and the state that step leaves, or a fault. -/
inductive Ending where
  | done (s : State)
  | raised (code : ErrCode) (info : Nat) (sub : Byte) (s : State)
  | fault (f : Fault)
  deriving DecidableEq, Repr

/-- The machine right after reset (10_state R63, 70_reset R370) with the default capacities (00_scope R8). The Host's
part and the model's own fields are DESIGN CHOICE (log entries 1, 6, 9, 10). -/
def State.reset : State where
  ctl := ⟨0, false, false, false, false, ⟨.none, 0, 0⟩, 0⟩
  caps := Caps.default
  inp := ⟨[], 0⟩
  out := ⟨[], 0⟩
  bits := ⟨[], 0⟩
  payload := ⟨[], 0⟩
  codes := ⟨[], 0⟩
  pad := 0
  freq := ⟨[], 0, 0⟩
  rank := ⟨[], 0⟩
  tree := ⟨[], 0, none⟩
  ctab := ⟨[], 0⟩
  dict := ⟨[], 256⟩
  artKind := 0
  sizes := ⟨0, 0⟩
  host := ⟨[], 0, Vector.replicate 8 (.word 0), none⟩
  turns := []
  resetCount := 0
  scrubs := 0

end Sys2Proof.Machine
end

