-- ==== Sys2Proof/Machine/Bits.lean ====
section
/-! DEFINITION. Bits, bytes and words: the MSB-first bit order (20_memory R83), the big-endian byte order (R84) and the
saturation of ERR_INFO (10_state R28). -/

namespace Sys2Proof.Machine

/-- ceil(n / 8), the bytes that hold n bits. -/
def ceilDiv8 (n : Nat) : Nat := (n + 7) / 8

/-- The padding count of n bits (40_bitpacker R132). -/
def padCount (n : Nat) : Nat := (8 - n % 8) % 8

/-- The number whose w binary digits, most significant first, are the first w bits of `bs`, zeros where `bs` ends. -/
def bitsToNat : Nat → BitString → Nat
  | 0, _ => 0
  | w + 1, bs => (bs.headD false).toNat * 2 ^ w + bitsToNat w bs.tail

/-- The byte whose most significant bit is the first of the eight bits (20_memory R83). -/
def byteOfBits (bs : BitString) : Byte := BitVec.ofNat 8 (bitsToNat 8 bs)

/-- The word whose bit 31 is the first of the bits, zeros where they end (20_memory R81). -/
def wordOfBits (bs : BitString) : Word := BitVec.ofNat 32 (bitsToNat 32 bs)

/-- The eight bits of a byte, most significant first (R83). -/
def bitsOfByte (b : Byte) : BitString :=
  [b.getLsbD 7, b.getLsbD 6, b.getLsbD 5, b.getLsbD 4, b.getLsbD 3, b.getLsbD 2, b.getLsbD 1, b.getLsbD 0]

/-- The first n bytes of a bit string grouped by eight (R83). -/
def packBytes : Nat → BitString → List Byte
  | 0, _ => []
  | n + 1, bs => byteOfBits bs :: packBytes n (bs.drop 8)

/-- A byte string as a bit string (R83). -/
def bitsOfBytes : List Byte → BitString
  | [] => []
  | b :: bs => bitsOfByte b ++ bitsOfBytes bs

/-- be16 (00_scope R16). -/
def be16 (v : Nat) : List Byte := [BitVec.ofNat 8 (v / 256), BitVec.ofNat 8 v]

/-- be32 (00_scope R16). -/
def be32 (v : Nat) : List Byte :=
  [BitVec.ofNat 8 (v / 16777216), BitVec.ofNat 8 (v / 65536), BitVec.ofNat 8 (v / 256), BitVec.ofNat 8 v]

/-- The big-endian number of a byte string (BE16 and BE32 of 00_scope R16). -/
def beNat (bs : List Byte) : Nat := bs.foldl (fun acc b => acc * 256 + b.toNat) 0

/-- A value as a 32-bit register holds it, 0xFFFFFFFF at or above 2^32 (10_state R28). -/
def satWord (n : Nat) : Word := BitVec.ofNat 32 (min n 0xFFFFFFFF)

end Sys2Proof.Machine
end

