-- ==== Sys2Proof/Machine/Flags.lean ====
section
/-! DEFINITION. The status flags and the register views computed from them (10_state R23 to R28, R40). -/

namespace Sys2Proof.Machine

/-- The number of an error code (60_exceptions R330). -/
def ErrCode.toByte : ErrCode → Byte
  | .none => 0
  | .notFound => 1
  | .emptyInput => 2
  | .formatError => 3
  | .corruptData => 4
  | .capacityExceeded => 5
  | .illegalCommand => 6
  | .unmappedSymbol => 7

/-- The ID register (10_state R23). -/
def idValue : Word := 0x44430101

/-- STATUS.ERR reads as ERROR.CODE != 0 (10_state R26). -/
def errFlag (c : Control) : Bool := c.error.code != .none

/-- STATUS.IRQ, the level of the interrupt output: CTRL.IE AND STATUS.DONE (10_state R26, 60_exceptions R345). -/
def irq (c : Control) : Bool := c.ie && c.done

/-- The STATUS register (10_state R26): BUSY, DONE, ERR, WBUSY, IRQ in bits 0 to 4, the others 0. -/
def statusWord (c : Control) : Word :=
  BitVec.ofNat 32 (c.busy.toNat + 2 * c.done.toNat + 4 * (errFlag c).toNat + 8 * c.wbusy.toNat + 16 * (irq c).toNat)

/-- The CTRL register (10_state R25). -/
def ctrlWord (c : Control) : Word := BitVec.ofNat 32 c.ie.toNat

/-- The ERROR register (10_state R27): CODE, OPC, SUB in the three low bytes. -/
def errorWord (e : ErrorReg) : Word := 0x00#8 ++ e.sub ++ e.opc ++ e.code.toByte

/-- ERROR = 0. -/
def noError : ErrorReg := ⟨.none, 0, 0⟩

end Sys2Proof.Machine
end

