-- ==== Sys2Proof/Machine/Ops.lean ====
section
/-! DEFINITION. The named operations over storage and the control registers: reading and writing a `Memory`, accepting
a command (60_exceptions R340), completing one with success or with an error (R341, R342), the reset event (70_reset
R370), and the ways a command's rule ends. -/

namespace Sys2Proof.Machine

/-! ## Storage -/

/-- The canonical form: addresses strictly rising. No entry equals what an unlisted address reads as, because an
unlisted address holds no written value (log entry 3). -/
abbrev Memory.wf {α : Type} (m : Memory α) : Prop := m.Pairwise fun a b => a.1 < b.1

/-- Every listed address is below a bound. -/
abbrev Memory.below {α : Type} (m : Memory α) (bound : Nat) : Prop := ∀ c ∈ m, c.1 < bound

/-- The value at an address, if it has been written. -/
def Memory.get {α : Type} : Memory α → Nat → Option α
  | [], _ => none
  | (k, v) :: m, a => if k = a then some v else Memory.get m a

/-- Consecutive cells from an address on. -/
def Memory.cells {α : Type} : Nat → List α → Memory α
  | _, [] => []
  | a, x :: xs => (a, x) :: Memory.cells (a + 1) xs

/-- Write consecutive values from an address on; every other address keeps its value. -/
def Memory.write {α : Type} (m : Memory α) (a : Nat) (xs : List α) : Memory α :=
  m.filter (fun c => decide (c.1 < a)) ++ Memory.cells a xs ++
    m.filter (fun c => decide (a + xs.length ≤ c.1))

/-- The storage holds the values `xs` from address `a` on. -/
def Memory.holds {α : Type} (m : Memory α) : Nat → List α → Prop
  | _, [] => True
  | a, x :: xs => Memory.get m a = some x ∧ Memory.holds m (a + 1) xs

/-- A buffer whose first values and length a command has written; later storage is unchanged (10_state R43 to R45). -/
def Buffer.store {α : Type} (b : Buffer α) (xs : List α) (len : Nat) : Buffer α :=
  ⟨Memory.write b.mem 0 xs, BitVec.ofNat 32 len⟩

/-- The OUT buffer after a command wrote it: bytes at and above OUT_LEN are UNSPECIFIED and not readable, so nothing is
kept of them (10_state R42, 93 U5). -/
def outBuffer (xs : List Byte) : Buffer Byte := ⟨Memory.cells 0 xs, BitVec.ofNat 32 xs.length⟩

/-! ## Acceptance, completion, reset -/

/-- Acceptance of a word written to CMD while idle (60_exceptions R340). -/
def accept (w : Word) (s : State) : State :=
  { s with ctl := { s.ctl with cmd := w, busy := true, done := false, error := noError, errInfo := 0 } }

/-- Completion with success (60_exceptions R341 steps 4 and 5). -/
def completeOk (s : State) : State :=
  { s with ctl := { s.ctl with busy := false, done := true, error := noError, errInfo := 0 } }

/-- Completion with an error, the block's form of taking an exception (60_exceptions R341 steps 4 and 5): the code, the
issued opcode, the failing step's opcode and the saturated info are saved; control stays with the Host. There is no
return from it (R344): the next acceptance clears the registers. -/
def completeError (code : ErrCode) (info : Nat) (opc sub : Byte) (s : State) : State :=
  { s with ctl := { s.ctl with busy := false, done := true, error := ⟨code, opc, sub⟩, errInfo := satWord info } }

/-- Completion of an illegal word (30_encoding R106): OPC = SUB = word[7:0], ERR_INFO = the word. -/
def completeIllegal (s : State) : State :=
  completeError .illegalCommand s.ctl.cmd.toNat (s.ctl.cmd.extractLsb' 0 8) (s.ctl.cmd.extractLsb' 0 8) s

/-- A refused Host access or an ignored CSR write sets WBUSY (70_reset R380, R381). -/
def setWbusy (s : State) : State := { s with ctl := { s.ctl with wbusy := true } }

/-- The reset event (70_reset R370): every piece of the block's state takes its reset value; the capacities are
constants (10_state R38); the Host agent and the turns are not the block's. -/
def resetEvent (s : State) : State :=
  { State.reset with caps := s.caps, host := s.host, turns := s.turns, resetCount := s.resetCount + 1 }

/-! ## How a command's rule ends -/

/-- One check of a rule: `if the condition fails: raise ERR(code, info)` (60_exceptions R346). -/
def check (ok : Bool) (code : ErrCode) (info : Nat) : Run Unit :=
  if ok then .ok () else .error (.error code info)

/-- A rule's end from its computation: `keep` is the state after success, `sErr` the state an error leaves, `sub` the
rule's opcode (46_top_level R303). -/
def Ending.ofRun {α : Type} (sub : Byte) (sErr : State) (r : Run α) (keep : α → State) : Ending :=
  match r with
  | .ok a => .done (keep a)
  | .error (.error code info) => .raised code info sub sErr
  | .error (.fault f) => .fault f

/-- The next step of a composite, run on the state the previous step left; an error or fault ends the composite there
(46_top_level R301). -/
def Ending.andThen (e : Ending) (next : State → Ending) : Ending :=
  match e with
  | .done s => next s
  | .raised code info sub s => .raised code info sub s
  | .fault f => .fault f

/-- The completion step of a command whose opcode is `opc` (60_exceptions R341). -/
def complete (opc : Byte) (e : Ending) : Host.Outcome State Fault Refusal :=
  match e with
  | .done s => .next (completeOk s)
  | .raised code info sub s => .next (completeError code info opc sub s)
  | .fault f => .fault f

end Sys2Proof.Machine
end

