-- ==== Sys2Proof/Machine/Operands.lean ====
section
/-! DEFINITION. How commands read their operands (20_memory R94): elements of IN, BITS, PAYLOAD and CODES at the index a
rule names. Reading an element that nothing has written since reset is a fault of the Host program (70_reset R376,
93 U1, U2). -/

namespace Sys2Proof.Machine

/-- n consecutive values from address `a` on, in order; the first unwritten one faults. -/
def readRange {α : Type} (m : Memory α) (bad : Nat → Fault) : Nat → Nat → Run (List α)
  | _, 0 => .ok []
  | a, n + 1 =>
    match Memory.get m a with
    | none => .error (.fault (bad a))
    | some x => do
      let xs ← readRange m bad (a + 1) n
      return x :: xs

/-- IN[i]. -/
def readIn (s : State) (i : Nat) : Run Byte :=
  match Memory.get s.inp.mem i with
  | none => .error (.fault (.unwrittenIn i))
  | some b => .ok b

/-- IN[a : a + n]. -/
def readInRange (s : State) (a n : Nat) : Run (List Byte) := readRange s.inp.mem .unwrittenIn a n

/-- BITS[i]: bit 7 - (i mod 8) of storage byte floor(i / 8) (10_state R43). -/
def readBit (s : State) (i : Nat) : Run Bool :=
  match Memory.get s.bits.mem (i / 8) with
  | none => .error (.fault (.unwrittenBits (i / 8)))
  | some b => .ok (b.getLsbD (7 - i % 8))

/-- BITS[0:n]. -/
def readBitString (s : State) (n : Nat) : Run BitString := do
  let bytes ← readRange s.bits.mem .unwrittenBits 0 (ceilDiv8 n)
  return (bitsOfBytes bytes).take n

/-- PAYLOAD[0:n]. -/
def readPayload (s : State) (n : Nat) : Run (List Byte) := readRange s.payload.mem .unwrittenPayload 0 n

/-- CODES[j], if it holds a value: the word written there, or the free value a failed LZW_COMPRESS left (93 U3, log
entry 5). -/
def codeAt (s : State) (j : Nat) : Option Word :=
  match Memory.get s.codes.mem j with
  | some w => some w
  | none => if s.scrubs = 0 then none else some (Config.scrubbedWord s.resetCount s.scrubs j)

/-- CODES[j] as a command reads it. -/
def readCode (s : State) (j : Nat) : Run Word :=
  match codeAt s j with
  | none => .error (.fault (.unwrittenCodes j))
  | some w => .ok w

/-- CODES[j : j + n]. -/
def readCodes (s : State) : Nat → Nat → Run (List Word)
  | _, 0 => .ok []
  | j, n + 1 => do
    let w ← readCode s j
    let ws ← readCodes s (j + 1) n
    return w :: ws

/-- CTAB[s].code, the empty string for a symbol without a code (10_state R49). -/
def codeOf (t : CodeTable) (sym : Byte) : BitString := (Memory.get t.codes sym.toNat).getD []

/-- The symbol whose code is exactly p, if there is one (42_huffman R190). -/
def symbolOf (t : CodeTable) (p : BitString) : Option Byte :=
  match t.codes.find? (fun c => c.2 == p) with
  | some c => some (BitVec.ofNat 8 c.1)
  | none => none

/-- FREQ[s] (10_state R46). -/
def freqOf (t : FreqTable) (sym : Nat) : Nat :=
  match Memory.get t.table sym with
  | some e => e.count
  | none => 0

/-- FIRST[s], none for NONE (10_state R46). -/
def firstOf (t : FreqTable) (sym : Nat) : Option Nat :=
  match Memory.get t.table sym with
  | some e => some e.first
  | none => none

end Sys2Proof.Machine
end

