-- ==== Sys2Proof/Machine/BitPacker.lean ====
section
/-! DEFINITION. PACK and UNPACK (40_bitpacker.md). -/

namespace Sys2Proof.Machine

/-- PACK's computation (R131): the payload bytes and the padding count. -/
def packRun (s : State) : Run (List Byte × Nat) := do
  let n := s.bits.len.toNat
  check (decide (n ≤ s.caps.bitsCap)) .capacityExceeded n
  let nbytes := ceilDiv8 n
  check (decide (nbytes ≤ s.caps.payloadCap)) .capacityExceeded nbytes
  let b ← readBitString s n
  let pad := padCount n
  return (packBytes nbytes (b ++ List.replicate pad false), pad)

/-- PACK's writes (R131): PAYLOAD, PAYLOAD_LEN, PAD. -/
def storePacked (s : State) (bytes : List Byte) (pad : Nat) : State :=
  { s with payload := Buffer.store s.payload bytes bytes.length, pad := BitVec.ofNat 3 pad }

/-- The rule of PACK (R131). -/
def packRule (s : State) : Ending :=
  Ending.ofRun 0x01 s (packRun s) fun r => storePacked s r.1 r.2

/-- PACK (word 0x00000001). -/
def execPack (s : State) : Host.Outcome State Fault Refusal := complete 0x01 (packRule s)

/-- The BITS buffer after a command wrote the string `b`: bits to the byte boundary are 0, later bytes unchanged
(10_state R43). -/
def storeBits (s : State) (b : BitString) : State :=
  { s with bits := Buffer.store s.bits (packBytes (ceilDiv8 b.length) b) b.length }

/-- UNPACK's computation (R134): the bit string. -/
def unpackRun (s : State) : Run BitString := do
  let m := s.payload.len.toNat
  let p := s.pad.toNat
  check (decide (m ≤ s.caps.payloadCap)) .capacityExceeded m
  check (!(decide (m = 0) && decide (p ≠ 0))) .formatError p
  let n := 8 * m - p
  check (decide (n ≤ s.caps.bitsCap)) .capacityExceeded n
  let bytes ← readPayload s m
  return (bitsOfBytes bytes).take n

/-- The rule of UNPACK (R134). -/
def unpackRule (s : State) : Ending :=
  Ending.ofRun 0x02 s (unpackRun s) fun b => storeBits s b

/-- UNPACK (word 0x00000002). -/
def execUnpack (s : State) : Host.Outcome State Fault Refusal := complete 0x02 (unpackRule s)

end Sys2Proof.Machine
end

