-- ==== Sys2Proof/Machine/Coder.lean ====
section
/-! DEFINITION. ENCODE and DECODE (42_huffman.md sections 3 and 4), for Huffman and Shannon-Fano tables alike
(43_shannon_fano R218). -/

namespace Sys2Proof.Machine

/-- The checking pass and the concatenation of R186, over n symbols from index `i` on; `total` counts the bits so
far. -/
def encodeLoop (s : State) : Nat → Nat → Nat → Run BitString
  | 0, _, _ => .ok []
  | n + 1, i, total => do
    let sym ← readIn s i
    let code := codeOf s.ctab sym
    check (decide (code.length ≠ 0)) .unmappedSymbol i
    check (decide (total + code.length ≤ s.caps.bitsCap)) .capacityExceeded i
    let rest ← encodeLoop s n (i + 1) (total + code.length)
    return code ++ rest

/-- ENCODE's computation (R186): the bit string. -/
def encodeRun (s : State) : Run BitString := do
  let n := s.inp.len.toNat
  check (decide (n ≤ s.caps.inCap)) .capacityExceeded n
  encodeLoop s n 0 0

/-- The rule of ENCODE (R186): BITS, BITS_LEN. -/
def encodeRule (s : State) : Ending :=
  Ending.ofRun 0x08 s (encodeRun s) fun b => storeBits s b

/-- ENCODE (word 0x00000008). -/
def execEncode (s : State) : Host.Outcome State Fault Refusal := complete 0x08 (encodeRule s)

/-- The scan of R190 over n bits from index `i` on: `p` is the running prefix, `o` the number of symbols written. -/
def decodeLoop (s : State) : Nat → Nat → BitString → Nat → Run (List Byte)
  | 0, _, _, _ => .ok []
  | n + 1, i, p, o => do
    let b ← readBit s i
    let p' := p ++ [b]
    match symbolOf s.ctab p' with
    | some sym => do
      check (decide (o ≠ s.caps.outCap)) .capacityExceeded i
      let rest ← decodeLoop s n (i + 1) [] (o + 1)
      return sym :: rest
    | none => decodeLoop s n (i + 1) p' o

/-- OUT and OUT_LEN after a command wrote the text (10_state R42). -/
def storeOut (s : State) (text : List Byte) : State := { s with out := outBuffer text }

/-- The rule of DECODE (R190): OUT, OUT_LEN. The first check changes nothing; a full OUT leaves OUT_LEN = 0 and OUT
UNSPECIFIED. -/
def decodeRule (s : State) : Ending :=
  let n := s.bits.len.toNat
  if n ≤ s.caps.bitsCap then
    Ending.ofRun 0x09 (storeOut s []) (decodeLoop s n 0 [] 0) fun text => storeOut s text
  else .raised .capacityExceeded n 0x09 s

/-- DECODE (word 0x00000009). -/
def execDecode (s : State) : Host.Outcome State Fault Refusal := complete 0x09 (decodeRule s)

end Sys2Proof.Machine
end

