-- ==== Sys2Proof/Machine/Lzw.lean ====
section
/-! DEFINITION. LZW_COMPRESS and LZW_DECOMPRESS (44_lzw.md). -/

namespace Sys2Proof.Machine

/-- The code the next insertion takes (44_lzw R230). -/
def nextFree (d : List DictEntry) : Nat := 256 + d.length

/-- The code of the entry (wcode, c), if it is known (R231): the pair lookup. -/
def findEntry (d : List DictEntry) (w : Nat) (c : Byte) : Option Nat :=
  (d.findIdx? (fun e => e.parent == w && e.byte == c)).map (256 + ·)

/-- DICT and NEXT_CODE for a dictionary (10_state R51). -/
def dictionary (d : List DictEntry) : Dictionary := ⟨d, BitVec.ofNat 32 (nextFree d)⟩

/-- The scan of R233 over n symbols from index `i` on: `w` is the code of the match buffer (none while it is empty), `m`
the number of codes emitted. The result is the codes from here on and the dictionary. -/
def compressLoop (s : State) : Nat → Nat → List DictEntry → Option Nat → Nat → Run (List Nat × List DictEntry)
  | 0, _, d, none, _ => .ok ([], d)
  | 0, i, d, some w, m => do
    check (decide (m ≠ s.caps.codesCap)) .capacityExceeded i
    return ([w], d)
  | n + 1, i, d, none, m => do
    let c ← readIn s i
    compressLoop s n (i + 1) d (some c.toNat) m
  | n + 1, i, d, some w, m => do
    let c ← readIn s i
    match findEntry d w c with
    | some k => compressLoop s n (i + 1) d (some k) m
    | none => do
      check (decide (m ≠ s.caps.codesCap)) .capacityExceeded i
      check (decide (nextFree d ≠ 256 + s.caps.dictCap)) .capacityExceeded i
      let r ← compressLoop s n (i + 1) (d ++ [⟨w, c⟩]) (some c.toNat) (m + 1)
      return (w :: r.1, r.2)

/-- CODES, CODES_LEN, DICT and NEXT_CODE after a successful compression (R233). -/
def storeCompressed (s : State) (codes : List Nat) (d : List DictEntry) : State :=
  { s with codes := Buffer.store s.codes (codes.map (BitVec.ofNat 32)) codes.length, dict := dictionary d }

/-- What a failed compression leaves (R236): CODES_LEN = 0, NEXT_CODE = 256, every word of CODES UNSPECIFIED: a free
value (93 U3, log entry 5). -/
def scrubCompressed (s : State) : State :=
  { s with codes := ⟨[], 0⟩, dict := dictionary [], scrubs := s.scrubs + 1 }

/-- The rule of LZW_COMPRESS (R233): CODES, CODES_LEN, DICT, NEXT_CODE. The first check changes nothing. -/
def lzwCompressRule (s : State) : Ending :=
  let n := s.inp.len.toNat
  if n ≤ s.caps.inCap then
    Ending.ofRun 0x0A (scrubCompressed s) (compressLoop s n 0 [] none 0) fun r => storeCompressed s r.1 r.2
  else .raised .capacityExceeded n 0x0A s

/-- LZW_COMPRESS (word 0x0000000A). -/
def execLzwCompress (s : State) : Host.Outcome State Fault Refusal := complete 0x0A (lzwCompressRule s)

/-- string(k) (10_state R51): the byte itself below 256, otherwise the parent's string and the entry's byte. A parent
is below its entry's code, so the dictionary's length + 1 is enough `fuel`. -/
def stringFrom (d : List DictEntry) : Nat → Nat → List Byte
  | 0, _ => []
  | fuel + 1, k =>
    if k < 256 then [BitVec.ofNat 8 k]
    else match d[k - 256]? with
      | some e => stringFrom d fuel e.parent ++ [e.byte]
      | none => []

/-- string(k) in a dictionary (10_state R51). -/
def stringOf (d : List DictEntry) (k : Nat) : List Byte := stringFrom d (d.length + 1) k

/-- The entry a code stands for, when it is known or is the next-free code (44_lzw R241, R242). -/
def entryFor (d : List DictEntry) (w k : Nat) : List Byte :=
  if k < nextFree d then stringOf d k else stringOf d w ++ (stringOf d w).take 1

/-- The steps of R241 for n codes from list index `j` on: `w` is the previous code, `o` the number of bytes written. The
result is the bytes from here on and the dictionary. -/
def decompressLoop (s : State) : Nat → Nat → List DictEntry → Nat → Nat → Run (List Byte × List DictEntry)
  | 0, _, d, _, _ => .ok ([], d)
  | n + 1, j, d, w, o => do
    let kw ← readCode s j
    let k := kw.toNat
    check (decide (k ≤ nextFree d)) .corruptData j
    let entry := entryFor d w k
    check (decide (o + entry.length ≤ s.caps.outCap)) .capacityExceeded j
    check (decide (nextFree d ≠ 256 + s.caps.dictCap)) .capacityExceeded j
    let r ← decompressLoop s n (j + 1) (d ++ [⟨w, entry.headD 0⟩]) k (o + entry.length)
    return (entry ++ r.1, r.2)

/-- LZW_DECOMPRESS's computation after its first check, for m codes (R241). -/
def decompressRun (s : State) (m : Nat) : Run (List Byte × List DictEntry) :=
  match m with
  | 0 => .ok ([], [])
  | n + 1 => do
    let k0 ← readCode s 0
    check (decide (k0.toNat < 256)) .corruptData 0
    let first := stringOf [] k0.toNat
    check (decide (first.length ≤ s.caps.outCap)) .capacityExceeded 0
    let r ← decompressLoop s n 1 [] k0.toNat first.length
    return (first ++ r.1, r.2)

/-- OUT, OUT_LEN, DICT and NEXT_CODE after decompression (R241); with the empty text and dictionary, what a failed one
leaves (R244). -/
def storeDecompressed (s : State) (text : List Byte) (d : List DictEntry) : State :=
  { s with out := outBuffer text, dict := dictionary d }

/-- The rule of LZW_DECOMPRESS (R241): OUT, OUT_LEN, DICT, NEXT_CODE. The first check changes nothing; any later error
leaves OUT_LEN = 0 and NEXT_CODE = 256 (R244). -/
def lzwDecompressRule (s : State) : Ending :=
  let m := s.codes.len.toNat
  if m ≤ s.caps.codesCap then
    Ending.ofRun 0x0B (storeDecompressed s [] []) (decompressRun s m) fun r => storeDecompressed s r.1 r.2
  else .raised .capacityExceeded m 0x0B s

/-- LZW_DECOMPRESS (word 0x0000000B). -/
def execLzwDecompress (s : State) : Host.Outcome State Fault Refusal := complete 0x0B (lzwDecompressRule s)

end Sys2Proof.Machine
end

