-- ==== Sys2Proof/Machine/Container.lean ====
section
/-! DEFINITION. SERIALIZE and DESERIALIZE: the container of 45_container.md. -/

namespace Sys2Proof.Machine

/-- The code bytes of a code (R263): MSB first, the unused low bits of the last byte 0. -/
def codeBytes (c : BitString) : List Byte := packBytes (ceilDiv8 c.length) c

/-- The table section's entries (R262): SYM, LEN, CODE, in ascending symbol order, the order in which the table lists
them. -/
def tableBytes : Memory BitString → List Byte
  | [] => []
  | (sym, code) :: t => BitVec.ofNat 8 sym :: BitVec.ofNat 8 code.length :: (codeBytes code ++ tableBytes t)

/-- The 9-byte header (R260): magic, VERSION, TAG, PAD, L. -/
def headerBytes (tag pad : Byte) (len : Nat) : List Byte := 0x44 :: 0x43 :: 0x01 :: tag :: pad :: be32 len

/-- OUT, OUT_LEN and ART_KIND after a serialization (R266, R267). -/
def storeArtifact (s : State) (tag : Byte) (artifact : List Byte) : State :=
  { s with out := outBuffer artifact, artKind := tag }

/-- The computation of SERIALIZE.HUF and SERIALIZE.SF (R266): the artifact. The size of R265 is 11 + the entries' bytes
+ L. -/
def serializeTableRun (tag : Byte) (s : State) : Run (List Byte) := do
  let len := s.payload.len.toNat
  let pad := s.pad.toNat
  check (decide (len ≤ s.caps.payloadCap)) .capacityExceeded len
  check (!(decide (len = 0) && decide (pad ≠ 0))) .formatError 4
  check (!(decide (s.ctab.ctabN.toNat = 0) && decide (len ≠ 0))) .formatError 9
  let size := 11 + (s.ctab.codes.map fun c => 2 + ceilDiv8 c.2.length).sum + len
  check (decide (size ≤ s.caps.outCap)) .capacityExceeded size
  let body ← readPayload s len
  return headerBytes tag (BitVec.ofNat 8 pad) len ++ be16 s.ctab.ctabN.toNat ++ tableBytes s.ctab.codes ++ body

/-- The rule of SERIALIZE.HUF (R266), TAG 1. -/
def serializeHufRule (s : State) : Ending :=
  Ending.ofRun 0x0C s (serializeTableRun 0x01 s) fun a => storeArtifact s 0x01 a

/-- The rule of SERIALIZE.SF (R266), TAG 2. -/
def serializeSfRule (s : State) : Ending :=
  Ending.ofRun 0x0C s (serializeTableRun 0x02 s) fun a => storeArtifact s 0x02 a

/-- SERIALIZE.HUF (word 0x0000010C). -/
def execSerializeHuf (s : State) : Host.Outcome State Fault Refusal := complete 0x0C (serializeHufRule s)

/-- SERIALIZE.SF (word 0x0000020C). -/
def execSerializeSf (s : State) : Host.Outcome State Fault Refusal := complete 0x0C (serializeSfRule s)

/-- Codes as the payload of R264: four bytes each, big-endian. -/
def codeListBytes : List Word → List Byte
  | [] => []
  | w :: ws => be32 w.toNat ++ codeListBytes ws

/-- The computation of SERIALIZE.LZW (R267): the artifact. -/
def serializeLzwRun (s : State) : Run (List Byte) := do
  let m := s.codes.len.toNat
  check (decide (m ≤ s.caps.codesCap)) .capacityExceeded m
  let size := 9 + 4 * m
  check (decide (size ≤ s.caps.outCap)) .capacityExceeded size
  let codes ← readCodes s 0 m
  return headerBytes 0x03 0 (4 * m) ++ codeListBytes codes

/-- The rule of SERIALIZE.LZW (R267), TAG 3. -/
def serializeLzwRule (s : State) : Ending :=
  Ending.ofRun 0x0C s (serializeLzwRun s) fun a => storeArtifact s 0x03 a

/-- SERIALIZE.LZW (word 0x0000030C). -/
def execSerializeLzw (s : State) : Host.Outcome State Fault Refusal := complete 0x0C (serializeLzwRule s)

/-- No earlier code is a prefix of `c` or has `c` as a prefix (R270, R271 check 21). -/
def prefixFreeWith (t : Memory BitString) (c : BitString) : Bool :=
  t.all fun e => !(e.2.isPrefixOf c) && !(c.isPrefixOf e.2)

/-- SYM is above the previous entry's SYM (R271 check 17). -/
def aboveLast (t : Memory BitString) (sym : Byte) : Bool :=
  match t.getLast? with
  | none => true
  | some e => decide (e.1 < sym.toNat)

/-- The entry loop of R270: `count` entries from offset `pos` on, `t` the table so far, `n` = IN_LEN. The result is the
table and the offset after it. -/
def parseEntries (s : State) (n : Nat) : Nat → Nat → Memory BitString → Run (Memory BitString × Nat)
  | 0, pos, t => .ok (t, pos)
  | count + 1, pos, t => do
    check (decide (pos + 2 ≤ n)) .formatError n
    let sym ← readIn s pos
    let len ← readIn s (pos + 1)
    check (aboveLast t sym) .formatError pos
    check (decide (len ≠ 0)) .formatError (pos + 1)
    let nb := ceilDiv8 len.toNat
    check (decide (pos + 2 + nb ≤ n)) .formatError n
    let bytes ← readInRange s (pos + 2) nb
    let code := (bitsOfBytes bytes).take len.toNat
    check (((bitsOfBytes bytes).drop len.toNat).all (!·)) .formatError (pos + 1 + nb)
    check (prefixFreeWith t code) .formatError pos
    parseEntries s n count (pos + 2 + nb) (t ++ [(sym.toNat, code)])

/-- The code list of a TAG 3 payload (R270): n big-endian words from offset `a` on. -/
def parseCodes (s : State) : Nat → Nat → Run (List Word)
  | _, 0 => .ok []
  | a, n + 1 => do
    let bytes ← readInRange s a 4
    let rest ← parseCodes s (a + 4) n
    return BitVec.ofNat 32 (beNat bytes) :: rest

/-- What DESERIALIZE does once every check has passed, for TAG 3 (R270). -/
def storeParsedCodes (s : State) (codes : List Word) : State :=
  { s with codes := Buffer.store s.codes codes codes.length, pad := 0, artKind := 0x03 }

/-- What DESERIALIZE does once every check has passed, for TAG 1 and 2 (R270). -/
def storeParsedTable (s : State) (tag : Byte) (pad : Nat) (t : Memory BitString) (body : List Byte) : State :=
  { s with
    ctab := ⟨t, BitVec.ofNat 32 t.length⟩
    payload := Buffer.store s.payload body body.length
    pad := BitVec.ofNat 3 pad
    artKind := tag }

/-- The header checks of R270 (R271 checks 1 to 9): TAG, PAD and L. -/
def parseHeader (s : State) : Run (Byte × Nat × Nat) := do
  let n := s.inp.len.toNat
  check (decide (n ≤ s.caps.inCap)) .capacityExceeded n
  check (decide (9 ≤ n)) .formatError n
  let b0 ← readIn s 0
  check (b0 == 0x44) .formatError 0
  let b1 ← readIn s 1
  check (b1 == 0x43) .formatError 1
  let b2 ← readIn s 2
  check (b2 == 0x01) .formatError 2
  let tag ← readIn s 3
  check (tag == 0x01 || tag == 0x02 || tag == 0x03) .formatError 3
  let p ← readIn s 4
  check (decide (p.toNat ≤ 7)) .formatError 4
  check (!(tag == 0x03 && decide (p.toNat ≠ 0))) .formatError 4
  let lenBytes ← readInRange s 5 4
  let len := beNat lenBytes
  check (!(decide (len = 0) && decide (p.toNat ≠ 0))) .formatError 4
  return (tag, p.toNat, len)

/-- The TAG 3 part of R270 (R271 checks 10 to 13). -/
def parseCodeList (s : State) (len : Nat) : Run (List Word) := do
  let n := s.inp.len.toNat
  check (decide (len % 4 = 0)) .formatError 5
  check (decide (9 + len ≤ n)) .formatError n
  check (decide (n ≤ 9 + len)) .formatError (9 + len)
  check (decide (len / 4 ≤ s.caps.codesCap)) .capacityExceeded (len / 4)
  parseCodes s 9 (len / 4)

/-- The TAG 1 and 2 part of R270 (R271 checks 14 to 25): the table and the payload. -/
def parseTable (s : State) (len : Nat) : Run (Memory BitString × List Byte) := do
  let n := s.inp.len.toNat
  check (decide (11 ≤ n)) .formatError n
  let countBytes ← readInRange s 9 2
  let count := beNat countBytes
  check (decide (count ≤ 256)) .formatError 9
  let r ← parseEntries s n count 11 []
  let pos := r.2
  check (!(decide (count = 0) && decide (len ≠ 0))) .formatError 9
  check (decide (pos + len ≤ n)) .formatError n
  check (decide (n ≤ pos + len)) .formatError (pos + len)
  check (decide (len ≤ s.caps.payloadCap)) .capacityExceeded len
  let body ← readInRange s pos len
  return (r.1, body)

/-- The rule of DESERIALIZE (R270), as the state it leaves: every check precedes every write. -/
def deserializeRun (s : State) : Run State := do
  let h ← parseHeader s
  if h.1 = 0x03 then
    let codes ← parseCodeList s h.2.2
    return storeParsedCodes s codes
  else
    let r ← parseTable s h.2.2
    return storeParsedTable s h.1 h.2.1 r.1 r.2

/-- The rule of DESERIALIZE (R270). -/
def deserializeRule (s : State) : Ending := Ending.ofRun 0x0D s (deserializeRun s) id

/-- DESERIALIZE (word 0x0000000D). -/
def execDeserialize (s : State) : Host.Outcome State Fault Refusal := complete 0x0D (deserializeRule s)

end Sys2Proof.Machine
end

