-- ==== Sys2Proof/Machine/Frequency.lean ====
section
/-! DEFINITION. ANALYZE and RANK (41_frequency.md). -/

namespace Sys2Proof.Machine

/-- One symbol of the pass (R150): the first occurrence sets FIRST, every occurrence raises FREQ. -/
def countSymbol (t : Memory FreqEntry) (i : Nat) (sym : Byte) : Memory FreqEntry :=
  match Memory.get t sym.toNat with
  | none => Memory.write t sym.toNat [⟨1, i⟩]
  | some e => Memory.write t sym.toNat [⟨e.count + 1, e.first⟩]

/-- The pass over the input in order, from index `i` on (R150). -/
def countSymbols (t : Memory FreqEntry) : Nat → List Byte → Memory FreqEntry
  | _, [] => t
  | i, sym :: rest => countSymbols (countSymbol t i sym) (i + 1) rest

/-- ANALYZE's computation (R150): the frequency table of the input. -/
def analyzeRun (s : State) : Run (Memory FreqEntry) := do
  let n := s.inp.len.toNat
  check (decide (n ≤ s.caps.inCap)) .capacityExceeded n
  let text ← readInRange s 0 n
  return countSymbols [] 0 text

/-- The rule of ANALYZE (R150): FREQ, FIRST, NSYM, SYM_TOTAL. -/
def analyzeRule (s : State) : Ending :=
  Ending.ofRun 0x03 s (analyzeRun s) fun t =>
    { s with freq := ⟨t, BitVec.ofNat 32 t.length, s.inp.len⟩ }

/-- ANALYZE (word 0x00000003). -/
def execAnalyze (s : State) : Host.Outcome State Fault Refusal := complete 0x03 (analyzeRule s)

/-- Insertion into a list sorted by `before`. -/
def insertSorted {α : Type} (before : α → α → Bool) (x : α) : List α → List α
  | [] => [x]
  | y :: ys => if before x y then x :: y :: ys else y :: insertSorted before x ys

/-- A list sorted by `before`. -/
def sortBy {α : Type} (before : α → α → Bool) : List α → List α
  | [] => []
  | x :: xs => insertSorted before x (sortBy before xs)

/-- The ranked order (R153): count descending, then first occurrence ascending. -/
def ranksBefore (a b : Nat × FreqEntry) : Bool :=
  decide (b.2.count < a.2.count) || (a.2.count == b.2.count && decide (a.2.first ≤ b.2.first))

/-- The ranked list of a frequency table (R153). -/
def rankedList (t : Memory FreqEntry) : List RankEntry :=
  (sortBy ranksBefore t).map fun e => ⟨BitVec.ofNat 8 e.1, e.2.count⟩

/-- The rule of RANK (R153): RANKED, RANK_N. -/
def rankRule (s : State) : Ending :=
  .done { s with rank := ⟨rankedList s.freq.table, BitVec.ofNat 32 (rankedList s.freq.table).length⟩ }

/-- RANK (word 0x00000004). -/
def execRank (s : State) : Host.Outcome State Fault Refusal := complete 0x04 (rankRule s)

end Sys2Proof.Machine
end

