-- ==== Sys2Proof/Machine/Huffman.lean ====
section
/-! DEFINITION. HUFF_BUILD and HUFF_CODES (42_huffman.md sections 1 and 2). -/

namespace Sys2Proof.Machine

/-- A queue entry: the key (weight, arena index) of 42_huffman R174. -/
abbrev QueueKey := Nat × Nat

/-- The lexicographic order of the keys (R174). -/
def keyBefore (a b : QueueKey) : Bool := decide (a.1 < b.1) || (a.1 == b.1 && decide (a.2 ≤ b.2))

/-- The order of leaf creation (R172): ascending first occurrence. -/
def firstBefore (a b : Nat × FreqEntry) : Bool := decide (a.2.first ≤ b.2.first)

/-- The leaves of a frequency table, in creation order (R172). -/
def leavesOf (t : Memory FreqEntry) : List Node :=
  (sortBy firstBefore t).map fun e => .leaf (BitVec.ofNat 8 e.1) e.2.count

/-- The weight of a node (R171). -/
def Node.weight : Node → Nat
  | .leaf _ w => w
  | .internal w _ _ => w

/-- The queue of the nodes from arena index `i` on, inserted in creation order (R173, R174). -/
def queueFrom : Nat → List Node → List QueueKey
  | _, [] => []
  | i, n :: ns => insertSorted keyBefore (n.weight, i) (queueFrom (i + 1) ns)

/-- The merge loop (R175, R176): while two nodes are left, remove the two least, make the first the left child and the
second the right child of a new node, and insert it. Each round shortens the queue by one, so `fuel` rounds are enough
when the queue holds at most `fuel` + 1 nodes. The result is the arena and the queue that is left. -/
def mergeLoop : Nat → List Node → List QueueKey → List Node × List QueueKey
  | 0, nodes, q => (nodes, q)
  | _ + 1, nodes, [] => (nodes, [])
  | _ + 1, nodes, [k] => (nodes, [k])
  | fuel + 1, nodes, a :: b :: q =>
    mergeLoop fuel (nodes ++ [.internal (a.1 + b.1) a.2 b.2])
      (insertSorted keyBefore (a.1 + b.1, nodes.length) q)

/-- The arena and the root of a frequency table (R176). -/
def buildTree (t : Memory FreqEntry) : List Node × Option Nat :=
  let leaves := leavesOf t
  let r := mergeLoop leaves.length leaves (queueFrom 0 leaves)
  (r.1, (r.2.head?).map Prod.snd)

/-- The rule of HUFF_BUILD (R176): NODE, NNODES, ROOT. -/
def huffBuildRule (s : State) : Ending :=
  let t := buildTree s.freq.table
  .done { s with tree := ⟨t.1, BitVec.ofNat 32 t.1.length, t.2⟩ }

/-- HUFF_BUILD (word 0x00000005). -/
def execHuffBuild (s : State) : Host.Outcome State Fault Refusal := complete 0x05 (huffBuildRule s)

/-- The leaves under node `i` with their paths, left to right (R180, R183): `p` is the path to `i`. A child has a
smaller index than its parent (R177), so `fuel` = number of nodes reaches every leaf (log entry 14). -/
def leafPaths (nodes : List Node) : Nat → Nat → BitString → List (Byte × BitString)
  | 0, _, _ => []
  | fuel + 1, i, p =>
    match nodes[i]? with
    | none => []
    | some (.leaf sym _) => [(sym, p)]
    | some (.internal _ l r) => leafPaths nodes fuel l (p ++ [false]) ++ leafPaths nodes fuel r (p ++ [true])

/-- A code table from (symbol, code) pairs, assigned in order; it starts empty (R180, 43_shannon_fano R215). -/
def assignCodes (pairs : List (Byte × BitString)) : Memory BitString :=
  pairs.foldl (fun t e => Memory.write t e.1.toNat [e.2]) []

/-- The (symbol, code) pairs of a tree: none for ROOT = NONE; the code "0" for a root that is a leaf (R181); the paths
otherwise (R180). -/
def treeCodes (t : TreeArena) : List (Byte × BitString) :=
  match t.root with
  | none => []
  | some r =>
    match t.nodes[r]? with
    | none => []
    | some (.leaf sym _) => [(sym, [false])]
    | some (.internal _ _ _) => leafPaths t.nodes t.nodes.length r []

/-- CTAB and CTAB_N from the assigned pairs (R180, 43_shannon_fano R215). -/
def storeCodeTable (s : State) (pairs : List (Byte × BitString)) : State :=
  { s with ctab := ⟨assignCodes pairs, BitVec.ofNat 32 pairs.length⟩ }

/-- The rule of HUFF_CODES (R180): CTAB, CTAB_N. -/
def huffCodesRule (s : State) : Ending := .done (storeCodeTable s (treeCodes s.tree))

/-- HUFF_CODES (word 0x00000006). -/
def execHuffCodes (s : State) : Host.Outcome State Fault Refusal := complete 0x06 (huffCodesRule s)

end Sys2Proof.Machine
end

