-- ==== Sys2Proof/Machine/ShannonFano.lean ====
section
/-! DEFINITION. SF_CODES (43_shannon_fano.md). -/

namespace Sys2Proof.Machine

/-- |2S - T|, the difference of the two parts (R211). -/
def splitDiff (total sum : Nat) : Nat := if 2 * sum ≤ total then total - 2 * sum else 2 * sum - total

/-- The scan of R211 from index `i` on: `sum` is the sum of the first i - 1 counts, the list holds c_(i-1) to c_(n-2);
a difference that is not strictly better stops it (R212). -/
def splitScan (total : Nat) : Nat → Nat → Nat → Nat → List Nat → Nat
  | bestK, _, _, _, [] => bestK
  | bestK, bestD, i, sum, c :: cs =>
    let sum' := sum + c
    let d := splitDiff total sum'
    if d < bestD then splitScan total i d (i + 1) sum' cs else bestK

/-- splitPoint (R211) of at least two counts. -/
def splitPoint (counts : List Nat) : Nat :=
  let total := counts.sum
  let c0 := counts.headD 0
  splitScan total 1 (splitDiff total c0) 2 c0 counts.tail.dropLast

/-- buildCodes (R214, R215): one entry gets the prefix; a longer list is split. Both parts are shorter than the list,
so `fuel` = its length is enough. -/
def buildCodes : Nat → List RankEntry → BitString → List (Byte × BitString)
  | 0, _, _ => []
  | _ + 1, [], _ => []
  | _ + 1, [e], p => [(e.sym, p)]
  | fuel + 1, es@(_ :: _ :: _), p =>
    let k := splitPoint (es.map RankEntry.count)
    buildCodes fuel (es.take k) (p ++ [false]) ++ buildCodes fuel (es.drop k) (p ++ [true])

/-- The (symbol, code) pairs of SF_CODES (R215): the single symbol gets "0". -/
def rankCodes (es : List RankEntry) : List (Byte × BitString) :=
  match es with
  | [e] => [(e.sym, [false])]
  | [] => []
  | es@(_ :: _ :: _) => buildCodes es.length es []

/-- The rule of SF_CODES (R215): CTAB, CTAB_N, from RANKED[0:RANK_N]. -/
def sfCodesRule (s : State) : Ending :=
  .done (storeCodeTable s (rankCodes (s.rank.entries.take s.rank.rankN.toNat)))

/-- SF_CODES (word 0x00000007). -/
def execSfCodes (s : State) : Host.Outcome State Fault Refusal := complete 0x07 (sfCodesRule s)

end Sys2Proof.Machine
end

