-- ==== Sys2Proof/Machine/TopLevel.lean ====
section
/-! DEFINITION. NOP and the composite commands (46_top_level.md). A composite runs the rules of its component commands
in order inside one completion (R301). -/

namespace Sys2Proof.Machine

/-- The rule of NOP (R300): no data state changes. -/
def nopRule (s : State) : Ending := .done s

/-- NOP (word 0x00000000). -/
def execNop (s : State) : Host.Outcome State Fault Refusal := complete 0x00 (nopRule s)

/-- COMPRESS's own checks (R302), with SUB = 0x10. -/
def compressChecks (s : State) : Run Unit := do
  let n := s.inp.len.toNat
  check (decide (n ≤ s.caps.inCap)) .capacityExceeded n
  check (decide (n ≠ 0)) .emptyInput 0

/-- The start of a COMPRESS (R302). -/
def compressStart (s : State) : Ending := Ending.ofRun 0x10 s (compressChecks s) fun _ => s

/-- ORIG_SIZE and COMP_SIZE after a COMPRESS whose steps all succeeded (R311). -/
def storeCompressSizes (s : State) : Ending := .done { s with sizes := ⟨s.inp.len, s.out.len⟩ }

/-- ORIG_SIZE and COMP_SIZE after a DECOMPRESS whose steps all succeeded (R311). -/
def storeDecompressSizes (s : State) : Ending := .done { s with sizes := ⟨s.out.len, s.inp.len⟩ }

/-- The rule of COMPRESS.HUF (R302). -/
def compressHufRule (s : State) : Ending :=
  (compressStart s)
    |>.andThen analyzeRule
    |>.andThen huffBuildRule
    |>.andThen huffCodesRule
    |>.andThen encodeRule
    |>.andThen packRule
    |>.andThen serializeHufRule
    |>.andThen storeCompressSizes

/-- COMPRESS.HUF (word 0x00000110). -/
def execCompressHuf (s : State) : Host.Outcome State Fault Refusal := complete 0x10 (compressHufRule s)

/-- The rule of COMPRESS.SF (R302). -/
def compressSfRule (s : State) : Ending :=
  (compressStart s)
    |>.andThen analyzeRule
    |>.andThen rankRule
    |>.andThen sfCodesRule
    |>.andThen encodeRule
    |>.andThen packRule
    |>.andThen serializeSfRule
    |>.andThen storeCompressSizes

/-- COMPRESS.SF (word 0x00000210). -/
def execCompressSf (s : State) : Host.Outcome State Fault Refusal := complete 0x10 (compressSfRule s)

/-- The rule of COMPRESS.LZW (R302). -/
def compressLzwRule (s : State) : Ending :=
  (compressStart s)
    |>.andThen lzwCompressRule
    |>.andThen serializeLzwRule
    |>.andThen storeCompressSizes

/-- COMPRESS.LZW (word 0x00000310). -/
def execCompressLzw (s : State) : Host.Outcome State Fault Refusal := complete 0x10 (compressLzwRule s)

/-- The steps of DECOMPRESS after DESERIALIZE, by the ART_KIND it set (R305): 3 is LZW, 1 and 2 are decoded alike. -/
def decompressTail (s : State) : Ending :=
  if s.artKind = 0x03 then lzwDecompressRule s
  else (unpackRule s).andThen decodeRule

/-- The rule of DECOMPRESS (R305). -/
def decompressRule (s : State) : Ending :=
  (deserializeRule s)
    |>.andThen decompressTail
    |>.andThen storeDecompressSizes

/-- DECOMPRESS (word 0x00000011). -/
def execDecompress (s : State) : Host.Outcome State Fault Refusal := complete 0x11 (decompressRule s)

end Sys2Proof.Machine
end

