-- ==== Sys2Proof/Machine/Dispatch.lean ====
section
/-! DEFINITION. One arm per command: its meaning, the whole completion step of the command (60_exceptions R341). -/

namespace Sys2Proof.Machine

def exec (i : Instr) (s : State) : Host.Outcome State Fault Refusal :=
  match i with
  | .nop => Sys2Proof.Machine.execNop s
  | .pack => Sys2Proof.Machine.execPack s
  | .unpack => Sys2Proof.Machine.execUnpack s
  | .analyze => Sys2Proof.Machine.execAnalyze s
  | .rank => Sys2Proof.Machine.execRank s
  | .huffBuild => Sys2Proof.Machine.execHuffBuild s
  | .huffCodes => Sys2Proof.Machine.execHuffCodes s
  | .sfCodes => Sys2Proof.Machine.execSfCodes s
  | .encode => Sys2Proof.Machine.execEncode s
  | .decode => Sys2Proof.Machine.execDecode s
  | .lzwCompress => Sys2Proof.Machine.execLzwCompress s
  | .lzwDecompress => Sys2Proof.Machine.execLzwDecompress s
  | .serializeHuf => Sys2Proof.Machine.execSerializeHuf s
  | .serializeSf => Sys2Proof.Machine.execSerializeSf s
  | .serializeLzw => Sys2Proof.Machine.execSerializeLzw s
  | .deserialize => Sys2Proof.Machine.execDeserialize s
  | .compressHuf => Sys2Proof.Machine.execCompressHuf s
  | .compressSf => Sys2Proof.Machine.execCompressSf s
  | .compressLzw => Sys2Proof.Machine.execCompressLzw s
  | .decompress => Sys2Proof.Machine.execDecompress s

end Sys2Proof.Machine
end

