-- ==== Sys2Proof/Machine/Bus.lean ====
section
/-! DEFINITION. The host bus (20_memory.md): what each space reads as, which accesses get BUS_ERROR, and what a write
does. -/

namespace Sys2Proof.Machine

/-- The register at an offset of space 0 (10_state R22); none for a reserved offset (R39). -/
def csrAt : Nat → Option CsrName
  | 0x00 => some .id
  | 0x04 => some .cmd
  | 0x08 => some .ctrl
  | 0x0C => some .status
  | 0x10 => some .error
  | 0x14 => some .errInfo
  | 0x18 => some .inLen
  | 0x1C => some .outLen
  | 0x20 => some .bitsLen
  | 0x24 => some .pad
  | 0x28 => some .payloadLen
  | 0x2C => some .codesLen
  | 0x30 => some .nsym
  | 0x34 => some .symTotal
  | 0x38 => some .rankN
  | 0x3C => some .nnodes
  | 0x40 => some .root
  | 0x44 => some .ctabN
  | 0x48 => some .nextCode
  | 0x4C => some .artKind
  | 0x50 => some .origSize
  | 0x54 => some .compSize
  | 0x58 => some .inCapR
  | 0x5C => some .outCapR
  | 0x60 => some .bitsCapR
  | 0x64 => some .payloadCapR
  | 0x68 => some .codesCapR
  | 0x6C => some .dictCapR
  | _ => none

/-- An optional index as a word: NONE = 0xFFFFFFFF (10_state R36, R46). -/
def indexWord : Option Nat → Word
  | some i => BitVec.ofNat 32 i
  | none => noneWord

/-- What a register reads as (10_state R23 to R38). -/
def csrRead (s : State) : CsrName → Word
  | .id => idValue
  | .cmd => s.ctl.cmd
  | .ctrl => ctrlWord s.ctl
  | .status => statusWord s.ctl
  | .error => errorWord s.ctl.error
  | .errInfo => s.ctl.errInfo
  | .inLen => s.inp.len
  | .outLen => s.out.len
  | .bitsLen => s.bits.len
  | .pad => s.pad.setWidth 32
  | .payloadLen => s.payload.len
  | .codesLen => s.codes.len
  | .nsym => s.freq.nsym
  | .symTotal => s.freq.symTotal
  | .rankN => s.rank.rankN
  | .nnodes => s.tree.nnodes
  | .root => indexWord s.tree.root
  | .ctabN => s.ctab.ctabN
  | .nextCode => s.dict.nextCode
  | .artKind => s.artKind.setWidth 32
  | .origSize => s.sizes.orig
  | .compSize => s.sizes.comp
  | .inCapR => BitVec.ofNat 32 s.caps.inCap
  | .outCapR => BitVec.ofNat 32 s.caps.outCap
  | .bitsCapR => BitVec.ofNat 32 s.caps.bitsCap
  | .payloadCapR => BitVec.ofNat 32 s.caps.payloadCap
  | .codesCapR => BitVec.ofNat 32 s.caps.codesCap
  | .dictCapR => BitVec.ofNat 32 s.caps.dictCap

/-- The W1C write to STATUS while idle (10_state R26): bit 1 clears DONE, bit 3 clears WBUSY. -/
def clearStatus (v : Word) (s : State) : State :=
  { s with ctl := { s.ctl with done := s.ctl.done && !v.getLsbD 1, wbusy := s.ctl.wbusy && !v.getLsbD 3 } }

/-- A write to a register while idle (10_state R22 to R38). A write to an RO register has no effect. -/
def csrWrite (s : State) (r : CsrName) (v : Word) : State :=
  match r with
  | .cmd => accept v s
  | .ctrl => { s with ctl := { s.ctl with ie := v.getLsbD 0 } }
  | .status => clearStatus v s
  | .inLen => { s with inp := { s.inp with len := v } }
  | .bitsLen => { s with bits := { s.bits with len := v } }
  | .pad => { s with pad := v.setWidth 3 }
  | .payloadLen => { s with payload := { s.payload with len := v } }
  | .codesLen => { s with codes := { s.codes with len := v } }
  | .id => s
  | .error => s
  | .errInfo => s
  | .outLen => s
  | .nsym => s
  | .symTotal => s
  | .rankN => s
  | .nnodes => s
  | .root => s
  | .ctabN => s
  | .nextCode => s
  | .artKind => s
  | .origSize => s
  | .compSize => s
  | .inCapR => s
  | .outCapR => s
  | .bitsCapR => s
  | .payloadCapR => s
  | .codesCapR => s
  | .dictCapR => s

/-- The unit of a space (20_memory R71); none above space 10. -/
def spaceWidth : Nat → Option Width
  | 0 => some .w32
  | 1 => some .w8
  | 2 => some .w8
  | 3 => some .w8
  | 4 => some .w8
  | 5 => some .w32
  | 6 => some .w32
  | 7 => some .w32
  | 8 => some .w32
  | 9 => some .w32
  | 10 => some .w32
  | _ => none

/-- The spaces that can be written (20_memory R73, R74): 0, 1, 3, 4, 5. -/
def spaceWritable : Nat → Bool
  | 0 => true
  | 1 => true
  | 3 => true
  | 4 => true
  | 5 => true
  | _ => false

/-- The bound below which the offsets of a space are valid (20_memory R71, R76). -/
def spaceBound (s : State) : Nat → Nat
  | 0 => 0x70
  | 1 => s.caps.inCap
  | 2 => s.out.len.toNat
  | 3 => ceilDiv8 s.caps.bitsCap
  | 4 => s.caps.payloadCap
  | 5 => 4 * s.caps.codesCap
  | 6 => 0x800
  | 7 => 8 * s.rank.rankN.toNat
  | 8 => 16 * s.tree.nnodes.toNat
  | 9 => 0x4000
  | 10 => 8 * s.dict.nextCode.toNat
  | _ => 0

/-- The conditions (a) to (e) of 20_memory R75. -/
def badAccess (s : State) (t : Txn) : Bool :=
  spaceWidth t.space != some t.width ||
  (t.width == .w32 && decide (t.off.toNat % 4 ≠ 0)) ||
  decide (spaceBound s t.space ≤ t.off.toNat) ||
  (t.op == .write && !spaceWritable t.space)

/-- The condition (f) of 20_memory R75 (70_reset R381). -/
def busyRefused (s : State) (t : Txn) : Bool := s.ctl.busy && t.space != 0

/-- A byte of storage as the Host reads it: any value where nothing has written it (93 U1, U2; log entry 4). -/
def hostByte (s : State) (space : Nat) (m : Memory Byte) (off : Nat) : Byte :=
  (Memory.get m off).getD (Config.unwrittenByte s.resetCount space off)

/-- Word w of the FREQ window (20_memory R78). -/
def freqWindow (s : State) (w : Nat) : Word :=
  if w % 2 = 0 then BitVec.ofNat 32 (freqOf s.freq (w / 2)) else indexWord (firstOf s.freq (w / 2))

/-- Word w of the RANKED window (20_memory R79). -/
def rankWindow (s : State) (w : Nat) : Word :=
  match s.rank.entries[w / 2]? with
  | some e => if w % 2 = 0 then e.sym.setWidth 32 else BitVec.ofNat 32 e.count
  | none => 0

/-- The four words of a node (20_memory R80). -/
def nodeWord : Node → Nat → Word
  | .leaf sym _, 0 => sym.setWidth 32
  | .leaf _ weight, 1 => BitVec.ofNat 32 weight
  | .leaf _ _, _ => noneWord
  | .internal _ _ _, 0 => 0x80000000
  | .internal weight _ _, 1 => BitVec.ofNat 32 weight
  | .internal _ left _, 2 => BitVec.ofNat 32 left
  | .internal _ _ right, _ => BitVec.ofNat 32 right

/-- Word w of the NODE window (20_memory R80). -/
def nodeWindow (s : State) (w : Nat) : Word :=
  match s.tree.nodes[w / 4]? with
  | some n => nodeWord n (w % 4)
  | none => 0

/-- Word w of the CTAB window (20_memory R81): the length, eight words of code bits, zeros. -/
def ctabWindow (s : State) (w : Nat) : Word :=
  let code := codeOf s.ctab (BitVec.ofNat 8 (w / 16))
  if w % 16 = 0 then BitVec.ofNat 32 code.length
  else if w % 16 ≤ 8 then wordOfBits (code.drop (32 * (w % 16 - 1)))
  else 0

/-- Word w of the DICT window (20_memory R82): (NONE, k) for the seed, (parent, byte) for an entry. -/
def dictWindow (s : State) (w : Nat) : Word :=
  let k := w / 2
  if k < 256 then
    if w % 2 = 0 then noneWord else BitVec.ofNat 32 k
  else match s.dict.entries[k - 256]? with
    | some e => if w % 2 = 0 then BitVec.ofNat 32 e.parent else e.byte.setWidth 32
    | none => 0

/-- Word j of the CODES window (20_memory R77): any value where nothing has written it (93 U2, U3). -/
def codesWindow (s : State) (j : Nat) : Word := (codeAt s j).getD (Config.unwrittenWord s.resetCount j)

/-- What a valid read returns (20_memory R72 to R74, R77 to R82). -/
def busRead (s : State) (space off : Nat) : Word :=
  match space with
  | 0 => match csrAt off with
    | some r => csrRead s r
    | none => 0
  | 1 => (hostByte s 1 s.inp.mem off).setWidth 32
  | 2 => (hostByte s 2 s.out.mem off).setWidth 32
  | 3 => (hostByte s 3 s.bits.mem off).setWidth 32
  | 4 => (hostByte s 4 s.payload.mem off).setWidth 32
  | 5 => codesWindow s (off / 4)
  | 6 => freqWindow s (off / 4)
  | 7 => rankWindow s (off / 4)
  | 8 => nodeWindow s (off / 4)
  | 9 => ctabWindow s (off / 4)
  | 10 => dictWindow s (off / 4)
  | _ => 0

/-- What a valid write does while idle (20_memory R72 to R74). -/
def busWrite (s : State) (space off : Nat) (v : Word) : State :=
  match space with
  | 0 => match csrAt off with
    | some r => csrWrite s r v
    | none => s
  | 1 => { s with inp := { s.inp with mem := Memory.write s.inp.mem off [v.setWidth 8] } }
  | 3 => { s with bits := { s.bits with mem := Memory.write s.bits.mem off [v.setWidth 8] } }
  | 4 => { s with payload := { s.payload with mem := Memory.write s.payload.mem off [v.setWidth 8] } }
  | 5 => { s with codes := { s.codes with mem := Memory.write s.codes.mem (off / 4) [v] } }
  | _ => s

/-- One bus transaction (20_memory R70): the response and the state after it. A refused access changes nothing but
WBUSY in case (f) of R75; a CSR write while busy is ignored and sets WBUSY (70_reset R380). -/
def busAccess (t : Txn) (s : State) : Response × State :=
  if busyRefused s t then (.busError, setWbusy s)
  else if badAccess s t then (.busError, s)
  else match t.op with
    | .read => (.okData (busRead s t.space t.off.toNat), s)
    | .write =>
      if s.ctl.busy then (.ok, setWbusy s)
      else (.ok, busWrite s t.space t.off.toNat t.data)

/-- MemRead(space, off, n) for the widths of the bus (20_memory R70). -/
def memRead (space : Nat) (off : Word) (width : Width) (s : State) : Response × State :=
  busAccess ⟨.read, space, off, width, 0⟩ s

/-- MemWrite(space, off, n, v) for the widths of the bus (20_memory R70). -/
def memWrite (space : Nat) (off : Word) (width : Width) (v : Word) (s : State) : Response × State :=
  busAccess ⟨.write, space, off, width, v⟩ s

/-- The platform address of an offset of a space (20_memory R87, 92 D4: BLOCK_BASE is open). -/
def platformAddress (space : Nat) (off : Word) : Nat := Config.blockBase space + off.toNat

/-- The interrupt line the block drives and its level (60_exceptions R345, 92 D22: IRQ_LINE is open). -/
def interruptOutput (s : State) : Nat × Bool := (Config.irqLine, irq s.ctl)

end Sys2Proof.Machine
end

