-- ==== Sys2Proof/Machine/HostStep.lean ====
section
/-! DEFINITION. The Host agent's turn: one statement of its program (30_encoding R111, R112). -/

namespace Sys2Proof.Machine

/-- The Host goes on at a line. -/
def hostGoto (s : State) (pos : Nat) : State := { s with host := { s.host with pos := pos } }

/-- The Host has received a response and goes on at the next line. -/
def hostReceived (s : State) (r : Response) : State :=
  { s with host := { s.host with pos := s.host.pos + 1, resp := some r } }

/-- What a read leaves in a Host variable: its data, or no data for BUS_ERROR (70_reset R383). -/
def Response.toVar : Response → HostVar
  | .okData v => .word v
  | .ok => .noData
  | .busError => .noData

/-- A Host variable gets a value. -/
def hostSetVar (s : State) (t : Fin 8) (v : HostVar) : State :=
  { s with host := { s.host with vars := s.host.vars.set t v } }

/-- The line a label marks (30_encoding R111). -/
def lineOf (p : HostProgram) (label : Nat) : Option Nat := p.findIdx? fun l => l.label == some label

/-- Continue at a label (R111, R112); a label the program does not have is a fault (log entry 12). -/
def hostJump (s : State) (label : Nat) : Host.Outcome State Fault Refusal :=
  match lineOf s.host.prog label with
  | some pos => .next (hostGoto s pos)
  | none => .fault (.hostLabelMissing label)

/-- A conditional jump on (tN AND mask) (R111). Testing a variable without data is a fault (93 U16). -/
def hostBranch (s : State) (t : Fin 8) (mask : Word) (onNonzero : Bool) (label : Nat) :
    Host.Outcome State Fault Refusal :=
  match s.host.vars[t] with
  | .noData => .fault (.hostUsesRefusedRead t)
  | .word v => if (v &&& mask != 0) == onNonzero then hostJump s label else .next (hostGoto s (s.host.pos + 1))

/-- One statement of the Host program (R111). -/
def hostStmt (s : State) (st : Stmt) : Host.Outcome State Fault Refusal :=
  match st with
  | .write space off width data =>
    let r := memWrite space off width data s
    .next (hostReceived r.2 r.1)
  | .read t space off width =>
    let r := memRead space off width s
    .next (hostSetVar (hostReceived r.2 r.1) t r.1.toVar)
  | .bnz t mask label => hostBranch s t mask true label
  | .bz t mask label => hostBranch s t mask false label
  | .jump label => hostJump s label
  | .halt => .next s

/-- The Host's turn: the statement at its position; a halted or finished Host does nothing. -/
def hostStep (s : State) : Host.Outcome State Fault Refusal :=
  match s.host.prog[s.host.pos]? with
  | some line => hostStmt s line.stmt
  | none => .next s

/-- What reset leaves of a Host transaction in progress (70_reset R370, 93 U4): it does not complete, its read data is
any value, and the Host goes on (log entry 13). -/
def hostCutOff (s : State) : State :=
  match s.host.prog[s.host.pos]? with
  | some ⟨_, .read t _ _ _⟩ =>
    hostSetVar { s with host := { s.host with pos := s.host.pos + 1, resp := none } } t
      (.word (Config.cutOffRead s.resetCount))
  | some ⟨_, .write _ _ _ _⟩ => { s with host := { s.host with pos := s.host.pos + 1, resp := none } }
  | _ => s

end Sys2Proof.Machine
end

