-- ==== Sys2Proof/Machine/Step.lean ====
section
/-! DEFINITION. One step of the machine: the turn that comes next (00_scope R10 to R12). -/

namespace Sys2Proof.Machine

/-- The Block's step (60_exceptions R341): it completes the latched command; an idle block does nothing (R357). -/
def blockStep (s : State) : Host.Outcome State Fault Refusal :=
  if s.ctl.busy then
    match decode s.ctl.cmd with
    | .ok i => exec i s
    | .error _ => .next (completeIllegal s)
  else .next s

/-- One step: the next turn of `turns`; without one, a busy block completes and otherwise the Host moves (log entry 1). -/
def step (s : State) : Host.Outcome State Fault Refusal :=
  match s.turns with
  | [] => if s.ctl.busy then blockStep s else hostStep s
  | .host :: ts => hostStep { s with turns := ts }
  | .block :: ts => blockStep { s with turns := ts }
  | .reset :: ts => .next (resetEvent { s with turns := ts })
  | .resetInAccess :: ts => .next (resetEvent (hostCutOff { s with turns := ts }))

/-- The state in which the very next step runs the command whose word is `w`: the word is accepted (60_exceptions R340)
and no other turn comes before its completion. -/
def State.withFetchWord (s : State) (nbits w : Nat) : State :=
  { accept (BitVec.ofNat 32 (w % 2 ^ nbits)) s with turns := [] }

end Sys2Proof.Machine
end

