-- ==== Sys2Proof/Machine/HostNotation.lean ====
section
/-! DEFINITION. The spelled forms of Host programs (30_encoding R111) and the expansions of the pseudo-instructions
(R113). A "fresh label" of R113 is an argument. DESIGN CHOICE (log entry 23): an index or a length that does not fit 32
bits, to which R111 and R113 give no meaning, is taken modulo 2^32. -/

namespace Sys2Proof.Machine

/-- The offset of a register (10_state R22). -/
def CsrName.offset : CsrName → Word
  | .id => 0x00
  | .cmd => 0x04
  | .ctrl => 0x08
  | .status => 0x0C
  | .error => 0x10
  | .errInfo => 0x14
  | .inLen => 0x18
  | .outLen => 0x1C
  | .bitsLen => 0x20
  | .pad => 0x24
  | .payloadLen => 0x28
  | .codesLen => 0x2C
  | .nsym => 0x30
  | .symTotal => 0x34
  | .rankN => 0x38
  | .nnodes => 0x3C
  | .root => 0x40
  | .ctabN => 0x44
  | .nextCode => 0x48
  | .artKind => 0x4C
  | .origSize => 0x50
  | .compSize => 0x54
  | .inCapR => 0x58
  | .outCapR => 0x5C
  | .bitsCapR => 0x60
  | .payloadCapR => 0x64
  | .codesCapR => 0x68
  | .dictCapR => 0x6C

/-- A statement on an unmarked line. -/
def plain (st : Stmt) : Line := ⟨none, st⟩

/-- A statement on the line a label marks. -/
def labelled (label : Nat) (st : Stmt) : Line := ⟨some label, st⟩

/-- `W csr.NAME, v`. -/
def wCsr (r : CsrName) (v : Word) : Stmt := .write 0 r.offset .w32 v

/-- The offset of byte `o` of a byte space. R111 gives the form no meaning where `o` does not fit the 32-bit offset of
20_memory R70; DESIGN CHOICE (log entry 23): it is taken modulo 2^32. -/
def byteOffset (o : Nat) : Word := BitVec.ofNat 32 o

/-- The offset 4w of word `w` of a word space (R111). Where 4w does not fit the 32-bit offset of 20_memory R70, R111 gives
the form no meaning; DESIGN CHOICE (log entry 23): it is taken modulo 2^32, so `dict[2^30]` reads word 0. -/
def wordOffset (w : Nat) : Word := BitVec.ofNat 32 (4 * w)

/-- `W in[o], b`. -/
def wIn (o : Nat) (b : Byte) : Stmt := .write 1 (byteOffset o) .w8 (b.setWidth 32)

/-- `W bits[o], b`. -/
def wBits (o : Nat) (b : Byte) : Stmt := .write 3 (byteOffset o) .w8 (b.setWidth 32)

/-- `W payload[o], b`. -/
def wPayload (o : Nat) (b : Byte) : Stmt := .write 4 (byteOffset o) .w8 (b.setWidth 32)

/-- `W codes[j], v`, at CODES offset 4j. -/
def wCodes (j : Nat) (v : Word) : Stmt := .write 5 (wordOffset j) .w32 v

/-- `R tN, csr.NAME`. -/
def rCsr (t : Fin 8) (r : CsrName) : Stmt := .read t 0 r.offset .w32

/-- `R tN, in[o]`. -/
def rIn (t : Fin 8) (o : Nat) : Stmt := .read t 1 (byteOffset o) .w8

/-- `R tN, out[o]`. -/
def rOut (t : Fin 8) (o : Nat) : Stmt := .read t 2 (byteOffset o) .w8

/-- `R tN, bits[o]`. -/
def rBits (t : Fin 8) (o : Nat) : Stmt := .read t 3 (byteOffset o) .w8

/-- `R tN, payload[o]`. -/
def rPayload (t : Fin 8) (o : Nat) : Stmt := .read t 4 (byteOffset o) .w8

/-- `R tN, codes[j]`, at offset 4j. -/
def rCodes (t : Fin 8) (j : Nat) : Stmt := .read t 5 (wordOffset j) .w32

/-- `R tN, freq[w]`: word number w, offset 4w. -/
def rFreq (t : Fin 8) (w : Nat) : Stmt := .read t 6 (wordOffset w) .w32

/-- `R tN, ranked[w]`. -/
def rRanked (t : Fin 8) (w : Nat) : Stmt := .read t 7 (wordOffset w) .w32

/-- `R tN, node[w]`. -/
def rNode (t : Fin 8) (w : Nat) : Stmt := .read t 8 (wordOffset w) .w32

/-- `R tN, ctab[w]`. -/
def rCtab (t : Fin 8) (w : Nat) : Stmt := .read t 9 (wordOffset w) .w32

/-- `R tN, dict[w]`. -/
def rDict (t : Fin 8) (w : Nat) : Stmt := .read t 10 (wordOffset w) .w32

/-- `CMD m` (R113). -/
def pCmd (m : Instr) : HostProgram := [plain (wCsr .cmd (encode m))]

/-- `WAIT` (R113): poll until BUSY = 0, at the fresh label. -/
def pWait (fresh : Nat) : HostProgram := [labelled fresh (rCsr 7 .status), plain (.bnz 7 0x1 fresh)]

/-- `RUN m` (R113). -/
def pRun (m : Instr) (fresh : Nat) : HostProgram := pCmd m ++ pWait fresh

/-- Byte writes from an offset on. -/
def writeBytes (w : Nat → Byte → Stmt) : Nat → List Byte → HostProgram
  | _, [] => []
  | o, b :: bs => plain (w o b) :: writeBytes w (o + 1) bs

/-- `LOAD "s"` (R113). A text of 2^32 bytes or more: its length modulo 2^32 (log entry 23). -/
def pLoad (text : List Byte) : HostProgram :=
  writeBytes wIn 0 text ++ [plain (wCsr .inLen (BitVec.ofNat 32 text.length))]

/-- `LOADBITS "b"` (R113): the layout of 10_state R43, padding bits 0. A string of 2^32 bits or more: its length
modulo 2^32 (log entry 23). -/
def pLoadBits (b : BitString) : HostProgram :=
  writeBytes wBits 0 (packBytes (ceilDiv8 b.length) b) ++ [plain (wCsr .bitsLen (BitVec.ofNat 32 b.length))]

/-- `CHECKOK` (R113): continue at `fail` if ERR = 1. -/
def pCheckOk (fail : Nat) : HostProgram := [plain (rCsr 6 .status), plain (.bnz 6 0x4 fail)]

end Sys2Proof.Machine
end

