-- ==== Sys2Proof/Machine/Report.lean ====
section
/-! DEFINITION. The report the Host builds from ORIG_SIZE and COMP_SIZE after a successful composite (46_top_level R312,
with the default RATIO_FORMAT of 93 U6). The text is the Host's, outside the block (00_scope R5). Log entry 19. -/

namespace Sys2Proof.Machine

/-- a / b rounded to an integer, ties to even. -/
def roundHalfEven (a b : Nat) : Nat :=
  let q := a / b
  if 2 * (a % b) < b then q
  else if b < 2 * (a % b) then q + 1
  else if q % 2 = 0 then q else q + 1

/-- The ratio in hundredths (R312): ORIG_SIZE / COMP_SIZE to two places, ties to even. -/
def ratioHundredths (z : Sizes) : Nat := roundHalfEven (100 * z.orig.toNat) z.comp.toNat

/-- The ratio's text (R312): the integer part, a point, exactly two digits. -/
def ratioText (z : Sizes) : String :=
  toString (ratioHundredths z / 100) ++ "." ++ toString (ratioHundredths z / 10 % 10) ++
    toString (ratioHundredths z % 10)

/-- The three lines of the report, each ended by a line feed (R312). -/
def reportText (z : Sizes) : String :=
  "Original file size: " ++ toString z.orig.toNat ++ " bytes\n" ++
  "Compressed file size: " ++ toString z.comp.toNat ++ " bytes\n" ++
  "Compression Ratio: " ++ ratioText z ++ "x\n"

end Sys2Proof.Machine
end

