-- ==== Sys2Proof/Safety.lean ====
section
/-! DEFINITION. The terms claims are stated in: what a buffer holds, the relations the spec gives its structures, the
invariant every reachable state meets, and what each command may write. -/

namespace Sys2Proof.Machine

/-! ## What the buffers hold -/

/-- IN[0:IN_LEN] is the text `x`, every byte of it written. -/
def inText (s : State) (x : List Byte) : Prop := s.inp.len.toNat = x.length ∧ Memory.holds s.inp.mem 0 x

/-- OUT[0:OUT_LEN] is the text `x`. -/
def outText (s : State) (x : List Byte) : Prop := s.out.len.toNat = x.length ∧ Memory.holds s.out.mem 0 x

/-- PAYLOAD[0:PAYLOAD_LEN] is the byte string `x`, every byte of it written. -/
def payloadText (s : State) (x : List Byte) : Prop :=
  s.payload.len.toNat = x.length ∧ Memory.holds s.payload.mem 0 x

/-- CODES[0:CODES_LEN] is the list `ws`, every word of it holding a value. -/
def codeList (s : State) (ws : List Word) : Prop :=
  s.codes.len.toNat = ws.length ∧ ∀ j, j < ws.length → codeAt s j = ws[j]?

/-- BITS[0:BITS_LEN] is the bit string `b` (10_state R43): its storage bytes are written, and bit i is bit
7 - (i mod 8) of byte floor(i/8). What the storage holds beyond the string is free. -/
def bitText (s : State) (b : BitString) : Prop :=
  s.bits.len.toNat = b.length ∧
  ∀ i, i < b.length → ∃ y, Memory.get s.bits.mem (i / 8) = some y ∧ b[i]? = some (y.getLsbD (7 - i % 8))

/-- The storage of a command's bit string (10_state R43): as `bitText`, and the bits up to the byte boundary are 0. -/
def bitTextZeroFilled (s : State) (b : BitString) : Prop :=
  bitText s b ∧
  ∀ i, b.length ≤ i → i < 8 * ceilDiv8 b.length →
    ∃ y, Memory.get s.bits.mem (i / 8) = some y ∧ y.getLsbD (7 - i % 8) = false

/-! ## The structures -/

/-- The codes of a table are pairwise prefix-free (10_state R50 (2) and (3)). -/
def prefixFree (t : Memory BitString) : Prop := ∀ a ∈ t, ∀ b ∈ t, a.1 ≠ b.1 → ¬ a.2 <+: b.2

/-- The code table's part of the invariant (10_state R49, R50). -/
structure CtabOk (t : CodeTable) : Prop where
  canon : Memory.wf t.codes
  symbols : Memory.below t.codes 256
  lengths : ∀ c ∈ t.codes, 1 ≤ c.2.length ∧ c.2.length ≤ 255
  free : prefixFree t.codes
  count : t.ctabN.toNat = t.codes.length

/-- The frequency table's part of the invariant (10_state R46, R35, 41_frequency R151). -/
structure FreqOk (t : FreqTable) : Prop where
  canon : Memory.wf t.table
  symbols : Memory.below t.table 256
  counts : ∀ e ∈ t.table, 1 ≤ e.2.count
  firsts : (t.table.map fun e => e.2.first).Nodup
  firstBound : ∀ e ∈ t.table, e.2.first < t.symTotal.toNat
  total : (t.table.map fun e => e.2.count).sum = t.symTotal.toNat
  number : t.nsym.toNat = t.table.length

/-- The ranked list's part of the invariant (10_state R47, 41_frequency R154). -/
structure RankOk (t : RankTable) : Prop where
  number : t.rankN.toNat = t.entries.length
  symbols : (t.entries.map RankEntry.sym).Nodup
  counts : ∀ e ∈ t.entries, 1 ≤ e.count
  order : t.entries.Pairwise fun a b => b.count ≤ a.count

/-- The node a path leads to from node `i`: 0 descends left, 1 right (42_huffman R180). -/
def descend (nodes : List Node) : Nat → BitString → Option Nat
  | i, [] => some i
  | i, b :: p =>
    match nodes[i]? with
    | some (.internal _ l r) => descend nodes (if b then r else l) p
    | some (.leaf _ _) => none
    | none => none

/-- The symbols of the leaves under the root, left to right. -/
def treeSymbols (t : TreeArena) : List Byte :=
  match t.root with
  | none => []
  | some r => (leafPaths t.nodes t.nodes.length r []).map Prod.fst

/-- The tree arena's part of the invariant (10_state R48, 42_huffman R171, R177): every internal node's children have
smaller indices and its weight is their sum, the root is the last node, and no symbol is owned by two leaves of the
tree. -/
structure TreeOk (t : TreeArena) : Prop where
  number : t.nnodes.toNat = t.nodes.length
  size : t.nodes.length ≤ 511
  rootLast : t.root = if t.nodes = [] then none else some (t.nodes.length - 1)
  children : ∀ i w l r : Nat, t.nodes[i]? = some (Node.internal w l r) → l < i ∧ r < i
  weights : ∀ i w l r : Nat, t.nodes[i]? = some (Node.internal w l r) →
    ∃ a b, t.nodes[l]? = some a ∧ t.nodes[r]? = some b ∧ w = a.weight + b.weight
  leaves : (treeSymbols t).Nodup

/-- The dictionary's part of the invariant (10_state R51): a parent is below its entry's own code. -/
structure DictOk (d : Dictionary) : Prop where
  next : d.nextCode.toNat = 256 + d.entries.length
  parents : ∀ i e, d.entries[i]? = some e → e.parent < 256 + i

/-- What a list of LZW codes says of the dictionary both sides build (44_lzw R233, R240): entry j is the code emitted at
j and the first byte of the next code's string. -/
def lzwDict (ws : List Nat) (d : List DictEntry) : Prop :=
  d.length = ws.length - 1 ∧
  ∀ j, j < d.length → ∃ k k', ws[j]? = some k ∧ ws[j + 1]? = some k' ∧
    d[j]? = some ⟨k, (stringOf d k').headD 0⟩

/-- A code list whose every code is known or next-free when it is read (44_lzw R241): the first is a seed code, code j
is at most NEXT_CODE = 255 + j. -/
def lzwResolvable (ws : List Nat) : Prop := ∀ j k, ws[j]? = some k → k ≤ 255 + j

/-- The greedy parse of a text (44_lzw R233, R235): its codes and the dictionary it builds. Code j is below 256 + j, the
strings of all codes are pairwise distinct (an insertion only happens when w+c is not known, so every code but the last is
the longest known match), and the codes spell the text. -/
def lzwParse (x : List Byte) (ws : List Nat) (d : List DictEntry) : Prop :=
  lzwDict ws d ∧ (∀ j w, ws[j]? = some w → w < 256 + j) ∧
  (∀ i j, i < 256 + d.length → j < 256 + d.length → i ≠ j → stringOf d i ≠ stringOf d j) ∧
  ws.flatMap (stringOf d) = x

/-! ## The invariant -/

/-- The control registers' part (10_state R26 to R28, 70_reset R380): while busy, DONE, ERROR and ERR_INFO are 0; with
CODE = 0, OPC, SUB and ERR_INFO are 0; code 1 never occurs (60_exceptions R333). -/
structure ControlOk (c : Control) : Prop where
  busy : c.busy = true → c.done = false ∧ c.error = noError ∧ c.errInfo = 0
  success : c.error.code = .none → c.error = noError ∧ c.errInfo = 0
  notFound : c.error.code ≠ .notFound

/-- The storage's part: canonical form, and no entry at or above the capacity (20_memory R94). OUT holds exactly the
bytes below OUT_LEN. -/
structure StorageOk (s : State) : Prop where
  inCanon : Memory.wf s.inp.mem
  inBound : Memory.below s.inp.mem s.caps.inCap
  bitsCanon : Memory.wf s.bits.mem
  bitsBound : Memory.below s.bits.mem (ceilDiv8 s.caps.bitsCap)
  payloadCanon : Memory.wf s.payload.mem
  payloadBound : Memory.below s.payload.mem s.caps.payloadCap
  codesCanon : Memory.wf s.codes.mem
  codesBound : Memory.below s.codes.mem s.caps.codesCap
  outExact : ∃ xs, s.out = outBuffer xs ∧ xs.length ≤ s.caps.outCap

/-- The invariant of the machine: it holds right after reset and every step keeps it. -/
structure Inv (s : State) : Prop where
  caps : s.caps.wf = true
  control : ControlOk s.ctl
  storage : StorageOk s
  freq : FreqOk s.freq
  rank : RankOk s.rank
  tree : TreeOk s.tree
  ctab : CtabOk s.ctab
  dict : DictOk s.dict
  kind : s.artKind.toNat ≤ 3
  sizes : s.sizes = ⟨0, 0⟩ ∨ 9 ≤ s.sizes.comp.toNat

/-! ## What a command may write -/

/-- The groups of state of 10_state R52. -/
inductive Part where
  | inp
  | freq
  | rank
  | tree
  | ctab
  | bits
  | payload
  | pad
  | codes
  | dict
  | out
  | artKind
  | sizes
  deriving DecidableEq, Repr

/-- Two states agree on a group of state. CODES includes what its unlisted words hold. -/
def Part.same (s t : State) : Part → Prop
  | .inp => t.inp = s.inp
  | .freq => t.freq = s.freq
  | .rank => t.rank = s.rank
  | .tree => t.tree = s.tree
  | .ctab => t.ctab = s.ctab
  | .bits => t.bits = s.bits
  | .payload => t.payload = s.payload
  | .pad => t.pad = s.pad
  | .codes => t.codes = s.codes ∧ t.scrubs = s.scrubs
  | .dict => t.dict = s.dict
  | .out => t.out = s.out
  | .artKind => t.artKind = s.artKind
  | .sizes => t.sizes = s.sizes

/-- The write set of each command (10_state R52 and the command rules); a composite's is the union of its steps'. -/
def writeSet : Instr → List Part
  | .nop => []
  | .pack => [.payload, .pad]
  | .unpack => [.bits]
  | .analyze => [.freq]
  | .rank => [.rank]
  | .huffBuild => [.tree]
  | .huffCodes => [.ctab]
  | .sfCodes => [.ctab]
  | .encode => [.bits]
  | .decode => [.out]
  | .lzwCompress => [.codes, .dict]
  | .lzwDecompress => [.out, .dict]
  | .serializeHuf => [.out, .artKind]
  | .serializeSf => [.out, .artKind]
  | .serializeLzw => [.out, .artKind]
  | .deserialize => [.ctab, .payload, .pad, .codes, .artKind]
  | .compressHuf => [.freq, .tree, .ctab, .bits, .payload, .pad, .out, .artKind, .sizes]
  | .compressSf => [.freq, .rank, .ctab, .bits, .payload, .pad, .out, .artKind, .sizes]
  | .compressLzw => [.codes, .dict, .out, .artKind, .sizes]
  | .decompress => [.ctab, .payload, .pad, .codes, .artKind, .bits, .out, .dict, .sizes]

/-- What no command writes at all: the command latch, CTRL, WBUSY, the capacities, the Host, the turns and the reset
counter (10_state R52: "Host only", "acceptance and completion"). -/
def sameFixed (s t : State) : Prop :=
  t.ctl.cmd = s.ctl.cmd ∧ t.ctl.ie = s.ctl.ie ∧ t.ctl.wbusy = s.ctl.wbusy ∧ t.caps = s.caps ∧ t.host = s.host ∧
  t.turns = s.turns ∧ t.resetCount = s.resetCount

/-- The opcodes ERROR.SUB can name when the command fails (46_top_level R303): its own, and for a composite its steps'
(R302, R305). -/
def stepOpcodes : Instr → List Byte
  | .compressHuf => [0x10, 0x03, 0x05, 0x06, 0x08, 0x01, 0x0C]
  | .compressSf => [0x10, 0x03, 0x04, 0x07, 0x08, 0x01, 0x0C]
  | .compressLzw => [0x10, 0x0A, 0x0C]
  | .decompress => [0x0D, 0x02, 0x09, 0x0B]
  | .nop => [0x00]
  | .pack => [0x01]
  | .unpack => [0x02]
  | .analyze => [0x03]
  | .rank => [0x04]
  | .huffBuild => [0x05]
  | .huffCodes => [0x06]
  | .sfCodes => [0x07]
  | .encode => [0x08]
  | .decode => [0x09]
  | .lzwCompress => [0x0A]
  | .lzwDecompress => [0x0B]
  | .serializeHuf => [0x0C]
  | .serializeSf => [0x0C]
  | .serializeLzw => [0x0C]
  | .deserialize => [0x0D]

/-- The component commands of a composite, in order (46_top_level R302); DECOMPRESS (R305) goes on by the ART_KIND its
first step sets, see `decompressSteps`. -/
def compressSteps : Instr → List Instr
  | .compressHuf => [.analyze, .huffBuild, .huffCodes, .encode, .pack, .serializeHuf]
  | .compressSf => [.analyze, .rank, .sfCodes, .encode, .pack, .serializeSf]
  | .compressLzw => [.lzwCompress, .serializeLzw]
  | .nop => []
  | .pack => []
  | .unpack => []
  | .analyze => []
  | .rank => []
  | .huffBuild => []
  | .huffCodes => []
  | .sfCodes => []
  | .encode => []
  | .decode => []
  | .lzwCompress => []
  | .lzwDecompress => []
  | .serializeHuf => []
  | .serializeSf => []
  | .serializeLzw => []
  | .deserialize => []
  | .decompress => []

/-- The component commands of DECOMPRESS after DESERIALIZE, by ART_KIND (46_top_level R305). -/
def decompressSteps (kind : Byte) : List Instr :=
  if kind = 1 ∨ kind = 2 then [.unpack, .decode] else [.lzwDecompress]

/-- Commands issued one after the other, each as soon as the one before it has completed with success; the first that
fails or stops is the last. -/
def runCommands : List Instr → State → Host.Outcome State Fault Refusal
  | [], s => .next s
  | i :: is, s =>
    match exec i s with
    | .next t => if t.ctl.error = noError then runCommands is t else .next t
    | .fault f => .fault f
    | .refused r => .refused r

/-- The command completed with success (60_exceptions R341). -/
def succeeded (t : State) : Prop :=
  t.ctl.busy = false ∧ t.ctl.done = true ∧ t.ctl.error = noError ∧ t.ctl.errInfo = 0

end Sys2Proof.Machine
end

