-- ==== Sys2Proof/Certificates/Slice0/Obligations.lean ====
section
/-! DEFINITION. The statements for the provers: what the numbered rules of spec/ say of the machine, as propositions
about `exec`, `step` and the host bus. -/

open Sys2Proof Sys2Proof.Machine

/-! ## Encoding -/

/-- The twenty words of 30_encoding R104 decode to their commands. -/
def Obligations.DecoderReadsTheTableWords : Prop :=
  decode 0x00000000 = .ok .nop ∧ decode 0x00000001 = .ok .pack ∧ decode 0x00000002 = .ok .unpack ∧
  decode 0x00000003 = .ok .analyze ∧ decode 0x00000004 = .ok .rank ∧ decode 0x00000005 = .ok .huffBuild ∧
  decode 0x00000006 = .ok .huffCodes ∧ decode 0x00000007 = .ok .sfCodes ∧ decode 0x00000008 = .ok .encode ∧
  decode 0x00000009 = .ok .decode ∧ decode 0x0000000A = .ok .lzwCompress ∧
  decode 0x0000000B = .ok .lzwDecompress ∧ decode 0x0000010C = .ok .serializeHuf ∧
  decode 0x0000020C = .ok .serializeSf ∧ decode 0x0000030C = .ok .serializeLzw ∧
  decode 0x0000000D = .ok .deserialize ∧ decode 0x00000110 = .ok .compressHuf ∧
  decode 0x00000210 = .ok .compressSf ∧ decode 0x00000310 = .ok .compressLzw ∧
  decode 0x00000011 = .ok .decompress

/-- 30_encoding R105: a word is legal exactly when it is one of the twenty words; equivalently RSVD = 0 and the opcode
and the codec agree. Decode and encode are inverse to each other on the legal words. -/
def Obligations.LegalWordsAreTheTwentyWords : Prop :=
  (∀ w i, decode w = .ok i ↔ encode i = w) ∧
  ∀ w : Word, (∃ i, decode w = .ok i) ↔
    (w.toNat / 1024 = 0 ∧
      (((w.toNat % 256 ≤ 0x0B ∨ w.toNat % 256 = 0x0D ∨ w.toNat % 256 = 0x11) ∧ w.toNat / 256 % 4 = 0) ∨
       ((w.toNat % 256 = 0x0C ∨ w.toNat % 256 = 0x10) ∧
         (w.toNat / 256 % 4 = 1 ∨ w.toNat / 256 % 4 = 2 ∨ w.toNat / 256 % 4 = 3))))

/-- 30_encoding R106, 00_scope R12: a word that is none of the twenty is accepted like any other. After any number n of
Host turns, which change nothing but WBUSY and the Host, it completes with ILLEGAL_COMMAND, ERR_INFO = the word,
OPC = SUB = word[7:0], on the Block's turn; no other state changes. The spec fixes no delay: that the Block completes at
once when no turn is scheduled is the model's choice, log entry 1. -/
def Obligations.IllegalWordCompletesWithIllegalCommand : Prop :=
  ∀ (s : State) (w : Word), (∀ i, encode i ≠ w) → s.ctl.busy = false →
    memWrite 0 0x04 .w32 w s = (.ok, accept w s) ∧
    ∀ (n : Nat) (later rest : List Turn) (u : State),
      (later = [] ∧ rest = [] ∨ later = .block :: rest) → s.turns = List.replicate n .host ++ later →
      Sys2Proof.core.run n (accept w s) = .next u →
      u = { s with host := u.host, turns := later,
                   ctl := ⟨w, s.ctl.ie, true, false, u.ctl.wbusy, ⟨.none, 0, 0⟩, 0⟩ } ∧
      step u = .next { s with host := u.host, turns := rest, ctl := ⟨w, s.ctl.ie, false, true, u.ctl.wbusy,
        ⟨.illegalCommand, w.setWidth 8, w.setWidth 8⟩, w⟩ }

/-! ## Acceptance, completion, the step -/

/-- 60_exceptions R340: acceptance latches the word, sets BUSY, clears DONE, ERROR and ERR_INFO and changes nothing
else, whatever the word is; a legal word then completes in the Block's next step. -/
def Obligations.AcceptanceLatchesTheWord : Prop :=
  ∀ (s : State) (v : Word), s.ctl.busy = false →
    memWrite 0 0x04 .w32 v s =
      (.ok, { s with ctl := ⟨v, s.ctl.ie, true, false, s.ctl.wbusy, ⟨.none, 0, 0⟩, 0⟩ }) ∧
    ∀ i ts, decode v = .ok i → s.turns = .block :: ts →
      step (accept v s) = exec i { accept v s with turns := ts }

/-- A busy block's step is the meaning of the command its latch decodes to, at once without a scheduled turn and on its
own turn otherwise; the fetch helper runs exactly the word it is given. -/
def Obligations.StepRunsTheLatchedCommand : Prop :=
  (∀ (s : State) (i : Instr), s.ctl.busy = true → decode s.ctl.cmd = .ok i →
    (s.turns = [] → step s = exec i s) ∧
    ∀ ts, s.turns = .block :: ts → step s = exec i { s with turns := ts }) ∧
  ∀ (s : State) (i : Instr),
    step (s.withFetchWord 32 (encode i).toNat) = exec i { accept (encode i) s with turns := [] }

/-- 60_exceptions R341 and 46_top_level R303: every completion clears BUSY, sets DONE, leaves CMD, IE, WBUSY, the
capacities, the Host and the turns alone, and reports either no error or one error with OPC of the issued word and SUB of
the failing step. -/
def Obligations.EveryCompletionWritesTheStatus : Prop :=
  ∀ (i : Instr) (s t : State), exec i s = .next t →
    t.ctl.busy = false ∧ t.ctl.done = true ∧ sameFixed s t ∧
    ((t.ctl.error = ⟨.none, 0, 0⟩ ∧ t.ctl.errInfo = 0) ∨
     (t.ctl.error.code ≠ .none ∧ t.ctl.error.opc = (encode i).setWidth 8 ∧
       t.ctl.error.sub ∈ stepOpcodes i))

/-- 10_state R28 and 60_exceptions R341 step 4: completion with an error saves the code, OPC, SUB and the info,
saturated at 0xFFFFFFFF. -/
def Obligations.ErrorCompletionSavesTheError : Prop :=
  ∀ (code : ErrCode) (info : Nat) (opc sub : Byte) (s : State),
    (info < 2 ^ 32 → (completeError code info opc sub s).ctl.errInfo.toNat = info) ∧
    (2 ^ 32 ≤ info → (completeError code info opc sub s).ctl.errInfo = 0xFFFFFFFF) ∧
    (completeError code info opc sub s).ctl.error = ⟨code, opc, sub⟩ ∧
    (completeError code info opc sub s).ctl.busy = false ∧ (completeError code info opc sub s).ctl.done = true ∧
    { completeError code info opc sub s with ctl := s.ctl } = s

/-- 46_top_level R300: NOP completes with success and writes nothing but the status registers. -/
def Obligations.NopOnlyCompletes : Prop :=
  ∀ s : State, exec .nop s =
    .next { s with ctl := { s.ctl with busy := false, done := true, error := ⟨.none, 0, 0⟩, errInfo := 0 } }

/-! ## The bit packer -/

/-- 40_bitpacker R131, R132, R133: PACK writes ceil(n/8) bytes MSB first with zero padding bits and the padding count;
later payload bytes and all other state stay; the two capacity errors change nothing. -/
def Obligations.PackWritesThePaddedBytes : Prop :=
  (∀ (s : State) (b : BitString), bitText s b → b.length ≤ s.caps.bitsCap →
    (b.length + 7) / 8 ≤ s.caps.payloadCap →
    ∃ t, exec .pack s = .next t ∧ succeeded t ∧
      t.payload.len.toNat = (b.length + 7) / 8 ∧ t.pad.toNat = (8 - b.length % 8) % 8 ∧
      (∀ j k, j < (b.length + 7) / 8 → k < 8 →
        ∃ y, Memory.get t.payload.mem j = some y ∧ y.getLsbD (7 - k) = b.getD (8 * j + k) false) ∧
      (∀ a, (b.length + 7) / 8 ≤ a → Memory.get t.payload.mem a = Memory.get s.payload.mem a) ∧
      ∀ p, p ≠ .payload → p ≠ .pad → Part.same s t p) ∧
  (∀ s : State, s.caps.bitsCap < s.bits.len.toNat →
    exec .pack s = .next (completeError .capacityExceeded s.bits.len.toNat 0x01 0x01 s)) ∧
  ∀ s : State, s.bits.len.toNat ≤ s.caps.bitsCap → s.caps.payloadCap < (s.bits.len.toNat + 7) / 8 →
    exec .pack s = .next (completeError .capacityExceeded ((s.bits.len.toNat + 7) / 8) 0x01 0x01 s)

/-- 40_bitpacker R134, R135: UNPACK expands the payload bytes MSB first and drops the last PAD bits unseen; the bits up
to the byte boundary are 0, later storage and all other state stay; its three errors change nothing. -/
def Obligations.UnpackRestoresTheBits : Prop :=
  (∀ (s : State) (x : List Byte), s.caps.wf = true → payloadText s x → x.length ≤ s.caps.payloadCap →
    (x = [] → s.pad = 0) → 8 * x.length - s.pad.toNat ≤ s.caps.bitsCap →
    ∃ t, exec .unpack s = .next t ∧ succeeded t ∧
      bitTextZeroFilled t ((List.range (8 * x.length - s.pad.toNat)).map
        fun i => (x.getD (i / 8) 0).getLsbD (7 - i % 8)) ∧
      (∀ a, (8 * x.length - s.pad.toNat + 7) / 8 ≤ a → Memory.get t.bits.mem a = Memory.get s.bits.mem a) ∧
      ∀ p, p ≠ .bits → Part.same s t p) ∧
  (∀ s : State, s.caps.payloadCap < s.payload.len.toNat →
    exec .unpack s = .next (completeError .capacityExceeded s.payload.len.toNat 0x02 0x02 s)) ∧
  (∀ s : State, s.payload.len = 0 → s.pad ≠ 0 →
    exec .unpack s = .next (completeError .formatError s.pad.toNat 0x02 0x02 s)) ∧
  ∀ s : State, s.payload.len.toNat ≤ s.caps.payloadCap → (s.payload.len = 0 → s.pad = 0) →
    s.caps.bitsCap < 8 * s.payload.len.toNat - s.pad.toNat →
    exec .unpack s =
      .next (completeError .capacityExceeded (8 * s.payload.len.toNat - s.pad.toNat) 0x02 0x02 s)

/-- 40_bitpacker R136: PACK followed by UNPACK succeeds and leaves the bit string and its length. -/
def Obligations.PackThenUnpackRoundTrip : Prop :=
  ∀ (s : State) (b : BitString), s.caps.wf = true → bitText s b → b.length ≤ s.caps.bitsCap →
    ∃ t u, exec .pack s = .next t ∧ succeeded t ∧ exec .unpack t = .next u ∧ succeeded u ∧ bitText u b

/-! ## The frequency analyzer -/

/-- 41_frequency R150, R151: ANALYZE counts every byte value and records its least index; NSYM counts the present
symbols and SYM_TOTAL is IN_LEN; nothing else changes; a length above IN_CAP is the only error. -/
def Obligations.AnalyzeCountsTheText : Prop :=
  (∀ (s : State) (x : List Byte), inText s x → x.length ≤ s.caps.inCap →
    ∃ t, exec .analyze s = .next t ∧ succeeded t ∧
      (∀ c : Byte, freqOf t.freq c.toNat = x.count c) ∧
      (∀ c : Byte, firstOf t.freq c.toNat = if c ∈ x then some (x.idxOf c) else none) ∧
      t.freq.nsym.toNat = (List.range 256).countP (fun c => decide (0 < freqOf t.freq c)) ∧
      t.freq.symTotal.toNat = x.length ∧
      ((List.range 256).map (freqOf t.freq)).sum = t.freq.symTotal.toNat ∧
      (∀ c d : Byte, c ≠ d → 0 < freqOf t.freq c.toNat → firstOf t.freq c.toNat ≠ firstOf t.freq d.toNat) ∧
      FreqOk t.freq ∧
      ∀ p, p ≠ .freq → Part.same s t p) ∧
  ∀ s : State, s.caps.inCap < s.inp.len.toNat →
    exec .analyze s = .next (completeError .capacityExceeded s.inp.len.toNat 0x03 0x03 s)

/-- 41_frequency R153: RANK lists exactly the present symbols with their counts, count descending and first occurrence
ascending; RANK_N is their number; nothing else changes. -/
def Obligations.RankSortsThePresentSymbols : Prop :=
  ∀ s : State, FreqOk s.freq →
    ∃ t, exec .rank s = .next t ∧ succeeded t ∧
      (∀ (c : Byte) (n : Nat), ⟨c, n⟩ ∈ t.rank.entries ↔ freqOf s.freq c.toNat = n ∧ 0 < n) ∧
      (t.rank.entries.Pairwise fun a b => b.count < a.count ∨
        (a.count = b.count ∧ ∃ i j, firstOf s.freq a.sym.toNat = some i ∧
          firstOf s.freq b.sym.toNat = some j ∧ i < j)) ∧
      t.rank.rankN.toNat = t.rank.entries.length ∧ t.rank.rankN.toNat = s.freq.nsym.toNat ∧
      RankOk t.rank ∧
      ∀ p, p ≠ .rank → Part.same s t p

/-! ## Huffman -/

/-- 42_huffman R176, R177: with n present symbols HUFF_BUILD leaves 2n - 1 nodes (0 for n = 0), the root last, the root's
weight SYM_TOTAL, exactly one leaf for each present symbol and none for another, children before their parents. -/
def Obligations.HuffBuildTreeProperties : Prop :=
  ∀ s : State, FreqOk s.freq →
    ∃ t, exec .huffBuild s = .next t ∧ succeeded t ∧
      t.tree.nnodes.toNat = 2 * s.freq.table.length - 1 ∧ t.tree.nnodes.toNat = t.tree.nodes.length ∧
      t.tree.root = (if s.freq.table.length = 0 then none else some (2 * s.freq.table.length - 2)) ∧
      (∀ r, t.tree.root = some r → (t.tree.nodes[r]?).map Node.weight = some s.freq.symTotal.toNat) ∧
      (∀ c : Byte, (t.tree.nodes.filter fun n => match n with
          | .leaf d _ => d == c
          | .internal _ _ _ => false) =
        if 0 < freqOf s.freq c.toNat then [.leaf c (freqOf s.freq c.toNat)] else []) ∧
      (∀ i w l r : Nat, t.tree.nodes[i]? = some (Node.internal w l r) → l < i ∧ r < i) ∧
      TreeOk t.tree ∧
      ∀ p, p ≠ .tree → Part.same s t p

/-- 42_huffman R172 to R175: the leaves stand first, in ascending first occurrence; every internal node takes, of the
nodes before it that no earlier internal node has taken, the two with the least (weight, index), the least as its left
child, and its weight is their sum. -/
def Obligations.HuffBuildMergesTheLeastKeys : Prop :=
  ∀ s : State, FreqOk s.freq → ∀ t, exec .huffBuild s = .next t →
    let nodes := t.tree.nodes
    let taken (j i : Nat) : Prop := ∃ k w l r : Nat, k < i ∧ nodes[k]? = some (Node.internal w l r) ∧ (j = l ∨ j = r)
    let less (a b : Nat) : Prop := ∃ m n : Node, nodes[a]? = some m ∧ nodes[b]? = some n ∧
      (m.weight < n.weight ∨ (m.weight = n.weight ∧ a < b))
    (∀ (i j : Nat) (c d : Byte) (m n : Nat), i < j → nodes[i]? = some (Node.leaf c m) → nodes[j]? = some (Node.leaf d n) →
      ∃ p q, firstOf s.freq c.toNat = some p ∧ firstOf s.freq d.toNat = some q ∧ p < q) ∧
    (∀ (i j w l r : Nat) (d : Byte) (n : Nat), nodes[i]? = some (Node.internal w l r) → nodes[j]? = some (Node.leaf d n) → j < i) ∧
    ∀ i w l r : Nat, nodes[i]? = some (Node.internal w l r) →
      l < i ∧ r < i ∧ ¬ taken l i ∧ ¬ taken r i ∧ less l r ∧
      (∀ j : Nat, j < i → j ≠ l → j ≠ r → ¬ taken j i → less r j) ∧
      ∃ m n : Node, nodes[l]? = some m ∧ nodes[r]? = some n ∧ w = m.weight + n.weight

/-- 42_huffman R180, R181: HUFF_CODES gives each leaf's symbol its path from the root, 0 left and 1 right; a root that is
a leaf gets "0"; every other symbol has no code; CTAB_N counts the leaves; nothing else changes. -/
def Obligations.HuffCodesArePaths : Prop :=
  ∀ s : State, TreeOk s.tree →
    ∃ t, exec .huffCodes s = .next t ∧ succeeded t ∧
      (s.tree.root = none → ∀ c, codeOf t.ctab c = []) ∧
      (∀ r c w, s.tree.root = some r → s.tree.nodes[r]? = some (Node.leaf c w) →
        ∀ d, codeOf t.ctab d = if d = c then [false] else []) ∧
      (∀ r w a b, s.tree.root = some r → s.tree.nodes[r]? = some (Node.internal w a b) →
        ∀ (c : Byte) (p : BitString), (codeOf t.ctab c = p ∧ p ≠ []) ↔
          ∃ k m, descend s.tree.nodes r p = some k ∧ s.tree.nodes[k]? = some (Node.leaf c m)) ∧
      t.ctab.ctabN.toNat = (treeSymbols s.tree).length ∧ CtabOk t.ctab ∧
      ∀ p, p ≠ .ctab → Part.same s t p

/-- 42_huffman R184: the codes of a tree with at least two leaves fill the code space exactly; a single leaf fills
half. -/
def Obligations.HuffmanCodesMeetKraftEquality : Prop :=
  ∀ s t : State, TreeOk s.tree → exec .huffCodes s = .next t →
    (2 ≤ t.ctab.codes.length → (t.ctab.codes.map fun c => 2 ^ (255 - c.2.length)).sum = 2 ^ 255) ∧
    (t.ctab.codes.length = 1 → (t.ctab.codes.map fun c => 2 ^ (255 - c.2.length)).sum = 2 ^ 254)

/-! ## Shannon-Fano -/

/-- 43_shannon_fano R213: with counts of at least 1, the greedy scan of R211 returns the least index that minimises
|2S - T|, and both parts are non-empty. -/
def Obligations.SplitPointIsTheLeastMinimum : Prop :=
  ∀ cs : List Nat, 2 ≤ cs.length → (∀ c ∈ cs, 1 ≤ c) →
    let diff (k : Nat) : Nat := (2 * ((cs.take k).sum : Int) - (cs.sum : Int)).natAbs
    1 ≤ splitPoint cs ∧ splitPoint cs ≤ cs.length - 1 ∧
    (∀ k, 1 ≤ k → k ≤ cs.length - 1 → diff (splitPoint cs) ≤ diff k) ∧
    ∀ k, 1 ≤ k → k < splitPoint cs → diff (splitPoint cs) < diff k

/-- 43_shannon_fano R214, R215, R216: SF_CODES gives a code to exactly the ranked symbols; one symbol gets "0"; otherwise
the entries that share a prefix p form a list whose first splitPoint entries continue with 0 and the rest with 1, and an
entry alone with its prefix has it as its code; no code is longer than n - 1; nothing else changes. -/
def Obligations.SfCodesSplitTheRankedList : Prop :=
  ∀ s : State, RankOk s.rank →
    ∃ t, exec .sfCodes s = .next t ∧ succeeded t ∧
      t.ctab.ctabN = s.rank.rankN ∧
      (∀ c, codeOf t.ctab c ≠ [] ↔ c ∈ s.rank.entries.map RankEntry.sym) ∧
      (∀ e, s.rank.entries = [e] → codeOf t.ctab e.sym = [false]) ∧
      (2 ≤ s.rank.entries.length → ∀ p : BitString,
        let sharing := s.rank.entries.filter fun e => p.isPrefixOf (codeOf t.ctab e.sym)
        (∀ e, sharing = [e] → codeOf t.ctab e.sym = p) ∧
        (2 ≤ sharing.length → ∀ i e, sharing[i]? = some e →
          (codeOf t.ctab e.sym)[p.length]? = some (decide (splitPoint (sharing.map RankEntry.count) ≤ i)))) ∧
      (2 ≤ s.rank.entries.length → ∀ c, (codeOf t.ctab c).length ≤ s.rank.entries.length - 1) ∧
      CtabOk t.ctab ∧
      ∀ p, p ≠ .ctab → Part.same s t p

/-! ## The encoder and decoder -/

/-- 42_huffman R186: ENCODE concatenates the codes of the symbols in order; the storage is zero-filled to the byte
boundary, later bytes and all other state stay. The checks run per symbol in input order, and a failing one changes
nothing. -/
def Obligations.EncodeConcatenatesTheCodes : Prop :=
  (∀ (s : State) (x : List Byte), inText s x → x.length ≤ s.caps.inCap →
    (∀ c ∈ x, codeOf s.ctab c ≠ []) → (x.flatMap (codeOf s.ctab)).length ≤ s.caps.bitsCap →
    s.caps.bitsCap < 2 ^ 32 →
    ∃ t, exec .encode s = .next t ∧ succeeded t ∧ bitTextZeroFilled t (x.flatMap (codeOf s.ctab)) ∧
      (∀ a, ((x.flatMap (codeOf s.ctab)).length + 7) / 8 ≤ a →
        Memory.get t.bits.mem a = Memory.get s.bits.mem a) ∧
      ∀ p, p ≠ .bits → Part.same s t p) ∧
  (∀ s : State, s.caps.inCap < s.inp.len.toNat →
    exec .encode s = .next (completeError .capacityExceeded s.inp.len.toNat 0x08 0x08 s)) ∧
  (∀ (s : State) (x : List Byte) (c : Byte), Memory.holds s.inp.mem 0 (x ++ [c]) →
    x.length < s.inp.len.toNat → s.inp.len.toNat ≤ s.caps.inCap →
    (∀ d ∈ x, codeOf s.ctab d ≠ []) → (x.flatMap (codeOf s.ctab)).length ≤ s.caps.bitsCap →
    codeOf s.ctab c = [] →
    exec .encode s = .next (completeError .unmappedSymbol x.length 0x08 0x08 s)) ∧
  ∀ (s : State) (x : List Byte) (c : Byte), Memory.holds s.inp.mem 0 (x ++ [c]) →
    x.length < s.inp.len.toNat → s.inp.len.toNat ≤ s.caps.inCap →
    (∀ d ∈ x, codeOf s.ctab d ≠ []) → (x.flatMap (codeOf s.ctab)).length ≤ s.caps.bitsCap →
    codeOf s.ctab c ≠ [] → s.caps.bitsCap < (x.flatMap (codeOf s.ctab)).length + (codeOf s.ctab c).length →
    exec .encode s = .next (completeError .capacityExceeded x.length 0x08 0x08 s)

/-- 42_huffman R190, R191, R192: DECODE of a string that is the codes of a text followed by bits no prefix of which is a
code writes that text and drops the rest without an error; nothing else changes. A text longer than OUT_CAP raises
CAPACITY_EXCEEDED at the bit that completes the first symbol too many and leaves OUT_LEN = 0. -/
def Obligations.DecodeParsesAndDropsTheRest : Prop :=
  (∀ (s : State) (x : List Byte) (rest : BitString), CtabOk s.ctab → (∀ c ∈ x, codeOf s.ctab c ≠ []) →
    (∀ p, p <+: rest → ∀ c, codeOf s.ctab c ≠ [] → codeOf s.ctab c ≠ p) →
    bitText s (x.flatMap (codeOf s.ctab) ++ rest) → s.bits.len.toNat ≤ s.caps.bitsCap →
    x.length ≤ s.caps.outCap →
    ∃ t, exec .decode s = .next t ∧ succeeded t ∧ outText t x ∧ ∀ p, p ≠ .out → Part.same s t p) ∧
  (∀ s : State, s.caps.bitsCap < s.bits.len.toNat →
    exec .decode s = .next (completeError .capacityExceeded s.bits.len.toNat 0x09 0x09 s)) ∧
  ∀ (s : State) (x : List Byte) (c : Byte) (rest : BitString), CtabOk s.ctab →
    (∀ d ∈ x ++ [c], codeOf s.ctab d ≠ []) → x.length = s.caps.outCap →
    bitText s ((x ++ [c]).flatMap (codeOf s.ctab) ++ rest) → s.bits.len.toNat ≤ s.caps.bitsCap →
    ∃ t, exec .decode s = .next t ∧
      t.ctl.error = ⟨.capacityExceeded, 0x09, 0x09⟩ ∧
      t.ctl.errInfo.toNat = ((x ++ [c]).flatMap (codeOf s.ctab)).length - 1 ∧ t.out.len = 0 ∧
      ∀ p, p ≠ .out → Part.same s t p

/-- 42_huffman R194: a text that ENCODE encoded with success is what DECODE under the same table gives back. -/
def Obligations.EncodeThenDecodeRoundTrip : Prop :=
  ∀ (s t : State) (x : List Byte), s.caps.wf = true → CtabOk s.ctab → inText s x → exec .encode s = .next t →
    t.ctl.error = noError → x.length ≤ s.caps.outCap →
    ∃ u, exec .decode t = .next u ∧ succeeded u ∧ outText u x

/-! ## LZW -/

/-- 44_lzw R233, R235, R237: with room for every code and entry LZW_COMPRESS succeeds; a text of n ≥ 1 symbols gives m
codes with NEXT_CODE = 256 + (m - 1), CODES[j] below 256 + j, entry j = (code j, first byte of code j + 1's string),
pairwise distinct strings, and strings that concatenate to the text; the empty text gives no code. -/
def Obligations.LzwCompressParsesTheText : Prop :=
  (∀ (s : State) (x : List Byte), s.caps.wf = true → inText s x → x.length ≤ s.caps.inCap →
    x.length ≤ s.caps.codesCap → x.length ≤ s.caps.dictCap + 1 →
    ∃ t, exec .lzwCompress s = .next t ∧ succeeded t) ∧
  (∀ s : State, s.caps.inCap < s.inp.len.toNat →
    exec .lzwCompress s = .next (completeError .capacityExceeded s.inp.len.toNat 0x0A 0x0A s)) ∧
  ∀ (s t : State) (x : List Byte), s.caps.wf = true → inText s x → exec .lzwCompress s = .next t →
    t.ctl.error = noError →
    ∃ ws : List Word, codeList t ws ∧
      (x = [] → ws = []) ∧ (x ≠ [] → ws ≠ []) ∧
      t.dict.nextCode.toNat = 256 + (ws.length - 1) ∧
      lzwDict (ws.map BitVec.toNat) t.dict.entries ∧
      (∀ j w, ws[j]? = some w → w.toNat < 256 + j) ∧
      (∀ i j, i < 256 + t.dict.entries.length → j < 256 + t.dict.entries.length → i ≠ j →
        stringOf t.dict.entries i ≠ stringOf t.dict.entries j) ∧
      ws.flatMap (fun w => stringOf t.dict.entries w.toNat) = x ∧
      ∀ a, ws.length ≤ a → Memory.get t.codes.mem a = Memory.get s.codes.mem a

/-- 44_lzw R233, R236: every text has a greedy parse; LZW_COMPRESS succeeds with its codes and dictionary exactly when
the codes fit CODES_CAP and the insertions, one fewer, fit DICT_CAP. Otherwise it raises CAPACITY_EXCEEDED at the first
emit that finds CODES full or whose insertion finds the dictionary full, with info the input index i of that emit, which
is the length of what the codes up to it spell (IN_LEN for the final emit); both checks of one emit name the same i. A
failure after the first check leaves CODES_LEN = 0 and NEXT_CODE = 256. The model's choices: every word of CODES then holds
a free value, for a command's read too (log entry 5), and no entry of DICT is kept (log entry 7). -/
def Obligations.LzwCompressErrorState : Prop :=
  (∀ (s : State) (x : List Byte), s.caps.wf = true → inText s x → x.length ≤ s.caps.inCap →
    ∃ (ws : List Nat) (d : List DictEntry), lzwParse x ws d ∧
      (ws.length ≤ s.caps.codesCap → ws.length ≤ s.caps.dictCap + 1 →
        ∃ t, exec .lzwCompress s = .next t ∧ succeeded t ∧ codeList t (ws.map (BitVec.ofNat 32)) ∧
          t.dict.entries = d) ∧
      (s.caps.codesCap < ws.length ∨ s.caps.dictCap + 1 < ws.length →
        ∃ t, exec .lzwCompress s = .next t ∧ t.ctl.error = ⟨.capacityExceeded, 0x0A, 0x0A⟩ ∧
          t.ctl.errInfo.toNat = ((ws.take (min s.caps.codesCap s.caps.dictCap + 1)).flatMap (stringOf d)).length)) ∧
  ∀ s t : State, s.inp.len.toNat ≤ s.caps.inCap → exec .lzwCompress s = .next t → t.ctl.error ≠ noError →
    t.ctl.error = ⟨.capacityExceeded, 0x0A, 0x0A⟩ ∧ t.ctl.errInfo.toNat ≤ s.inp.len.toNat ∧
    t.codes.len = 0 ∧ t.dict.nextCode = 256 ∧ t.dict.entries = [] ∧ (∀ j, ∃ w, codeAt t j = some w) ∧
    ∀ p, p ≠ .codes → p ≠ .dict → Part.same s t p

/-- 44_lzw R241, R242, R243, R244: LZW_DECOMPRESS of a resolvable code list writes the strings of the codes in the
dictionary the list defines, and that dictionary; nothing else changes. When the first codes `ws` pass, the next one, `k`,
raises CORRUPT_DATA if it is neither known nor next-free, then CAPACITY_EXCEEDED if its string does not fit OUT, then
CAPACITY_EXCEEDED if the dictionary is full, each with its list index; the error leaves OUT_LEN = 0, NEXT_CODE = 256 and
everything else, CODES among it, unchanged. A length above CODES_CAP changes nothing. -/
def Obligations.LzwDecompressWritesTheStrings : Prop :=
  (∀ (s : State) (ws : List Word) (d : List DictEntry), s.caps.wf = true → codeList s ws →
    lzwResolvable (ws.map BitVec.toNat) → lzwDict (ws.map BitVec.toNat) d →
    ws.length ≤ s.caps.codesCap → ws.length ≤ s.caps.dictCap + 1 →
    (ws.flatMap fun w => stringOf d w.toNat).length ≤ s.caps.outCap →
    ∃ t, exec .lzwDecompress s = .next t ∧ succeeded t ∧
      outText t (ws.flatMap fun w => stringOf d w.toNat) ∧ t.dict.entries = d ∧
      t.dict.nextCode.toNat = 256 + (ws.length - 1) ∧ ∀ p, p ≠ .out → p ≠ .dict → Part.same s t p) ∧
  (∀ s : State, s.caps.codesCap < s.codes.len.toNat →
    exec .lzwDecompress s = .next (completeError .capacityExceeded s.codes.len.toNat 0x0B 0x0B s)) ∧
  ∀ (s : State) (ws : List Word) (k : Word), s.caps.wf = true → s.codes.len.toNat ≤ s.caps.codesCap →
    ws.length < s.codes.len.toNat → (∀ j, j < (ws ++ [k]).length → codeAt s j = (ws ++ [k])[j]?) →
    lzwResolvable (ws.map BitVec.toNat) →
    let failsWith (code : ErrCode) : Prop :=
      ∃ t, exec .lzwDecompress s = .next t ∧ t.ctl.error = ⟨code, 0x0B, 0x0B⟩ ∧ t.ctl.errInfo.toNat = ws.length ∧
        t.out.len = 0 ∧ t.dict.nextCode = 256 ∧ ∀ p, p ≠ .out → p ≠ .dict → Part.same s t p
    (∀ d, lzwDict (ws.map BitVec.toNat) d → d.length ≤ s.caps.dictCap →
      (ws.flatMap fun w => stringOf d w.toNat).length ≤ s.caps.outCap → 255 + ws.length < k.toNat →
      failsWith .corruptData) ∧
    ∀ d, lzwDict ((ws ++ [k]).map BitVec.toNat) d → ws ≠ [] → k.toNat ≤ 255 + ws.length →
      d.length ≤ s.caps.dictCap + 1 → (ws.flatMap fun w => stringOf d w.toNat).length ≤ s.caps.outCap →
      (s.caps.outCap < ((ws ++ [k]).flatMap fun w => stringOf d w.toNat).length → failsWith .capacityExceeded) ∧
      (((ws ++ [k]).flatMap fun w => stringOf d w.toNat).length ≤ s.caps.outCap →
        d.length = s.caps.dictCap + 1 → failsWith .capacityExceeded)

/-- 44_lzw R245, R246: LZW_DECOMPRESS of what LZW_COMPRESS produced gives the text back and builds the same
dictionary. -/
def Obligations.LzwRoundTrip : Prop :=
  ∀ (s t : State) (x : List Byte), s.caps.wf = true → inText s x → x ≠ [] → exec .lzwCompress s = .next t →
    t.ctl.error = noError → x.length ≤ s.caps.outCap →
    ∃ u, exec .lzwDecompress t = .next u ∧ succeeded u ∧ outText u x ∧ u.dict = t.dict

/-! ## The container -/

/-- 45_container R265, R266: SERIALIZE.HUF and SERIALIZE.SF write the header, COUNT, the table in ascending symbol order
and the payload; the artifact's length is the size of R265; nothing else changes. The four checks come in order and
change nothing. -/
def Obligations.SerializeTableWritesTheArtifact : Prop :=
  ∀ (s : State) (i : Instr) (tag : Byte), (i = .serializeHuf ∧ tag = 1 ∨ i = .serializeSf ∧ tag = 2) →
    (∀ x : List Byte, CtabOk s.ctab → payloadText s x → x.length ≤ s.caps.payloadCap → (x = [] → s.pad = 0) →
      (s.ctab.codes = [] → x = []) →
      11 + (s.ctab.codes.map fun c => 2 + (c.2.length + 7) / 8).sum + x.length ≤ s.caps.outCap →
      s.caps.outCap < 2 ^ 32 →
      ∃ t a, exec i s = .next t ∧ succeeded t ∧ outText t a ∧ t.artKind = tag ∧
        a = [0x44, 0x43, 0x01, tag, s.pad.setWidth 8] ++ be32 x.length ++ be16 s.ctab.codes.length ++
          (s.ctab.codes.flatMap fun c =>
            BitVec.ofNat 8 c.1 :: BitVec.ofNat 8 c.2.length :: packBytes ((c.2.length + 7) / 8) c.2) ++ x ∧
        a.length = 11 + (s.ctab.codes.map fun c => 2 + (c.2.length + 7) / 8).sum + x.length ∧
        ∀ p, p ≠ .out → p ≠ .artKind → Part.same s t p) ∧
    (s.caps.payloadCap < s.payload.len.toNat →
      exec i s = .next (completeError .capacityExceeded s.payload.len.toNat 0x0C 0x0C s)) ∧
    (s.payload.len = 0 → s.pad ≠ 0 → exec i s = .next (completeError .formatError 4 0x0C 0x0C s)) ∧
    (s.payload.len ≠ 0 → s.payload.len.toNat ≤ s.caps.payloadCap → s.ctab.ctabN = 0 →
      exec i s = .next (completeError .formatError 9 0x0C 0x0C s)) ∧
    (s.payload.len.toNat ≤ s.caps.payloadCap → (s.payload.len = 0 → s.pad = 0) →
      (s.ctab.ctabN = 0 → s.payload.len = 0) →
      s.caps.outCap < 11 + (s.ctab.codes.map fun c => 2 + (c.2.length + 7) / 8).sum + s.payload.len.toNat →
      exec i s = .next (completeError .capacityExceeded
        (11 + (s.ctab.codes.map fun c => 2 + (c.2.length + 7) / 8).sum + s.payload.len.toNat) 0x0C 0x0C s))

/-- 45_container R264, R267: SERIALIZE.LZW writes the header with PAD = 0 and the codes as big-endian words; the PAD
register is not read; nothing else changes. The two capacity checks change nothing. -/
def Obligations.SerializeLzwWritesTheArtifact : Prop :=
  (∀ (s : State) (ws : List Word), codeList s ws → ws.length ≤ s.caps.codesCap →
    9 + 4 * ws.length ≤ s.caps.outCap → s.caps.outCap < 2 ^ 32 →
    ∃ t, exec .serializeLzw s = .next t ∧ succeeded t ∧ t.artKind = 3 ∧
      outText t ([0x44, 0x43, 0x01, 0x03, 0x00] ++ be32 (4 * ws.length) ++ ws.flatMap fun w => be32 w.toNat) ∧
      ∀ p, p ≠ .out → p ≠ .artKind → Part.same s t p) ∧
  (∀ s : State, s.caps.codesCap < s.codes.len.toNat →
    exec .serializeLzw s = .next (completeError .capacityExceeded s.codes.len.toNat 0x0C 0x0C s)) ∧
  ∀ s : State, s.codes.len.toNat ≤ s.caps.codesCap → s.caps.outCap < 9 + 4 * s.codes.len.toNat →
    exec .serializeLzw s = .next (completeError .capacityExceeded (9 + 4 * s.codes.len.toNat) 0x0C 0x0C s)

/-- 45_container R270: DESERIALIZE of an artifact with a well-formed table restores CTAB, CTAB_N, PAD, PAYLOAD,
PAYLOAD_LEN and ART_KIND, whatever the payload's bits; of a TAG 3 artifact it restores CODES and CODES_LEN, whatever the
codes, and sets PAD to 0. Later storage and all other state stay. -/
def Obligations.DeserializeRestoresTheParts : Prop :=
  (∀ (s : State) (tag : Byte) (pad : BitVec 3) (tab : CodeTable) (x : List Byte), (tag = 1 ∨ tag = 2) →
    CtabOk tab → (x = [] → pad = 0) → (tab.codes = [] → x = []) →
    x.length ≤ s.caps.payloadCap → s.inp.len.toNat ≤ s.caps.inCap →
    inText s ([0x44, 0x43, 0x01, tag, pad.setWidth 8] ++ be32 x.length ++ be16 tab.codes.length ++
      (tab.codes.flatMap fun c =>
        BitVec.ofNat 8 c.1 :: BitVec.ofNat 8 c.2.length :: packBytes ((c.2.length + 7) / 8) c.2) ++ x) →
    ∃ t, exec .deserialize s = .next t ∧ succeeded t ∧ t.ctab = tab ∧ t.pad = pad ∧ payloadText t x ∧
      t.artKind = tag ∧ (∀ a, x.length ≤ a → Memory.get t.payload.mem a = Memory.get s.payload.mem a) ∧
      ∀ p, p ≠ .ctab → p ≠ .pad → p ≠ .payload → p ≠ .artKind → Part.same s t p) ∧
  ∀ (s : State) (ws : List Word), ws.length ≤ s.caps.codesCap → s.inp.len.toNat ≤ s.caps.inCap →
    inText s ([0x44, 0x43, 0x01, 0x03, 0x00] ++ be32 (4 * ws.length) ++ ws.flatMap fun w => be32 w.toNat) →
    ∃ t, exec .deserialize s = .next t ∧ succeeded t ∧ codeList t ws ∧ t.pad = 0 ∧ t.artKind = 3 ∧
      (∀ a, ws.length ≤ a → Memory.get t.codes.mem a = Memory.get s.codes.mem a) ∧
      ∀ p, p ≠ .codes → p ≠ .pad → p ≠ .artKind → Part.same s t p

/-- 45_container R271, checks 1 to 13, in check order: each row's condition, with the rows before it passed, raises the
row's code and ERR_INFO and changes nothing. -/
def Obligations.DeserializeHeaderChecksInOrder : Prop :=
  (∀ s : State, s.caps.inCap < s.inp.len.toNat →
    exec .deserialize s = .next (completeError .capacityExceeded s.inp.len.toNat 0x0D 0x0D s)) ∧
  (∀ s : State, s.inp.len.toNat ≤ s.caps.inCap → s.inp.len.toNat < 9 →
    exec .deserialize s = .next (completeError .formatError s.inp.len.toNat 0x0D 0x0D s)) ∧
  ∀ (s : State) (b0 b1 b2 tag pad l0 l1 l2 l3 : Byte) (more : List Byte), s.inp.len.toNat ≤ s.caps.inCap →
    inText s ([b0, b1, b2, tag, pad, l0, l1, l2, l3] ++ more) →
    let len := ((l0.toNat * 256 + l1.toNat) * 256 + l2.toNat) * 256 + l3.toNat
    let fails (code : ErrCode) (info : Nat) : Prop :=
      exec .deserialize s = .next (completeError code info 0x0D 0x0D s)
    (b0 ≠ 0x44 → fails .formatError 0) ∧
    (b0 = 0x44 → b1 ≠ 0x43 → fails .formatError 1) ∧
    (b0 = 0x44 → b1 = 0x43 → b2 ≠ 0x01 → fails .formatError 2) ∧
    (b0 = 0x44 → b1 = 0x43 → b2 = 0x01 → tag.toNat ∉ [1, 2, 3] → fails .formatError 3) ∧
    (b0 = 0x44 → b1 = 0x43 → b2 = 0x01 → tag.toNat ∈ [1, 2, 3] →
      (7 < pad.toNat ∨ (tag = 3 ∧ pad ≠ 0) ∨ (len = 0 ∧ pad ≠ 0)) → fails .formatError 4) ∧
    (b0 = 0x44 → b1 = 0x43 → b2 = 0x01 → tag = 3 → pad = 0 →
      (len % 4 ≠ 0 → fails .formatError 5) ∧
      (len % 4 = 0 → s.inp.len.toNat < 9 + len → fails .formatError s.inp.len.toNat) ∧
      (len % 4 = 0 → 9 + len < s.inp.len.toNat → fails .formatError (9 + len)) ∧
      (len % 4 = 0 → s.inp.len.toNat = 9 + len → s.caps.codesCap < len / 4 →
        fails .capacityExceeded (len / 4)))

/-- 45_container R271, checks 14 to 25, in check order, for a TAG 1 or 2 artifact whose header passed: the entries read
so far form a table `tab`; each row's condition, with the rows before it passed, raises the row's code and ERR_INFO and
changes nothing. -/
def Obligations.DeserializeTableChecksInOrder : Prop :=
  ∀ (s : State) (tag pad l0 l1 l2 l3 : Byte) (more : List Byte), s.inp.len.toNat ≤ s.caps.inCap →
    inText s ([0x44, 0x43, 0x01, tag, pad, l0, l1, l2, l3] ++ more) → (tag = 1 ∨ tag = 2) → pad.toNat ≤ 7 →
    let len := ((l0.toNat * 256 + l1.toNat) * 256 + l2.toNat) * 256 + l3.toNat
    let n := s.inp.len.toNat
    let fails (code : ErrCode) (info : Nat) : Prop :=
      exec .deserialize s = .next (completeError code info 0x0D 0x0D s)
    (len = 0 → pad = 0) →
    (n < 11 → fails .formatError n) ∧
    ∀ (c0 c1 : Byte) (rest : List Byte), more = c0 :: c1 :: rest →
      let count := c0.toNat * 256 + c1.toNat
      (256 < count → fails .formatError 9) ∧
      ∀ (tab : Memory BitString) (tail : List Byte), count ≤ 256 → CtabOk ⟨tab, BitVec.ofNat 32 tab.length⟩ →
        rest = (tab.flatMap fun c =>
          BitVec.ofNat 8 c.1 :: BitVec.ofNat 8 c.2.length :: packBytes ((c.2.length + 7) / 8) c.2) ++ tail →
        let pos := 11 + (tab.map fun c => 2 + (c.2.length + 7) / 8).sum
        (tab.length < count →
          (tail.length < 2 → fails .formatError n) ∧
          ∀ (sym size : Byte) (tail' : List Byte), tail = sym :: size :: tail' →
            let bytes := (size.toNat + 7) / 8
            let bits := bitsOfBytes (tail'.take bytes)
            ((∃ e ∈ tab, sym.toNat ≤ e.1) → fails .formatError pos) ∧
            ((∀ e ∈ tab, e.1 < sym.toNat) →
              (size = 0 → fails .formatError (pos + 1)) ∧
              (size ≠ 0 → tail'.length < bytes → fails .formatError n) ∧
              (size ≠ 0 → bytes ≤ tail'.length → true ∈ bits.drop size.toNat →
                fails .formatError (pos + 1 + bytes)) ∧
              (size ≠ 0 → bytes ≤ tail'.length → true ∉ bits.drop size.toNat →
                (∃ e ∈ tab, e.2 <+: bits.take size.toNat ∨ bits.take size.toNat <+: e.2) →
                fails .formatError pos))) ∧
        (tab.length = count →
          (count = 0 → len ≠ 0 → fails .formatError 9) ∧
          ((count = 0 → len = 0) →
            (tail.length < len → fails .formatError n) ∧
            (len < tail.length → fails .formatError (pos + len)) ∧
            (tail.length = len → s.caps.payloadCap < len → fails .capacityExceeded len)))

/-- 45_container R274: DESERIALIZE of the artifact a SERIALIZE produced succeeds and restores the operands. -/
def Obligations.SerializeThenDeserialize : Prop :=
  ∀ (i : Instr) (k : Byte), (i = .serializeHuf ∧ k = 1 ∨ i = .serializeSf ∧ k = 2 ∨ i = .serializeLzw ∧ k = 3) →
    ∀ (s t u : State) (a : List Byte), Inv s → exec i s = .next t → t.ctl.error = noError → outText t a →
      u.caps = s.caps → inText u a → a.length ≤ s.caps.inCap →
      ∃ v, exec .deserialize u = .next v ∧ succeeded v ∧ v.artKind = k ∧
        (k ≠ 3 → v.ctab = s.ctab ∧ v.pad = s.pad ∧ v.payload.len = s.payload.len ∧
          ∀ j, j < s.payload.len.toNat → Memory.get v.payload.mem j = Memory.get s.payload.mem j) ∧
        (k = 3 → v.codes.len = s.codes.len ∧ v.pad = 0 ∧ ∀ j, j < s.codes.len.toNat → codeAt v j = codeAt s j)

/-- 45_container R275: DESERIALIZE accepts exactly what SERIALIZE can produce: what it accepts is what SERIALIZE with
CODEC = ART_KIND writes back, byte for byte, and what a SERIALIZE wrote it accepts. -/
def Obligations.DeserializeThenSerialize : Prop :=
  (∀ (s t u : State) (i : Instr) (a : List Byte), Inv s →
    (i = .serializeHuf ∨ i = .serializeSf ∨ i = .serializeLzw) → exec i s = .next t → t.ctl.error = noError →
    outText t a → u.caps = s.caps → inText u a → a.length ≤ s.caps.inCap →
    ∃ v, exec .deserialize u = .next v ∧ succeeded v) ∧
  ∀ (s t : State) (a : List Byte), s.caps.wf = true → inText s a → exec .deserialize s = .next t →
    t.ctl.error = noError → a.length ≤ s.caps.outCap →
    ∃ i u, (i = .serializeHuf ∧ t.artKind = 1 ∨ i = .serializeSf ∧ t.artKind = 2 ∨
        i = .serializeLzw ∧ t.artKind = 3) ∧
      exec i t = .next u ∧ succeeded u ∧ outText u a

/-! ## The composites -/

/-- 46_top_level R302, R311: COMPRESS.HUF and COMPRESS.SF of a non-empty text with room for the bits and the artifact
succeed, with ORIG_SIZE = IN_LEN, COMP_SIZE = OUT_LEN, the right TAG, a code for every symbol and the encoded text in
BITS. -/
def Obligations.CompressTableCompletes : Prop :=
  ∀ (s : State) (i : Instr) (tag : Byte) (x : List Byte),
    (i = .compressHuf ∧ tag = 1 ∨ i = .compressSf ∧ tag = 2) → s.caps.wf = true → inText s x → x ≠ [] →
    x.length ≤ s.caps.inCap → 255 * x.length ≤ s.caps.bitsCap → 8715 + 32 * x.length ≤ s.caps.outCap →
    ∃ t, exec i s = .next t ∧ succeeded t ∧ t.sizes.orig = s.inp.len ∧ t.sizes.comp = t.out.len ∧
      t.artKind = tag ∧ (∀ c, codeOf t.ctab c ≠ [] ↔ c ∈ x) ∧ bitText t (x.flatMap (codeOf t.ctab)) ∧
      (∀ a, outText t a → a.take 5 = [0x44, 0x43, 0x01, tag, t.pad.setWidth 8])

/-- 46_top_level R302, R311: COMPRESS.LZW of a non-empty text with room for the codes, the dictionary and the artifact
succeeds, with the sizes set and an artifact of 9 + 4 x CODES_LEN bytes. -/
def Obligations.CompressLzwCompletes : Prop :=
  ∀ (s : State) (x : List Byte), s.caps.wf = true → inText s x → x ≠ [] → x.length ≤ s.caps.inCap →
    x.length ≤ s.caps.codesCap → x.length ≤ s.caps.dictCap + 1 → 9 + 4 * x.length ≤ s.caps.outCap →
    ∃ t, exec .compressLzw s = .next t ∧ succeeded t ∧ t.sizes.orig = s.inp.len ∧ t.sizes.comp = t.out.len ∧
      t.artKind = 3 ∧ t.out.len.toNat = 9 + 4 * t.codes.len.toNat

/-- 46_top_level R301, R302, R303, R305, R311: COMPRESS first refuses a length above IN_CAP, then the empty text, with
SUB = 0x10 and nothing else changed; a composite then does what its component commands do when they are issued one after
the other: the first failing one ends it with that step's code, SUB and ERR_INFO and OPC the composite's, and what the
steps wrote stays written; only when all succeed are the sizes set. -/
def Obligations.CompositeIsTheSequenceOfItsSteps : Prop :=
  (∀ (s : State) (i : Instr), (i = .compressHuf ∨ i = .compressSf ∨ i = .compressLzw) →
    (s.caps.inCap < s.inp.len.toNat →
      exec i s = .next (completeError .capacityExceeded s.inp.len.toNat 0x10 0x10 s)) ∧
    (s.inp.len = 0 → exec i s = .next (completeError .emptyInput 0 0x10 0x10 s)) ∧
    (s.inp.len.toNat ≤ s.caps.inCap → s.inp.len ≠ 0 →
      (∀ t, runCommands (compressSteps i) s = .next t → t.ctl.error = noError →
        exec i s = .next { t with sizes := ⟨s.inp.len, t.out.len⟩ }) ∧
      (∀ t, runCommands (compressSteps i) s = .next t → t.ctl.error ≠ noError →
        exec i s = .next { t with ctl := { t.ctl with error := { t.ctl.error with opc := 0x10 } } }) ∧
      ∀ f, runCommands (compressSteps i) s = .fault f → exec i s = .fault f)) ∧
  ∀ (s t : State), exec .deserialize s = .next t →
    (t.ctl.error ≠ noError →
      exec .decompress s = .next { t with ctl := { t.ctl with error := { t.ctl.error with opc := 0x11 } } }) ∧
    (t.ctl.error = noError →
      (∀ u, runCommands (decompressSteps t.artKind) t = .next u → u.ctl.error = noError →
        exec .decompress s = .next { u with sizes := ⟨u.out.len, s.inp.len⟩ }) ∧
      (∀ u, runCommands (decompressSteps t.artKind) t = .next u → u.ctl.error ≠ noError →
        exec .decompress s = .next { u with ctl := { u.ctl with error := { u.ctl.error with opc := 0x11 } } }) ∧
      ∀ f, runCommands (decompressSteps t.artKind) t = .fault f → exec .decompress s = .fault f)

/-- 46_top_level R305, R311: DECOMPRESS of an artifact with a well-formed table, whose payload's bits are the codes of a
text and a rest no prefix of which is a code, gives the text; of a TAG 3 artifact with a resolvable code list, the text
the list defines; ORIG_SIZE = OUT_LEN and COMP_SIZE = IN_LEN. -/
def Obligations.DecompressRestoresTheText : Prop :=
  (∀ (s : State) (tag : Byte) (pad : BitVec 3) (tab : CodeTable) (y x : List Byte) (rest : BitString),
    (tag = 1 ∨ tag = 2) → s.caps.wf = true → CtabOk tab → (y = [] → pad = 0) → (tab.codes = [] → y = []) →
    y.length ≤ s.caps.payloadCap → s.inp.len.toNat ≤ s.caps.inCap →
    inText s ([0x44, 0x43, 0x01, tag, pad.setWidth 8] ++ be32 y.length ++ be16 tab.codes.length ++
      (tab.codes.flatMap fun c =>
        BitVec.ofNat 8 c.1 :: BitVec.ofNat 8 c.2.length :: packBytes ((c.2.length + 7) / 8) c.2) ++ y) →
    (bitsOfBytes y).take (8 * y.length - pad.toNat) = x.flatMap (codeOf tab) ++ rest →
    (∀ c ∈ x, codeOf tab c ≠ []) → (∀ p, p <+: rest → ∀ c, codeOf tab c ≠ [] → codeOf tab c ≠ p) →
    8 * y.length - pad.toNat ≤ s.caps.bitsCap → x.length ≤ s.caps.outCap →
    ∃ t, exec .decompress s = .next t ∧ succeeded t ∧ outText t x ∧ t.sizes = ⟨t.out.len, s.inp.len⟩) ∧
  ∀ (s : State) (ws : List Word) (d : List DictEntry), s.caps.wf = true →
    ws.length ≤ s.caps.codesCap → s.inp.len.toNat ≤ s.caps.inCap →
    inText s ([0x44, 0x43, 0x01, 0x03, 0x00] ++ be32 (4 * ws.length) ++ ws.flatMap fun w => be32 w.toNat) →
    lzwResolvable (ws.map BitVec.toNat) → lzwDict (ws.map BitVec.toNat) d → ws.length ≤ s.caps.dictCap + 1 →
    (ws.flatMap fun w => stringOf d w.toNat).length ≤ s.caps.outCap →
    ∃ t, exec .decompress s = .next t ∧ succeeded t ∧
      outText t (ws.flatMap fun w => stringOf d w.toNat) ∧ t.sizes = ⟨t.out.len, s.inp.len⟩

/-- 46_top_level R311: a composite that succeeds sets ORIG_SIZE and COMP_SIZE, COMP_SIZE at least 9; a failed one
leaves them, and no other command writes them. -/
def Obligations.OnlySuccessfulCompositesWriteTheSizes : Prop :=
  ∀ (i : Instr) (s t : State), s.caps.wf = true → exec i s = .next t →
    (t.ctl.error ≠ noError → t.sizes = s.sizes) ∧
    (t.ctl.error = noError →
      ((i = .compressHuf ∨ i = .compressSf ∨ i = .compressLzw) →
        t.sizes = ⟨s.inp.len, t.out.len⟩ ∧ 9 ≤ t.sizes.comp.toNat) ∧
      (i = .decompress → t.sizes = ⟨t.out.len, s.inp.len⟩ ∧ 9 ≤ t.sizes.comp.toNat) ∧
      (i ≠ .compressHuf → i ≠ .compressSf → i ≠ .compressLzw → i ≠ .decompress → t.sizes = s.sizes))

/-- 46_top_level R306: whatever text COMPRESS of any of the three codecs compressed with success, DECOMPRESS of the
artifact gives it back. -/
def Obligations.WholeStackRoundTrip : Prop :=
  ∀ (i : Instr), (i = .compressHuf ∨ i = .compressSf ∨ i = .compressLzw) →
    ∀ (s t u : State) (x a : List Byte), s.caps.wf = true → inText s x → x ≠ [] → exec i s = .next t →
      t.ctl.error = noError → outText t a → u.caps = s.caps → inText u a → a.length ≤ s.caps.inCap →
      x.length ≤ s.caps.outCap →
      ∃ v, exec .decompress u = .next v ∧ succeeded v ∧ outText v x

/-- 46_top_level R308, R310: the result of a composite depends only on IN[0:IN_LEN], IN_LEN and the capacities: from
two states that agree on these, and on nothing else, it ends with the same ERROR and ERR_INFO and, on success, the same
OUT, OUT_LEN, ART_KIND and sizes; a successful COMPRESS writes the same values to every state it writes. -/
def Obligations.CompositesIgnoreLeftoverState : Prop :=
  ∀ (i : Instr), (i = .compressHuf ∨ i = .compressSf ∨ i = .compressLzw ∨ i = .decompress) →
    ∀ (s s' t : State) (x : List Byte), s.caps.wf = true → s'.caps = s.caps → inText s x → inText s' x →
      exec i s = .next t →
      ∃ t', exec i s' = .next t' ∧ t'.ctl.error = t.ctl.error ∧ t'.ctl.errInfo = t.ctl.errInfo ∧
        (t.ctl.error = noError → t'.out = t.out ∧ t'.artKind = t.artKind ∧ t'.sizes = t.sizes) ∧
        (t.ctl.error = noError → i ≠ .decompress →
          (∀ p ∈ writeSet i, p ≠ .bits → p ≠ .payload → p ≠ .codes → Part.same t t' p) ∧
          (.bits ∈ writeSet i → t'.bits.len = t.bits.len ∧
            ∀ a, a < (t.bits.len.toNat + 7) / 8 → Memory.get t'.bits.mem a = Memory.get t.bits.mem a) ∧
          (.payload ∈ writeSet i → t'.payload.len = t.payload.len ∧
            ∀ a, a < t.payload.len.toNat → Memory.get t'.payload.mem a = Memory.get t.payload.mem a) ∧
          (.codes ∈ writeSet i → t'.codes.len = t.codes.len ∧
            ∀ a, a < t.codes.len.toNat → codeAt t' a = codeAt t a))

/-- 46_top_level R309: COMPRESS.HUF and COMPRESS.SF of a string that repeats one symbol n times give that symbol the
code "0" and n zero bits, and DECOMPRESS of the artifact restores the string. -/
def Obligations.SingleSymbolGetsCodeZero : Prop :=
  ∀ (s t : State) (i : Instr) (c : Byte) (n : Nat), (i = .compressHuf ∨ i = .compressSf) → s.caps.wf = true →
    inText s (List.replicate n c) → 1 ≤ n → exec i s = .next t → t.ctl.error = noError →
    codeOf t.ctab c = [false] ∧ (∀ d, d ≠ c → codeOf t.ctab d = []) ∧ bitText t (List.replicate n false) ∧
    ∀ (u : State) (a : List Byte), outText t a → u.caps = s.caps → inText u a → a.length ≤ s.caps.inCap →
      n ≤ s.caps.outCap → ∃ v, exec .decompress u = .next v ∧ succeeded v ∧ outText v (List.replicate n c)

/-- 46_top_level R304, R302: the only errors of a COMPRESS are its own two checks, ENCODE's or LZW_COMPRESS's
CAPACITY_EXCEEDED and SERIALIZE's CAPACITY_EXCEEDED: no UNMAPPED_SYMBOL, no FORMAT_ERROR, no error of ANALYZE, RANK,
HUFF_BUILD, HUFF_CODES, SF_CODES or PACK. -/
def Obligations.CompressErrorsAreCapacityErrors : Prop :=
  ∀ (i : Instr) (s t : State), (i = .compressHuf ∨ i = .compressSf ∨ i = .compressLzw) → s.caps.wf = true →
    exec i s = .next t → t.ctl.error ≠ noError →
    (t.ctl.error.code, t.ctl.error.sub) ∈
      [(ErrCode.emptyInput, (0x10 : Byte)), (ErrCode.capacityExceeded, 0x10), (ErrCode.capacityExceeded, 0x0C),
        (ErrCode.capacityExceeded, if i = .compressLzw then 0x0A else 0x08)]

/-! ## Frames -/

/-- 00_scope R18, 10_state R52: a command that completes, with success or with an error, changes no group of state
outside its write set, and of the control registers only BUSY, DONE, ERROR and ERR_INFO. -/
def Obligations.CommandsKeepStateOutsideTheirWriteSet : Prop :=
  ∀ (i : Instr) (s t : State), exec i s = .next t → (∀ p, p ∉ writeSet i → Part.same s t p) ∧ sameFixed s t

/-- 10_state R43 to R45, 60_exceptions R342: every command that completes leaves the storage of BITS, PAYLOAD and CODES
at and above the length it ends with unchanged (but for CODES after a failed LZW_COMPRESS, 44_lzw R236); the commands that
check everything before any write change nothing but the status registers when they fail. -/
def Obligations.StoredRangesBoundTheChange : Prop :=
  ∀ (i : Instr) (s t : State), s.caps.wf = true → exec i s = .next t →
    (∀ a, (t.bits.len.toNat + 7) / 8 ≤ a → Memory.get t.bits.mem a = Memory.get s.bits.mem a) ∧
    (∀ a, t.payload.len.toNat ≤ a → Memory.get t.payload.mem a = Memory.get s.payload.mem a) ∧
    (t.ctl.error.sub ≠ 0x0A → ∀ a, t.codes.len.toNat ≤ a → codeAt t a = codeAt s a) ∧
    (i ∈ [.pack, .unpack, .analyze, .rank, .encode, .serializeHuf, .serializeSf, .serializeLzw, .deserialize] →
      t.ctl.error ≠ noError → { t with ctl := s.ctl } = s)

/-! ## The host bus -/

/-- 20_memory R75: a transaction gets BUS_ERROR exactly under the conditions (a) to (f), with the valid offsets of R71;
it then has no effect, except that case (f) sets WBUSY. -/
def Obligations.BusErrorConditions : Prop :=
  ∀ (t : Txn) (s : State),
    let off := t.off.toNat
    let byteSpace : Prop := 1 ≤ t.space ∧ t.space ≤ 4
    let outside : Prop :=
      (t.space = 0 ∧ 0x6C < off) ∨ (t.space = 1 ∧ s.caps.inCap ≤ off) ∨
      (t.space = 2 ∧ s.out.len.toNat ≤ off) ∨ (t.space = 3 ∧ (s.caps.bitsCap + 7) / 8 ≤ off) ∨
      (t.space = 4 ∧ s.caps.payloadCap ≤ off) ∨ (t.space = 5 ∧ 4 * s.caps.codesCap < off + 4) ∨
      (t.space = 6 ∧ 0x7FC < off) ∨ (t.space = 7 ∧ 8 * s.rank.rankN.toNat < off + 4) ∨
      (t.space = 8 ∧ 16 * s.tree.nnodes.toNat < off + 4) ∨ (t.space = 9 ∧ 0x3FFC < off) ∨
      (t.space = 10 ∧ 8 * s.dict.nextCode.toNat < off + 4)
    ((busAccess t s).1 = .busError ↔
      10 < t.space ∨ ¬ (byteSpace ↔ t.width = .w8) ∨ (¬ byteSpace ∧ off % 4 ≠ 0) ∨ outside ∨
      (t.op = .write ∧ t.space ∈ [2, 6, 7, 8, 9, 10]) ∨ (s.ctl.busy = true ∧ t.space ≠ 0)) ∧
    ((busAccess t s).1 = .busError →
      (busAccess t s).2 =
        if s.ctl.busy = true ∧ t.space ≠ 0 then { s with ctl := { s.ctl with wbusy := true } } else s)

/-- 70_reset R380, R381: while BUSY = 1 every access to a space other than 0 gets BUS_ERROR and every CSR write gets OK;
both change nothing but WBUSY, which becomes 1. CSR reads return the current values: BUSY = 1, DONE = 0, ERROR = 0,
ERR_INFO = 0, CMD the accepted word. -/
def Obligations.BusyBlockRefusesTheHost : Prop :=
  ∀ s : State, s.ctl.busy = true →
    (∀ t : Txn, t.space ≠ 0 → busAccess t s = (.busError, { s with ctl := { s.ctl with wbusy := true } })) ∧
    (∀ (r : CsrName) (v : Word),
      memWrite 0 r.offset .w32 v s = (.ok, { s with ctl := { s.ctl with wbusy := true } })) ∧
    (∀ r : CsrName, memRead 0 r.offset .w32 s = (.okData (csrRead s r), s)) ∧
    (ControlOk s.ctl →
      csrRead s .status = 1 + (if s.ctl.wbusy then 8 else 0) ∧ csrRead s .error = 0 ∧ csrRead s .errInfo = 0 ∧
      csrRead s .cmd = s.ctl.cmd)

/-- 10_state R22 to R28, R36, R37, 60_exceptions R345: what the registers of space 0 read as, at their offsets, STATUS and
ERROR bit by bit and byte by byte; the interrupt output is STATUS.IRQ. -/
def Obligations.RegistersReadAsTheirFields : Prop :=
  ∀ s : State,
    let reads (off v : Word) : Prop := memRead 0 off .w32 s = (.okData v, s)
    reads 0x00 0x44430101 ∧ reads 0x04 s.ctl.cmd ∧ reads 0x08 (if s.ctl.ie then 1 else 0) ∧
    (∃ v : Word, reads 0x0C v ∧ v.getLsbD 0 = s.ctl.busy ∧ v.getLsbD 1 = s.ctl.done ∧
      (v.getLsbD 2 = true ↔ s.ctl.error.code ≠ .none) ∧ v.getLsbD 3 = s.ctl.wbusy ∧
      v.getLsbD 4 = (s.ctl.ie && s.ctl.done) ∧ v.getLsbD 4 = (interruptOutput s).2 ∧
      ∀ k, 5 ≤ k → v.getLsbD k = false) ∧
    (∃ v : Word, reads 0x10 v ∧ v.toNat % 256 = s.ctl.error.code.toByte.toNat ∧
      v.toNat / 256 % 256 = s.ctl.error.opc.toNat ∧ v.toNat / 65536 = s.ctl.error.sub.toNat) ∧
    reads 0x14 s.ctl.errInfo ∧ reads 0x18 s.inp.len ∧ reads 0x1C s.out.len ∧ reads 0x20 s.bits.len ∧
    (∃ v : Word, reads 0x24 v ∧ v.toNat = s.pad.toNat) ∧ reads 0x28 s.payload.len ∧ reads 0x2C s.codes.len ∧
    reads 0x30 s.freq.nsym ∧ reads 0x34 s.freq.symTotal ∧ reads 0x38 s.rank.rankN ∧ reads 0x3C s.tree.nnodes ∧
    (s.tree.root = none → reads 0x40 0xFFFFFFFF) ∧
    (∀ i, s.tree.root = some i → reads 0x40 (BitVec.ofNat 32 i)) ∧
    reads 0x44 s.ctab.ctabN ∧ reads 0x48 s.dict.nextCode ∧
    (∃ v : Word, reads 0x4C v ∧ v.toNat = s.artKind.toNat) ∧
    reads 0x50 s.sizes.orig ∧ reads 0x54 s.sizes.comp

/-- 00_scope R8, 10_state R38: the capacity registers read the six parameters, in order; no step changes a capacity,
reset included. -/
def Obligations.CapacitiesAreConstant : Prop :=
  (∀ s : State, s.caps.wf = true →
    ∃ a b c d e f : Word,
      memRead 0 0x58 .w32 s = (.okData a, s) ∧ a.toNat = s.caps.inCap ∧
      memRead 0 0x5C .w32 s = (.okData b, s) ∧ b.toNat = s.caps.outCap ∧
      memRead 0 0x60 .w32 s = (.okData c, s) ∧ c.toNat = s.caps.bitsCap ∧
      memRead 0 0x64 .w32 s = (.okData d, s) ∧ d.toNat = s.caps.payloadCap ∧
      memRead 0 0x68 .w32 s = (.okData e, s) ∧ e.toNat = s.caps.codesCap ∧
      memRead 0 0x6C .w32 s = (.okData f, s) ∧ f.toNat = s.caps.dictCap) ∧
  ∀ s t : State, step s = .next t → t.caps = s.caps

/-- 10_state R22, R25, R26, R32: what a write to each register but CMD does while idle: CTRL takes bit 0, STATUS clears
DONE and WBUSY where bits 1 and 3 are set, the length registers take any value, PAD takes the low three bits, an RO
register ignores it. -/
def Obligations.RegisterWritesWhileIdle : Prop :=
  ∀ (s : State) (v : Word), s.ctl.busy = false →
    memWrite 0 0x08 .w32 v s = (.ok, { s with ctl := { s.ctl with ie := v.getLsbD 0 } }) ∧
    memWrite 0 0x0C .w32 v s = (.ok, { s with ctl := { s.ctl with
      done := if v.getLsbD 1 then false else s.ctl.done,
      wbusy := if v.getLsbD 3 then false else s.ctl.wbusy } }) ∧
    memWrite 0 0x18 .w32 v s = (.ok, { s with inp := ⟨s.inp.mem, v⟩ }) ∧
    memWrite 0 0x20 .w32 v s = (.ok, { s with bits := ⟨s.bits.mem, v⟩ }) ∧
    (∃ p : BitVec 3, p.toNat = v.toNat % 8 ∧ memWrite 0 0x24 .w32 v s = (.ok, { s with pad := p })) ∧
    memWrite 0 0x28 .w32 v s = (.ok, { s with payload := ⟨s.payload.mem, v⟩ }) ∧
    memWrite 0 0x2C .w32 v s = (.ok, { s with codes := ⟨s.codes.mem, v⟩ }) ∧
    ∀ off ∈ ([0x00, 0x10, 0x14, 0x1C, 0x30, 0x34, 0x38, 0x3C, 0x40, 0x44, 0x48, 0x4C, 0x50, 0x54, 0x58, 0x5C, 0x60,
        0x64, 0x68, 0x6C] : List Word), memWrite 0 off .w32 v s = (.ok, s)

/-- 20_memory R73, R74, R86: while idle a byte written to IN, BITS or PAYLOAD, or a word written to CODES, reads back, and
every other read of every space answers what it answered before; nothing but that buffer's storage changes. No read
changes the state, but for WBUSY when it is refused because BUSY = 1. -/
def Obligations.StorageWritesReadBack : Prop :=
  (∀ (s : State) (space : Nat) (width : Width) (off v : Word), s.ctl.busy = false →
    ((space = 1 ∨ space = 3 ∨ space = 4) ∧ width = .w8 ∨ space = 5 ∧ width = .w32) →
    (memRead space off width s).1 ≠ .busError →
    ∃ t, memWrite space off width v s = (.ok, t) ∧
      memRead space off width t = (.okData (if width = .w8 then (v.setWidth 8).setWidth 32 else v), t) ∧
      (∀ r : Txn, r.op = .read → r.space ≠ space ∨ r.off ≠ off → (busAccess r t).1 = (busAccess r s).1) ∧
      { t with inp := s.inp, bits := s.bits, payload := s.payload, codes := s.codes } = s ∧
      (space ≠ 1 → t.inp = s.inp) ∧ (space ≠ 3 → t.bits = s.bits) ∧ (space ≠ 4 → t.payload = s.payload) ∧
      (space ≠ 5 → t.codes = s.codes)) ∧
  ∀ (s : State) (r : Txn), r.op = .read →
    (busAccess r s).2 =
      if s.ctl.busy = true ∧ r.space ≠ 0 then { s with ctl := { s.ctl with wbusy := true } } else s

/-- 20_memory R77, R78, R79, R82: the layout of the CODES, FREQ, RANKED and DICT windows, read while idle; and the bytes of
OUT below OUT_LEN (10_state R42) and every byte of IN, BITS and PAYLOAD that the Host or a command has written read as they
are stored. -/
def Obligations.ListWindowsShowTheirEntries : Prop :=
  ∀ s : State, s.ctl.busy = false →
    let reads (space off : Nat) (v : Word) : Prop := memRead space (BitVec.ofNat 32 off) .w32 s = (.okData v, s)
    let readsByte (space off : Nat) (y : Byte) : Prop :=
      memRead space (BitVec.ofNat 32 off) .w8 s = (.okData (BitVec.ofNat 32 y.toNat), s)
    (∀ x, outText s x → ∀ o y, x[o]? = some y → readsByte 2 o y) ∧
    (s.caps.wf = true → ∀ o y,
      (o < s.caps.inCap → Memory.get s.inp.mem o = some y → readsByte 1 o y) ∧
      (o < (s.caps.bitsCap + 7) / 8 → Memory.get s.bits.mem o = some y → readsByte 3 o y) ∧
      (o < s.caps.payloadCap → Memory.get s.payload.mem o = some y → readsByte 4 o y)) ∧
    (∀ j w, s.caps.wf = true → j < s.caps.codesCap → codeAt s j = some w → reads 5 (4 * j) w) ∧
    (∀ c : Byte, reads 6 (8 * c.toNat) (BitVec.ofNat 32 (freqOf s.freq c.toNat)) ∧
      (firstOf s.freq c.toNat = none → reads 6 (8 * c.toNat + 4) 0xFFFFFFFF) ∧
      (∀ i, firstOf s.freq c.toNat = some i → reads 6 (8 * c.toNat + 4) (BitVec.ofNat 32 i)) ∧
      (FreqOk s.freq → freqOf s.freq c.toNat = 0 → reads 6 (8 * c.toNat + 4) 0xFFFFFFFF)) ∧
    (RankOk s.rank → ∀ j e, s.rank.entries[j]? = some e →
      reads 7 (8 * j) (BitVec.ofNat 32 e.sym.toNat) ∧ reads 7 (8 * j + 4) (BitVec.ofNat 32 e.count)) ∧
    (DictOk s.dict → ∀ k, k < s.dict.nextCode.toNat → 8 * k + 4 < 2 ^ 32 →
      (k < 256 → reads 10 (8 * k) 0xFFFFFFFF ∧ reads 10 (8 * k + 4) (BitVec.ofNat 32 k)) ∧
      ∀ e, 256 ≤ k → s.dict.entries[k - 256]? = some e →
        reads 10 (8 * k) (BitVec.ofNat 32 e.parent) ∧ reads 10 (8 * k + 4) (BitVec.ofNat 32 e.byte.toNat))

/-- 20_memory R80, R81: the layout of the NODE and CTAB windows, read while idle: four words a node; sixteen words a
symbol, with code bit j in bit 31 - (j mod 32) of word 1 + j / 32 and zeros everywhere else. -/
def Obligations.TreeAndCodeWindowsShowTheirEntries : Prop :=
  ∀ s : State, s.ctl.busy = false →
    let reads (space off : Nat) (v : Word) : Prop := memRead space (BitVec.ofNat 32 off) .w32 s = (.okData v, s)
    (TreeOk s.tree → ∀ i : Nat,
      (∀ (c : Byte) (w : Nat), s.tree.nodes[i]? = some (Node.leaf c w) →
        reads 8 (16 * i) (BitVec.ofNat 32 c.toNat) ∧ reads 8 (16 * i + 4) (BitVec.ofNat 32 w) ∧
        reads 8 (16 * i + 8) 0xFFFFFFFF ∧ reads 8 (16 * i + 12) 0xFFFFFFFF) ∧
      ∀ w l r : Nat, s.tree.nodes[i]? = some (Node.internal w l r) →
        reads 8 (16 * i) 0x80000000 ∧ reads 8 (16 * i + 4) (BitVec.ofNat 32 w) ∧
        reads 8 (16 * i + 8) (BitVec.ofNat 32 l) ∧ reads 8 (16 * i + 12) (BitVec.ofNat 32 r)) ∧
    (CtabOk s.ctab → ∀ c : Byte,
      reads 9 (64 * c.toNat) (BitVec.ofNat 32 (codeOf s.ctab c).length) ∧
      (∀ q, q < 8 → ∃ v, reads 9 (64 * c.toNat + 4 + 4 * q) v ∧
        ∀ k, k < 32 → v.getLsbD (31 - k) = (codeOf s.ctab c).getD (32 * q + k) false) ∧
      ∀ q, 9 ≤ q → q < 16 → reads 9 (64 * c.toNat + 4 * q) 0)

/-! ## Reset, scheduling, the Host -/

/-- 10_state R63, 70_reset R370: reset, at any point, gives every piece of the block's state its reset value in one step:
the command in flight is abandoned, the lengths and tables are empty, ROOT is NONE, NEXT_CODE is 256, the interrupt
output is low, no storage holds a written value; the capacities stay. -/
def Obligations.ResetRestoresEveryRegister : Prop :=
  ∀ (s : State) (r : Turn) (ts : List Turn), (r = .reset ∨ r = .resetInAccess) → s.turns = r :: ts →
    ∃ t, step s = .next t ∧
      t.ctl = ⟨0, false, false, false, false, ⟨.none, 0, 0⟩, 0⟩ ∧ (interruptOutput t).2 = false ∧
      t.caps = s.caps ∧ t.inp.len = 0 ∧ t.out.len = 0 ∧ t.bits.len = 0 ∧ t.pad = 0 ∧ t.payload.len = 0 ∧
      t.codes.len = 0 ∧ t.freq.nsym = 0 ∧ t.freq.symTotal = 0 ∧ t.rank.rankN = 0 ∧ t.tree.nnodes = 0 ∧
      t.tree.root = none ∧ t.ctab.ctabN = 0 ∧ t.dict.nextCode = 256 ∧ t.artKind = 0 ∧ t.sizes = ⟨0, 0⟩ ∧
      (∀ c : Byte, freqOf t.freq c.toNat = 0 ∧ firstOf t.freq c.toNat = none ∧ codeOf t.ctab c = []) ∧
      (∀ a, Memory.get t.inp.mem a = none ∧ Memory.get t.bits.mem a = none ∧
        Memory.get t.payload.mem a = none ∧ codeAt t a = none) ∧
      t.turns = ts ∧ (r = .reset → t.host = s.host)

/-- The invariant `Inv` holds right after reset. -/
def Obligations.ResetMeetsTheInvariant : Prop := Inv State.reset

/-- Every step keeps the invariant `Inv`: 10_state R50 and 46_top_level R307 (the code table is prefix-free, its codes 1
to 255 bits), R27 and R28 (ERROR and ERR_INFO are 0 together with CODE), 41_frequency R151, 42_huffman R177, 10_state R51
(parents below their codes), 20_memory R94 (no storage beyond a capacity), the canonical form of every storage list. -/
def Obligations.StepKeepsTheInvariant : Prop := ∀ s t : State, Inv s → step s = .next t → Inv t

/-- 60_exceptions R333: the block never produces ERROR.CODE = 1. -/
def Obligations.NotFoundIsNeverRaised : Prop :=
  (∀ (i : Instr) (s t : State), exec i s = .next t → t.ctl.error.code ≠ .notFound) ∧
  ∀ s t : State, s.ctl.error.code ≠ .notFound → step s = .next t → t.ctl.error.code ≠ .notFound

/-- 00_scope R11, R12: after acceptance any number of Host turns may pass; whatever the Host's program does in them, they
change nothing but WBUSY and the Host itself, and the step after them completes the command. -/
def Obligations.BusyCommandCompletesAfterHostTurns : Prop :=
  ∀ (n : Nat) (s u : State) (i : Instr), s.ctl.busy = true → decode s.ctl.cmd = .ok i →
    s.turns = List.replicate n .host → Sys2Proof.core.run n s = .next u →
    u = { s with host := u.host, turns := [], ctl := { s.ctl with wbusy := u.ctl.wbusy } } ∧
    Sys2Proof.core.run (n + 1) s = exec i u ∧
    ∀ v : State, exec i u = .next v → v.ctl.busy = false ∧ v.ctl.done = true

/-- 30_encoding R111, R112: BNZ and BZ continue at the label when (tN AND mask) is non-zero, respectively zero, and at the
next line otherwise; J continues at the label; HALT stays. Nothing but the Host's position changes. A variable without
data (70_reset R383) and a label the program does not have stop the Host by name. -/
def Obligations.HostBranchesGoToTheirLabels : Prop :=
  ∀ (s : State) (lab : Option Nat) (t : Fin 8) (mask : Word) (l : Nat),
    let at' (q : Nat) : State := { s with host := { s.host with pos := q } }
    let here (st : Stmt) : Prop := s.host.prog[s.host.pos]? = some ⟨lab, st⟩
    (∀ v : Word, s.host.vars[t] = .word v →
      (v &&& mask = 0 → here (.bnz t mask l) → hostStep s = .next (at' (s.host.pos + 1))) ∧
      (v &&& mask ≠ 0 → here (.bz t mask l) → hostStep s = .next (at' (s.host.pos + 1))) ∧
      ∀ (q : Nat) (line : Line), s.host.prog.labelsDistinct = true → s.host.prog[q]? = some line →
        line.label = some l →
        (v &&& mask ≠ 0 → here (.bnz t mask l) → hostStep s = .next (at' q)) ∧
        (v &&& mask = 0 → here (.bz t mask l) → hostStep s = .next (at' q)) ∧
        (here (.jump l) → hostStep s = .next (at' q))) ∧
    (here .halt → hostStep s = .next s) ∧
    (s.host.vars[t] = .noData → here (.bnz t mask l) ∨ here (.bz t mask l) →
      hostStep s = .fault (.hostUsesRefusedRead t)) ∧
    (l ∉ s.host.prog.labels → here (.jump l) → hostStep s = .fault (.hostLabelMissing l))

/-- 30_encoding R113, 70_reset R377, 93 U7: the Host program `RUN m` on an idle block accepts the command in its first turn,
polls STATUS for any number n of Host turns without a change but its own, the Block completes the command, and the Host
reads STATUS with BUSY = 0 and ends with the command's effect; an odd n leaves it one branch back before that read. The
schedule is the model's, log entry 1: n + 1 Host turns, then a Block turn or none; for n = 0 also no turn at all. -/
def Obligations.RunPseudoInstructionRunsTheCommand : Prop :=
  ∀ (s : State) (i : Instr) (fresh n : Nat), s.ctl.busy = false → s.host.prog = pRun i fresh → s.host.pos = 0 →
    (s.turns = List.replicate (n + 1) .host ∨ s.turns = List.replicate (n + 1) .host ++ [.block] ∨
      (n = 0 ∧ s.turns = [])) →
    ∃ u : State, Sys2Proof.core.run (n + 1) s = .next u ∧
      { u with host := s.host, turns := s.turns } = accept (encode i) s ∧
      ∀ t : State, exec i { u with turns := [] } = .next t →
        ∃ v : State, Sys2Proof.core.run (n + 4 + n % 2) s = .next v ∧ { v with host := t.host } = t ∧ v.host.pos = 3 ∧
          v.host.prog = s.host.prog ∧ v.host.vars[7] = .word (csrRead t .status)

/-! ## Storage that nothing has written -/

/-- 70_reset R376, 93 U1, U2 (the form of the stop and the order in which a command reads are the model's, log entry 3): a
command that reads an element that nothing has written since reset, its checks before that read passed, stops with the
fault that names the element; no command stops with another fault, or for an element that is written or not below its
length register. A Host read within the capacity answers OK whether or not the element is written; its value is free (log
entry 4). -/
def Obligations.UnwrittenStorageStopsCommandsOnly : Prop :=
  (∀ (s : State) (x : List Byte), Memory.holds s.inp.mem 0 x → Memory.get s.inp.mem x.length = none →
    x.length < s.inp.len.toNat → s.inp.len.toNat ≤ s.caps.inCap →
    exec .analyze s = .fault (.unwrittenIn x.length) ∧ exec .compressHuf s = .fault (.unwrittenIn x.length) ∧
    exec .compressSf s = .fault (.unwrittenIn x.length) ∧
    ((∀ c ∈ x, codeOf s.ctab c ≠ []) → (x.flatMap (codeOf s.ctab)).length ≤ s.caps.bitsCap →
      exec .encode s = .fault (.unwrittenIn x.length)) ∧
    (x.length ≤ s.caps.codesCap → x.length ≤ s.caps.dictCap →
      exec .lzwCompress s = .fault (.unwrittenIn x.length) ∧ exec .compressLzw s = .fault (.unwrittenIn x.length))) ∧
  (∀ (s : State) (x y : List Byte), Memory.holds s.inp.mem 0 x → Memory.get s.inp.mem x.length = none → y ≠ [] →
    s.inp.len.toNat = (x ++ y).length → s.inp.len.toNat ≤ s.caps.inCap →
    ((∃ (tag : Byte) (pad : BitVec 3) (tab : CodeTable) (z : List Byte), (tag = 1 ∨ tag = 2) ∧ CtabOk tab ∧
        (z = [] → pad = 0) ∧ (tab.codes = [] → z = []) ∧ z.length ≤ s.caps.payloadCap ∧
        x ++ y = [0x44, 0x43, 0x01, tag, pad.setWidth 8] ++ be32 z.length ++ be16 tab.codes.length ++
          (tab.codes.flatMap fun c =>
            BitVec.ofNat 8 c.1 :: BitVec.ofNat 8 c.2.length :: packBytes ((c.2.length + 7) / 8) c.2) ++ z) ∨
      ∃ ws : List Word, ws.length ≤ s.caps.codesCap ∧
        x ++ y = [0x44, 0x43, 0x01, 0x03, 0x00] ++ be32 (4 * ws.length) ++ ws.flatMap fun w => be32 w.toNat) →
    exec .deserialize s = .fault (.unwrittenIn x.length) ∧ exec .decompress s = .fault (.unwrittenIn x.length)) ∧
  (∀ (s : State) (a : Nat), (∀ b, b < a → Memory.get s.bits.mem b ≠ none) → Memory.get s.bits.mem a = none →
    8 * a < s.bits.len.toNat → s.bits.len.toNat ≤ s.caps.bitsCap →
    ((s.bits.len.toNat + 7) / 8 ≤ s.caps.payloadCap → exec .pack s = .fault (.unwrittenBits a)) ∧
    (8 * a ≤ s.caps.outCap → exec .decode s = .fault (.unwrittenBits a))) ∧
  (∀ (s : State) (a : Nat), (∀ b, b < a → Memory.get s.payload.mem b ≠ none) → Memory.get s.payload.mem a = none →
    a < s.payload.len.toNat → s.payload.len.toNat ≤ s.caps.payloadCap →
    (8 * s.payload.len.toNat - s.pad.toNat ≤ s.caps.bitsCap → exec .unpack s = .fault (.unwrittenPayload a)) ∧
    (s.ctab.ctabN ≠ 0 →
      11 + (s.ctab.codes.map fun c => 2 + (c.2.length + 7) / 8).sum + s.payload.len.toNat ≤ s.caps.outCap →
      exec .serializeHuf s = .fault (.unwrittenPayload a) ∧ exec .serializeSf s = .fault (.unwrittenPayload a))) ∧
  (∀ (s : State) (ws : List Word), (∀ j, j < ws.length → codeAt s j = ws[j]?) → codeAt s ws.length = none →
    ws.length < s.codes.len.toNat → s.codes.len.toNat ≤ s.caps.codesCap →
    (9 + 4 * s.codes.len.toNat ≤ s.caps.outCap → exec .serializeLzw s = .fault (.unwrittenCodes ws.length)) ∧
    ∀ d, lzwResolvable (ws.map BitVec.toNat) → lzwDict (ws.map BitVec.toNat) d → d.length ≤ s.caps.dictCap →
      (ws.flatMap fun w => stringOf d w.toNat).length ≤ s.caps.outCap →
      exec .lzwDecompress s = .fault (.unwrittenCodes ws.length)) ∧
  (∀ (i : Instr) (s : State) (f : Fault), s.caps.wf = true → exec i s = .fault f →
    (∃ a, f = .unwrittenIn a ∧ a < s.inp.len.toNat ∧ Memory.get s.inp.mem a = none) ∨
    (∃ a, f = .unwrittenBits a ∧ 8 * a < s.bits.len.toNat ∧ Memory.get s.bits.mem a = none) ∨
    (∃ a, f = .unwrittenPayload a ∧ a < s.payload.len.toNat ∧ Memory.get s.payload.mem a = none) ∨
    ∃ a, f = .unwrittenCodes a ∧ a < s.codes.len.toNat ∧ codeAt s a = none) ∧
  ∀ s : State, s.caps.wf = true → s.ctl.busy = false →
    let answers (space off : Nat) (width : Width) : Prop :=
      ∃ v, memRead space (BitVec.ofNat 32 off) width s = (.okData v, s) ∧ (width = .w8 → v.toNat < 256)
    (∀ o, o < s.caps.inCap → answers 1 o .w8) ∧ (∀ o, o < (s.caps.bitsCap + 7) / 8 → answers 3 o .w8) ∧
    (∀ o, o < s.caps.payloadCap → answers 4 o .w8) ∧ ∀ j, j < s.caps.codesCap → answers 5 (4 * j) .w32
end

