-- ==== Sys2Proof/Laws/Bits.lean ====
section
/-! SUPPORT. What the bit and byte helpers of Machine/Bits.lean compute: packing and expanding are inverse, bit by bit;
the big-endian writers and readers are inverse. -/

namespace Sys2Proof.Machine

/-! ## Bits of a number -/

theorem bitsToNat_lt (w : Nat) (bs : BitString) : bitsToNat w bs < 2 ^ w := by
  induction w generalizing bs with
  | zero => simp [bitsToNat]
  | succ w ih =>
    have h := ih bs.tail
    simp only [bitsToNat, pow_succ]
    cases bs.headD false <;> simp <;> omega

/-- Bit k of the number, from the most significant down, is bit k of the string. -/
theorem bitsToNat_testBit (w : Nat) (bs : BitString) (k : Nat) (hk : k < w) :
    (bitsToNat w bs).testBit (w - 1 - k) = bs.getD k false := by
  induction w generalizing bs k with
  | zero => omega
  | succ w ih =>
    have hlt := bitsToNat_lt w bs.tail
    have hform : bitsToNat (w + 1) bs = 2 ^ w * (bs.headD false).toNat + bitsToNat w bs.tail := by
      simp [bitsToNat, Nat.mul_comm]
    rw [hform, Nat.testBit_two_pow_mul_add _ hlt]
    cases k with
    | zero =>
      rw [if_neg (by omega)]
      cases bs with
      | nil => simp
      | cons b bs => cases b <;> simp
    | succ k =>
      rw [if_pos (by omega), show w + 1 - 1 - (k + 1) = w - 1 - k by omega, ih _ _ (by omega)]
      cases bs <;> simp

theorem byteOfBits_getLsbD (bs : BitString) (k : Nat) (hk : k < 8) :
    (byteOfBits bs).getLsbD (7 - k) = bs.getD k false := by
  rw [byteOfBits, BitVec.getLsbD_ofNat, decide_eq_true (by omega : 7 - k < 8), Bool.true_and]
  exact bitsToNat_testBit 8 bs k hk

theorem wordOfBits_getLsbD (bs : BitString) (k : Nat) (hk : k < 32) :
    (wordOfBits bs).getLsbD (31 - k) = bs.getD k false := by
  rw [wordOfBits, BitVec.getLsbD_ofNat, decide_eq_true (by omega : 31 - k < 32), Bool.true_and]
  exact bitsToNat_testBit 32 bs k hk

@[simp] theorem bitsOfByte_length (b : Byte) : (bitsOfByte b).length = 8 := rfl

theorem bitsOfByte_getElem? (b : Byte) (k : Nat) (hk : k < 8) : (bitsOfByte b)[k]? = some (b.getLsbD (7 - k)) := by
  obtain rfl | rfl | rfl | rfl | rfl | rfl | rfl | rfl :
    k = 0 ∨ k = 1 ∨ k = 2 ∨ k = 3 ∨ k = 4 ∨ k = 5 ∨ k = 6 ∨ k = 7 := by omega
  all_goals rfl

/-- A byte is determined by its eight bits. -/
theorem byte_ext {a b : Byte} (h : ∀ k, k < 8 → a.getLsbD (7 - k) = b.getLsbD (7 - k)) : a = b := by
  refine BitVec.eq_of_getLsbD_eq fun i hi => ?_
  have := h (7 - i) (by omega)
  rwa [show 7 - (7 - i) = i by omega] at this

@[simp] theorem byteOfBits_bitsOfByte (b : Byte) (more : BitString) : byteOfBits (bitsOfByte b ++ more) = b := by
  refine byte_ext fun k hk => ?_
  rw [byteOfBits_getLsbD _ _ hk, List.getD_eq_getElem?_getD, List.getElem?_append_left (by simpa using hk),
    bitsOfByte_getElem? _ _ hk]
  rfl

/-! ## Byte strings -/

@[simp] theorem packBytes_length (n : Nat) (bs : BitString) : (packBytes n bs).length = n := by
  induction n generalizing bs <;> simp [packBytes, *]

@[simp] theorem bitsOfBytes_length (xs : List Byte) : (bitsOfBytes xs).length = 8 * xs.length := by
  induction xs with
  | nil => rfl
  | cons b xs ih => simp [bitsOfBytes, ih]; omega

theorem bitsOfBytes_append (xs ys : List Byte) : bitsOfBytes (xs ++ ys) = bitsOfBytes xs ++ bitsOfBytes ys := by
  induction xs with
  | nil => rfl
  | cons b xs ih => simp [bitsOfBytes, ih]

/-- 20_memory R83: bit i of the bytes is bit 7 - (i mod 8) of byte i / 8. -/
theorem bitsOfBytes_getElem? (xs : List Byte) (i : Nat) :
    (bitsOfBytes xs)[i]? = (xs[i / 8]?).map fun b => b.getLsbD (7 - i % 8) := by
  induction xs generalizing i with
  | nil => simp [bitsOfBytes]
  | cons b xs ih =>
    by_cases h : i < 8
    · rw [bitsOfBytes, List.getElem?_append_left (by simpa using h), bitsOfByte_getElem? _ _ h,
        Nat.div_eq_of_lt h, Nat.mod_eq_of_lt h]
      rfl
    · rw [bitsOfBytes, List.getElem?_append_right (by simpa using Nat.le_of_not_lt h), bitsOfByte_length, ih]
      obtain ⟨j, rfl⟩ : ∃ j, i = j + 8 := ⟨i - 8, by omega⟩
      simp

/-- 40_bitpacker R132: byte j holds bits 8j to 8j + 7, most significant first, zeros where the string ends. -/
theorem packBytes_getElem? (n : Nat) (bs : BitString) (j : Nat) (hj : j < n) :
    ∃ y, (packBytes n bs)[j]? = some y ∧ ∀ k, k < 8 → y.getLsbD (7 - k) = bs.getD (8 * j + k) false := by
  induction n generalizing bs j with
  | zero => omega
  | succ n ih =>
    cases j with
    | zero => exact ⟨byteOfBits bs, rfl, fun k hk => by simpa using byteOfBits_getLsbD bs k hk⟩
    | succ j =>
      obtain ⟨y, hy, hb⟩ := ih (bs.drop 8) j (by omega)
      refine ⟨y, by simpa [packBytes] using hy, fun k hk => ?_⟩
      rw [hb k hk, List.getD_eq_getElem?_getD, List.getD_eq_getElem?_getD, List.getElem?_drop]
      congr 2
      omega

theorem ceilDiv8_le (n m : Nat) : ceilDiv8 n ≤ m ↔ n ≤ 8 * m := by unfold ceilDiv8; omega

theorem le_ceilDiv8 (n : Nat) : n ≤ 8 * ceilDiv8 n := by unfold ceilDiv8; omega

/-- The bytes of a string expand to the string, followed by zeros. -/
theorem bitsOfBytes_packBytes (n : Nat) (bs : BitString) (h : bs.length ≤ 8 * n) :
    bitsOfBytes (packBytes n bs) = bs ++ List.replicate (8 * n - bs.length) false := by
  refine List.ext_getElem? fun i => ?_
  rw [bitsOfBytes_getElem?]
  by_cases hi : i < 8 * n
  · obtain ⟨y, hy, hb⟩ := packBytes_getElem? n bs (i / 8) (by omega)
    rw [hy, Option.map_some, hb _ (by omega), Nat.div_add_mod, List.getD_eq_getElem?_getD]
    by_cases hl : i < bs.length
    · simp [List.getElem?_append_left hl, hl]
    · rw [List.getElem?_append_right (by omega), List.getElem?_eq_none (by omega),
        List.getElem?_replicate, if_pos (by omega)]
      rfl
  · rw [List.getElem?_eq_none (by simp; omega), List.getElem?_eq_none (by simp; omega)]
    rfl

/-- Expanding and dropping the padding undoes packing (40_bitpacker R136). -/
theorem bitsOfBytes_packBytes_take (bs : BitString) :
    (bitsOfBytes (packBytes (ceilDiv8 bs.length) bs)).take bs.length = bs := by
  rw [bitsOfBytes_packBytes _ _ (le_ceilDiv8 _), List.take_left']
  rfl

/-- Packing bits that already end in zeros up to the bytes gives the same bytes. -/
theorem packBytes_append_zeros (n k : Nat) (bs : BitString) :
    packBytes n (bs ++ List.replicate k false) = packBytes n bs := by
  refine List.ext_getElem? fun j => ?_
  by_cases hj : j < n
  · obtain ⟨y, hy, hb⟩ := packBytes_getElem? n (bs ++ List.replicate k false) j hj
    obtain ⟨z, hz, hc⟩ := packBytes_getElem? n bs j hj
    rw [hy, hz]
    refine congrArg some (byte_ext fun i hi => ?_)
    rw [hb i hi, hc i hi]
    simp only [List.getD_eq_getElem?_getD]
    by_cases hl : 8 * j + i < bs.length
    · rw [List.getElem?_append_left hl]
    · rw [List.getElem?_append_right (by omega), List.getElem?_eq_none (l := bs) (by omega), List.getElem?_replicate]
      split <;> rfl
  · rw [List.getElem?_eq_none (by simp; omega), List.getElem?_eq_none (by simp; omega)]

/-- Bytes whose bits beyond the string are zero are the packed string. -/
theorem packBytes_bitsOfBytes (xs : List Byte) : packBytes xs.length (bitsOfBytes xs) = xs := by
  induction xs with
  | nil => rfl
  | cons b xs ih =>
    simp only [List.length_cons, packBytes, bitsOfBytes, byteOfBits_bitsOfByte]
    rw [List.drop_left' (bitsOfByte_length b), ih]

/-! ## Big-endian numbers -/

@[simp] theorem be32_length (v : Nat) : (be32 v).length = 4 := rfl

@[simp] theorem be16_length (v : Nat) : (be16 v).length = 2 := rfl

theorem beNat_be32 (v : Nat) (h : v < 2 ^ 32) : beNat (be32 v) = v := by
  simp [beNat, be32]
  omega

theorem beNat_be16 (v : Nat) (h : v < 2 ^ 16) : beNat (be16 v) = v := by
  simp [beNat, be16]
  omega

theorem beNat_four (a b c d : Byte) :
    beNat [a, b, c, d] = ((a.toNat * 256 + b.toNat) * 256 + c.toNat) * 256 + d.toNat := by
  simp [beNat]

theorem beNat_two (a b : Byte) : beNat [a, b] = a.toNat * 256 + b.toNat := by
  simp [beNat]

theorem be32_beNat (a b c d : Byte) : be32 (beNat [a, b, c, d]) = [a, b, c, d] := by
  have ha := a.isLt; have hb := b.isLt; have hc := c.isLt; have hd := d.isLt
  rw [beNat_four]
  simp only [be32, List.cons.injEq, and_true]
  refine ⟨?_, ?_, ?_, ?_⟩ <;> (apply BitVec.eq_of_toNat_eq; simp; omega)

theorem be16_beNat (a b : Byte) : be16 (beNat [a, b]) = [a, b] := by
  have ha := a.isLt; have hb := b.isLt
  rw [beNat_two]
  simp only [be16, List.cons.injEq, and_true]
  refine ⟨?_, ?_⟩ <;> (apply BitVec.eq_of_toNat_eq; simp; omega)

/-! ## ERR_INFO -/

/-- 10_state R28: a value below 2^32 is kept. -/
theorem satWord_toNat (n : Nat) (h : n < 2 ^ 32) : (satWord n).toNat = n := by
  simp [satWord]
  omega

/-- 10_state R28: a value at or above 2^32 saturates. -/
theorem satWord_big (n : Nat) (h : 2 ^ 32 ≤ n) : satWord n = 0xFFFFFFFF := by
  rw [satWord, Nat.min_eq_right (by omega)]
  rfl

end Sys2Proof.Machine
end

