-- ==== Sys2Proof/Laws/Memory.lean ====
section
/-! SUPPORT. The laws of storage: read after write, the canonical form and the address bound are kept by every write,
and what `holds` and `readRange` say. -/

namespace Sys2Proof.Machine

variable {α : Type}

/-! ## Cells -/

@[simp] theorem Memory.cells_nil (a : Nat) : Memory.cells a ([] : List α) = [] := rfl

@[simp] theorem Memory.cells_cons (a : Nat) (x : α) (xs : List α) :
    Memory.cells a (x :: xs) = (a, x) :: Memory.cells (a + 1) xs := rfl

@[simp] theorem Memory.cells_length (a : Nat) (xs : List α) : (Memory.cells a xs).length = xs.length := by
  induction xs generalizing a <;> simp [*]

theorem Memory.mem_cells {a : Nat} {xs : List α} {c : Nat × α} (h : c ∈ Memory.cells a xs) :
    a ≤ c.1 ∧ c.1 < a + xs.length := by
  induction xs generalizing a with
  | nil => simp at h
  | cons x xs ih =>
    simp only [Memory.cells_cons, List.mem_cons] at h
    rcases h with rfl | h
    · simp
    · have := ih h
      simp only [List.length_cons]
      omega

theorem Memory.cells_wf (a : Nat) (xs : List α) : Memory.wf (Memory.cells a xs) := by
  induction xs generalizing a with
  | nil => exact List.Pairwise.nil
  | cons x xs ih =>
    refine List.Pairwise.cons (fun c hc => ?_) (ih (a + 1))
    have := Memory.mem_cells hc
    show a < c.1
    omega

/-! ## Reading -/

@[simp] theorem Memory.get_nil (a : Nat) : Memory.get ([] : Memory α) a = none := rfl

theorem Memory.get_cons (k : Nat) (v : α) (m : Memory α) (a : Nat) :
    Memory.get ((k, v) :: m) a = if k = a then some v else Memory.get m a := rfl

theorem Memory.get_eq_none_of_forall {m : Memory α} {a : Nat} (h : ∀ c ∈ m, c.1 ≠ a) : Memory.get m a = none := by
  induction m with
  | nil => rfl
  | cons c m ih =>
    obtain ⟨k, v⟩ := c
    rw [Memory.get_cons, if_neg (h (k, v) (by simp))]
    exact ih fun c hc => h c (by simp [hc])

theorem Memory.get_mem {m : Memory α} {a : Nat} {v : α} (h : Memory.get m a = some v) : (a, v) ∈ m := by
  induction m with
  | nil => simp at h
  | cons c m ih =>
    obtain ⟨k, w⟩ := c
    rw [Memory.get_cons] at h
    split at h
    · simp_all
    · exact List.mem_cons_of_mem _ (ih h)

theorem Memory.get_of_mem {m : Memory α} (hm : Memory.wf m) {a : Nat} {v : α} (h : (a, v) ∈ m) :
    Memory.get m a = some v := by
  induction m with
  | nil => simp at h
  | cons c m ih =>
    obtain ⟨k, w⟩ := c
    rw [Memory.get_cons]
    rcases List.mem_cons.mp h with h | h
    · cases h
      simp
    · have : k < a := (List.pairwise_cons.mp hm).1 _ h
      rw [if_neg (by omega)]
      exact ih (List.pairwise_cons.mp hm).2 h

theorem Memory.get_append (m m' : Memory α) (a : Nat) :
    Memory.get (m ++ m') a = (Memory.get m a).or (Memory.get m' a) := by
  induction m with
  | nil => simp
  | cons c m ih =>
    obtain ⟨k, v⟩ := c
    simp only [List.cons_append, Memory.get_cons]
    split <;> simp [*]

theorem Memory.get_filter (m : Memory α) (p : Nat → Bool) (a : Nat) :
    Memory.get (m.filter fun c => p c.1) a = if p a then Memory.get m a else none := by
  induction m with
  | nil => simp
  | cons c m ih =>
    obtain ⟨k, v⟩ := c
    rw [List.filter_cons]
    by_cases hk : p k <;> by_cases ha : k = a <;> simp_all [Memory.get_cons]

theorem Memory.get_cells (a : Nat) (xs : List α) (b : Nat) :
    Memory.get (Memory.cells a xs) b = if a ≤ b then xs[b - a]? else none := by
  induction xs generalizing a with
  | nil => simp
  | cons x xs ih =>
    rw [Memory.cells_cons, Memory.get_cons, ih]
    by_cases h : a = b
    · simp [h]
    · rw [if_neg h]
      by_cases h' : a ≤ b
      · rw [if_pos h', if_pos (by omega)]
        obtain ⟨d, rfl⟩ : ∃ d, b = a + 1 + d := ⟨b - (a + 1), by omega⟩
        have : a + 1 + d - a = d + 1 := by omega
        simp [this]
      · rw [if_neg h', if_neg (by omega)]

/-! ## Writing -/

/-- Reading after writing: inside the written range the new value, outside it the old one. -/
theorem Memory.get_write (m : Memory α) (a : Nat) (xs : List α) (b : Nat) :
    Memory.get (Memory.write m a xs) b =
      if a ≤ b ∧ b < a + xs.length then xs[b - a]? else Memory.get m b := by
  unfold Memory.write
  rw [Memory.get_append, Memory.get_append, Memory.get_filter m (fun k => decide (k < a)),
    Memory.get_filter m (fun k => decide (a + xs.length ≤ k)), Memory.get_cells]
  by_cases h1 : b < a
  · simp [h1, show ¬ a ≤ b by omega, show ¬ a + xs.length ≤ b by omega]
  · by_cases h2 : b < a + xs.length
    · have h3 : (b - a) < xs.length := by omega
      simp [h2, show a ≤ b by omega, h3, h1]
    · have h3 : xs[b - a]? = none := by simp; omega
      simp [h1, show a ≤ b by omega, h3, show ¬ b < a + xs.length from h2, show a + xs.length ≤ b by omega]

/-- A write leaves every address outside the written range alone. -/
theorem Memory.get_write_outside (m : Memory α) (a : Nat) (xs : List α) (b : Nat)
    (h : b < a ∨ a + xs.length ≤ b) : Memory.get (Memory.write m a xs) b = Memory.get m b := by
  rw [Memory.get_write, if_neg (by omega)]

/-- A read of a written address gives the value written. -/
theorem Memory.get_write_inside (m : Memory α) (a : Nat) (xs : List α) (i : Nat) (h : i < xs.length) :
    Memory.get (Memory.write m a xs) (a + i) = some xs[i] := by
  rw [Memory.get_write, if_pos ⟨by omega, by omega⟩]
  simp [h]

/-- Every write keeps the canonical form. -/
theorem Memory.write_wf {m : Memory α} (hm : Memory.wf m) (a : Nat) (xs : List α) :
    Memory.wf (Memory.write m a xs) := by
  unfold Memory.write Memory.wf
  refine List.pairwise_append.mpr ⟨List.pairwise_append.mpr ⟨hm.filter _, Memory.cells_wf a xs, ?_⟩,
    hm.filter _, ?_⟩
  · intro c hc d hd
    have h1 := (List.mem_filter.mp hc).2
    have h2 := Memory.mem_cells hd
    simp only [decide_eq_true_eq] at h1
    omega
  · intro c hc d hd
    have h2 := (List.mem_filter.mp hd).2
    simp only [decide_eq_true_eq] at h2
    rcases List.mem_append.mp hc with hc | hc
    · have h1 := (List.mem_filter.mp hc).2
      simp only [decide_eq_true_eq] at h1
      omega
    · have h1 := Memory.mem_cells hc
      omega

/-- A write below a bound keeps the bound. -/
theorem Memory.write_below {m : Memory α} {n : Nat} (hm : Memory.below m n) (a : Nat) (xs : List α)
    (h : a + xs.length ≤ n) : Memory.below (Memory.write m a xs) n := by
  unfold Memory.write
  intro c hc
  rcases List.mem_append.mp hc with hc | hc
  · rcases List.mem_append.mp hc with hc | hc
    · exact hm c (List.mem_filter.mp hc).1
    · have := Memory.mem_cells hc
      omega
  · exact hm c (List.mem_filter.mp hc).1

theorem Memory.mem_write {m : Memory α} {a : Nat} {xs : List α} {c : Nat × α} (h : c ∈ Memory.write m a xs) :
    c ∈ m ∨ c ∈ Memory.cells a xs := by
  unfold Memory.write at h
  simp only [List.mem_append, List.mem_filter] at h
  tauto

/-- Equal reads of canonical storage are equal storage. -/
theorem Memory.ext_get {m m' : Memory α} (hm : Memory.wf m) (hm' : Memory.wf m')
    (h : ∀ a, Memory.get m a = Memory.get m' a) : m = m' := by
  induction m generalizing m' with
  | nil =>
    cases m' with
    | nil => rfl
    | cons c m' =>
      obtain ⟨k, v⟩ := c
      have := h k
      rw [Memory.get_cons, if_pos rfl] at this
      cases this
  | cons c m ih =>
    obtain ⟨k, v⟩ := c
    cases m' with
    | nil =>
      have := h k
      simp [Memory.get_cons] at this
    | cons c' m' =>
      obtain ⟨k', v'⟩ := c'
      have hm1 := List.pairwise_cons.mp hm
      have hm1' := List.pairwise_cons.mp hm'
      have hk : k = k' := by
        have h1 := h k
        have h2 := h k'
        rw [Memory.get_cons, if_pos rfl, Memory.get_cons] at h1
        rw [Memory.get_cons, Memory.get_cons, if_pos rfl] at h2
        by_contra hne
        rw [if_neg (Ne.symm hne)] at h1
        rw [if_neg hne] at h2
        have a1 : k' < k := hm1'.1 (k, v) (Memory.get_mem h1.symm)
        have a2 : k < k' := hm1.1 (k', v') (Memory.get_mem h2)
        omega
      subst hk
      have hv := h k
      rw [Memory.get_cons, if_pos rfl, Memory.get_cons, if_pos rfl] at hv
      cases hv
      congr 1
      refine ih hm1.2 hm1'.2 fun a => ?_
      have := h a
      rw [Memory.get_cons, Memory.get_cons] at this
      by_cases ha : k = a
      · subst ha
        rw [Memory.get_eq_none_of_forall, Memory.get_eq_none_of_forall]
        · intro c hc
          have : k < c.1 := hm1'.1 c hc
          omega
        · intro c hc
          have : k < c.1 := hm1.1 c hc
          omega
      · rwa [if_neg ha, if_neg ha] at this

/-! ## Holding a list of values -/

@[simp] theorem Memory.holds_nil (m : Memory α) (a : Nat) : Memory.holds m a [] := trivial

theorem Memory.holds_cons (m : Memory α) (a : Nat) (x : α) (xs : List α) :
    Memory.holds m a (x :: xs) ↔ Memory.get m a = some x ∧ Memory.holds m (a + 1) xs := Iff.rfl

theorem Memory.holds_iff (m : Memory α) (a : Nat) (xs : List α) :
    Memory.holds m a xs ↔ ∀ i, i < xs.length → Memory.get m (a + i) = xs[i]? := by
  induction xs generalizing a with
  | nil => simp
  | cons x xs ih =>
    rw [Memory.holds_cons, ih]
    constructor
    · rintro ⟨h0, h⟩ i hi
      cases i with
      | zero => simpa using h0
      | succ i =>
        have := h i (by simpa using hi)
        rw [← Nat.add_right_comm, Nat.add_assoc] at this
        simpa using this
    · intro h
      refine ⟨by simpa using h 0 (by simp), fun i hi => ?_⟩
      have := h (i + 1) (by simpa using hi)
      rw [Nat.add_right_comm, Nat.add_assoc]
      simpa using this

theorem Memory.holds_append (m : Memory α) (a : Nat) (xs ys : List α) :
    Memory.holds m a (xs ++ ys) ↔ Memory.holds m a xs ∧ Memory.holds m (a + xs.length) ys := by
  induction xs generalizing a with
  | nil => simp
  | cons x xs ih =>
    simp only [List.cons_append, Memory.holds_cons, ih, List.length_cons, and_assoc]
    rw [show a + 1 + xs.length = a + (xs.length + 1) by omega]

theorem Memory.holds_cells (a : Nat) (xs : List α) : Memory.holds (Memory.cells a xs) a xs := by
  rw [Memory.holds_iff]
  intro i hi
  rw [Memory.get_cells, if_pos (by omega)]
  simp

theorem Memory.holds_write (m : Memory α) (a : Nat) (xs : List α) : Memory.holds (Memory.write m a xs) a xs := by
  rw [Memory.holds_iff]
  intro i hi
  rw [Memory.get_write, if_pos ⟨by omega, by omega⟩]
  simp

/-- Two lists of one length that the same storage holds are equal. -/
theorem Memory.holds_unique {m : Memory α} {a : Nat} {xs ys : List α} (hx : Memory.holds m a xs)
    (hy : Memory.holds m a ys) (h : xs.length = ys.length) : xs = ys := by
  rw [Memory.holds_iff] at hx hy
  refine List.ext_getElem? fun i => ?_
  by_cases hi : i < xs.length
  · rw [← hx i hi, ← hy i (h ▸ hi)]
  · rw [List.getElem?_eq_none (by omega), List.getElem?_eq_none (by omega)]

/-! ## Reading a range -/

/-- Reading a range the storage holds gives what it holds. -/
theorem readRange_of_holds (m : Memory α) (bad : Nat → Fault) (a : Nat) (xs : List α)
    (h : Memory.holds m a xs) : readRange m bad a xs.length = .ok xs := by
  induction xs generalizing a with
  | nil => rfl
  | cons x xs ih =>
    rw [Memory.holds_cons] at h
    simp only [List.length_cons, readRange, h.1, ih (a + 1) h.2]
    rfl

/-- What reading a range can answer: the values it holds, or the fault of an unwritten address in it. -/
theorem readRange_cases (m : Memory α) (bad : Nat → Fault) (a n : Nat) :
    (∃ xs, readRange m bad a n = .ok xs ∧ xs.length = n ∧ Memory.holds m a xs) ∨
    (∃ b, a ≤ b ∧ b < a + n ∧ Memory.get m b = none ∧ readRange m bad a n = .error (.fault (bad b))) := by
  induction n generalizing a with
  | zero => exact .inl ⟨[], rfl, rfl, trivial⟩
  | succ n ih =>
    cases h : Memory.get m a with
    | none => exact .inr ⟨a, le_refl a, by omega, h, by simp [readRange, h]⟩
    | some x =>
      rcases ih (a + 1) with ⟨xs, hr, hl, hh⟩ | ⟨b, h1, h2, h3, h4⟩
      · refine .inl ⟨x :: xs, ?_, by simp [hl], ⟨h, hh⟩⟩
        simp only [readRange, h, hr]
        rfl
      · refine .inr ⟨b, by omega, by omega, h3, ?_⟩
        simp only [readRange, h, h4]
        rfl

theorem readRange_ok {m : Memory α} {bad : Nat → Fault} {a n : Nat} {xs : List α}
    (h : readRange m bad a n = .ok xs) : xs.length = n ∧ Memory.holds m a xs := by
  rcases readRange_cases m bad a n with ⟨ys, hr, hl, hh⟩ | ⟨b, _, _, _, hr⟩
  · rw [hr] at h
    cases h
    exact ⟨hl, hh⟩
  · rw [hr] at h
    cases h

/-- Reading a range never raises a command error. -/
theorem readRange_error {m : Memory α} {bad : Nat → Fault} {a n : Nat} {e : Stop}
    (h : readRange m bad a n = .error e) : ∃ b, e = .fault (bad b) := by
  rcases readRange_cases m bad a n with ⟨ys, hr, _, _⟩ | ⟨b, _, _, _, hr⟩
  · rw [hr] at h
    cases h
  · rw [hr] at h
    cases h
    exact ⟨b, rfl⟩

/-- A range whose written part ends inside it faults at the first unwritten element (70_reset R376). -/
theorem readRange_unwritten (m : Memory α) (bad : Nat → Fault) (a n : Nat) (xs : List α) (h : Memory.holds m a xs)
    (hu : Memory.get m (a + xs.length) = none) (hn : xs.length < n) :
    readRange m bad a n = .error (.fault (bad (a + xs.length))) := by
  induction xs generalizing a n with
  | nil =>
    obtain ⟨n, rfl⟩ := Nat.exists_eq_succ_of_ne_zero (Nat.pos_iff_ne_zero.mp hn)
    simp only [List.length_nil, Nat.add_zero] at hu ⊢
    simp only [readRange, hu]
  | cons x xs ih =>
    obtain ⟨n, rfl⟩ := Nat.exists_eq_succ_of_ne_zero (Nat.pos_iff_ne_zero.mp (Nat.lt_of_le_of_lt (Nat.zero_le _) hn))
    have ha : a + (x :: xs).length = a + 1 + xs.length := by simp; omega
    rw [ha] at hu ⊢
    have hn : xs.length < n := by simpa using hn
    simp only [readRange, h.1, ih (a + 1) n h.2 hu hn]
    rfl

/-! ## The reset state -/

/-- The storage of the reset state has the canonical form. -/
theorem reset_storage_wf :
    Memory.wf State.reset.inp.mem ∧ Memory.wf State.reset.out.mem ∧ Memory.wf State.reset.bits.mem ∧
    Memory.wf State.reset.payload.mem ∧ Memory.wf State.reset.codes.mem ∧
    Memory.wf State.reset.freq.table ∧ Memory.wf State.reset.ctab.codes :=
  ⟨.nil, .nil, .nil, .nil, .nil, .nil, .nil⟩

theorem outBuffer_wf (xs : List Byte) : Memory.wf (outBuffer xs).mem := Memory.cells_wf 0 xs

theorem Buffer.store_wf {b : Buffer α} (hb : Memory.wf b.mem) (xs : List α) (n : Nat) :
    Memory.wf (Buffer.store b xs n).mem := Memory.write_wf hb 0 xs

end Sys2Proof.Machine
end

