-- ==== Sys2Proof/Laws/Run.lean ====
section
/-! SUPPORT. What the shared pieces of a command's rule can answer: a check, a sequence of computations, the end of a
rule, a composite's next step, a completion. -/

namespace Sys2Proof.Machine

variable {α β : Type}

/-! ## Computations -/

theorem run_bind_ok (x : Run α) (f : α → Run β) (b : β) :
    (x >>= f) = .ok b ↔ ∃ a, x = .ok a ∧ f a = .ok b := by
  cases x with
  | ok a => exact ⟨fun h => ⟨a, rfl, h⟩, fun ⟨_, h, h'⟩ => by cases h; exact h'⟩
  | error e =>
    refine ⟨fun h => ?_, fun ⟨_, h, _⟩ => by cases h⟩
    cases h

theorem run_bind_error (x : Run α) (f : α → Run β) (e : Stop) :
    (x >>= f) = .error e ↔ x = .error e ∨ ∃ a, x = .ok a ∧ f a = .error e := by
  cases x with
  | ok a =>
    refine ⟨fun h => .inr ⟨a, rfl, h⟩, fun h => ?_⟩
    rcases h with h | ⟨_, h, h'⟩
    · cases h
    · cases h
      exact h'
  | error e' =>
    refine ⟨fun h => ?_, fun h => ?_⟩
    · cases h
      exact .inl rfl
    · rcases h with h | ⟨_, h, _⟩
      · cases h
        rfl
      · cases h

@[simp] theorem run_ok_bind (a : α) (f : α → Run β) : ((.ok a : Run α) >>= f) = f a := rfl

@[simp] theorem run_error_bind (e : Stop) (f : α → Run β) : ((.error e : Run α) >>= f) = .error e := rfl

@[simp] theorem run_pure (a : α) : (pure a : Run α) = .ok a := rfl

theorem check_ok (c : Bool) (code : ErrCode) (info : Nat) (u : Unit) :
    check c code info = .ok u ↔ c = true := by
  cases c <;> simp [check]

theorem check_error (c : Bool) (code : ErrCode) (info : Nat) (e : Stop) :
    check c code info = .error e ↔ c = false ∧ e = .error code info := by
  cases c <;> simp [check, eq_comm]

@[simp] theorem check_true (code : ErrCode) (info : Nat) : check true code info = .ok () := rfl

@[simp] theorem check_false (code : ErrCode) (info : Nat) : check false code info = .error (.error code info) := rfl

/-! ## The end of a rule -/

@[simp] theorem ofRun_ok (sub : Byte) (sErr : State) (a : α) (keep : α → State) :
    Ending.ofRun sub sErr (.ok a) keep = .done (keep a) := rfl

@[simp] theorem ofRun_error (sub : Byte) (sErr : State) (code : ErrCode) (info : Nat) (keep : α → State) :
    Ending.ofRun sub sErr (.error (.error code info)) keep = .raised code info sub sErr := rfl

@[simp] theorem ofRun_fault (sub : Byte) (sErr : State) (f : Fault) (keep : α → State) :
    Ending.ofRun sub sErr (.error (.fault f)) keep = .fault f := rfl

/-- Everything the end of a rule can be. -/
theorem ofRun_cases (sub : Byte) (sErr : State) (r : Run α) (keep : α → State) :
    (∃ a, r = .ok a ∧ Ending.ofRun sub sErr r keep = .done (keep a)) ∨
    (∃ code info, r = .error (.error code info) ∧ Ending.ofRun sub sErr r keep = .raised code info sub sErr) ∨
    (∃ f, r = .error (.fault f) ∧ Ending.ofRun sub sErr r keep = .fault f) := by
  match r with
  | .ok a => exact .inl ⟨a, rfl, rfl⟩
  | .error (.error code info) => exact .inr (.inl ⟨code, info, rfl, rfl⟩)
  | .error (.fault f) => exact .inr (.inr ⟨f, rfl, rfl⟩)

theorem ofRun_eq_done {sub : Byte} {sErr : State} {r : Run α} {keep : α → State} {s' : State}
    (h : Ending.ofRun sub sErr r keep = .done s') : ∃ a, r = .ok a ∧ s' = keep a := by
  rcases ofRun_cases sub sErr r keep with ⟨a, hr, he⟩ | ⟨_, _, _, he⟩ | ⟨_, _, he⟩
  · rw [he] at h
    cases h
    exact ⟨a, hr, rfl⟩
  · rw [he] at h
    cases h
  · rw [he] at h
    cases h

theorem ofRun_eq_raised {sub sub' : Byte} {sErr : State} {r : Run α} {keep : α → State} {s' : State}
    {code : ErrCode} {info : Nat} (h : Ending.ofRun sub sErr r keep = .raised code info sub' s') :
    r = .error (.error code info) ∧ sub' = sub ∧ s' = sErr := by
  rcases ofRun_cases sub sErr r keep with ⟨a, hr, he⟩ | ⟨_, _, hr, he⟩ | ⟨_, _, he⟩
  · rw [he] at h
    cases h
  · rw [he] at h
    cases h
    exact ⟨hr, rfl, rfl⟩
  · rw [he] at h
    cases h

/-- The state an ending leaves, if it is not a fault. -/
def Ending.state? : Ending → Option State
  | .done s => some s
  | .raised _ _ _ s => some s
  | .fault _ => none

/-! ## Composites -/

@[simp] theorem andThen_done (s : State) (f : State → Ending) : (Ending.done s).andThen f = f s := rfl

@[simp] theorem andThen_raised (c : ErrCode) (i : Nat) (b : Byte) (s : State) (f : State → Ending) :
    (Ending.raised c i b s).andThen f = .raised c i b s := rfl

@[simp] theorem andThen_fault (x : Fault) (f : State → Ending) : (Ending.fault x).andThen f = .fault x := rfl

theorem andThen_eq_done {e : Ending} {f : State → Ending} {s' : State} (h : e.andThen f = .done s') :
    ∃ s, e = .done s ∧ f s = .done s' := by
  cases e with
  | done s => exact ⟨s, rfl, h⟩
  | raised _ _ _ _ => cases h
  | fault _ => cases h

theorem andThen_eq_raised {e : Ending} {f : State → Ending} {c : ErrCode} {i : Nat} {b : Byte} {s' : State}
    (h : e.andThen f = .raised c i b s') :
    e = .raised c i b s' ∨ ∃ s, e = .done s ∧ f s = .raised c i b s' := by
  cases e with
  | done s => exact .inr ⟨s, rfl, h⟩
  | raised _ _ _ _ => exact .inl h
  | fault _ => cases h

/-- A relation between the state before and the state left by each step, kept along a composite. -/
theorem andThen_state_rel {R : State → State → Prop} (htrans : ∀ a b c, R a b → R b c → R a c)
    {s : State} {e : Ending} {f : State → Ending}
    (he : ∀ t, e.state? = some t → R s t) (hf : ∀ a t, (f a).state? = some t → R a t) :
    ∀ t, (e.andThen f).state? = some t → R s t := by
  intro t ht
  cases e with
  | done a => exact htrans s a t (he a rfl) (hf a t ht)
  | raised c i b a => exact he t ht
  | fault x => cases ht

/-! ## Completion -/

@[simp] theorem complete_done (opc : Byte) (s : State) : complete opc (.done s) = .next (completeOk s) := rfl

@[simp] theorem complete_raised (opc : Byte) (c : ErrCode) (i : Nat) (b : Byte) (s : State) :
    complete opc (.raised c i b s) = .next (completeError c i opc b s) := rfl

@[simp] theorem complete_fault (opc : Byte) (f : Fault) : complete opc (.fault f) = .fault f := rfl

/-- Everything a completion that answers a next state can be (60_exceptions R341). -/
theorem complete_eq_next {opc : Byte} {e : Ending} {t : State} (h : complete opc e = .next t) :
    (∃ s, e = .done s ∧ t = completeOk s) ∨
    (∃ c i b s, e = .raised c i b s ∧ t = completeError c i opc b s) := by
  cases e with
  | done s =>
    cases h
    exact .inl ⟨s, rfl, rfl⟩
  | raised c i b s =>
    cases h
    exact .inr ⟨c, i, b, s, rfl, rfl⟩
  | fault f => cases h

/-- A completion never refuses. -/
theorem complete_ne_refused (opc : Byte) (e : Ending) (r : Refusal) : complete opc e ≠ .refused r := by
  cases e <;> intro h <;> cases h

end Sys2Proof.Machine
end

