-- ==== Sys2Proof/Laws/Operands.lean ====
section
/-! SUPPORT. What the operand reads of Machine/Operands.lean answer: the values the storage holds, and otherwise a fault,
never an error. -/

namespace Sys2Proof.Machine

/-! ## IN -/

theorem readIn_ok (s : State) (i : Nat) (b : Byte) : readIn s i = .ok b ↔ Memory.get s.inp.mem i = some b := by
  unfold readIn
  split <;> simp_all

theorem readIn_error {s : State} {i : Nat} {e : Stop} (h : readIn s i = .error e) : e = .fault (.unwrittenIn i) := by
  unfold readIn at h
  split at h <;> simp_all

theorem readIn_of_inText {s : State} {x : List Byte} (h : inText s x) {i : Nat} {b : Byte} (hb : x[i]? = some b) :
    readIn s i = .ok b := by
  rw [readIn_ok, ← hb, ← (Memory.holds_iff _ _ _).mp h.2 i (List.getElem?_eq_some_iff.mp hb).1, Nat.zero_add]

/-- IN[a : a + n] of the text. -/
theorem readInRange_of_inText {s : State} {x : List Byte} (h : inText s x) {a n : Nat} (hn : a + n ≤ x.length) :
    readInRange s a n = .ok ((x.drop a).take n) := by
  have hl : ((x.drop a).take n).length = n := by simp; omega
  have hh : Memory.holds s.inp.mem a ((x.drop a).take n) := by
    rw [Memory.holds_iff]
    intro i hi
    have := (Memory.holds_iff _ _ _).mp h.2 (a + i) (by omega)
    rw [Nat.zero_add] at this
    rw [this, List.getElem?_take_of_lt (by omega), List.getElem?_drop]
  have hr := readRange_of_holds s.inp.mem .unwrittenIn a _ hh
  rw [hl] at hr
  exact hr

theorem readInRange_error {s : State} {a n : Nat} {e : Stop} (h : readInRange s a n = .error e) :
    ∃ i, e = .fault (.unwrittenIn i) := readRange_error h

/-- Two states whose IN holds the same text read it alike. -/
theorem readIn_congr {s t : State} {x : List Byte} (hs : inText s x) (ht : inText t x) {i : Nat} (hi : i < x.length) :
    readIn s i = readIn t i := by
  rw [readIn_of_inText hs (List.getElem?_eq_getElem hi), readIn_of_inText ht (List.getElem?_eq_getElem hi)]

/-! ## PAYLOAD -/

theorem readPayload_of_payloadText {s : State} {x : List Byte} (h : payloadText s x) :
    readPayload s x.length = .ok x := readRange_of_holds _ _ _ _ h.2

theorem readPayload_error {s : State} {n : Nat} {e : Stop} (h : readPayload s n = .error e) :
    ∃ i, e = .fault (.unwrittenPayload i) := readRange_error h

/-! ## BITS -/

theorem readBit_error {s : State} {i : Nat} {e : Stop} (h : readBit s i = .error e) :
    e = .fault (.unwrittenBits (i / 8)) := by
  unfold readBit at h
  split at h <;> simp_all

/-- BITS[i] of the string. -/
theorem readBit_of_bitText {s : State} {b : BitString} (h : bitText s b) {i : Nat} (hi : i < b.length) :
    readBit s i = .ok (b.getD i false) := by
  obtain ⟨y, hy, hb⟩ := h.2 i hi
  rw [readBit, hy, List.getD_eq_getElem?_getD, hb]
  rfl

/-- BITS[0:n] of the string. -/
theorem readBitString_of_bitText {s : State} {b : BitString} (h : bitText s b) :
    readBitString s b.length = .ok b := by
  have hex : ∃ xs, xs.length = ceilDiv8 b.length ∧ Memory.holds s.bits.mem 0 xs := by
    refine ⟨(List.range (ceilDiv8 b.length)).map fun j => (Memory.get s.bits.mem j).getD 0, by simp, ?_⟩
    rw [Memory.holds_iff]
    intro j hj
    simp only [List.length_map, List.length_range] at hj
    have hlt : 8 * j < b.length := by unfold ceilDiv8 at hj; omega
    obtain ⟨y, hy, -⟩ := h.2 (8 * j) hlt
    rw [Nat.mul_div_cancel_left _ (by omega)] at hy
    simp [hy, hj]
  obtain ⟨xs, hl, hh⟩ := hex
  unfold readBitString
  rw [← hl, readRange_of_holds _ _ _ _ hh, run_ok_bind, run_pure]
  congr 1
  refine List.ext_getElem? fun i => ?_
  by_cases hi : i < b.length
  · obtain ⟨y, hy, hb⟩ := h.2 i hi
    have hj : i / 8 < xs.length := by rw [hl]; unfold ceilDiv8; omega
    have := (Memory.holds_iff _ _ _).mp hh (i / 8) hj
    rw [Nat.zero_add, hy] at this
    rw [List.getElem?_take_of_lt hi, bitsOfBytes_getElem?, ← this, hb]
    rfl
  · rw [List.getElem?_eq_none (by simp; omega), List.getElem?_eq_none (by omega)]

theorem readBitString_error {s : State} {n : Nat} {e : Stop} (h : readBitString s n = .error e) :
    ∃ i, e = .fault (.unwrittenBits i) := by
  unfold readBitString at h
  rcases (run_bind_error _ _ _).mp h with h | ⟨_, _, h⟩
  · exact readRange_error h
  · cases h

/-- A string read from BITS has the length asked for and is what BITS holds. -/
theorem readBitString_ok {s : State} {n : Nat} {b : BitString} (hn : s.bits.len.toNat = n)
    (h : readBitString s n = .ok b) : b.length = n ∧ bitText s b := by
  unfold readBitString at h
  obtain ⟨xs, hx, hb⟩ := (run_bind_ok _ _ _).mp h
  obtain ⟨hl, hh⟩ := readRange_ok hx
  simp only [run_pure, Except.ok.injEq] at hb
  have hlen : b.length = n := by
    rw [← hb, List.length_take, bitsOfBytes_length, hl, Nat.min_eq_left]
    unfold ceilDiv8
    omega
  refine ⟨hlen, by omega, fun i hi => ?_⟩
  have hj : i / 8 < xs.length := by rw [hl]; unfold ceilDiv8; omega
  have hg := (Memory.holds_iff _ _ _).mp hh (i / 8) hj
  rw [Nat.zero_add, List.getElem?_eq_getElem hj] at hg
  refine ⟨_, hg, ?_⟩
  rw [← hb, List.getElem?_take_of_lt (by omega), bitsOfBytes_getElem?, List.getElem?_eq_getElem hj]
  rfl

/-! ## CODES -/

theorem readCode_ok (s : State) (j : Nat) (w : Word) : readCode s j = .ok w ↔ codeAt s j = some w := by
  unfold readCode
  split <;> simp_all

theorem readCode_error {s : State} {j : Nat} {e : Stop} (h : readCode s j = .error e) :
    e = .fault (.unwrittenCodes j) := by
  unfold readCode at h
  split at h <;> simp_all

theorem readCodes_ok (s : State) (j n : Nat) (ws : List Word) :
    readCodes s j n = .ok ws ↔ ws.length = n ∧ ∀ i, i < n → codeAt s (j + i) = ws[i]? := by
  induction n generalizing j ws with
  | zero => simp [readCodes, eq_comm (a := [])]
  | succ n ih =>
    simp only [readCodes, run_bind_ok, readCode_ok, ih, run_pure, Except.ok.injEq]
    constructor
    · rintro ⟨w, hw, us, ⟨hl, hu⟩, rfl⟩
      refine ⟨by simp [hl], fun i hi => ?_⟩
      cases i with
      | zero => simpa using hw
      | succ i => simpa [Nat.add_assoc, Nat.add_comm 1] using hu i (by omega)
    · rintro ⟨hl, hw⟩
      cases ws with
      | nil => simp at hl
      | cons w us =>
        refine ⟨w, by simpa using hw 0 (by omega), us, ⟨by simpa using hl, fun i hi => ?_⟩, rfl⟩
        simpa [Nat.add_assoc, Nat.add_comm 1] using hw (i + 1) (by omega)

theorem readCodes_error {s : State} {j n : Nat} {e : Stop} (h : readCodes s j n = .error e) :
    ∃ i, e = .fault (.unwrittenCodes i) := by
  induction n generalizing j with
  | zero => cases h
  | succ n ih =>
    simp only [readCodes, run_bind_error] at h
    rcases h with h | ⟨_, _, h | ⟨_, _, h⟩⟩
    · exact ⟨j, readCode_error h⟩
    · exact ih h
    · cases h

theorem readCodes_of_codeList {s : State} {ws : List Word} (h : codeList s ws) :
    readCodes s 0 ws.length = .ok ws := by
  rw [readCodes_ok]
  exact ⟨rfl, fun i hi => by simpa using h.2 i hi⟩

/-! ## The code table -/

/-- The symbol whose code is p, in a table that meets its part of the invariant. -/
theorem symbolOf_eq_some {t : CodeTable} (ht : CtabOk t) {p : BitString} {c : Byte} :
    symbolOf t p = some c ↔ codeOf t c = p ∧ p ≠ [] := by
  constructor
  · intro h
    unfold symbolOf at h
    split at h
    · rename_i e he
      have hm := List.mem_of_find?_eq_some he
      have hp : e.2 = p := by simpa using List.find?_some he
      have hs := ht.symbols e hm
      have hl := ht.lengths e hm
      have hc : c = BitVec.ofNat 8 e.1 := by simpa using h.symm
      have hcn : c.toNat = e.1 := by rw [hc, BitVec.toNat_ofNat, Nat.mod_eq_of_lt hs]
      refine ⟨?_, fun hn => ?_⟩
      · rw [codeOf, hcn, Memory.get_of_mem ht.canon (show (e.1, e.2) ∈ t.codes from hm), hp]
        rfl
      · rw [hp, hn] at hl
        simp at hl
    · cases h
  · rintro ⟨hc, hp⟩
    unfold codeOf at hc
    cases hg : Memory.get t.codes c.toNat with
    | none => rw [hg] at hc; exact absurd hc.symm hp
    | some q =>
      rw [hg] at hc
      have hq : q = p := hc
      subst hq
      have hm := Memory.get_mem hg
      unfold symbolOf
      cases hf : t.codes.find? (fun e => e.2 == q) with
      | none => simpa using List.find?_eq_none.mp hf _ hm
      | some e =>
        have he := List.mem_of_find?_eq_some hf
        have hq' : e.2 = q := by simpa using List.find?_some hf
        have : e.1 = c.toNat := by
          by_contra hne
          exact ht.free e he _ hm hne (by rw [hq'])
        simp [this]

theorem symbolOf_eq_none {t : CodeTable} (ht : CtabOk t) {p : BitString} :
    symbolOf t p = none ↔ ∀ c, codeOf t c ≠ [] → codeOf t c ≠ p := by
  constructor
  · intro h c hc hp
    rw [(symbolOf_eq_some ht).mpr ⟨hp, hp ▸ hc⟩] at h
    cases h
  · intro h
    cases hs : symbolOf t p with
    | none => rfl
    | some c =>
      obtain ⟨h1, h2⟩ := (symbolOf_eq_some ht).mp hs
      exact absurd h1 (h c (h1 ▸ h2))

/-- No code is a prefix of another symbol's code (10_state R50). -/
theorem codeOf_prefixFree {t : CodeTable} (ht : CtabOk t) {c d : Byte} (hc : codeOf t c ≠ []) (hd : codeOf t d ≠ [])
    (h : codeOf t c <+: codeOf t d) : c = d := by
  unfold codeOf at *
  cases hg : Memory.get t.codes c.toNat with
  | none => simp [hg] at hc
  | some p =>
    cases hg' : Memory.get t.codes d.toNat with
    | none => simp [hg'] at hd
    | some q =>
      rw [hg, hg'] at h
      by_contra hne
      exact ht.free _ (Memory.get_mem hg) _ (Memory.get_mem hg') (fun he => hne (BitVec.eq_of_toNat_eq he)) h

end Sys2Proof.Machine
end

