-- ==== Sys2Proof/Laws/State.lean ====
section
/-! SUPPORT. One lemma per field per named update of the state, true by rfl. -/

namespace Sys2Proof.Machine

/-! ## accept -/

@[simp] theorem accept_caps (w : Word) (s : State) : (accept w s).caps = s.caps := rfl
@[simp] theorem accept_inp (w : Word) (s : State) : (accept w s).inp = s.inp := rfl
@[simp] theorem accept_out (w : Word) (s : State) : (accept w s).out = s.out := rfl
@[simp] theorem accept_bits (w : Word) (s : State) : (accept w s).bits = s.bits := rfl
@[simp] theorem accept_payload (w : Word) (s : State) : (accept w s).payload = s.payload := rfl
@[simp] theorem accept_codes (w : Word) (s : State) : (accept w s).codes = s.codes := rfl
@[simp] theorem accept_pad (w : Word) (s : State) : (accept w s).pad = s.pad := rfl
@[simp] theorem accept_freq (w : Word) (s : State) : (accept w s).freq = s.freq := rfl
@[simp] theorem accept_rank (w : Word) (s : State) : (accept w s).rank = s.rank := rfl
@[simp] theorem accept_tree (w : Word) (s : State) : (accept w s).tree = s.tree := rfl
@[simp] theorem accept_ctab (w : Word) (s : State) : (accept w s).ctab = s.ctab := rfl
@[simp] theorem accept_dict (w : Word) (s : State) : (accept w s).dict = s.dict := rfl
@[simp] theorem accept_artKind (w : Word) (s : State) : (accept w s).artKind = s.artKind := rfl
@[simp] theorem accept_sizes (w : Word) (s : State) : (accept w s).sizes = s.sizes := rfl
@[simp] theorem accept_host (w : Word) (s : State) : (accept w s).host = s.host := rfl
@[simp] theorem accept_turns (w : Word) (s : State) : (accept w s).turns = s.turns := rfl
@[simp] theorem accept_resetCount (w : Word) (s : State) : (accept w s).resetCount = s.resetCount := rfl
@[simp] theorem accept_scrubs (w : Word) (s : State) : (accept w s).scrubs = s.scrubs := rfl

/-! ## completeOk -/

@[simp] theorem completeOk_caps (s : State) : (completeOk s).caps = s.caps := rfl
@[simp] theorem completeOk_inp (s : State) : (completeOk s).inp = s.inp := rfl
@[simp] theorem completeOk_out (s : State) : (completeOk s).out = s.out := rfl
@[simp] theorem completeOk_bits (s : State) : (completeOk s).bits = s.bits := rfl
@[simp] theorem completeOk_payload (s : State) : (completeOk s).payload = s.payload := rfl
@[simp] theorem completeOk_codes (s : State) : (completeOk s).codes = s.codes := rfl
@[simp] theorem completeOk_pad (s : State) : (completeOk s).pad = s.pad := rfl
@[simp] theorem completeOk_freq (s : State) : (completeOk s).freq = s.freq := rfl
@[simp] theorem completeOk_rank (s : State) : (completeOk s).rank = s.rank := rfl
@[simp] theorem completeOk_tree (s : State) : (completeOk s).tree = s.tree := rfl
@[simp] theorem completeOk_ctab (s : State) : (completeOk s).ctab = s.ctab := rfl
@[simp] theorem completeOk_dict (s : State) : (completeOk s).dict = s.dict := rfl
@[simp] theorem completeOk_artKind (s : State) : (completeOk s).artKind = s.artKind := rfl
@[simp] theorem completeOk_sizes (s : State) : (completeOk s).sizes = s.sizes := rfl
@[simp] theorem completeOk_host (s : State) : (completeOk s).host = s.host := rfl
@[simp] theorem completeOk_turns (s : State) : (completeOk s).turns = s.turns := rfl
@[simp] theorem completeOk_resetCount (s : State) : (completeOk s).resetCount = s.resetCount := rfl
@[simp] theorem completeOk_scrubs (s : State) : (completeOk s).scrubs = s.scrubs := rfl

/-! ## completeError -/

@[simp] theorem completeError_caps (code : ErrCode) (info : Nat) (opc sub : Byte) (s : State) : (completeError code info opc sub s).caps = s.caps := rfl
@[simp] theorem completeError_inp (code : ErrCode) (info : Nat) (opc sub : Byte) (s : State) : (completeError code info opc sub s).inp = s.inp := rfl
@[simp] theorem completeError_out (code : ErrCode) (info : Nat) (opc sub : Byte) (s : State) : (completeError code info opc sub s).out = s.out := rfl
@[simp] theorem completeError_bits (code : ErrCode) (info : Nat) (opc sub : Byte) (s : State) : (completeError code info opc sub s).bits = s.bits := rfl
@[simp] theorem completeError_payload (code : ErrCode) (info : Nat) (opc sub : Byte) (s : State) : (completeError code info opc sub s).payload = s.payload := rfl
@[simp] theorem completeError_codes (code : ErrCode) (info : Nat) (opc sub : Byte) (s : State) : (completeError code info opc sub s).codes = s.codes := rfl
@[simp] theorem completeError_pad (code : ErrCode) (info : Nat) (opc sub : Byte) (s : State) : (completeError code info opc sub s).pad = s.pad := rfl
@[simp] theorem completeError_freq (code : ErrCode) (info : Nat) (opc sub : Byte) (s : State) : (completeError code info opc sub s).freq = s.freq := rfl
@[simp] theorem completeError_rank (code : ErrCode) (info : Nat) (opc sub : Byte) (s : State) : (completeError code info opc sub s).rank = s.rank := rfl
@[simp] theorem completeError_tree (code : ErrCode) (info : Nat) (opc sub : Byte) (s : State) : (completeError code info opc sub s).tree = s.tree := rfl
@[simp] theorem completeError_ctab (code : ErrCode) (info : Nat) (opc sub : Byte) (s : State) : (completeError code info opc sub s).ctab = s.ctab := rfl
@[simp] theorem completeError_dict (code : ErrCode) (info : Nat) (opc sub : Byte) (s : State) : (completeError code info opc sub s).dict = s.dict := rfl
@[simp] theorem completeError_artKind (code : ErrCode) (info : Nat) (opc sub : Byte) (s : State) : (completeError code info opc sub s).artKind = s.artKind := rfl
@[simp] theorem completeError_sizes (code : ErrCode) (info : Nat) (opc sub : Byte) (s : State) : (completeError code info opc sub s).sizes = s.sizes := rfl
@[simp] theorem completeError_host (code : ErrCode) (info : Nat) (opc sub : Byte) (s : State) : (completeError code info opc sub s).host = s.host := rfl
@[simp] theorem completeError_turns (code : ErrCode) (info : Nat) (opc sub : Byte) (s : State) : (completeError code info opc sub s).turns = s.turns := rfl
@[simp] theorem completeError_resetCount (code : ErrCode) (info : Nat) (opc sub : Byte) (s : State) : (completeError code info opc sub s).resetCount = s.resetCount := rfl
@[simp] theorem completeError_scrubs (code : ErrCode) (info : Nat) (opc sub : Byte) (s : State) : (completeError code info opc sub s).scrubs = s.scrubs := rfl

/-! ## completeIllegal -/

@[simp] theorem completeIllegal_caps (s : State) : (completeIllegal s).caps = s.caps := rfl
@[simp] theorem completeIllegal_inp (s : State) : (completeIllegal s).inp = s.inp := rfl
@[simp] theorem completeIllegal_out (s : State) : (completeIllegal s).out = s.out := rfl
@[simp] theorem completeIllegal_bits (s : State) : (completeIllegal s).bits = s.bits := rfl
@[simp] theorem completeIllegal_payload (s : State) : (completeIllegal s).payload = s.payload := rfl
@[simp] theorem completeIllegal_codes (s : State) : (completeIllegal s).codes = s.codes := rfl
@[simp] theorem completeIllegal_pad (s : State) : (completeIllegal s).pad = s.pad := rfl
@[simp] theorem completeIllegal_freq (s : State) : (completeIllegal s).freq = s.freq := rfl
@[simp] theorem completeIllegal_rank (s : State) : (completeIllegal s).rank = s.rank := rfl
@[simp] theorem completeIllegal_tree (s : State) : (completeIllegal s).tree = s.tree := rfl
@[simp] theorem completeIllegal_ctab (s : State) : (completeIllegal s).ctab = s.ctab := rfl
@[simp] theorem completeIllegal_dict (s : State) : (completeIllegal s).dict = s.dict := rfl
@[simp] theorem completeIllegal_artKind (s : State) : (completeIllegal s).artKind = s.artKind := rfl
@[simp] theorem completeIllegal_sizes (s : State) : (completeIllegal s).sizes = s.sizes := rfl
@[simp] theorem completeIllegal_host (s : State) : (completeIllegal s).host = s.host := rfl
@[simp] theorem completeIllegal_turns (s : State) : (completeIllegal s).turns = s.turns := rfl
@[simp] theorem completeIllegal_resetCount (s : State) : (completeIllegal s).resetCount = s.resetCount := rfl
@[simp] theorem completeIllegal_scrubs (s : State) : (completeIllegal s).scrubs = s.scrubs := rfl

/-! ## setWbusy -/

@[simp] theorem setWbusy_caps (s : State) : (setWbusy s).caps = s.caps := rfl
@[simp] theorem setWbusy_inp (s : State) : (setWbusy s).inp = s.inp := rfl
@[simp] theorem setWbusy_out (s : State) : (setWbusy s).out = s.out := rfl
@[simp] theorem setWbusy_bits (s : State) : (setWbusy s).bits = s.bits := rfl
@[simp] theorem setWbusy_payload (s : State) : (setWbusy s).payload = s.payload := rfl
@[simp] theorem setWbusy_codes (s : State) : (setWbusy s).codes = s.codes := rfl
@[simp] theorem setWbusy_pad (s : State) : (setWbusy s).pad = s.pad := rfl
@[simp] theorem setWbusy_freq (s : State) : (setWbusy s).freq = s.freq := rfl
@[simp] theorem setWbusy_rank (s : State) : (setWbusy s).rank = s.rank := rfl
@[simp] theorem setWbusy_tree (s : State) : (setWbusy s).tree = s.tree := rfl
@[simp] theorem setWbusy_ctab (s : State) : (setWbusy s).ctab = s.ctab := rfl
@[simp] theorem setWbusy_dict (s : State) : (setWbusy s).dict = s.dict := rfl
@[simp] theorem setWbusy_artKind (s : State) : (setWbusy s).artKind = s.artKind := rfl
@[simp] theorem setWbusy_sizes (s : State) : (setWbusy s).sizes = s.sizes := rfl
@[simp] theorem setWbusy_host (s : State) : (setWbusy s).host = s.host := rfl
@[simp] theorem setWbusy_turns (s : State) : (setWbusy s).turns = s.turns := rfl
@[simp] theorem setWbusy_resetCount (s : State) : (setWbusy s).resetCount = s.resetCount := rfl
@[simp] theorem setWbusy_scrubs (s : State) : (setWbusy s).scrubs = s.scrubs := rfl

/-! ## storePacked -/

@[simp] theorem storePacked_ctl (s : State) (bytes : List Byte) (pad : Nat) : (storePacked s bytes pad).ctl = s.ctl := rfl
@[simp] theorem storePacked_caps (s : State) (bytes : List Byte) (pad : Nat) : (storePacked s bytes pad).caps = s.caps := rfl
@[simp] theorem storePacked_inp (s : State) (bytes : List Byte) (pad : Nat) : (storePacked s bytes pad).inp = s.inp := rfl
@[simp] theorem storePacked_out (s : State) (bytes : List Byte) (pad : Nat) : (storePacked s bytes pad).out = s.out := rfl
@[simp] theorem storePacked_bits (s : State) (bytes : List Byte) (pad : Nat) : (storePacked s bytes pad).bits = s.bits := rfl
@[simp] theorem storePacked_payload (s : State) (bytes : List Byte) (pad : Nat) : (storePacked s bytes pad).payload = Buffer.store s.payload bytes bytes.length := rfl
@[simp] theorem storePacked_codes (s : State) (bytes : List Byte) (pad : Nat) : (storePacked s bytes pad).codes = s.codes := rfl
@[simp] theorem storePacked_pad (s : State) (bytes : List Byte) (pad : Nat) : (storePacked s bytes pad).pad = BitVec.ofNat 3 pad := rfl
@[simp] theorem storePacked_freq (s : State) (bytes : List Byte) (pad : Nat) : (storePacked s bytes pad).freq = s.freq := rfl
@[simp] theorem storePacked_rank (s : State) (bytes : List Byte) (pad : Nat) : (storePacked s bytes pad).rank = s.rank := rfl
@[simp] theorem storePacked_tree (s : State) (bytes : List Byte) (pad : Nat) : (storePacked s bytes pad).tree = s.tree := rfl
@[simp] theorem storePacked_ctab (s : State) (bytes : List Byte) (pad : Nat) : (storePacked s bytes pad).ctab = s.ctab := rfl
@[simp] theorem storePacked_dict (s : State) (bytes : List Byte) (pad : Nat) : (storePacked s bytes pad).dict = s.dict := rfl
@[simp] theorem storePacked_artKind (s : State) (bytes : List Byte) (pad : Nat) : (storePacked s bytes pad).artKind = s.artKind := rfl
@[simp] theorem storePacked_sizes (s : State) (bytes : List Byte) (pad : Nat) : (storePacked s bytes pad).sizes = s.sizes := rfl
@[simp] theorem storePacked_host (s : State) (bytes : List Byte) (pad : Nat) : (storePacked s bytes pad).host = s.host := rfl
@[simp] theorem storePacked_turns (s : State) (bytes : List Byte) (pad : Nat) : (storePacked s bytes pad).turns = s.turns := rfl
@[simp] theorem storePacked_resetCount (s : State) (bytes : List Byte) (pad : Nat) : (storePacked s bytes pad).resetCount = s.resetCount := rfl
@[simp] theorem storePacked_scrubs (s : State) (bytes : List Byte) (pad : Nat) : (storePacked s bytes pad).scrubs = s.scrubs := rfl

/-! ## storeBits -/

@[simp] theorem storeBits_ctl (s : State) (b : BitString) : (storeBits s b).ctl = s.ctl := rfl
@[simp] theorem storeBits_caps (s : State) (b : BitString) : (storeBits s b).caps = s.caps := rfl
@[simp] theorem storeBits_inp (s : State) (b : BitString) : (storeBits s b).inp = s.inp := rfl
@[simp] theorem storeBits_out (s : State) (b : BitString) : (storeBits s b).out = s.out := rfl
@[simp] theorem storeBits_bits (s : State) (b : BitString) : (storeBits s b).bits = Buffer.store s.bits (packBytes (ceilDiv8 b.length) b) b.length := rfl
@[simp] theorem storeBits_payload (s : State) (b : BitString) : (storeBits s b).payload = s.payload := rfl
@[simp] theorem storeBits_codes (s : State) (b : BitString) : (storeBits s b).codes = s.codes := rfl
@[simp] theorem storeBits_pad (s : State) (b : BitString) : (storeBits s b).pad = s.pad := rfl
@[simp] theorem storeBits_freq (s : State) (b : BitString) : (storeBits s b).freq = s.freq := rfl
@[simp] theorem storeBits_rank (s : State) (b : BitString) : (storeBits s b).rank = s.rank := rfl
@[simp] theorem storeBits_tree (s : State) (b : BitString) : (storeBits s b).tree = s.tree := rfl
@[simp] theorem storeBits_ctab (s : State) (b : BitString) : (storeBits s b).ctab = s.ctab := rfl
@[simp] theorem storeBits_dict (s : State) (b : BitString) : (storeBits s b).dict = s.dict := rfl
@[simp] theorem storeBits_artKind (s : State) (b : BitString) : (storeBits s b).artKind = s.artKind := rfl
@[simp] theorem storeBits_sizes (s : State) (b : BitString) : (storeBits s b).sizes = s.sizes := rfl
@[simp] theorem storeBits_host (s : State) (b : BitString) : (storeBits s b).host = s.host := rfl
@[simp] theorem storeBits_turns (s : State) (b : BitString) : (storeBits s b).turns = s.turns := rfl
@[simp] theorem storeBits_resetCount (s : State) (b : BitString) : (storeBits s b).resetCount = s.resetCount := rfl
@[simp] theorem storeBits_scrubs (s : State) (b : BitString) : (storeBits s b).scrubs = s.scrubs := rfl

/-! ## storeOut -/

@[simp] theorem storeOut_ctl (s : State) (x : List Byte) : (storeOut s x).ctl = s.ctl := rfl
@[simp] theorem storeOut_caps (s : State) (x : List Byte) : (storeOut s x).caps = s.caps := rfl
@[simp] theorem storeOut_inp (s : State) (x : List Byte) : (storeOut s x).inp = s.inp := rfl
@[simp] theorem storeOut_out (s : State) (x : List Byte) : (storeOut s x).out = outBuffer x := rfl
@[simp] theorem storeOut_bits (s : State) (x : List Byte) : (storeOut s x).bits = s.bits := rfl
@[simp] theorem storeOut_payload (s : State) (x : List Byte) : (storeOut s x).payload = s.payload := rfl
@[simp] theorem storeOut_codes (s : State) (x : List Byte) : (storeOut s x).codes = s.codes := rfl
@[simp] theorem storeOut_pad (s : State) (x : List Byte) : (storeOut s x).pad = s.pad := rfl
@[simp] theorem storeOut_freq (s : State) (x : List Byte) : (storeOut s x).freq = s.freq := rfl
@[simp] theorem storeOut_rank (s : State) (x : List Byte) : (storeOut s x).rank = s.rank := rfl
@[simp] theorem storeOut_tree (s : State) (x : List Byte) : (storeOut s x).tree = s.tree := rfl
@[simp] theorem storeOut_ctab (s : State) (x : List Byte) : (storeOut s x).ctab = s.ctab := rfl
@[simp] theorem storeOut_dict (s : State) (x : List Byte) : (storeOut s x).dict = s.dict := rfl
@[simp] theorem storeOut_artKind (s : State) (x : List Byte) : (storeOut s x).artKind = s.artKind := rfl
@[simp] theorem storeOut_sizes (s : State) (x : List Byte) : (storeOut s x).sizes = s.sizes := rfl
@[simp] theorem storeOut_host (s : State) (x : List Byte) : (storeOut s x).host = s.host := rfl
@[simp] theorem storeOut_turns (s : State) (x : List Byte) : (storeOut s x).turns = s.turns := rfl
@[simp] theorem storeOut_resetCount (s : State) (x : List Byte) : (storeOut s x).resetCount = s.resetCount := rfl
@[simp] theorem storeOut_scrubs (s : State) (x : List Byte) : (storeOut s x).scrubs = s.scrubs := rfl

/-! ## storeCodeTable -/

@[simp] theorem storeCodeTable_ctl (s : State) (ps : List (Byte × BitString)) : (storeCodeTable s ps).ctl = s.ctl := rfl
@[simp] theorem storeCodeTable_caps (s : State) (ps : List (Byte × BitString)) : (storeCodeTable s ps).caps = s.caps := rfl
@[simp] theorem storeCodeTable_inp (s : State) (ps : List (Byte × BitString)) : (storeCodeTable s ps).inp = s.inp := rfl
@[simp] theorem storeCodeTable_out (s : State) (ps : List (Byte × BitString)) : (storeCodeTable s ps).out = s.out := rfl
@[simp] theorem storeCodeTable_bits (s : State) (ps : List (Byte × BitString)) : (storeCodeTable s ps).bits = s.bits := rfl
@[simp] theorem storeCodeTable_payload (s : State) (ps : List (Byte × BitString)) : (storeCodeTable s ps).payload = s.payload := rfl
@[simp] theorem storeCodeTable_codes (s : State) (ps : List (Byte × BitString)) : (storeCodeTable s ps).codes = s.codes := rfl
@[simp] theorem storeCodeTable_pad (s : State) (ps : List (Byte × BitString)) : (storeCodeTable s ps).pad = s.pad := rfl
@[simp] theorem storeCodeTable_freq (s : State) (ps : List (Byte × BitString)) : (storeCodeTable s ps).freq = s.freq := rfl
@[simp] theorem storeCodeTable_rank (s : State) (ps : List (Byte × BitString)) : (storeCodeTable s ps).rank = s.rank := rfl
@[simp] theorem storeCodeTable_tree (s : State) (ps : List (Byte × BitString)) : (storeCodeTable s ps).tree = s.tree := rfl
@[simp] theorem storeCodeTable_ctab (s : State) (ps : List (Byte × BitString)) : (storeCodeTable s ps).ctab = ⟨assignCodes ps, BitVec.ofNat 32 ps.length⟩ := rfl
@[simp] theorem storeCodeTable_dict (s : State) (ps : List (Byte × BitString)) : (storeCodeTable s ps).dict = s.dict := rfl
@[simp] theorem storeCodeTable_artKind (s : State) (ps : List (Byte × BitString)) : (storeCodeTable s ps).artKind = s.artKind := rfl
@[simp] theorem storeCodeTable_sizes (s : State) (ps : List (Byte × BitString)) : (storeCodeTable s ps).sizes = s.sizes := rfl
@[simp] theorem storeCodeTable_host (s : State) (ps : List (Byte × BitString)) : (storeCodeTable s ps).host = s.host := rfl
@[simp] theorem storeCodeTable_turns (s : State) (ps : List (Byte × BitString)) : (storeCodeTable s ps).turns = s.turns := rfl
@[simp] theorem storeCodeTable_resetCount (s : State) (ps : List (Byte × BitString)) : (storeCodeTable s ps).resetCount = s.resetCount := rfl
@[simp] theorem storeCodeTable_scrubs (s : State) (ps : List (Byte × BitString)) : (storeCodeTable s ps).scrubs = s.scrubs := rfl

/-! ## storeCompressed -/

@[simp] theorem storeCompressed_ctl (s : State) (cs : List Nat) (d : List DictEntry) : (storeCompressed s cs d).ctl = s.ctl := rfl
@[simp] theorem storeCompressed_caps (s : State) (cs : List Nat) (d : List DictEntry) : (storeCompressed s cs d).caps = s.caps := rfl
@[simp] theorem storeCompressed_inp (s : State) (cs : List Nat) (d : List DictEntry) : (storeCompressed s cs d).inp = s.inp := rfl
@[simp] theorem storeCompressed_out (s : State) (cs : List Nat) (d : List DictEntry) : (storeCompressed s cs d).out = s.out := rfl
@[simp] theorem storeCompressed_bits (s : State) (cs : List Nat) (d : List DictEntry) : (storeCompressed s cs d).bits = s.bits := rfl
@[simp] theorem storeCompressed_payload (s : State) (cs : List Nat) (d : List DictEntry) : (storeCompressed s cs d).payload = s.payload := rfl
@[simp] theorem storeCompressed_codes (s : State) (cs : List Nat) (d : List DictEntry) : (storeCompressed s cs d).codes = Buffer.store s.codes (cs.map (BitVec.ofNat 32)) cs.length := rfl
@[simp] theorem storeCompressed_pad (s : State) (cs : List Nat) (d : List DictEntry) : (storeCompressed s cs d).pad = s.pad := rfl
@[simp] theorem storeCompressed_freq (s : State) (cs : List Nat) (d : List DictEntry) : (storeCompressed s cs d).freq = s.freq := rfl
@[simp] theorem storeCompressed_rank (s : State) (cs : List Nat) (d : List DictEntry) : (storeCompressed s cs d).rank = s.rank := rfl
@[simp] theorem storeCompressed_tree (s : State) (cs : List Nat) (d : List DictEntry) : (storeCompressed s cs d).tree = s.tree := rfl
@[simp] theorem storeCompressed_ctab (s : State) (cs : List Nat) (d : List DictEntry) : (storeCompressed s cs d).ctab = s.ctab := rfl
@[simp] theorem storeCompressed_dict (s : State) (cs : List Nat) (d : List DictEntry) : (storeCompressed s cs d).dict = dictionary d := rfl
@[simp] theorem storeCompressed_artKind (s : State) (cs : List Nat) (d : List DictEntry) : (storeCompressed s cs d).artKind = s.artKind := rfl
@[simp] theorem storeCompressed_sizes (s : State) (cs : List Nat) (d : List DictEntry) : (storeCompressed s cs d).sizes = s.sizes := rfl
@[simp] theorem storeCompressed_host (s : State) (cs : List Nat) (d : List DictEntry) : (storeCompressed s cs d).host = s.host := rfl
@[simp] theorem storeCompressed_turns (s : State) (cs : List Nat) (d : List DictEntry) : (storeCompressed s cs d).turns = s.turns := rfl
@[simp] theorem storeCompressed_resetCount (s : State) (cs : List Nat) (d : List DictEntry) : (storeCompressed s cs d).resetCount = s.resetCount := rfl
@[simp] theorem storeCompressed_scrubs (s : State) (cs : List Nat) (d : List DictEntry) : (storeCompressed s cs d).scrubs = s.scrubs := rfl

/-! ## scrubCompressed -/

@[simp] theorem scrubCompressed_ctl (s : State) : (scrubCompressed s).ctl = s.ctl := rfl
@[simp] theorem scrubCompressed_caps (s : State) : (scrubCompressed s).caps = s.caps := rfl
@[simp] theorem scrubCompressed_inp (s : State) : (scrubCompressed s).inp = s.inp := rfl
@[simp] theorem scrubCompressed_out (s : State) : (scrubCompressed s).out = s.out := rfl
@[simp] theorem scrubCompressed_bits (s : State) : (scrubCompressed s).bits = s.bits := rfl
@[simp] theorem scrubCompressed_payload (s : State) : (scrubCompressed s).payload = s.payload := rfl
@[simp] theorem scrubCompressed_codes (s : State) : (scrubCompressed s).codes = ⟨[], 0⟩ := rfl
@[simp] theorem scrubCompressed_pad (s : State) : (scrubCompressed s).pad = s.pad := rfl
@[simp] theorem scrubCompressed_freq (s : State) : (scrubCompressed s).freq = s.freq := rfl
@[simp] theorem scrubCompressed_rank (s : State) : (scrubCompressed s).rank = s.rank := rfl
@[simp] theorem scrubCompressed_tree (s : State) : (scrubCompressed s).tree = s.tree := rfl
@[simp] theorem scrubCompressed_ctab (s : State) : (scrubCompressed s).ctab = s.ctab := rfl
@[simp] theorem scrubCompressed_dict (s : State) : (scrubCompressed s).dict = dictionary [] := rfl
@[simp] theorem scrubCompressed_artKind (s : State) : (scrubCompressed s).artKind = s.artKind := rfl
@[simp] theorem scrubCompressed_sizes (s : State) : (scrubCompressed s).sizes = s.sizes := rfl
@[simp] theorem scrubCompressed_host (s : State) : (scrubCompressed s).host = s.host := rfl
@[simp] theorem scrubCompressed_turns (s : State) : (scrubCompressed s).turns = s.turns := rfl
@[simp] theorem scrubCompressed_resetCount (s : State) : (scrubCompressed s).resetCount = s.resetCount := rfl
@[simp] theorem scrubCompressed_scrubs (s : State) : (scrubCompressed s).scrubs = s.scrubs + 1 := rfl

/-! ## storeDecompressed -/

@[simp] theorem storeDecompressed_ctl (s : State) (x : List Byte) (d : List DictEntry) : (storeDecompressed s x d).ctl = s.ctl := rfl
@[simp] theorem storeDecompressed_caps (s : State) (x : List Byte) (d : List DictEntry) : (storeDecompressed s x d).caps = s.caps := rfl
@[simp] theorem storeDecompressed_inp (s : State) (x : List Byte) (d : List DictEntry) : (storeDecompressed s x d).inp = s.inp := rfl
@[simp] theorem storeDecompressed_out (s : State) (x : List Byte) (d : List DictEntry) : (storeDecompressed s x d).out = outBuffer x := rfl
@[simp] theorem storeDecompressed_bits (s : State) (x : List Byte) (d : List DictEntry) : (storeDecompressed s x d).bits = s.bits := rfl
@[simp] theorem storeDecompressed_payload (s : State) (x : List Byte) (d : List DictEntry) : (storeDecompressed s x d).payload = s.payload := rfl
@[simp] theorem storeDecompressed_codes (s : State) (x : List Byte) (d : List DictEntry) : (storeDecompressed s x d).codes = s.codes := rfl
@[simp] theorem storeDecompressed_pad (s : State) (x : List Byte) (d : List DictEntry) : (storeDecompressed s x d).pad = s.pad := rfl
@[simp] theorem storeDecompressed_freq (s : State) (x : List Byte) (d : List DictEntry) : (storeDecompressed s x d).freq = s.freq := rfl
@[simp] theorem storeDecompressed_rank (s : State) (x : List Byte) (d : List DictEntry) : (storeDecompressed s x d).rank = s.rank := rfl
@[simp] theorem storeDecompressed_tree (s : State) (x : List Byte) (d : List DictEntry) : (storeDecompressed s x d).tree = s.tree := rfl
@[simp] theorem storeDecompressed_ctab (s : State) (x : List Byte) (d : List DictEntry) : (storeDecompressed s x d).ctab = s.ctab := rfl
@[simp] theorem storeDecompressed_dict (s : State) (x : List Byte) (d : List DictEntry) : (storeDecompressed s x d).dict = dictionary d := rfl
@[simp] theorem storeDecompressed_artKind (s : State) (x : List Byte) (d : List DictEntry) : (storeDecompressed s x d).artKind = s.artKind := rfl
@[simp] theorem storeDecompressed_sizes (s : State) (x : List Byte) (d : List DictEntry) : (storeDecompressed s x d).sizes = s.sizes := rfl
@[simp] theorem storeDecompressed_host (s : State) (x : List Byte) (d : List DictEntry) : (storeDecompressed s x d).host = s.host := rfl
@[simp] theorem storeDecompressed_turns (s : State) (x : List Byte) (d : List DictEntry) : (storeDecompressed s x d).turns = s.turns := rfl
@[simp] theorem storeDecompressed_resetCount (s : State) (x : List Byte) (d : List DictEntry) : (storeDecompressed s x d).resetCount = s.resetCount := rfl
@[simp] theorem storeDecompressed_scrubs (s : State) (x : List Byte) (d : List DictEntry) : (storeDecompressed s x d).scrubs = s.scrubs := rfl

/-! ## storeArtifact -/

@[simp] theorem storeArtifact_ctl (s : State) (tag : Byte) (x : List Byte) : (storeArtifact s tag x).ctl = s.ctl := rfl
@[simp] theorem storeArtifact_caps (s : State) (tag : Byte) (x : List Byte) : (storeArtifact s tag x).caps = s.caps := rfl
@[simp] theorem storeArtifact_inp (s : State) (tag : Byte) (x : List Byte) : (storeArtifact s tag x).inp = s.inp := rfl
@[simp] theorem storeArtifact_out (s : State) (tag : Byte) (x : List Byte) : (storeArtifact s tag x).out = outBuffer x := rfl
@[simp] theorem storeArtifact_bits (s : State) (tag : Byte) (x : List Byte) : (storeArtifact s tag x).bits = s.bits := rfl
@[simp] theorem storeArtifact_payload (s : State) (tag : Byte) (x : List Byte) : (storeArtifact s tag x).payload = s.payload := rfl
@[simp] theorem storeArtifact_codes (s : State) (tag : Byte) (x : List Byte) : (storeArtifact s tag x).codes = s.codes := rfl
@[simp] theorem storeArtifact_pad (s : State) (tag : Byte) (x : List Byte) : (storeArtifact s tag x).pad = s.pad := rfl
@[simp] theorem storeArtifact_freq (s : State) (tag : Byte) (x : List Byte) : (storeArtifact s tag x).freq = s.freq := rfl
@[simp] theorem storeArtifact_rank (s : State) (tag : Byte) (x : List Byte) : (storeArtifact s tag x).rank = s.rank := rfl
@[simp] theorem storeArtifact_tree (s : State) (tag : Byte) (x : List Byte) : (storeArtifact s tag x).tree = s.tree := rfl
@[simp] theorem storeArtifact_ctab (s : State) (tag : Byte) (x : List Byte) : (storeArtifact s tag x).ctab = s.ctab := rfl
@[simp] theorem storeArtifact_dict (s : State) (tag : Byte) (x : List Byte) : (storeArtifact s tag x).dict = s.dict := rfl
@[simp] theorem storeArtifact_artKind (s : State) (tag : Byte) (x : List Byte) : (storeArtifact s tag x).artKind = tag := rfl
@[simp] theorem storeArtifact_sizes (s : State) (tag : Byte) (x : List Byte) : (storeArtifact s tag x).sizes = s.sizes := rfl
@[simp] theorem storeArtifact_host (s : State) (tag : Byte) (x : List Byte) : (storeArtifact s tag x).host = s.host := rfl
@[simp] theorem storeArtifact_turns (s : State) (tag : Byte) (x : List Byte) : (storeArtifact s tag x).turns = s.turns := rfl
@[simp] theorem storeArtifact_resetCount (s : State) (tag : Byte) (x : List Byte) : (storeArtifact s tag x).resetCount = s.resetCount := rfl
@[simp] theorem storeArtifact_scrubs (s : State) (tag : Byte) (x : List Byte) : (storeArtifact s tag x).scrubs = s.scrubs := rfl

/-! ## storeParsedCodes -/

@[simp] theorem storeParsedCodes_ctl (s : State) (ws : List Word) : (storeParsedCodes s ws).ctl = s.ctl := rfl
@[simp] theorem storeParsedCodes_caps (s : State) (ws : List Word) : (storeParsedCodes s ws).caps = s.caps := rfl
@[simp] theorem storeParsedCodes_inp (s : State) (ws : List Word) : (storeParsedCodes s ws).inp = s.inp := rfl
@[simp] theorem storeParsedCodes_out (s : State) (ws : List Word) : (storeParsedCodes s ws).out = s.out := rfl
@[simp] theorem storeParsedCodes_bits (s : State) (ws : List Word) : (storeParsedCodes s ws).bits = s.bits := rfl
@[simp] theorem storeParsedCodes_payload (s : State) (ws : List Word) : (storeParsedCodes s ws).payload = s.payload := rfl
@[simp] theorem storeParsedCodes_codes (s : State) (ws : List Word) : (storeParsedCodes s ws).codes = Buffer.store s.codes ws ws.length := rfl
@[simp] theorem storeParsedCodes_pad (s : State) (ws : List Word) : (storeParsedCodes s ws).pad = 0 := rfl
@[simp] theorem storeParsedCodes_freq (s : State) (ws : List Word) : (storeParsedCodes s ws).freq = s.freq := rfl
@[simp] theorem storeParsedCodes_rank (s : State) (ws : List Word) : (storeParsedCodes s ws).rank = s.rank := rfl
@[simp] theorem storeParsedCodes_tree (s : State) (ws : List Word) : (storeParsedCodes s ws).tree = s.tree := rfl
@[simp] theorem storeParsedCodes_ctab (s : State) (ws : List Word) : (storeParsedCodes s ws).ctab = s.ctab := rfl
@[simp] theorem storeParsedCodes_dict (s : State) (ws : List Word) : (storeParsedCodes s ws).dict = s.dict := rfl
@[simp] theorem storeParsedCodes_artKind (s : State) (ws : List Word) : (storeParsedCodes s ws).artKind = 0x03 := rfl
@[simp] theorem storeParsedCodes_sizes (s : State) (ws : List Word) : (storeParsedCodes s ws).sizes = s.sizes := rfl
@[simp] theorem storeParsedCodes_host (s : State) (ws : List Word) : (storeParsedCodes s ws).host = s.host := rfl
@[simp] theorem storeParsedCodes_turns (s : State) (ws : List Word) : (storeParsedCodes s ws).turns = s.turns := rfl
@[simp] theorem storeParsedCodes_resetCount (s : State) (ws : List Word) : (storeParsedCodes s ws).resetCount = s.resetCount := rfl
@[simp] theorem storeParsedCodes_scrubs (s : State) (ws : List Word) : (storeParsedCodes s ws).scrubs = s.scrubs := rfl

/-! ## storeParsedTable -/

@[simp] theorem storeParsedTable_ctl (s : State) (tag : Byte) (pad : Nat) (t : Memory BitString) (x : List Byte) : (storeParsedTable s tag pad t x).ctl = s.ctl := rfl
@[simp] theorem storeParsedTable_caps (s : State) (tag : Byte) (pad : Nat) (t : Memory BitString) (x : List Byte) : (storeParsedTable s tag pad t x).caps = s.caps := rfl
@[simp] theorem storeParsedTable_inp (s : State) (tag : Byte) (pad : Nat) (t : Memory BitString) (x : List Byte) : (storeParsedTable s tag pad t x).inp = s.inp := rfl
@[simp] theorem storeParsedTable_out (s : State) (tag : Byte) (pad : Nat) (t : Memory BitString) (x : List Byte) : (storeParsedTable s tag pad t x).out = s.out := rfl
@[simp] theorem storeParsedTable_bits (s : State) (tag : Byte) (pad : Nat) (t : Memory BitString) (x : List Byte) : (storeParsedTable s tag pad t x).bits = s.bits := rfl
@[simp] theorem storeParsedTable_payload (s : State) (tag : Byte) (pad : Nat) (t : Memory BitString) (x : List Byte) : (storeParsedTable s tag pad t x).payload = Buffer.store s.payload x x.length := rfl
@[simp] theorem storeParsedTable_codes (s : State) (tag : Byte) (pad : Nat) (t : Memory BitString) (x : List Byte) : (storeParsedTable s tag pad t x).codes = s.codes := rfl
@[simp] theorem storeParsedTable_pad (s : State) (tag : Byte) (pad : Nat) (t : Memory BitString) (x : List Byte) : (storeParsedTable s tag pad t x).pad = BitVec.ofNat 3 pad := rfl
@[simp] theorem storeParsedTable_freq (s : State) (tag : Byte) (pad : Nat) (t : Memory BitString) (x : List Byte) : (storeParsedTable s tag pad t x).freq = s.freq := rfl
@[simp] theorem storeParsedTable_rank (s : State) (tag : Byte) (pad : Nat) (t : Memory BitString) (x : List Byte) : (storeParsedTable s tag pad t x).rank = s.rank := rfl
@[simp] theorem storeParsedTable_tree (s : State) (tag : Byte) (pad : Nat) (t : Memory BitString) (x : List Byte) : (storeParsedTable s tag pad t x).tree = s.tree := rfl
@[simp] theorem storeParsedTable_ctab (s : State) (tag : Byte) (pad : Nat) (t : Memory BitString) (x : List Byte) : (storeParsedTable s tag pad t x).ctab = ⟨t, BitVec.ofNat 32 t.length⟩ := rfl
@[simp] theorem storeParsedTable_dict (s : State) (tag : Byte) (pad : Nat) (t : Memory BitString) (x : List Byte) : (storeParsedTable s tag pad t x).dict = s.dict := rfl
@[simp] theorem storeParsedTable_artKind (s : State) (tag : Byte) (pad : Nat) (t : Memory BitString) (x : List Byte) : (storeParsedTable s tag pad t x).artKind = tag := rfl
@[simp] theorem storeParsedTable_sizes (s : State) (tag : Byte) (pad : Nat) (t : Memory BitString) (x : List Byte) : (storeParsedTable s tag pad t x).sizes = s.sizes := rfl
@[simp] theorem storeParsedTable_host (s : State) (tag : Byte) (pad : Nat) (t : Memory BitString) (x : List Byte) : (storeParsedTable s tag pad t x).host = s.host := rfl
@[simp] theorem storeParsedTable_turns (s : State) (tag : Byte) (pad : Nat) (t : Memory BitString) (x : List Byte) : (storeParsedTable s tag pad t x).turns = s.turns := rfl
@[simp] theorem storeParsedTable_resetCount (s : State) (tag : Byte) (pad : Nat) (t : Memory BitString) (x : List Byte) : (storeParsedTable s tag pad t x).resetCount = s.resetCount := rfl
@[simp] theorem storeParsedTable_scrubs (s : State) (tag : Byte) (pad : Nat) (t : Memory BitString) (x : List Byte) : (storeParsedTable s tag pad t x).scrubs = s.scrubs := rfl

/-! ## hostGoto -/

@[simp] theorem hostGoto_ctl (s : State) (p : Nat) : (hostGoto s p).ctl = s.ctl := rfl
@[simp] theorem hostGoto_caps (s : State) (p : Nat) : (hostGoto s p).caps = s.caps := rfl
@[simp] theorem hostGoto_inp (s : State) (p : Nat) : (hostGoto s p).inp = s.inp := rfl
@[simp] theorem hostGoto_out (s : State) (p : Nat) : (hostGoto s p).out = s.out := rfl
@[simp] theorem hostGoto_bits (s : State) (p : Nat) : (hostGoto s p).bits = s.bits := rfl
@[simp] theorem hostGoto_payload (s : State) (p : Nat) : (hostGoto s p).payload = s.payload := rfl
@[simp] theorem hostGoto_codes (s : State) (p : Nat) : (hostGoto s p).codes = s.codes := rfl
@[simp] theorem hostGoto_pad (s : State) (p : Nat) : (hostGoto s p).pad = s.pad := rfl
@[simp] theorem hostGoto_freq (s : State) (p : Nat) : (hostGoto s p).freq = s.freq := rfl
@[simp] theorem hostGoto_rank (s : State) (p : Nat) : (hostGoto s p).rank = s.rank := rfl
@[simp] theorem hostGoto_tree (s : State) (p : Nat) : (hostGoto s p).tree = s.tree := rfl
@[simp] theorem hostGoto_ctab (s : State) (p : Nat) : (hostGoto s p).ctab = s.ctab := rfl
@[simp] theorem hostGoto_dict (s : State) (p : Nat) : (hostGoto s p).dict = s.dict := rfl
@[simp] theorem hostGoto_artKind (s : State) (p : Nat) : (hostGoto s p).artKind = s.artKind := rfl
@[simp] theorem hostGoto_sizes (s : State) (p : Nat) : (hostGoto s p).sizes = s.sizes := rfl
@[simp] theorem hostGoto_turns (s : State) (p : Nat) : (hostGoto s p).turns = s.turns := rfl
@[simp] theorem hostGoto_resetCount (s : State) (p : Nat) : (hostGoto s p).resetCount = s.resetCount := rfl
@[simp] theorem hostGoto_scrubs (s : State) (p : Nat) : (hostGoto s p).scrubs = s.scrubs := rfl

/-! ## hostReceived -/

@[simp] theorem hostReceived_ctl (s : State) (r : Response) : (hostReceived s r).ctl = s.ctl := rfl
@[simp] theorem hostReceived_caps (s : State) (r : Response) : (hostReceived s r).caps = s.caps := rfl
@[simp] theorem hostReceived_inp (s : State) (r : Response) : (hostReceived s r).inp = s.inp := rfl
@[simp] theorem hostReceived_out (s : State) (r : Response) : (hostReceived s r).out = s.out := rfl
@[simp] theorem hostReceived_bits (s : State) (r : Response) : (hostReceived s r).bits = s.bits := rfl
@[simp] theorem hostReceived_payload (s : State) (r : Response) : (hostReceived s r).payload = s.payload := rfl
@[simp] theorem hostReceived_codes (s : State) (r : Response) : (hostReceived s r).codes = s.codes := rfl
@[simp] theorem hostReceived_pad (s : State) (r : Response) : (hostReceived s r).pad = s.pad := rfl
@[simp] theorem hostReceived_freq (s : State) (r : Response) : (hostReceived s r).freq = s.freq := rfl
@[simp] theorem hostReceived_rank (s : State) (r : Response) : (hostReceived s r).rank = s.rank := rfl
@[simp] theorem hostReceived_tree (s : State) (r : Response) : (hostReceived s r).tree = s.tree := rfl
@[simp] theorem hostReceived_ctab (s : State) (r : Response) : (hostReceived s r).ctab = s.ctab := rfl
@[simp] theorem hostReceived_dict (s : State) (r : Response) : (hostReceived s r).dict = s.dict := rfl
@[simp] theorem hostReceived_artKind (s : State) (r : Response) : (hostReceived s r).artKind = s.artKind := rfl
@[simp] theorem hostReceived_sizes (s : State) (r : Response) : (hostReceived s r).sizes = s.sizes := rfl
@[simp] theorem hostReceived_turns (s : State) (r : Response) : (hostReceived s r).turns = s.turns := rfl
@[simp] theorem hostReceived_resetCount (s : State) (r : Response) : (hostReceived s r).resetCount = s.resetCount := rfl
@[simp] theorem hostReceived_scrubs (s : State) (r : Response) : (hostReceived s r).scrubs = s.scrubs := rfl

/-! ## hostSetVar -/

@[simp] theorem hostSetVar_ctl (s : State) (t : Fin 8) (v : HostVar) : (hostSetVar s t v).ctl = s.ctl := rfl
@[simp] theorem hostSetVar_caps (s : State) (t : Fin 8) (v : HostVar) : (hostSetVar s t v).caps = s.caps := rfl
@[simp] theorem hostSetVar_inp (s : State) (t : Fin 8) (v : HostVar) : (hostSetVar s t v).inp = s.inp := rfl
@[simp] theorem hostSetVar_out (s : State) (t : Fin 8) (v : HostVar) : (hostSetVar s t v).out = s.out := rfl
@[simp] theorem hostSetVar_bits (s : State) (t : Fin 8) (v : HostVar) : (hostSetVar s t v).bits = s.bits := rfl
@[simp] theorem hostSetVar_payload (s : State) (t : Fin 8) (v : HostVar) : (hostSetVar s t v).payload = s.payload := rfl
@[simp] theorem hostSetVar_codes (s : State) (t : Fin 8) (v : HostVar) : (hostSetVar s t v).codes = s.codes := rfl
@[simp] theorem hostSetVar_pad (s : State) (t : Fin 8) (v : HostVar) : (hostSetVar s t v).pad = s.pad := rfl
@[simp] theorem hostSetVar_freq (s : State) (t : Fin 8) (v : HostVar) : (hostSetVar s t v).freq = s.freq := rfl
@[simp] theorem hostSetVar_rank (s : State) (t : Fin 8) (v : HostVar) : (hostSetVar s t v).rank = s.rank := rfl
@[simp] theorem hostSetVar_tree (s : State) (t : Fin 8) (v : HostVar) : (hostSetVar s t v).tree = s.tree := rfl
@[simp] theorem hostSetVar_ctab (s : State) (t : Fin 8) (v : HostVar) : (hostSetVar s t v).ctab = s.ctab := rfl
@[simp] theorem hostSetVar_dict (s : State) (t : Fin 8) (v : HostVar) : (hostSetVar s t v).dict = s.dict := rfl
@[simp] theorem hostSetVar_artKind (s : State) (t : Fin 8) (v : HostVar) : (hostSetVar s t v).artKind = s.artKind := rfl
@[simp] theorem hostSetVar_sizes (s : State) (t : Fin 8) (v : HostVar) : (hostSetVar s t v).sizes = s.sizes := rfl
@[simp] theorem hostSetVar_turns (s : State) (t : Fin 8) (v : HostVar) : (hostSetVar s t v).turns = s.turns := rfl
@[simp] theorem hostSetVar_resetCount (s : State) (t : Fin 8) (v : HostVar) : (hostSetVar s t v).resetCount = s.resetCount := rfl
@[simp] theorem hostSetVar_scrubs (s : State) (t : Fin 8) (v : HostVar) : (hostSetVar s t v).scrubs = s.scrubs := rfl

/-! ## The control bits -/

@[simp] theorem accept_ctl_busy (w : Word) (s : State) : (accept w s).ctl.busy = true := rfl
@[simp] theorem accept_ctl_done (w : Word) (s : State) : (accept w s).ctl.done = false := rfl
@[simp] theorem accept_ctl_error (w : Word) (s : State) : (accept w s).ctl.error = noError := rfl
@[simp] theorem accept_ctl_errInfo (w : Word) (s : State) : (accept w s).ctl.errInfo = 0 := rfl
@[simp] theorem accept_ctl_cmd (w : Word) (s : State) : (accept w s).ctl.cmd = w := rfl
@[simp] theorem accept_ctl_ie (w : Word) (s : State) : (accept w s).ctl.ie = s.ctl.ie := rfl
@[simp] theorem accept_ctl_wbusy (w : Word) (s : State) : (accept w s).ctl.wbusy = s.ctl.wbusy := rfl

@[simp] theorem completeOk_ctl_busy (s : State) : (completeOk s).ctl.busy = false := rfl
@[simp] theorem completeOk_ctl_done (s : State) : (completeOk s).ctl.done = true := rfl
@[simp] theorem completeOk_ctl_error (s : State) : (completeOk s).ctl.error = noError := rfl
@[simp] theorem completeOk_ctl_errInfo (s : State) : (completeOk s).ctl.errInfo = 0 := rfl
@[simp] theorem completeOk_ctl_cmd (s : State) : (completeOk s).ctl.cmd = s.ctl.cmd := rfl
@[simp] theorem completeOk_ctl_ie (s : State) : (completeOk s).ctl.ie = s.ctl.ie := rfl
@[simp] theorem completeOk_ctl_wbusy (s : State) : (completeOk s).ctl.wbusy = s.ctl.wbusy := rfl

@[simp] theorem completeError_ctl_busy (code : ErrCode) (info : Nat) (opc sub : Byte) (s : State) :
    (completeError code info opc sub s).ctl.busy = false := rfl
@[simp] theorem completeError_ctl_done (code : ErrCode) (info : Nat) (opc sub : Byte) (s : State) :
    (completeError code info opc sub s).ctl.done = true := rfl
@[simp] theorem completeError_ctl_error (code : ErrCode) (info : Nat) (opc sub : Byte) (s : State) :
    (completeError code info opc sub s).ctl.error = ⟨code, opc, sub⟩ := rfl
@[simp] theorem completeError_ctl_errInfo (code : ErrCode) (info : Nat) (opc sub : Byte) (s : State) :
    (completeError code info opc sub s).ctl.errInfo = satWord info := rfl
@[simp] theorem completeError_ctl_cmd (code : ErrCode) (info : Nat) (opc sub : Byte) (s : State) :
    (completeError code info opc sub s).ctl.cmd = s.ctl.cmd := rfl
@[simp] theorem completeError_ctl_ie (code : ErrCode) (info : Nat) (opc sub : Byte) (s : State) :
    (completeError code info opc sub s).ctl.ie = s.ctl.ie := rfl
@[simp] theorem completeError_ctl_wbusy (code : ErrCode) (info : Nat) (opc sub : Byte) (s : State) :
    (completeError code info opc sub s).ctl.wbusy = s.ctl.wbusy := rfl

@[simp] theorem setWbusy_ctl_busy (s : State) : (setWbusy s).ctl.busy = s.ctl.busy := rfl
@[simp] theorem setWbusy_ctl_done (s : State) : (setWbusy s).ctl.done = s.ctl.done := rfl
@[simp] theorem setWbusy_ctl_error (s : State) : (setWbusy s).ctl.error = s.ctl.error := rfl
@[simp] theorem setWbusy_ctl_errInfo (s : State) : (setWbusy s).ctl.errInfo = s.ctl.errInfo := rfl
@[simp] theorem setWbusy_ctl_cmd (s : State) : (setWbusy s).ctl.cmd = s.ctl.cmd := rfl
@[simp] theorem setWbusy_ctl_ie (s : State) : (setWbusy s).ctl.ie = s.ctl.ie := rfl
@[simp] theorem setWbusy_ctl_wbusy (s : State) : (setWbusy s).ctl.wbusy = true := rfl

end Sys2Proof.Machine
end

