-- ==== Sys2Proof/Laws/Commands.lean ====
section
/-! SUPPORT. For each command, everything its completion can be when it answers a next state: the success or the error
its computation ended with, and the state that leaves. Later proofs cite these and do not unfold a meaning. -/

namespace Sys2Proof.Machine

/-- A completion of a rule made of one computation (60_exceptions R341). -/
theorem complete_ofRun_next {α : Type} {opc sub : Byte} {sErr t : State} {r : Run α} {keep : α → State} :
    complete opc (Ending.ofRun sub sErr r keep) = .next t ↔
      (∃ a, r = .ok a ∧ t = completeOk (keep a)) ∨
      (∃ code info, r = .error (.error code info) ∧ t = completeError code info opc sub sErr) := by
  rcases ofRun_cases sub sErr r keep with ⟨a, rfl, he⟩ | ⟨c, i, rfl, he⟩ | ⟨f, rfl, he⟩
  · simp [he, eq_comm]
  · simp [he, eq_comm]
  · simp [he]

/-- A check followed by a computation: it goes on, or it raises its error. -/
theorem check_bind {α : Type} (ok : Bool) (code : ErrCode) (info : Nat) (f : Unit → Run α) :
    (check ok code info >>= f) = if ok then f () else .error (.error code info) := by
  cases ok <;> rfl

/-! ## The bit packer -/

theorem packRun_eq (s : State) :
    packRun s =
      if s.bits.len.toNat ≤ s.caps.bitsCap then
        if ceilDiv8 s.bits.len.toNat ≤ s.caps.payloadCap then
          readBitString s s.bits.len.toNat >>= fun b =>
            .ok (packBytes (ceilDiv8 s.bits.len.toNat) (b ++ List.replicate (padCount s.bits.len.toNat) false),
              padCount s.bits.len.toNat)
        else .error (.error .capacityExceeded (ceilDiv8 s.bits.len.toNat))
      else .error (.error .capacityExceeded s.bits.len.toNat) := by
  simp only [packRun, check_bind, decide_eq_true_eq]
  rfl

theorem execPack_next {s t : State} : execPack s = .next t ↔
    (∃ r, packRun s = .ok r ∧ t = completeOk (storePacked s r.1 r.2)) ∨
    (∃ code info, packRun s = .error (.error code info) ∧ t = completeError code info 0x01 0x01 s) :=
  complete_ofRun_next

theorem packRun_error {s : State} {code : ErrCode} {info : Nat} (h : packRun s = .error (.error code info)) :
    code = .capacityExceeded := by
  rw [packRun_eq] at h
  split at h
  · split at h
    · rcases (run_bind_error _ _ _).mp h with h | ⟨_, _, h⟩
      · obtain ⟨_, h⟩ := readBitString_error h
        cases h
      · cases h
    · cases h
      rfl
  · cases h
    rfl

theorem unpackRun_eq (s : State) :
    unpackRun s =
      if s.payload.len.toNat ≤ s.caps.payloadCap then
        if s.payload.len.toNat = 0 ∧ s.pad.toNat ≠ 0 then .error (.error .formatError s.pad.toNat)
        else if 8 * s.payload.len.toNat - s.pad.toNat ≤ s.caps.bitsCap then
          readPayload s s.payload.len.toNat >>= fun x =>
            .ok ((bitsOfBytes x).take (8 * s.payload.len.toNat - s.pad.toNat))
        else .error (.error .capacityExceeded (8 * s.payload.len.toNat - s.pad.toNat))
      else .error (.error .capacityExceeded s.payload.len.toNat) := by
  simp only [unpackRun, check_bind, decide_eq_true_eq]
  by_cases h : s.payload.len.toNat = 0 ∧ s.pad.toNat ≠ 0
  · simp [h.1, h.2]
  · have : (!(decide (s.payload.len.toNat = 0) && decide (s.pad.toNat ≠ 0))) = true := by
      simp only [Bool.not_eq_true', Bool.and_eq_false_iff, decide_eq_false_iff_not]
      tauto
    simp only [this, h, if_true, if_false]
    rfl

theorem execUnpack_next {s t : State} : execUnpack s = .next t ↔
    (∃ b, unpackRun s = .ok b ∧ t = completeOk (storeBits s b)) ∨
    (∃ code info, unpackRun s = .error (.error code info) ∧ t = completeError code info 0x02 0x02 s) :=
  complete_ofRun_next

theorem unpackRun_error {s : State} {code : ErrCode} {info : Nat} (h : unpackRun s = .error (.error code info)) :
    code = .capacityExceeded ∨ code = .formatError := by
  rw [unpackRun_eq] at h
  split at h
  · split at h
    · cases h
      exact .inr rfl
    · split at h
      · rcases (run_bind_error _ _ _).mp h with h | ⟨_, _, h⟩
        · obtain ⟨_, h⟩ := readPayload_error h
          cases h
        · cases h
      · cases h
        exact .inl rfl
  · cases h
    exact .inl rfl

/-! ## The frequency analyzer, the tree and the code builders -/

theorem analyzeRun_eq (s : State) :
    analyzeRun s =
      if s.inp.len.toNat ≤ s.caps.inCap then
        readInRange s 0 s.inp.len.toNat >>= fun x => .ok (countSymbols [] 0 x)
      else .error (.error .capacityExceeded s.inp.len.toNat) := by
  simp only [analyzeRun, check_bind, decide_eq_true_eq]
  rfl

theorem execAnalyze_next {s t : State} : execAnalyze s = .next t ↔
    (∃ f, analyzeRun s = .ok f ∧ t = completeOk { s with freq := ⟨f, BitVec.ofNat 32 f.length, s.inp.len⟩ }) ∨
    (∃ code info, analyzeRun s = .error (.error code info) ∧ t = completeError code info 0x03 0x03 s) :=
  complete_ofRun_next

theorem analyzeRun_error {s : State} {code : ErrCode} {info : Nat} (h : analyzeRun s = .error (.error code info)) :
    code = .capacityExceeded := by
  rw [analyzeRun_eq] at h
  split at h
  · rcases (run_bind_error _ _ _).mp h with h | ⟨_, _, h⟩
    · obtain ⟨_, h⟩ := readInRange_error h
      cases h
    · cases h
  · cases h
    rfl

/-- RANK, HUFF_BUILD, HUFF_CODES, SF_CODES and NOP always complete with success. -/
theorem execNop_eq (s : State) : execNop s = .next (completeOk s) := rfl

theorem execRank_eq (s : State) : execRank s =
    .next (completeOk
      { s with rank := ⟨rankedList s.freq.table, BitVec.ofNat 32 (rankedList s.freq.table).length⟩ }) := rfl

theorem execHuffBuild_eq (s : State) : execHuffBuild s =
    .next (completeOk { s with tree := ⟨(buildTree s.freq.table).1, BitVec.ofNat 32 (buildTree s.freq.table).1.length,
      (buildTree s.freq.table).2⟩ }) := rfl

theorem execHuffCodes_eq (s : State) :
    execHuffCodes s = .next (completeOk (storeCodeTable s (treeCodes s.tree))) := rfl

theorem execSfCodes_eq (s : State) : execSfCodes s =
    .next (completeOk (storeCodeTable s (rankCodes (s.rank.entries.take s.rank.rankN.toNat)))) := rfl

/-! ## The encoder and decoder -/

theorem encodeRun_eq (s : State) :
    encodeRun s = if s.inp.len.toNat ≤ s.caps.inCap then encodeLoop s s.inp.len.toNat 0 0
      else .error (.error .capacityExceeded s.inp.len.toNat) := by
  simp only [encodeRun, check_bind, decide_eq_true_eq]

theorem execEncode_next {s t : State} : execEncode s = .next t ↔
    (∃ b, encodeRun s = .ok b ∧ t = completeOk (storeBits s b)) ∨
    (∃ code info, encodeRun s = .error (.error code info) ∧ t = completeError code info 0x08 0x08 s) :=
  complete_ofRun_next

theorem encodeLoop_error {s : State} {n i total : Nat} {code : ErrCode} {info : Nat}
    (h : encodeLoop s n i total = .error (.error code info)) :
    (code = .unmappedSymbol ∨ code = .capacityExceeded) ∧ i ≤ info ∧ info < i + n := by
  induction n generalizing i total with
  | zero => cases h
  | succ n ih =>
    simp only [encodeLoop, run_bind_error, check_error, run_pure, reduceCtorEq, and_false, exists_false,
      or_false] at h
    rcases h with h | ⟨sym, -, h⟩
    · have := readIn_error h
      cases this
    · rcases h with ⟨-, h⟩ | ⟨-, -, h⟩
      · cases h
        exact ⟨.inl rfl, by omega, by omega⟩
      · rcases h with ⟨-, h⟩ | ⟨-, -, h⟩
        · cases h
          exact ⟨.inr rfl, by omega, by omega⟩
        · obtain ⟨h1, h2, h3⟩ := ih h
          exact ⟨h1, by omega, by omega⟩

/-- What a successful checking pass means (42_huffman R186). -/
theorem encodeLoop_ok {s : State} {n i total : Nat} {b : BitString} :
    encodeLoop s n i total = .ok b ↔
      ∃ x : List Byte, x.length = n ∧ Memory.holds s.inp.mem i x ∧ (∀ c ∈ x, codeOf s.ctab c ≠ []) ∧
        b = x.flatMap (codeOf s.ctab) ∧ (x ≠ [] → total + b.length ≤ s.caps.bitsCap) := by
  induction n generalizing i total b with
  | zero =>
    constructor
    · intro h
      cases h
      exact ⟨[], rfl, trivial, by simp, rfl, by simp⟩
    · rintro ⟨x, hx, -, -, rfl, -⟩
      rw [List.length_eq_zero_iff.mp hx]
      rfl
  | succ n ih =>
    simp only [encodeLoop, run_bind_ok, check_ok, readIn_ok, run_pure, Except.ok.injEq, decide_eq_true_eq]
    constructor
    · rintro ⟨c, hc, u, h1, v, h2, rest, hr, rfl⟩
      obtain ⟨x, hx, hh, hm, rfl, hb⟩ := ih.mp hr
      refine ⟨c :: x, by simp [hx], ⟨hc, hh⟩, ?_, rfl, fun _ => ?_⟩
      · intro d hd
        rcases List.mem_cons.mp hd with rfl | hd
        · exact fun h => h1 (by rw [h]; rfl)
        · exact hm d hd
      · by_cases hxn : x = []
        · subst hxn
          simpa using h2
        · have := hb hxn
          rw [List.length_append]
          omega
    · rintro ⟨x, hx, hh, hm, rfl, hb⟩
      cases x with
      | nil => simp at hx
      | cons c x =>
        have hb' := hb (by simp)
        simp only [List.flatMap_cons, List.length_append] at hb'
        refine ⟨c, hh.1, (), fun h => hm c (by simp) (List.length_eq_zero_iff.mp h), (), by omega, _,
          ih.mpr ⟨x, by simpa using hx, hh.2, fun d hd => hm d (by simp [hd]), rfl, fun _ => by omega⟩, rfl⟩

theorem decodeLoop_error {s : State} {n i o : Nat} {p : BitString} {code : ErrCode} {info : Nat}
    (h : decodeLoop s n i p o = .error (.error code info)) :
    code = .capacityExceeded ∧ i ≤ info ∧ info < i + n := by
  induction n generalizing i p o with
  | zero => cases h
  | succ n ih =>
    simp only [decodeLoop, run_bind_error] at h
    rcases h with h | ⟨b, -, h⟩
    · have := readBit_error h
      cases this
    · split at h
      · simp only [run_bind_error, check_error, run_pure, reduceCtorEq, and_false, exists_false, or_false] at h
        rcases h with ⟨-, h⟩ | ⟨-, -, h⟩
        · cases h
          exact ⟨rfl, by omega, by omega⟩
        · obtain ⟨h1, h2, h3⟩ := ih h
          exact ⟨h1, by omega, by omega⟩
      · obtain ⟨h1, h2, h3⟩ := ih h
        exact ⟨h1, by omega, by omega⟩

/-- A text the scan produced fits in OUT. -/
theorem decodeLoop_ok_length {s : State} {n i o : Nat} {p : BitString} {x : List Byte}
    (h : decodeLoop s n i p o = .ok x) (ho : o ≤ s.caps.outCap) : o + x.length ≤ s.caps.outCap := by
  induction n generalizing i p o x with
  | zero =>
    cases h
    simpa using ho
  | succ n ih =>
    simp only [decodeLoop, run_bind_ok] at h
    obtain ⟨b, -, h⟩ := h
    split at h
    · simp only [run_bind_ok, check_ok, run_pure, Except.ok.injEq, decide_eq_true_eq] at h
      obtain ⟨-, h1, rest, hr, rfl⟩ := h
      have := ih hr (by omega)
      simp only [List.length_cons]
      omega
    · exact ih h ho

theorem execDecode_next {s t : State} : execDecode s = .next t ↔
    (s.bits.len.toNat ≤ s.caps.bitsCap ∧
      ((∃ x, decodeLoop s s.bits.len.toNat 0 [] 0 = .ok x ∧ t = completeOk (storeOut s x)) ∨
       (∃ code info, decodeLoop s s.bits.len.toNat 0 [] 0 = .error (.error code info) ∧
         t = completeError code info 0x09 0x09 (storeOut s [])))) ∨
    (s.caps.bitsCap < s.bits.len.toNat ∧
      t = completeError .capacityExceeded s.bits.len.toNat 0x09 0x09 s) := by
  unfold execDecode decodeRule
  by_cases h : s.bits.len.toNat ≤ s.caps.bitsCap
  · simp only [h, if_true, true_and, complete_ofRun_next]
    have : ¬ s.caps.bitsCap < s.bits.len.toNat := by omega
    simp [this]
  · simp only [h, if_false, false_and, false_or, complete_raised]
    have : s.caps.bitsCap < s.bits.len.toNat := by omega
    simp [this, eq_comm]

/-! ## LZW -/

theorem execLzwCompress_next {s t : State} : execLzwCompress s = .next t ↔
    (s.inp.len.toNat ≤ s.caps.inCap ∧
      ((∃ r, compressLoop s s.inp.len.toNat 0 [] none 0 = .ok r ∧ t = completeOk (storeCompressed s r.1 r.2)) ∨
       (∃ code info, compressLoop s s.inp.len.toNat 0 [] none 0 = .error (.error code info) ∧
         t = completeError code info 0x0A 0x0A (scrubCompressed s)))) ∨
    (s.caps.inCap < s.inp.len.toNat ∧ t = completeError .capacityExceeded s.inp.len.toNat 0x0A 0x0A s) := by
  unfold execLzwCompress lzwCompressRule
  by_cases h : s.inp.len.toNat ≤ s.caps.inCap
  · simp only [h, if_true, true_and, complete_ofRun_next]
    have : ¬ s.caps.inCap < s.inp.len.toNat := by omega
    simp [this]
  · simp only [h, if_false, false_and, false_or, complete_raised]
    have : s.caps.inCap < s.inp.len.toNat := by omega
    simp [this, eq_comm]

theorem compressLoop_error {s : State} {n i m : Nat} {d : List DictEntry} {w : Option Nat} {code : ErrCode}
    {info : Nat} (h : compressLoop s n i d w m = .error (.error code info)) :
    code = .capacityExceeded ∧ i ≤ info ∧ info ≤ i + n := by
  induction n generalizing i d w m with
  | zero =>
    cases w with
    | none => cases h
    | some w =>
      simp only [compressLoop, run_bind_error, check_error, run_pure, reduceCtorEq, and_false, exists_false,
        or_false] at h
      obtain ⟨-, h⟩ := h
      cases h
      exact ⟨rfl, by omega, by omega⟩
  | succ n ih =>
    cases w with
    | none =>
      simp only [compressLoop, run_bind_error] at h
      rcases h with h | ⟨c, -, h⟩
      · have := readIn_error h
        cases this
      · obtain ⟨h1, h2, h3⟩ := ih h
        exact ⟨h1, by omega, by omega⟩
    | some w =>
      simp only [compressLoop, run_bind_error] at h
      rcases h with h | ⟨c, -, h⟩
      · have := readIn_error h
        cases this
      · split at h
        · obtain ⟨h1, h2, h3⟩ := ih h
          exact ⟨h1, by omega, by omega⟩
        · simp only [run_bind_error, check_error, run_pure, reduceCtorEq, and_false, exists_false, or_false] at h
          rcases h with ⟨-, h⟩ | ⟨-, -, ⟨-, h⟩ | ⟨-, -, h⟩⟩
          · cases h
            exact ⟨rfl, by omega, by omega⟩
          · cases h
            exact ⟨rfl, by omega, by omega⟩
          · obtain ⟨h1, h2, h3⟩ := ih h
            exact ⟨h1, by omega, by omega⟩

theorem execLzwDecompress_next {s t : State} : execLzwDecompress s = .next t ↔
    (s.codes.len.toNat ≤ s.caps.codesCap ∧
      ((∃ r, decompressRun s s.codes.len.toNat = .ok r ∧ t = completeOk (storeDecompressed s r.1 r.2)) ∨
       (∃ code info, decompressRun s s.codes.len.toNat = .error (.error code info) ∧
         t = completeError code info 0x0B 0x0B (storeDecompressed s [] [])))) ∨
    (s.caps.codesCap < s.codes.len.toNat ∧
      t = completeError .capacityExceeded s.codes.len.toNat 0x0B 0x0B s) := by
  unfold execLzwDecompress lzwDecompressRule
  by_cases h : s.codes.len.toNat ≤ s.caps.codesCap
  · simp only [h, if_true, true_and, complete_ofRun_next]
    have : ¬ s.caps.codesCap < s.codes.len.toNat := by omega
    simp [this]
  · simp only [h, if_false, false_and, false_or, complete_raised]
    have : s.caps.codesCap < s.codes.len.toNat := by omega
    simp [this, eq_comm]

theorem decompressLoop_error {s : State} {n j o w : Nat} {d : List DictEntry} {code : ErrCode} {info : Nat}
    (h : decompressLoop s n j d w o = .error (.error code info)) :
    (code = .corruptData ∨ code = .capacityExceeded) ∧ j ≤ info ∧ info < j + n := by
  induction n generalizing j d w o with
  | zero => cases h
  | succ n ih =>
    simp only [decompressLoop, run_bind_error, check_error, run_pure, reduceCtorEq, and_false, exists_false,
      or_false] at h
    rcases h with h | ⟨k, -, h⟩
    · have := readCode_error h
      cases this
    · rcases h with ⟨-, h⟩ | ⟨-, -, ⟨-, h⟩ | ⟨-, -, ⟨-, h⟩ | ⟨-, -, h⟩⟩⟩
      · cases h
        exact ⟨.inl rfl, by omega, by omega⟩
      · cases h
        exact ⟨.inr rfl, by omega, by omega⟩
      · cases h
        exact ⟨.inr rfl, by omega, by omega⟩
      · obtain ⟨h1, h2, h3⟩ := ih h
        exact ⟨h1, by omega, by omega⟩

/-- Text and dictionary a successful decompression produced fit in their capacities. -/
theorem decompressLoop_ok_bounds {s : State} {n j o w : Nat} {d : List DictEntry} {r : List Byte × List DictEntry}
    (h : decompressLoop s n j d w o = .ok r) (ho : o ≤ s.caps.outCap) (hd : d.length ≤ s.caps.dictCap) :
    o + r.1.length ≤ s.caps.outCap ∧ r.2.length = d.length + n ∧ r.2.length ≤ s.caps.dictCap := by
  induction n generalizing j d w o r with
  | zero =>
    cases h
    exact ⟨by simpa using ho, rfl, hd⟩
  | succ n ih =>
    simp only [decompressLoop, run_bind_ok, check_ok, run_pure, Except.ok.injEq, decide_eq_true_eq] at h
    obtain ⟨k, -, -, -, -, h1, -, h2, q, hq, rfl⟩ := h
    have hne : d.length ≠ s.caps.dictCap := by
      intro he
      apply h2
      simp [nextFree, he]
    obtain ⟨h3, h4, h5⟩ := ih hq h1 (by simp; omega)
    refine ⟨?_, ?_, h5⟩
    · simp only [List.length_append]
      omega
    · simp only [List.length_append, List.length_singleton] at h4
      simp only
      omega

/-! ## The container -/

theorem execSerializeHuf_next {s t : State} : execSerializeHuf s = .next t ↔
    (∃ a, serializeTableRun 0x01 s = .ok a ∧ t = completeOk (storeArtifact s 0x01 a)) ∨
    (∃ code info, serializeTableRun 0x01 s = .error (.error code info) ∧
      t = completeError code info 0x0C 0x0C s) := complete_ofRun_next

theorem execSerializeSf_next {s t : State} : execSerializeSf s = .next t ↔
    (∃ a, serializeTableRun 0x02 s = .ok a ∧ t = completeOk (storeArtifact s 0x02 a)) ∨
    (∃ code info, serializeTableRun 0x02 s = .error (.error code info) ∧
      t = completeError code info 0x0C 0x0C s) := complete_ofRun_next

theorem execSerializeLzw_next {s t : State} : execSerializeLzw s = .next t ↔
    (∃ a, serializeLzwRun s = .ok a ∧ t = completeOk (storeArtifact s 0x03 a)) ∨
    (∃ code info, serializeLzwRun s = .error (.error code info) ∧
      t = completeError code info 0x0C 0x0C s) := complete_ofRun_next

theorem execDeserialize_next {s t : State} : execDeserialize s = .next t ↔
    (∃ u, deserializeRun s = .ok u ∧ t = completeOk u) ∨
    (∃ code info, deserializeRun s = .error (.error code info) ∧
      t = completeError code info 0x0D 0x0D s) := complete_ofRun_next

theorem tableBytes_length (t : Memory BitString) :
    (tableBytes t).length = (t.map fun c => 2 + ceilDiv8 c.2.length).sum := by
  induction t with
  | nil => rfl
  | cons c t ih =>
    simp only [tableBytes, List.length_cons, List.length_append, codeBytes, packBytes_length, ih, List.map_cons,
      List.sum_cons]
    omega

theorem tableBytes_append (t u : Memory BitString) : tableBytes (t ++ u) = tableBytes t ++ tableBytes u := by
  induction t with
  | nil => rfl
  | cons c t ih => simp [tableBytes, ih]

theorem tableBytes_eq_flatMap (t : Memory BitString) :
    tableBytes t = t.flatMap fun c =>
      BitVec.ofNat 8 c.1 :: BitVec.ofNat 8 c.2.length :: packBytes (ceilDiv8 c.2.length) c.2 := by
  induction t with
  | nil => rfl
  | cons c t ih => simp [tableBytes, codeBytes, ih]

theorem codeListBytes_length (ws : List Word) : (codeListBytes ws).length = 4 * ws.length := by
  induction ws with
  | nil => rfl
  | cons w ws ih =>
    simp only [codeListBytes, List.length_append, be32_length, ih, List.length_cons]
    omega

theorem codeListBytes_eq_flatMap (ws : List Word) : codeListBytes ws = ws.flatMap fun w => be32 w.toNat := by
  induction ws with
  | nil => rfl
  | cons w ws ih => simp [codeListBytes, ih]

/-- The artifact's length is the size the fourth check used (45_container R265). -/
theorem serializeTableRun_ok {tag : Byte} {s : State} {a : List Byte} (h : serializeTableRun tag s = .ok a) :
    a.length = 11 + (s.ctab.codes.map fun c => 2 + ceilDiv8 c.2.length).sum + s.payload.len.toNat ∧
    a.length ≤ s.caps.outCap ∧ s.payload.len.toNat ≤ s.caps.payloadCap := by
  simp only [serializeTableRun, run_bind_ok, check_ok, run_pure, Except.ok.injEq, decide_eq_true_eq] at h
  obtain ⟨-, h1, -, -, -, -, -, h2, body, hb, rfl⟩ := h
  have hl := (readRange_ok hb).1
  have : (headerBytes tag (BitVec.ofNat 8 s.pad.toNat) s.payload.len.toNat ++ be16 s.ctab.ctabN.toNat ++
      tableBytes s.ctab.codes ++ body).length =
      11 + (s.ctab.codes.map fun c => 2 + ceilDiv8 c.2.length).sum + s.payload.len.toNat := by
    simp only [List.length_append, headerBytes, List.length_cons, be32_length, be16_length, tableBytes_length, hl]
  exact ⟨this, by rw [this]; exact h2, h1⟩

theorem serializeTableRun_error {tag : Byte} {s : State} {code : ErrCode} {info : Nat}
    (h : serializeTableRun tag s = .error (.error code info)) :
    code = .capacityExceeded ∨ code = .formatError := by
  simp only [serializeTableRun, run_bind_error, check_error, run_pure, reduceCtorEq, and_false, exists_false,
    or_false] at h
  rcases h with ⟨-, h⟩ | ⟨-, -, ⟨-, h⟩ | ⟨-, -, ⟨-, h⟩ | ⟨-, -, ⟨-, h⟩ | ⟨-, -, h⟩⟩⟩⟩
  · cases h; exact .inl rfl
  · cases h; exact .inr rfl
  · cases h; exact .inr rfl
  · cases h; exact .inl rfl
  · obtain ⟨_, h⟩ := readPayload_error h
    cases h

theorem serializeLzwRun_ok {s : State} {a : List Byte} (h : serializeLzwRun s = .ok a) :
    ∃ ws, ws.length = s.codes.len.toNat ∧ (∀ j, j < ws.length → codeAt s j = ws[j]?) ∧
      a = headerBytes 0x03 0 (4 * ws.length) ++ codeListBytes ws ∧ a.length = 9 + 4 * ws.length ∧
      a.length ≤ s.caps.outCap ∧ ws.length ≤ s.caps.codesCap := by
  simp only [serializeLzwRun, run_bind_ok, check_ok, run_pure, Except.ok.injEq, decide_eq_true_eq] at h
  obtain ⟨-, h1, -, h2, ws, hw, rfl⟩ := h
  rw [readCodes_ok] at hw
  obtain ⟨hl, hc⟩ := hw
  have hlen : (headerBytes 0x03 0 (4 * s.codes.len.toNat) ++ codeListBytes ws).length = 9 + 4 * ws.length := by
    simp only [List.length_append, headerBytes, List.length_cons, be32_length, codeListBytes_length]
  exact ⟨ws, hl, fun j hj => by simpa using hc j (by omega), by rw [hl], hlen, by rw [hlen, hl]; exact h2,
    by rw [hl]; exact h1⟩

theorem serializeLzwRun_error {s : State} {code : ErrCode} {info : Nat}
    (h : serializeLzwRun s = .error (.error code info)) : code = .capacityExceeded := by
  simp only [serializeLzwRun, run_bind_error, check_error, run_pure, reduceCtorEq, and_false, exists_false,
    or_false] at h
  rcases h with ⟨-, h⟩ | ⟨-, -, ⟨-, h⟩ | ⟨-, -, h⟩⟩
  · cases h; rfl
  · cases h; rfl
  · obtain ⟨_, h⟩ := readCodes_error h
    cases h

/-! ## Every command is the completion of a rule -/

/-- The rule of each command. -/
def ruleOf : Instr → State → Ending
  | .nop => nopRule
  | .pack => packRule
  | .unpack => unpackRule
  | .analyze => analyzeRule
  | .rank => rankRule
  | .huffBuild => huffBuildRule
  | .huffCodes => huffCodesRule
  | .sfCodes => sfCodesRule
  | .encode => encodeRule
  | .decode => decodeRule
  | .lzwCompress => lzwCompressRule
  | .lzwDecompress => lzwDecompressRule
  | .serializeHuf => serializeHufRule
  | .serializeSf => serializeSfRule
  | .serializeLzw => serializeLzwRule
  | .deserialize => deserializeRule
  | .compressHuf => compressHufRule
  | .compressSf => compressSfRule
  | .compressLzw => compressLzwRule
  | .decompress => decompressRule

/-- 60_exceptions R341: a command's step is the completion of its rule, with the opcode of the issued word. -/
theorem exec_eq (i : Instr) (s : State) : exec i s = complete (opcOf i) (ruleOf i s) := by
  cases i <;> rfl

theorem exec_ne_refused (i : Instr) (s : State) (r : Refusal) : exec i s ≠ .refused r := by
  rw [exec_eq]
  exact complete_ne_refused _ _ _

/-- What a completed command leaves: the state its rule left, with the status of a success or of an error. -/
theorem exec_next {i : Instr} {s t : State} (h : exec i s = .next t) :
    (∃ u, ruleOf i s = .done u ∧ t = completeOk u) ∨
    (∃ c n b u, ruleOf i s = .raised c n b u ∧ t = completeError c n (opcOf i) b u) := by
  rw [exec_eq] at h
  exact complete_eq_next h

end Sys2Proof.Machine
end

