-- ==== Sys2Proof/Laws/PerInstr.lean ====
section
/-! SUPPORT. Per command: its word (30_encoding R104) is legal (R105), decodes to it, and decodes to it as the opcode
table numbers its bits. -/

/-- The word of a command reads back as the command. -/
def Sys2Proof.Laws.Encoding.Statement (i : Sys2Proof.Instr) : Prop :=
  Sys2Proof.decode (Sys2Proof.encode i) = .ok i ∧ (Sys2Proof.wordFields (Sys2Proof.encode i)).wf = true ∧
  Sys2Proof.decodeTableWord 32 (Sys2Proof.encode i).toNat = some i

theorem Sys2Proof.Laws.Encoding.nop : Sys2Proof.Laws.Encoding.Statement .nop := by
  refine ⟨?_, ?_, ?_⟩ <;> decide

theorem Sys2Proof.Laws.Encoding.pack : Sys2Proof.Laws.Encoding.Statement .pack := by
  refine ⟨?_, ?_, ?_⟩ <;> decide

theorem Sys2Proof.Laws.Encoding.unpack : Sys2Proof.Laws.Encoding.Statement .unpack := by
  refine ⟨?_, ?_, ?_⟩ <;> decide

theorem Sys2Proof.Laws.Encoding.analyze : Sys2Proof.Laws.Encoding.Statement .analyze := by
  refine ⟨?_, ?_, ?_⟩ <;> decide

theorem Sys2Proof.Laws.Encoding.rank : Sys2Proof.Laws.Encoding.Statement .rank := by
  refine ⟨?_, ?_, ?_⟩ <;> decide

theorem Sys2Proof.Laws.Encoding.huffBuild : Sys2Proof.Laws.Encoding.Statement .huffBuild := by
  refine ⟨?_, ?_, ?_⟩ <;> decide

theorem Sys2Proof.Laws.Encoding.huffCodes : Sys2Proof.Laws.Encoding.Statement .huffCodes := by
  refine ⟨?_, ?_, ?_⟩ <;> decide

theorem Sys2Proof.Laws.Encoding.sfCodes : Sys2Proof.Laws.Encoding.Statement .sfCodes := by
  refine ⟨?_, ?_, ?_⟩ <;> decide

theorem Sys2Proof.Laws.Encoding.encode : Sys2Proof.Laws.Encoding.Statement .encode := by
  refine ⟨?_, ?_, ?_⟩ <;> decide

theorem Sys2Proof.Laws.Encoding.decode : Sys2Proof.Laws.Encoding.Statement .decode := by
  refine ⟨?_, ?_, ?_⟩ <;> decide

theorem Sys2Proof.Laws.Encoding.lzwCompress : Sys2Proof.Laws.Encoding.Statement .lzwCompress := by
  refine ⟨?_, ?_, ?_⟩ <;> decide

theorem Sys2Proof.Laws.Encoding.lzwDecompress : Sys2Proof.Laws.Encoding.Statement .lzwDecompress := by
  refine ⟨?_, ?_, ?_⟩ <;> decide

theorem Sys2Proof.Laws.Encoding.serializeHuf : Sys2Proof.Laws.Encoding.Statement .serializeHuf := by
  refine ⟨?_, ?_, ?_⟩ <;> decide

theorem Sys2Proof.Laws.Encoding.serializeSf : Sys2Proof.Laws.Encoding.Statement .serializeSf := by
  refine ⟨?_, ?_, ?_⟩ <;> decide

theorem Sys2Proof.Laws.Encoding.serializeLzw : Sys2Proof.Laws.Encoding.Statement .serializeLzw := by
  refine ⟨?_, ?_, ?_⟩ <;> decide

theorem Sys2Proof.Laws.Encoding.deserialize : Sys2Proof.Laws.Encoding.Statement .deserialize := by
  refine ⟨?_, ?_, ?_⟩ <;> decide

theorem Sys2Proof.Laws.Encoding.compressHuf : Sys2Proof.Laws.Encoding.Statement .compressHuf := by
  refine ⟨?_, ?_, ?_⟩ <;> decide

theorem Sys2Proof.Laws.Encoding.compressSf : Sys2Proof.Laws.Encoding.Statement .compressSf := by
  refine ⟨?_, ?_, ?_⟩ <;> decide

theorem Sys2Proof.Laws.Encoding.compressLzw : Sys2Proof.Laws.Encoding.Statement .compressLzw := by
  refine ⟨?_, ?_, ?_⟩ <;> decide

theorem Sys2Proof.Laws.Encoding.decompress : Sys2Proof.Laws.Encoding.Statement .decompress := by
  refine ⟨?_, ?_, ?_⟩ <;> decide
end

