-- ==== Sys2Proof/Laws/Step.lean ====
section
/-! SUPPORT. What a step or several Host turns can be (Machine/Step.lean) and what a bus transaction can do
(Machine/Bus.lean), said once. -/

namespace Sys2Proof.Machine

/-! ## The turns -/

theorem step_idle {s : State} (ht : s.turns = []) (hb : s.ctl.busy = false) : step s = hostStep s := by
  simp [step, ht, hb]

theorem step_busy {s : State} (ht : s.turns = []) (hb : s.ctl.busy = true) : step s = blockStep s := by
  simp [step, ht, hb]

theorem step_host {s : State} {ts : List Turn} (ht : s.turns = .host :: ts) :
    step s = hostStep { s with turns := ts } := by
  simp [step, ht]

theorem step_block {s : State} {ts : List Turn} (ht : s.turns = .block :: ts) :
    step s = blockStep { s with turns := ts } := by
  simp [step, ht]

theorem step_reset {s : State} {ts : List Turn} (ht : s.turns = .reset :: ts) :
    step s = .next (resetEvent { s with turns := ts }) := by
  simp [step, ht]

theorem step_resetInAccess {s : State} {ts : List Turn} (ht : s.turns = .resetInAccess :: ts) :
    step s = .next (resetEvent (hostCutOff { s with turns := ts })) := by
  simp [step, ht]

/-- Everything a block step that answers a next state can be (60_exceptions R341). -/
theorem blockStep_cases {s t : State} (h : blockStep s = .next t) :
    (s.ctl.busy = false ∧ t = s) ∨
    (s.ctl.busy = true ∧ ∃ i, decode s.ctl.cmd = .ok i ∧ exec i s = .next t) ∨
    (s.ctl.busy = true ∧ (∃ e, decode s.ctl.cmd = .error e) ∧ t = completeIllegal s) := by
  unfold blockStep at h
  cases hb : s.ctl.busy with
  | false =>
    simp only [hb, Bool.false_eq_true, if_false, Host.Outcome.next.injEq] at h
    exact .inl ⟨rfl, h.symm⟩
  | true =>
    simp only [hb, if_true] at h
    cases hd : decode s.ctl.cmd with
    | ok i =>
      rw [hd] at h
      exact .inr (.inl ⟨rfl, i, rfl, h⟩)
    | error e =>
      rw [hd] at h
      cases h
      exact .inr (.inr ⟨rfl, ⟨e, rfl⟩, rfl⟩)

/-! ## The bus -/

/-- Everything a transaction can do to the state (20_memory R70, R75, R86): nothing, WBUSY, or the write of an idle
block. -/
theorem busAccess_cases (t : Txn) (s : State) :
    (busAccess t s).2 = s ∨ (s.ctl.busy = true ∧ (busAccess t s).2 = setWbusy s) ∨
    (s.ctl.busy = false ∧ t.op = .write ∧ badAccess s t = false ∧
      busAccess t s = (.ok, busWrite s t.space t.off.toNat t.data)) := by
  unfold busAccess
  cases h1 : busyRefused s t with
  | true =>
    have hb : s.ctl.busy = true := by
      simp only [busyRefused, Bool.and_eq_true] at h1
      exact h1.1
    exact .inr (.inl ⟨hb, rfl⟩)
  | false =>
    cases h2 : badAccess s t with
    | true => exact .inl rfl
    | false =>
      cases ho : t.op with
      | read => exact .inl rfl
      | write =>
        cases hb : s.ctl.busy with
        | true => exact .inr (.inl ⟨rfl, rfl⟩)
        | false => exact .inr (.inr ⟨rfl, rfl, rfl, rfl⟩)

theorem busAccess_read {t : Txn} {s : State} (ho : t.op = .read) (h1 : busyRefused s t = false)
    (h2 : badAccess s t = false) : busAccess t s = (.okData (busRead s t.space t.off.toNat), s) := by
  simp [busAccess, h1, h2, ho]

/-- What a valid write can change while the block is idle (20_memory R73, R74, R86). -/
theorem busWrite_cases (s : State) (space off : Nat) (v : Word) :
    (space = 0 ∧ ∃ r, csrAt off = some r ∧ busWrite s space off v = csrWrite s r v) ∨
    (space = 1 ∧ busWrite s space off v = { s with inp := ⟨Memory.write s.inp.mem off [v.setWidth 8], s.inp.len⟩ }) ∨
    (space = 3 ∧ busWrite s space off v = { s with bits := ⟨Memory.write s.bits.mem off [v.setWidth 8], s.bits.len⟩ }) ∨
    (space = 4 ∧
      busWrite s space off v = { s with payload := ⟨Memory.write s.payload.mem off [v.setWidth 8], s.payload.len⟩ }) ∨
    (space = 5 ∧ busWrite s space off v = { s with codes := ⟨Memory.write s.codes.mem (off / 4) [v], s.codes.len⟩ }) ∨
    busWrite s space off v = s := by
  unfold busWrite
  split
  · split
    · rename_i r hr
      exact .inl ⟨rfl, r, hr, rfl⟩
    · exact .inr (.inr (.inr (.inr (.inr rfl))))
  · exact .inr (.inl ⟨rfl, rfl⟩)
  · exact .inr (.inr (.inl ⟨rfl, rfl⟩))
  · exact .inr (.inr (.inr (.inl ⟨rfl, rfl⟩)))
  · exact .inr (.inr (.inr (.inr (.inl ⟨rfl, rfl⟩))))
  · exact .inr (.inr (.inr (.inr (.inr rfl))))

/-! ## The Host -/

/-- Everything a Host turn that answers a next state can be: the Host changes, and the block by one transaction at
most (30_encoding R111). -/
theorem hostStep_cases {s t : State} (h : hostStep s = .next t) :
    (∃ hst, t = { s with host := hst }) ∨ ∃ txn hst, t = { (busAccess txn s).2 with host := hst } := by
  have jump : ∀ l, hostJump s l = .next t → ∃ hst, t = { s with host := hst } := by
    intro l hj
    unfold hostJump at hj
    split at hj
    · cases hj
      exact ⟨_, rfl⟩
    · cases hj
  have branch : ∀ x m b l, hostBranch s x m b l = .next t → ∃ hst, t = { s with host := hst } := by
    intro x m b l hb
    unfold hostBranch at hb
    split at hb
    · cases hb
    · split at hb
      · exact jump _ hb
      · cases hb
        exact ⟨_, rfl⟩
  unfold hostStep at h
  split at h
  · rename_i line _
    cases hs : line.stmt with
    | write sp off w d =>
      rw [hs] at h
      cases h
      exact .inr ⟨⟨.write, sp, off, w, d⟩, _, rfl⟩
    | read x sp off w =>
      rw [hs] at h
      cases h
      exact .inr ⟨⟨.read, sp, off, w, 0⟩, _, rfl⟩
    | bnz x m l =>
      rw [hs] at h
      exact .inl (branch _ _ _ _ h)
    | bz x m l =>
      rw [hs] at h
      exact .inl (branch _ _ _ _ h)
    | jump l =>
      rw [hs] at h
      exact .inl (jump _ h)
    | halt =>
      rw [hs] at h
      cases h
      exact .inl ⟨s.host, rfl⟩
  · cases h
    exact .inl ⟨s.host, rfl⟩

/-- A reset that cuts off a transaction changes the Host only, before the reset itself (70_reset R370). -/
theorem hostCutOff_eq (s : State) : ∃ hst, hostCutOff s = { s with host := hst } := by
  unfold hostCutOff
  split
  · exact ⟨_, rfl⟩
  · exact ⟨_, rfl⟩
  · exact ⟨s.host, rfl⟩

/-- Everything a step that answers a next state can be: a Host turn, a Block turn or a reset, after the turn is taken
from the schedule. -/
theorem step_cases {s t : State} (h : step s = .next t) :
    (∃ ts, hostStep { s with turns := ts } = .next t) ∨ (∃ ts, blockStep { s with turns := ts } = .next t) ∨
    ∃ hst ts, t = resetEvent { s with host := hst, turns := ts } := by
  unfold step at h
  split at h
  · rename_i ht
    have he : s = { s with turns := [] } := by rw [← ht]
    split at h
    · exact .inr (.inl ⟨[], by rw [← he]; exact h⟩)
    · exact .inl ⟨[], by rw [← he]; exact h⟩
  · exact .inl ⟨_, h⟩
  · exact .inr (.inl ⟨_, h⟩)
  · cases h
    exact .inr (.inr ⟨s.host, _, rfl⟩)
  · cases h
    obtain ⟨hst, he⟩ := hostCutOff_eq { s with turns := _ }
    exact .inr (.inr ⟨hst, _, by rw [he]⟩)

/-- The offsets of Host statements are the spec's wherever they fit 32 bits (30_encoding R111, log entry 23). -/
theorem byteOffset_toNat {o : Nat} (h : o < 2 ^ 32) : (byteOffset o).toNat = o := by
  rw [byteOffset, BitVec.toNat_ofNat, Nat.mod_eq_of_lt h]

theorem wordOffset_toNat {w : Nat} (h : 4 * w < 2 ^ 32) : (wordOffset w).toNat = 4 * w := by
  rw [wordOffset, BitVec.toNat_ofNat, Nat.mod_eq_of_lt h]

/-! ## Several turns -/

/-- A run of m + n steps is the run of the last n from where the first m lead. -/
theorem run_add {m n : Nat} {s t : State} (h : Sys2Proof.core.run m s = .next t) :
    Sys2Proof.core.run (m + n) s = Sys2Proof.core.run n t := by
  induction m generalizing s with
  | zero =>
    cases h
    rw [Nat.zero_add]
  | succ m ih =>
    rw [Nat.succ_add]
    simp only [Host.Core.run] at h ⊢
    split at h
    · exact ih h
    · cases h
    · cases h

theorem run_one (s : State) : Sys2Proof.core.run 1 s = step s := by
  have hc : Sys2Proof.core.step s = step s := rfl
  simp only [Host.Core.run]
  rw [hc]
  cases step s <;> rfl

/-- A transaction with a busy block changes WBUSY at most (70_reset R380, R381). -/
theorem busAccess_busy (t : Txn) {s : State} (hb : s.ctl.busy = true) :
    ∃ wb, (busAccess t s).2 = { s with ctl := { s.ctl with wbusy := wb } } := by
  obtain h | ⟨_, h⟩ | ⟨h, _⟩ := busAccess_cases t s
  · exact ⟨s.ctl.wbusy, h⟩
  · exact ⟨true, h⟩
  · exact absurd (hb.symm.trans h) (by decide)

/-- A Host turn with a busy block changes the Host and WBUSY at most. -/
theorem hostStep_busy {s t : State} (hb : s.ctl.busy = true) (h : hostStep s = .next t) :
    ∃ hst wb, t = { s with host := hst, ctl := { s.ctl with wbusy := wb } } := by
  obtain ⟨hst, rfl⟩ | ⟨txn, hst, rfl⟩ := hostStep_cases h
  · exact ⟨hst, s.ctl.wbusy, rfl⟩
  · obtain ⟨wb, he⟩ := busAccess_busy txn hb
    exact ⟨hst, wb, by rw [he]⟩

/-- Any number of Host turns with a busy block change the Host and WBUSY at most, and use up their turns
(00_scope R11, R12). -/
theorem hostTurns_busy {n : Nat} {later : List Turn} {s u : State} (hb : s.ctl.busy = true)
    (ht : s.turns = List.replicate n .host ++ later) (h : Sys2Proof.core.run n s = .next u) :
    ∃ hst wb, u = { s with host := hst, turns := later, ctl := { s.ctl with wbusy := wb } } := by
  induction n generalizing s with
  | zero =>
    have h : Host.Outcome.next s = Host.Outcome.next (ρ := Refusal) (φ := Fault) u := h
    obtain rfl : s = u := by injection h
    exact ⟨s.host, s.ctl.wbusy, by rw [← show s.turns = later from ht]⟩
  | succ n ih =>
    have hs : step s = hostStep { s with turns := List.replicate n .host ++ later } := step_host ht
    simp only [Host.Core.run] at h
    split at h
    · rename_i t hm
      obtain ⟨hst, wb, he⟩ := hostStep_busy (s := { s with turns := List.replicate n .host ++ later }) hb
        (hs.symm.trans hm)
      obtain ⟨hst', wb', rfl⟩ := ih (s := t) (by rw [he]; exact hb) (by rw [he]) h
      exact ⟨hst', wb', by rw [he]⟩
    · cases h
    · cases h

end Sys2Proof.Machine
end

