-- ==== Sys2Proof/Laws/Tables.lean ====
section
/-! SUPPORT. What the sorting, counting and table-building operations of Machine/Frequency.lean and Machine/Huffman.lean
compute. -/

namespace Sys2Proof.Machine

/-! ## Sorting -/

theorem insertSorted_perm {α : Type} (before : α → α → Bool) (x : α) (l : List α) :
    (insertSorted before x l).Perm (x :: l) := by
  induction l with
  | nil => exact .refl _
  | cons y l ih =>
    unfold insertSorted
    split
    · exact .refl _
    · exact (ih.cons y).trans (.swap x y l)

theorem sortBy_perm {α : Type} (before : α → α → Bool) (l : List α) : (sortBy before l).Perm l := by
  induction l with
  | nil => exact .refl _
  | cons x l ih => exact (insertSorted_perm before x _).trans (ih.cons x)

@[simp] theorem sortBy_length {α : Type} (before : α → α → Bool) (l : List α) :
    (sortBy before l).length = l.length := (sortBy_perm before l).length_eq

theorem mem_sortBy {α : Type} (before : α → α → Bool) (l : List α) (x : α) : x ∈ sortBy before l ↔ x ∈ l :=
  (sortBy_perm before l).mem_iff

theorem insertSorted_sorted {α : Type} {before : α → α → Bool} (htotal : ∀ a b, before a b = true ∨ before b a = true)
    (htrans : ∀ a b c, before a b = true → before b c = true → before a c = true) (x : α) {l : List α}
    (h : l.Pairwise fun a b => before a b = true) :
    (insertSorted before x l).Pairwise fun a b => before a b = true := by
  induction l with
  | nil => exact List.pairwise_singleton _ _
  | cons y l ih =>
    obtain ⟨hy, hl⟩ := List.pairwise_cons.mp h
    unfold insertSorted
    split
    · rename_i hxy
      refine List.pairwise_cons.mpr ⟨fun z hz => ?_, h⟩
      rcases List.mem_cons.mp hz with rfl | hz
      · exact hxy
      · exact htrans _ _ _ hxy (hy z hz)
    · rename_i hxy
      refine List.pairwise_cons.mpr ⟨fun z hz => ?_, ih hl⟩
      rcases List.mem_cons.mp ((insertSorted_perm before x l).mem_iff.mp hz) with rfl | hz
      · exact (htotal y z).resolve_right hxy
      · exact hy z hz

/-- A total and transitive order sorts. -/
theorem sortBy_sorted {α : Type} {before : α → α → Bool} (htotal : ∀ a b, before a b = true ∨ before b a = true)
    (htrans : ∀ a b c, before a b = true → before b c = true → before a c = true) (l : List α) :
    (sortBy before l).Pairwise fun a b => before a b = true := by
  induction l with
  | nil => exact List.Pairwise.nil
  | cons x l ih => exact insertSorted_sorted htotal htrans x ih

theorem ranksBefore_iff (a b : Nat × FreqEntry) :
    ranksBefore a b = true ↔ b.2.count < a.2.count ∨ (a.2.count = b.2.count ∧ a.2.first ≤ b.2.first) := by
  simp [ranksBefore]

theorem firstBefore_iff (a b : Nat × FreqEntry) : firstBefore a b = true ↔ a.2.first ≤ b.2.first := by
  simp [firstBefore]

theorem keyBefore_iff (a b : QueueKey) : keyBefore a b = true ↔ a.1 < b.1 ∨ (a.1 = b.1 ∧ a.2 ≤ b.2) := by
  simp [keyBefore]

theorem sortBy_ranksBefore_sorted (t : Memory FreqEntry) :
    (sortBy ranksBefore t).Pairwise fun a b =>
      b.2.count < a.2.count ∨ (a.2.count = b.2.count ∧ a.2.first ≤ b.2.first) := by
  refine (sortBy_sorted ?_ ?_ t).imp fun h => (ranksBefore_iff _ _).mp h
  · intro a b
    rw [ranksBefore_iff, ranksBefore_iff]
    omega
  · intro a b c
    rw [ranksBefore_iff, ranksBefore_iff, ranksBefore_iff]
    omega

theorem sortBy_firstBefore_sorted (t : Memory FreqEntry) :
    (sortBy firstBefore t).Pairwise fun a b => a.2.first ≤ b.2.first := by
  refine (sortBy_sorted ?_ ?_ t).imp fun h => (firstBefore_iff _ _).mp h
  · intro a b
    rw [firstBefore_iff, firstBefore_iff]
    omega
  · intro a b c
    rw [firstBefore_iff, firstBefore_iff, firstBefore_iff]
    omega

theorem insertSorted_keyBefore_sorted (k : QueueKey) {q : List QueueKey}
    (h : q.Pairwise fun a b => keyBefore a b = true) :
    (insertSorted keyBefore k q).Pairwise fun a b => keyBefore a b = true := by
  refine insertSorted_sorted ?_ ?_ k h
  · intro a b
    rw [keyBefore_iff, keyBefore_iff]
    omega
  · intro a b c
    rw [keyBefore_iff, keyBefore_iff, keyBefore_iff]
    omega

/-! ## Counting -/

theorem get_countSymbol (t : Memory FreqEntry) (i : Nat) (c d : Byte) :
    Memory.get (countSymbol t i c) d.toNat =
      if d = c then some (match Memory.get t c.toNat with
        | some e => ⟨e.count + 1, e.first⟩
        | none => ⟨1, i⟩)
      else Memory.get t d.toNat := by
  unfold countSymbol
  have hcd : d = c ↔ d.toNat = c.toNat := ⟨fun h => by rw [h], fun h => BitVec.eq_of_toNat_eq h⟩
  by_cases h : d = c
  · subst h
    cases hg : Memory.get t d.toNat <;> simp [Memory.get_write]
  · have hn : ¬ (c.toNat ≤ d.toNat ∧ d.toNat < c.toNat + 1) := by
      rw [hcd] at h
      omega
    cases hg : Memory.get t c.toNat <;> simp only [Memory.get_write, h, if_false, List.length_singleton, if_neg hn]

theorem countSymbol_wf {t : Memory FreqEntry} (ht : Memory.wf t) (i : Nat) (c : Byte) :
    Memory.wf (countSymbol t i c) := by
  unfold countSymbol
  split <;> exact Memory.write_wf ht _ _

theorem countSymbols_wf {t : Memory FreqEntry} (ht : Memory.wf t) (i : Nat) (x : List Byte) :
    Memory.wf (countSymbols t i x) := by
  induction x generalizing t i with
  | nil => exact ht
  | cons c x ih => exact ih (countSymbol_wf ht i c) (i + 1)

/-- The pass from index i on adds the occurrences and sets the first index of the symbols not seen before
(41_frequency R150). -/
theorem get_countSymbols (t : Memory FreqEntry) (i : Nat) (x : List Byte) (d : Byte) :
    Memory.get (countSymbols t i x) d.toNat =
      match Memory.get t d.toNat with
      | some e => some ⟨e.count + x.count d, e.first⟩
      | none => if d ∈ x then some ⟨x.count d, i + x.idxOf d⟩ else none := by
  induction x generalizing t i with
  | nil => cases h : Memory.get t d.toNat <;> simp [countSymbols, h]
  | cons c x ih =>
    rw [countSymbols, ih, get_countSymbol]
    by_cases h : d = c
    · subst h
      cases Memory.get t d.toNat with
      | none => simp; omega
      | some e => simp; omega
    · have h' : c ≠ d := fun he => h he.symm
      simp only [h, if_false]
      cases Memory.get t d.toNat with
      | none =>
        simp only [List.mem_cons, h, false_or, List.count_cons_of_ne h']
        split
        · rw [List.idxOf_cons_ne _ h']
          congr 2
          omega
        · rfl
      | some e => simp only [List.count_cons_of_ne h']

/-! ## Code tables -/

/-- A code table built from pairs with distinct symbols gives each symbol its code and no other symbol one. -/
theorem get_assignCodes (pairs : List (Byte × BitString)) (hn : (pairs.map Prod.fst).Nodup) (c : Byte) :
    Memory.get (assignCodes pairs) c.toNat = (pairs.find? fun e => e.1 == c).map Prod.snd := by
  unfold assignCodes
  rw [← List.foldr_reverse]
  have hr : ((pairs.reverse).map Prod.fst).Nodup := by rw [List.map_reverse]; exact List.nodup_reverse.mpr hn
  have hf : (pairs.find? fun e => e.1 == c) = (pairs.reverse.find? fun e => e.1 == c) := by
    have huniq : ∀ a ∈ pairs, ∀ b ∈ pairs, a.1 = b.1 → a = b := fun a ha b hb h =>
      List.inj_on_of_nodup_map hn ha hb h
    cases h1 : pairs.find? fun e => e.1 == c with
    | none =>
      symm
      rw [List.find?_eq_none] at h1 ⊢
      exact fun x hx => h1 x (List.mem_reverse.mp hx)
    | some a =>
      cases h2 : pairs.reverse.find? fun e => e.1 == c with
      | none =>
        exact absurd (List.find?_some h1)
          (List.find?_eq_none.mp h2 a (List.mem_reverse.mpr (List.mem_of_find?_eq_some h1)))
      | some b =>
        have ha := List.find?_some h1
        have hb := List.find?_some h2
        simp only [beq_iff_eq] at ha hb
        rw [huniq a (List.mem_of_find?_eq_some h1) b (List.mem_reverse.mp (List.mem_of_find?_eq_some h2))
          (ha.trans hb.symm)]
  rw [hf]
  generalize pairs.reverse = l at hr
  clear hf hn
  induction l with
  | nil => rfl
  | cons e l ih =>
    simp only [List.map_cons, List.nodup_cons] at hr
    simp only [List.foldr_cons, Memory.get_write, List.length_singleton]
    by_cases h : e.1 = c
    · subst h
      simp
    · have hne : ¬ (e.1.toNat ≤ c.toNat ∧ c.toNat < e.1.toNat + 1) := by
        intro hh
        exact h (BitVec.eq_of_toNat_eq (by omega))
      rw [if_neg hne, ih hr.2, List.find?_cons_of_neg (by simpa using h)]

theorem assignCodes_wf (pairs : List (Byte × BitString)) : Memory.wf (assignCodes pairs) := by
  unfold assignCodes
  rw [← List.foldr_reverse]
  generalize pairs.reverse = l
  induction l with
  | nil => exact List.Pairwise.nil
  | cons e l ih => exact Memory.write_wf ih _ _

theorem assignCodes_below (pairs : List (Byte × BitString)) : Memory.below (assignCodes pairs) 256 := by
  unfold assignCodes
  rw [← List.foldr_reverse]
  generalize pairs.reverse = l
  induction l with
  | nil => intro c hc; cases hc
  | cons e l ih => exact Memory.write_below ih _ _ (by have := e.1.isLt; simpa using this)

end Sys2Proof.Machine
end

