-- ==== Sys2Proof/Tests/Slice0.lean ====
section
/-! SUPPORT. Tests: the well-formedness checks refuse ill-formed terms; every word of the opcode map, written out bit by
bit, decodes to its command; small single-step tests whose expected values stand in spec/95_test_vectors.md; and for every
statement of Certificates/Slice0/Obligations.lean with hypotheses, a witness that meets them. -/

namespace Sys2Proof.Tests

open Sys2Proof Sys2Proof.Machine

/-! ## Small states -/

/-- The reset state with a text in IN. -/
def textState (x : List Byte) : State :=
  { State.reset with inp := ⟨Memory.cells 0 x, BitVec.ofNat 32 x.length⟩ }

/-- The reset state with a bit string in BITS. -/
def bitState (b : BitString) : State :=
  { State.reset with
    bits := ⟨Memory.cells 0 (packBytes (ceilDiv8 b.length) b), BitVec.ofNat 32 b.length⟩ }

/-- The reset state with a payload and a padding count. -/
def payloadState (x : List Byte) (pad : BitVec 3) : State :=
  { State.reset with payload := ⟨Memory.cells 0 x, BitVec.ofNat 32 x.length⟩, pad := pad }

/-- The reset state with a code list in CODES. -/
def codesState (ws : List Word) : State :=
  { State.reset with codes := ⟨Memory.cells 0 ws, BitVec.ofNat 32 ws.length⟩ }

/-- A state with other capacities. -/
def withCaps (c : Caps) (s : State) : State := { s with caps := c }

/-- A state with a code table. -/
def withTable (t : CodeTable) (s : State) : State := { s with ctab := t }

/-- A busy state: the word has been accepted. -/
def busyState (w : Word) (turns : List Turn) : State := { accept w State.reset with turns := turns }

/-- A next state was answered and meets a check. -/
def after (o : Host.Outcome State Fault Refusal) (p : State → Bool) : Bool :=
  match o with
  | .next t => p t
  | .fault _ => false
  | .refused _ => false

theorem after_next {o : Host.Outcome State Fault Refusal} {p : State → Bool} (h : after o p = true) :
    ∃ t, o = .next t ∧ p t = true := by
  cases o with
  | next t => exact ⟨t, rfl, h⟩
  | fault f => cases h
  | refused r => cases h

/-- The command stopped with this fault. -/
def stopsWith (o : Host.Outcome State Fault Refusal) (f : Fault) : Bool :=
  match o with
  | .next _ => false
  | .fault g => g == f
  | .refused _ => false

/-- The check that a command ended with success. -/
def noErr (t : State) : Bool := t.ctl.error == noError

theorem noErr_eq {t : State} (h : noErr t = true) : t.ctl.error = noError := by simpa [noErr] using h

theorem after_noErr {o : Host.Outcome State Fault Refusal} (h : after o noErr = true) :
    ∃ t, o = .next t ∧ t.ctl.error = noError := by
  obtain ⟨t, h1, h2⟩ := after_next h
  exact ⟨t, h1, noErr_eq h2⟩

theorem textState_inText (x : List Byte) (h : x.length < 2 ^ 32) : inText (textState x) x :=
  ⟨by simp [textState]; omega, Memory.holds_cells 0 x⟩

theorem payloadState_payloadText (x : List Byte) (pad : BitVec 3) (h : x.length < 2 ^ 32) :
    payloadText (payloadState x pad) x :=
  ⟨by simp [payloadState]; omega, Memory.holds_cells 0 x⟩

theorem codesState_codeList (ws : List Word) (h : ws.length < 2 ^ 32) : codeList (codesState ws) ws := by
  refine ⟨by simp [codesState]; omega, fun j hj => ?_⟩
  simp [codeAt, codesState, Memory.get_cells, hj]

theorem bitState_bitText (b : BitString) (h : b.length < 2 ^ 32) : bitText (bitState b) b := by
  refine ⟨by simp [bitState]; omega, fun i hi => ?_⟩
  obtain ⟨y, hy, hb⟩ := packBytes_getElem? (ceilDiv8 b.length) b (i / 8) (by unfold ceilDiv8; omega)
  refine ⟨y, by simpa [bitState, Memory.get_cells] using hy, ?_⟩
  rw [hb _ (by omega), Nat.div_add_mod, List.getD_eq_getElem?_getD, List.getElem?_eq_getElem hi]
  rfl

theorem outText_of_eq {t : State} {a : List Byte} (h : t.out = outBuffer a) (hl : a.length < 2 ^ 32) : outText t a := by
  unfold outText
  rw [h]
  exact ⟨by simp [outBuffer]; omega, Memory.holds_cells 0 a⟩

/-- "aabbbcc" and its Huffman artifact (95_test_vectors section 1.5). -/
def aabbbcc : List Byte := [0x61, 0x61, 0x62, 0x62, 0x62, 0x63, 0x63]

def aabbbccArtifact : List Byte :=
  [0x44, 0x43, 0x01, 0x01, 0x05, 0x00, 0x00, 0x00, 0x02, 0x00, 0x03, 0x61, 0x02, 0x80, 0x62, 0x01, 0x00, 0x63, 0x02,
    0xC0, 0xA1, 0xE0]

/-- The table of "aabbbcc": a = "10", b = "0", c = "11". -/
def aabbbccTable : CodeTable :=
  ⟨[(0x61, [true, false]), (0x62, [false]), (0x63, [true, true])], 3⟩

/-- "10100001111", the bits of "aabbbcc". -/
def aabbbccBits : BitString :=
  [true, false, true, false, false, false, false, true, true, true, true]

/-- The frequency table of "aabbbcc" (section 2.2). -/
def aabbbccFreq : FreqTable := ⟨[(0x61, ⟨2, 0⟩), (0x62, ⟨3, 2⟩), (0x63, ⟨2, 5⟩)], 3, 7⟩

/-- The ranked list of "aabbbcc" (section 2.2). -/
def aabbbccRank : RankTable := ⟨[⟨0x62, 3⟩, ⟨0x61, 2⟩, ⟨0x63, 2⟩], 3⟩

/-- The tree of "aabbbcc" (section 2.3). -/
def aabbbccTree : TreeArena :=
  ⟨[.leaf 0x61 2, .leaf 0x62 3, .leaf 0x63 2, .internal 4 0 2, .internal 7 1 3], 5, some 4⟩

/-- The tree of "aaaa" (section 2.3): one leaf. -/
def aaaaTree : TreeArena := ⟨[.leaf 0x61 4], 1, some 0⟩

/-! ## Well-formedness refuses ill-formed terms -/

theorem test_caps_default_wf : Caps.default.wf = true := by decide

theorem test_caps_in_bounds : (⟨0, 1, 8, 1, 1, 1⟩ : Caps).wf = false ∧ (⟨2 ^ 32, 1, 8, 1, 1, 1⟩ : Caps).wf = false := by
  decide

theorem test_caps_out_bounds : (⟨1, 0, 8, 1, 1, 1⟩ : Caps).wf = false ∧ (⟨1, 2 ^ 32, 8, 1, 1, 1⟩ : Caps).wf = false := by
  decide

theorem test_caps_bits_bounds :
    (⟨1, 1, 0, 1, 1, 1⟩ : Caps).wf = false ∧ (⟨1, 1, 2 ^ 32, 2 ^ 32 - 1, 1, 1⟩ : Caps).wf = false := by decide

theorem test_caps_payload_bounds :
    (⟨1, 1, 8, 0, 1, 1⟩ : Caps).wf = false ∧ (⟨1, 1, 8, 2 ^ 32, 1, 1⟩ : Caps).wf = false := by decide

theorem test_caps_codes_bounds :
    (⟨1, 1, 8, 1, 0, 1⟩ : Caps).wf = false ∧ (⟨1, 1, 8, 1, 2 ^ 32, 1⟩ : Caps).wf = false := by decide

/-- 4 x CODES_CAP must be below 2^32: 2^30 - 1 is the largest. -/
theorem test_caps_codes_window :
    (⟨1, 1, 8, 1, 2 ^ 30 - 1, 1⟩ : Caps).wf = true ∧ (⟨1, 1, 8, 1, 2 ^ 30, 1⟩ : Caps).wf = false := by decide

theorem test_caps_dict_bounds :
    (⟨1, 1, 8, 1, 1, 0⟩ : Caps).wf = false ∧ (⟨1, 1, 8, 1, 1, 2 ^ 32 - 256⟩ : Caps).wf = true ∧
    (⟨1, 1, 8, 1, 1, 2 ^ 32 - 255⟩ : Caps).wf = false := by decide

theorem test_caps_bits_fit_payload :
    (⟨1, 1, 8, 1, 1, 1⟩ : Caps).wf = true ∧ (⟨1, 1, 9, 1, 1, 1⟩ : Caps).wf = false := by decide

theorem test_fields_rsvd : (⟨0x01, 0, 1⟩ : CmdFields).rsvdOk = false ∧ (⟨0x01, 0, 1⟩ : CmdFields).wf = false := by decide

theorem test_fields_opcode :
    (⟨0x0E, 0, 0⟩ : CmdFields).opcOk = false ∧ (⟨0x0F, 0, 0⟩ : CmdFields).wf = false ∧
    (⟨0x12, 0, 0⟩ : CmdFields).wf = false ∧ (⟨0xFF, 0, 0⟩ : CmdFields).wf = false := by decide

theorem test_fields_codec :
    (⟨0x01, 1, 0⟩ : CmdFields).codecOk = false ∧ (⟨0x11, 3, 0⟩ : CmdFields).wf = false ∧
    (⟨0x0C, 0, 0⟩ : CmdFields).codecOk = false ∧ (⟨0x10, 0, 0⟩ : CmdFields).wf = false := by decide

theorem test_program_labels :
    (HostProgram.labelsDistinct [labelled 1 .halt, labelled 1 .halt]) = false ∧
    (HostProgram.wf [labelled 1 .halt, labelled 1 .halt]) = false := by decide

theorem test_program_targets :
    (HostProgram.targetsExist [labelled 1 (.jump 2)]) = false ∧
    (HostProgram.wf [labelled 1 (.bnz 0 1 2)]) = false ∧ (HostProgram.wf [labelled 1 (.bz 0 1 2)]) = false := by decide

/-! ## Decoding: the words of 30_encoding R104, RSVD then CODEC then OPC, bit by bit -/

theorem test_decode_nop : decode 0b0000000000000000000000_00_00000000 = .ok .nop := by decide
theorem test_decode_pack : decode 0b0000000000000000000000_00_00000001 = .ok .pack := by decide
theorem test_decode_unpack : decode 0b0000000000000000000000_00_00000010 = .ok .unpack := by decide
theorem test_decode_analyze : decode 0b0000000000000000000000_00_00000011 = .ok .analyze := by decide
theorem test_decode_rank : decode 0b0000000000000000000000_00_00000100 = .ok .rank := by decide
theorem test_decode_huffBuild : decode 0b0000000000000000000000_00_00000101 = .ok .huffBuild := by decide
theorem test_decode_huffCodes : decode 0b0000000000000000000000_00_00000110 = .ok .huffCodes := by decide
theorem test_decode_sfCodes : decode 0b0000000000000000000000_00_00000111 = .ok .sfCodes := by decide
theorem test_decode_encode : decode 0b0000000000000000000000_00_00001000 = .ok .encode := by decide
theorem test_decode_decode : decode 0b0000000000000000000000_00_00001001 = .ok .decode := by decide
theorem test_decode_lzwCompress : decode 0b0000000000000000000000_00_00001010 = .ok .lzwCompress := by decide
theorem test_decode_lzwDecompress : decode 0b0000000000000000000000_00_00001011 = .ok .lzwDecompress := by decide
theorem test_decode_serializeHuf : decode 0b0000000000000000000000_01_00001100 = .ok .serializeHuf := by decide
theorem test_decode_serializeSf : decode 0b0000000000000000000000_10_00001100 = .ok .serializeSf := by decide
theorem test_decode_serializeLzw : decode 0b0000000000000000000000_11_00001100 = .ok .serializeLzw := by decide
theorem test_decode_deserialize : decode 0b0000000000000000000000_00_00001101 = .ok .deserialize := by decide
theorem test_decode_compressHuf : decode 0b0000000000000000000000_01_00010000 = .ok .compressHuf := by decide
theorem test_decode_compressSf : decode 0b0000000000000000000000_10_00010000 = .ok .compressSf := by decide
theorem test_decode_compressLzw : decode 0b0000000000000000000000_11_00010000 = .ok .compressLzw := by decide
theorem test_decode_decompress : decode 0b0000000000000000000000_00_00010001 = .ok .decompress := by decide

/-- 30_encoding R106: one word of each illegal kind. -/
theorem test_decode_illegal :
    decode 0b0000000000000000000001_00_00000001 = .error .reservedBits ∧
    decode 0b1000000000000000000000_00_00000000 = .error .reservedBits ∧
    decode 0b0000000000000000000000_00_00001110 = .error .unassignedOpcode ∧
    decode 0b0000000000000000000000_01_00010010 = .error .unassignedOpcode ∧
    decode 0b0000000000000000000000_01_00000001 = .error .codecNotAllowed ∧
    decode 0b0000000000000000000000_00_00010000 = .error .codecMissing := by decide

theorem test_decodeTableWord :
    decodeTableWord 32 0x0000030C = some .serializeLzw ∧ decodeTableWord 32 0x0000000C = none ∧
    decodeTableWord 8 0x11 = some .decompress := by decide

/-- The very next step after withFetchWord runs the word, also as the first step after reset. -/
theorem test_withFetchWord :
    after (step (State.reset.withFetchWord 32 0x00000000)) (fun t => noErr t && t.ctl.done && !t.ctl.busy) = true ∧
    after (step (State.reset.withFetchWord 32 0x00000110)) (fun t => t.ctl.error == ⟨.emptyInput, 0x10, 0x10⟩) = true := by
  decide

/-! ## Single steps: expected values from 95_test_vectors.md -/

/-- Section 2.1: the pad bits are 0 whatever the storage holds. -/
theorem test_pack_padding :
    after (exec .pack { bitState [] with bits := ⟨[(0, 0xA1), (1, 0xFF)], 11⟩ }) (fun t =>
      noErr t && t.payload == ⟨[(0, 0xA1), (1, 0xE0)], 2⟩ && t.pad == 5) = true := by decide

/-- Section 2.1: BITS_LEN = 17, BITS_CAP = 16. -/
theorem test_pack_capacity :
    after (exec .pack (withCaps ⟨1, 1, 16, 2, 1, 1⟩ { bitState [] with bits := ⟨[], 17⟩ })) (fun t =>
      csrRead t .error == 0x00010105 && t.ctl.errInfo == 17) = true := by decide

/-- Section 2.1: PAYLOAD = A1 E7 with PAD = 5. -/
theorem test_unpack_padding :
    after (exec .unpack (payloadState [0xA1, 0xE7] 5)) (fun t =>
      noErr t && t.bits == ⟨[(0, 0xA1), (1, 0xE0)], 11⟩) = true := by decide

/-- Section 2.1: PAYLOAD_LEN = 0 with PAD = 3. -/
theorem test_unpack_format :
    after (exec .unpack (payloadState [] 3)) (fun t =>
      csrRead t .error == 0x00020203 && t.ctl.errInfo == 3 && t.bits.len == 0) = true := by decide

/-- Section 2.2. -/
theorem test_analyze : after (exec .analyze (textState aabbbcc)) (fun t => noErr t && t.freq == aabbbccFreq) = true := by
  decide

/-- Section 2.2: 00 FF 00. -/
theorem test_analyze_bytes :
    after (exec .analyze (textState [0x00, 0xFF, 0x00])) (fun t =>
      t.freq == ⟨[(0x00, ⟨2, 0⟩), (0xFF, ⟨1, 1⟩)], 2, 3⟩) = true := by decide

/-- Section 2.2. -/
theorem test_rank :
    after (exec .rank { State.reset with freq := aabbbccFreq }) (fun t => noErr t && t.rank == aabbbccRank) = true := by
  decide

/-- Section 2.2, "mississippi": i ranks before s because it occurs first. -/
theorem test_rank_ties :
    after (exec .rank { State.reset with
      freq := ⟨[(0x69, ⟨4, 1⟩), (0x6D, ⟨1, 0⟩), (0x70, ⟨2, 8⟩), (0x73, ⟨4, 2⟩)], 4, 11⟩ }) (fun t =>
      t.rank == ⟨[⟨0x69, 4⟩, ⟨0x73, 4⟩, ⟨0x70, 2⟩, ⟨0x6D, 1⟩], 4⟩) = true := by decide

/-- Section 2.3. -/
theorem test_huffBuild :
    after (exec .huffBuild { State.reset with freq := aabbbccFreq }) (fun t => noErr t && t.tree == aabbbccTree) = true := by
  decide

/-- Section 2.3, "aaabbc": the lighter node goes left although its index is higher. -/
theorem test_huffBuild_left :
    after (exec .huffBuild { State.reset with freq := ⟨[(0x61, ⟨3, 0⟩), (0x62, ⟨2, 3⟩), (0x63, ⟨1, 5⟩)], 3, 6⟩ })
      (fun t => t.tree == ⟨[.leaf 0x61 3, .leaf 0x62 2, .leaf 0x63 1, .internal 3 2 1, .internal 6 0 3], 5, some 4⟩) =
      true := by decide

/-- Section 2.4. -/
theorem test_huffCodes :
    after (exec .huffCodes { State.reset with tree := aabbbccTree }) (fun t => noErr t && t.ctab == aabbbccTable) = true := by
  decide

/-- Section 2.4, "aaaa": a root that is a leaf gets "0". -/
theorem test_huffCodes_single :
    after (exec .huffCodes { State.reset with tree := aaaaTree }) (fun t => t.ctab == ⟨[(0x61, [false])], 1⟩) = true := by
  decide

/-- Section 2.4. -/
theorem test_sfCodes :
    after (exec .sfCodes { State.reset with rank := aabbbccRank }) (fun t => noErr t && t.ctab == aabbbccTable) = true := by
  decide

/-- Section 2.4: the split points, an equal difference stops the scan. -/
theorem test_splitPoint :
    splitPoint [3, 2, 2] = 1 ∧ splitPoint [2, 2, 2] = 1 ∧ splitPoint [1, 1] = 1 ∧ splitPoint [1, 1, 1, 1] = 2 ∧
    splitPoint [8, 5, 3, 3, 3, 2] = 2 ∧ splitPoint [5, 2, 2, 1, 1] = 1 := by decide

/-- Section 2.5. -/
theorem test_encode :
    after (exec .encode (withTable aabbbccTable (textState aabbbcc))) (fun t =>
      noErr t && t.bits == (bitState aabbbccBits).bits) = true := by decide

/-- Section 2.5: a = "0", b = "1" and the text "abc". -/
theorem test_encode_unmapped :
    after (exec .encode (withTable ⟨[(0x61, [false]), (0x62, [true])], 2⟩ (textState [0x61, 0x62, 0x63]))) (fun t =>
      csrRead t .error == 0x00080807 && t.ctl.errInfo == 2 && t.bits == State.reset.bits) = true := by decide

/-- Section 2.5: a = "0", BITS = "0110": after "0" the prefix is dead. -/
theorem test_decode_dead :
    after (exec .decode (withTable ⟨[(0x61, [false])], 1⟩ (bitState [false, true, true, false]))) (fun t =>
      noErr t && t.out == outBuffer [0x61]) = true := by decide

/-- Section 2.5: OUT_CAP = 5, bit 8 completes the sixth symbol. -/
theorem test_decode_full :
    after (exec .decode (withCaps ⟨1, 5, 100, 20, 1, 1⟩ (withTable aabbbccTable (bitState aabbbccBits)))) (fun t =>
      csrRead t .error == 0x00090905 && t.ctl.errInfo == 8 && t.out.len == 0) = true := by decide

/-- Section 2.7, "ABABABA". -/
theorem test_lzwCompress :
    after (exec .lzwCompress (textState [0x41, 0x42, 0x41, 0x42, 0x41, 0x42, 0x41])) (fun t =>
      noErr t && t.codes == (codesState [65, 66, 256, 258]).codes && t.dict ==
        ⟨[⟨65, 0x42⟩, ⟨66, 0x41⟩, ⟨256, 0x41⟩], 259⟩) = true := by decide

/-- Section 2.7, DICT_CAP = 2 on "TOBEORNOT...": the third insertion fails. -/
theorem test_lzwCompress_full :
    after (exec .lzwCompress (withCaps ⟨24, 1, 8, 1, 20, 2⟩
      (textState [0x54, 0x4F, 0x42, 0x45, 0x4F, 0x52, 0x4E, 0x4F, 0x54]))) (fun t =>
      csrRead t .error == 0x000A0A05 && t.ctl.errInfo == 3 && t.codes.len == 0 && t.dict.nextCode == 256) = true := by
  decide

/-- Section 2.7, [65, 66, 256, 258]: the last code is the next-free one. -/
theorem test_lzwDecompress :
    after (exec .lzwDecompress (codesState [65, 66, 256, 258])) (fun t =>
      noErr t && t.out == outBuffer [0x41, 0x42, 0x41, 0x42, 0x41, 0x42, 0x41] && t.dict.nextCode == 259) = true := by
  decide

/-- Section 2.7, [65, 256, 258]: 258 is above NEXT_CODE = 257. -/
theorem test_lzwDecompress_corrupt :
    after (exec .lzwDecompress (codesState [65, 256, 258])) (fun t =>
      csrRead t .error == 0x000B0B04 && t.ctl.errInfo == 2 && t.out.len == 0 && t.dict.nextCode == 256) = true := by
  decide

/-- Section 1.5. -/
theorem test_serializeHuf :
    after (exec .serializeHuf (withTable aabbbccTable (payloadState [0xA1, 0xE0] 5))) (fun t =>
      noErr t && t.out == outBuffer aabbbccArtifact && t.artKind == 1) = true := by decide

/-- 45_container R266: CTAB_N = 0 with a payload. -/
theorem test_serializeHuf_noTable :
    after (exec .serializeHuf (payloadState [0xA1] 0)) (fun t =>
      csrRead t .error == 0x000C0C03 && t.ctl.errInfo == 9) = true := by decide

/-- 45_container R266: an empty table and an empty payload give the 11-byte artifact. -/
theorem test_serializeSf_empty :
    after (exec .serializeSf State.reset) (fun t =>
      noErr t && t.out == outBuffer [0x44, 0x43, 0x01, 0x02, 0, 0, 0, 0, 0, 0, 0] && t.artKind == 2) = true := by decide

/-- 45_container R267; PAD is not read. -/
theorem test_serializeLzw :
    after (exec .serializeLzw { codesState [97, 256, 97] with pad := 5 }) (fun t =>
      noErr t && t.out == outBuffer [0x44, 0x43, 0x01, 0x03, 0x00, 0x00, 0x00, 0x00, 0x0C, 0x00, 0x00, 0x00, 0x61, 0x00,
        0x00, 0x01, 0x00, 0x00, 0x00, 0x00, 0x61] && t.artKind == 3) = true := by decide

/-- 45_container R270. -/
theorem test_deserialize :
    after (exec .deserialize (textState aabbbccArtifact)) (fun t =>
      noErr t && t.ctab == aabbbccTable && t.pad == 5 && t.payload == ⟨[(0, 0xA1), (1, 0xE0)], 2⟩ && t.artKind == 1) =
      true := by decide

/-- 45_container R271 check 17: the second symbol is not above the first. -/
theorem test_deserialize_order :
    after (exec .deserialize (textState
      [0x44, 0x43, 0x01, 0x01, 0x00, 0, 0, 0, 1, 0, 2, 0x61, 1, 0x00, 0x61, 1, 0x80, 0x00])) (fun t =>
      csrRead t .error == 0x000D0D03 && t.ctl.errInfo == 14) = true := by decide

/-- Section 1.5. -/
theorem test_compressHuf :
    after (exec .compressHuf (textState aabbbcc)) (fun t =>
      noErr t && t.out == outBuffer aabbbccArtifact && t.sizes == ⟨7, 22⟩) = true := by decide

/-- Section 1.6. -/
theorem test_compressHuf_empty :
    after (exec .compressHuf State.reset) (fun t =>
      csrRead t .error == 0x00101002 && t.ctl.errInfo == 0 && csrRead t .status == 0x06) = true := by decide

/-- Section 1.4, "aaaa". -/
theorem test_compressSf :
    after (exec .compressSf (textState [0x61, 0x61, 0x61, 0x61])) (fun t =>
      noErr t && t.out == outBuffer [0x44, 0x43, 0x01, 0x02, 0x04, 0, 0, 0, 1, 0, 1, 0x61, 1, 0, 0] &&
        t.rank == ⟨[⟨0x61, 4⟩], 1⟩ && t.sizes == ⟨4, 15⟩) = true := by decide

/-- Section 1.4, "aaaa". -/
theorem test_compressLzw :
    after (exec .compressLzw (textState [0x61, 0x61, 0x61, 0x61])) (fun t =>
      noErr t && t.out == outBuffer [0x44, 0x43, 0x01, 0x03, 0x00, 0, 0, 0, 0x0C, 0, 0, 0, 0x61, 0, 0, 1, 0, 0, 0, 0, 0x61] &&
        t.dict.nextCode == 258) = true := by decide

/-- Section 1.5. -/
theorem test_decompress :
    after (exec .decompress (textState aabbbccArtifact)) (fun t =>
      noErr t && t.out == outBuffer aabbbcc && t.sizes == ⟨7, 22⟩) = true := by decide

/-- Program P4: the artifact passes DESERIALIZE and fails in LZW_DECOMPRESS. -/
theorem test_decompress_corrupt :
    after (exec .decompress (textState
      [0x44, 0x43, 0x01, 0x03, 0, 0, 0, 0, 8, 0, 0, 0, 0x41, 0, 0, 1, 0x2C])) (fun t =>
      csrRead t .error == 0x000B1104 && t.ctl.errInfo == 1 && t.codes.len == 2 && t.artKind == 3 && t.sizes == ⟨0, 0⟩) =
      true := by decide

/-- A command that reads an element nothing has written faults (70_reset R376). -/
theorem test_unwritten :
    exec .analyze { State.reset with inp := ⟨[(0, 0x61)], 2⟩ } = .fault (.unwrittenIn 1) := by rfl

/-! ## The bus and the Host -/

/-- Section 2.1: the WARL field of PAD. -/
theorem test_pad_warl : (memWrite 0 0x24 .w32 0xFFFFFFFF State.reset).2.pad = 7 := by decide

/-- Section 2.3, the NODE window after HUFF_BUILD: an internal node and the bound. -/
theorem test_node_window :
    (memRead 8 48 .w32 { State.reset with tree := aabbbccTree }).1 = .okData 0x80000000 ∧
    (memRead 8 56 .w32 { State.reset with tree := aabbbccTree }).1 = .okData 0 ∧
    (memRead 8 60 .w32 { State.reset with tree := aabbbccTree }).1 = .okData 2 ∧
    (memRead 8 80 .w32 { State.reset with tree := aabbbccTree }).1 = .busError := by decide

/-- Section 2.4, the CTAB window: symbol 'b' with the code "110" (offset 64 x 0x62). -/
theorem test_ctab_window :
    (memRead 9 6272 .w32 (withTable ⟨[(0x62, [true, true, false])], 1⟩ State.reset)).1 = .okData 3 ∧
    (memRead 9 6276 .w32 (withTable ⟨[(0x62, [true, true, false])], 1⟩ State.reset)).1 = .okData 0xC0000000 := by
  decide

/-- Section 2.7, the DICT window: code 65 is a seed, 256 = (84, 'O'). -/
theorem test_dict_window :
    (memRead 10 520 .w32 { State.reset with dict := ⟨[⟨84, 0x4F⟩], 257⟩ }).1 = .okData 0xFFFFFFFF ∧
    (memRead 10 2048 .w32 { State.reset with dict := ⟨[⟨84, 0x4F⟩], 257⟩ }).1 = .okData 84 ∧
    (memRead 10 2052 .w32 { State.reset with dict := ⟨[⟨84, 0x4F⟩], 257⟩ }).1 = .okData 0x4F ∧
    (memRead 10 2056 .w32 { State.reset with dict := ⟨[⟨84, 0x4F⟩], 257⟩ }).1 = .busError := by decide

/-- 70_reset R380, R381: while busy a CSR write is lost and a buffer read refused, both set WBUSY. -/
theorem test_busy :
    (memWrite 0 0x04 .w32 3 (busyState 0 [])).1 = .ok ∧ (memWrite 0 0x04 .w32 3 (busyState 0 [])).2.ctl.cmd = 0 ∧
    (memWrite 0 0x04 .w32 3 (busyState 0 [])).2.ctl.wbusy = true ∧
    (memRead 1 0 .w8 (busyState 0 [])).1 = .busError := by decide

/-- The report of section 1.5, and the tie 1/40 of section 2.6. -/
theorem test_report :
    reportText ⟨7, 22⟩ =
      "Original file size: 7 bytes\nCompressed file size: 22 bytes\nCompression Ratio: 0.32x\n" ∧
    ratioText ⟨1, 40⟩ = "0.02" := by decide +kernel

/-! ## Witnesses: structures that meet their part of the invariant -/

theorem freqOk_aabbbcc : FreqOk aabbbccFreq := by constructor <;> decide

theorem freqOk_empty : FreqOk State.reset.freq := by constructor <;> decide

theorem rankOk_aabbbcc : RankOk aabbbccRank := by constructor <;> decide

theorem rankOk_single : RankOk ⟨[⟨0x61, 4⟩], 1⟩ := by constructor <;> decide

theorem treeOk_aabbbcc : TreeOk aabbbccTree := by
  refine ⟨by decide, by decide, by decide, fun i w l r h => ?_, fun i w l r h => ?_, by decide⟩
  · obtain rfl | rfl | rfl | rfl | rfl | hi : i = 0 ∨ i = 1 ∨ i = 2 ∨ i = 3 ∨ i = 4 ∨ 5 ≤ i := by omega
    · simp [aabbbccTree] at h
    · simp [aabbbccTree] at h
    · simp [aabbbccTree] at h
    · simp [aabbbccTree] at h
      omega
    · simp [aabbbccTree] at h
      omega
    · rw [List.getElem?_eq_none (by simpa [aabbbccTree] using hi)] at h
      cases h
  · obtain rfl | rfl | rfl | rfl | rfl | hi : i = 0 ∨ i = 1 ∨ i = 2 ∨ i = 3 ∨ i = 4 ∨ 5 ≤ i := by omega
    · simp [aabbbccTree] at h
    · simp [aabbbccTree] at h
    · simp [aabbbccTree] at h
    · simp [aabbbccTree] at h
      obtain ⟨rfl, rfl, rfl⟩ := h
      exact ⟨.leaf 0x61 2, .leaf 0x63 2, rfl, rfl, rfl⟩
    · simp [aabbbccTree] at h
      obtain ⟨rfl, rfl, rfl⟩ := h
      exact ⟨.leaf 0x62 3, .internal 4 0 2, rfl, rfl, rfl⟩
    · rw [List.getElem?_eq_none (by simpa [aabbbccTree] using hi)] at h
      cases h

theorem treeOk_aaaa : TreeOk aaaaTree := by
  refine ⟨by decide, by decide, by decide, fun i w l r h => ?_, fun i w l r h => ?_, by decide⟩
  all_goals
    cases i with
    | zero => simp [aaaaTree] at h
    | succ i => simp [aaaaTree] at h

theorem treeOk_empty : TreeOk State.reset.tree := by
  refine ⟨by decide, by decide, by decide, fun i w l r h => ?_, fun i w l r h => ?_, by decide⟩
  all_goals simp [State.reset] at h

theorem ctabOk_aabbbcc : CtabOk aabbbccTable := by
  refine ⟨by decide, by decide, by decide, ?_, by decide⟩
  show ∀ a ∈ aabbbccTable.codes, ∀ b ∈ aabbbccTable.codes, a.1 ≠ b.1 → ¬ a.2 <+: b.2
  decide

/-- The table a = "0". -/
def aTable : CodeTable := ⟨[(0x61, [false])], 1⟩

theorem ctabOk_a : CtabOk aTable := by
  refine ⟨by decide, by decide, by decide, ?_, by decide⟩
  show ∀ a ∈ aTable.codes, ∀ b ∈ aTable.codes, a.1 ≠ b.1 → ¬ a.2 <+: b.2
  decide

theorem ctabOk_empty : CtabOk ⟨[], BitVec.ofNat 32 ([] : Memory BitString).length⟩ := by
  refine ⟨by decide, by decide, by decide, ?_, by decide⟩
  show ∀ a ∈ ([] : Memory BitString), ∀ b ∈ ([] : Memory BitString), a.1 ≠ b.1 → ¬ a.2 <+: b.2
  decide

theorem dictOk_one : DictOk ⟨[⟨84, 0x4F⟩], 257⟩ := by
  refine ⟨by decide, fun i e h => ?_⟩
  cases i with
  | zero =>
    simp at h
    subst h
    decide
  | succ i => simp at h

theorem controlOk_busy : ControlOk (busyState 0 []).ctl := by
  refine ⟨fun _ => ⟨rfl, rfl, rfl⟩, fun _ => ⟨rfl, rfl⟩, by decide⟩

/-- A state that meets the invariant and holds something in every buffer a SERIALIZE reads. -/
def fullState : State :=
  { State.reset with
    payload := ⟨Memory.cells 0 [0xA1, 0xE0], 2⟩
    pad := 5
    codes := ⟨Memory.cells 0 [97, 256, 97], 3⟩
    ctab := aabbbccTable }

theorem inv_fullState : Inv fullState := by
  have hc : ControlOk fullState.ctl := ⟨fun h => (nomatch h), fun _ => ⟨rfl, rfl⟩, by decide⟩
  have hd : DictOk fullState.dict := ⟨by decide, fun i e h => by simp [fullState, State.reset] at h⟩
  refine ⟨by decide, hc, ?_, freqOk_empty, ?_, treeOk_empty, ctabOk_aabbbcc, hd, by decide, .inl rfl⟩
  · exact ⟨by decide, by decide, by decide, by decide, by decide, by decide, by decide, by decide, [], rfl, by decide⟩
  · constructor <;> decide

/-! ## Witnesses: the hypotheses of each statement, clause by clause -/

theorem witness_IllegalWordCompletesWithIllegalCommand :
    (∃ (s : State) (w : Word), (∀ i, encode i ≠ w) ∧ s.ctl.busy = false ∧ s.turns = []) ∧
    ∃ (s u : State) (w : Word) (rest : List Turn), (∀ i, encode i ≠ w) ∧ s.ctl.busy = false ∧
      s.turns = List.replicate 2 .host ++ .block :: rest ∧ Sys2Proof.core.run 2 (accept w s) = .next u :=
  ⟨⟨State.reset, 0x10, fun i => by cases i <;> decide, rfl, rfl⟩,
    { State.reset with turns := [.host, .host, .block, .host], host := { State.reset.host with
      prog := [plain (wCsr .cmd 3), plain (rIn 0 0)] } }, _, 0x10, [.host], fun i => by cases i <;> decide, rfl, rfl, rfl⟩

theorem witness_AcceptanceLatchesTheWord :
    ∃ (s : State) (v : Word) (i : Instr) (ts : List Turn), s.ctl.busy = false ∧ decode v = .ok i ∧
      s.turns = .block :: ts :=
  ⟨{ State.reset with turns := [.block] }, 0, .nop, [], rfl, by decide, rfl⟩

theorem witness_StepRunsTheLatchedCommand :
    (∃ (s : State) (i : Instr), s.ctl.busy = true ∧ decode s.ctl.cmd = .ok i ∧ s.turns = []) ∧
    ∃ (s : State) (i : Instr) (ts : List Turn), s.ctl.busy = true ∧ decode s.ctl.cmd = .ok i ∧ s.turns = .block :: ts :=
  ⟨⟨busyState 3 [], .analyze, rfl, by decide, rfl⟩, busyState 3 [.block, .reset], .analyze, [.reset], rfl, by decide, rfl⟩

/-- For EveryCompletionWritesTheStatus, CommandsKeepStateOutsideTheirWriteSet, StoredRangesBoundTheChange and
NotFoundIsNeverRaised: a command that answers a next state with success, and one with an error. -/
theorem witness_completions :
    (∃ (i : Instr) (s t : State), s.caps.wf = true ∧ exec i s = .next t ∧ t.ctl.error = noError) ∧
    ∃ (i : Instr) (s t : State), s.caps.wf = true ∧ exec i s = .next t ∧ t.ctl.error ≠ noError ∧
      t.ctl.error.sub ≠ 0x0A ∧ i ∈ [.pack, .unpack, .analyze, .rank, .encode, .serializeHuf, .serializeSf, .serializeLzw,
        .deserialize] := by
  refine ⟨?_, ?_⟩
  · obtain ⟨t, h1, h2⟩ := after_noErr (show after (exec .nop State.reset) noErr = true by decide)
    exact ⟨_, _, t, by decide, h1, h2⟩
  · obtain ⟨t, h1, h2⟩ := after_next (show after (exec .unpack (payloadState [] 3)) (fun t =>
      decide (t.ctl.error ≠ noError ∧ t.ctl.error.sub ≠ 0x0A)) = true by decide)
    exact ⟨_, _, t, by decide, h1, (of_decide_eq_true h2).1, (of_decide_eq_true h2).2, by decide⟩

theorem witness_ErrorCompletionSavesTheError : ∃ a b : Nat, a < 2 ^ 32 ∧ 2 ^ 32 ≤ b := ⟨2 ^ 32 - 1, 2 ^ 32, by decide, by decide⟩

theorem witness_PackWritesThePaddedBytes :
    (∃ (s : State) (b : BitString), bitText s b ∧ b.length ≤ s.caps.bitsCap ∧
      (b.length + 7) / 8 ≤ s.caps.payloadCap) ∧
    (∃ s : State, s.caps.bitsCap < s.bits.len.toNat) ∧
    ∃ s : State, s.bits.len.toNat ≤ s.caps.bitsCap ∧ s.caps.payloadCap < (s.bits.len.toNat + 7) / 8 :=
  ⟨⟨withCaps ⟨1, 1, 11, 2, 1, 1⟩ (bitState aabbbccBits), aabbbccBits, bitState_bitText _ (by decide), by decide, by decide⟩,
    ⟨withCaps ⟨1, 1, 10, 2, 1, 1⟩ (bitState aabbbccBits), by decide⟩,
    withCaps ⟨1, 1, 11, 1, 1, 1⟩ (bitState aabbbccBits), by decide, by decide⟩

theorem witness_UnpackRestoresTheBits :
    (∃ (s : State) (x : List Byte), s.caps.wf = true ∧ payloadText s x ∧ x.length ≤ s.caps.payloadCap ∧
      (x = [] → s.pad = 0) ∧ 8 * x.length - s.pad.toNat ≤ s.caps.bitsCap) ∧
    (∃ s : State, s.caps.payloadCap < s.payload.len.toNat) ∧
    (∃ s : State, s.payload.len = 0 ∧ s.pad ≠ 0) ∧
    ∃ s : State, s.payload.len.toNat ≤ s.caps.payloadCap ∧ (s.payload.len = 0 → s.pad = 0) ∧
      s.caps.bitsCap < 8 * s.payload.len.toNat - s.pad.toNat :=
  ⟨⟨withCaps ⟨1, 1, 11, 2, 1, 1⟩ (payloadState [0xA1, 0xE7] 5), [0xA1, 0xE7], by decide,
      payloadState_payloadText [0xA1, 0xE7] 5 (by decide), by decide, by decide, by decide⟩,
    ⟨withCaps ⟨1, 1, 8, 1, 1, 1⟩ (payloadState [0xA1, 0xE7] 5), by decide⟩,
    ⟨payloadState [] 7, by decide, by decide⟩,
    withCaps ⟨1, 1, 10, 2, 1, 1⟩ (payloadState [0xA1, 0xE7] 5), by decide, by decide, by decide⟩

theorem witness_PackThenUnpackRoundTrip :
    (∃ (s : State) (b : BitString), s.caps.wf = true ∧ bitText s b ∧ b.length ≤ s.caps.bitsCap) ∧
    ∃ s : State, s.caps.wf = true ∧ bitText s [] ∧ ([] : BitString).length ≤ s.caps.bitsCap :=
  ⟨⟨withCaps ⟨1, 1, 11, 2, 1, 1⟩ (bitState aabbbccBits), aabbbccBits, by decide, bitState_bitText _ (by decide), by decide⟩,
    bitState [], by decide, bitState_bitText _ (by decide), by decide⟩

theorem witness_AnalyzeCountsTheText :
    (∃ (s : State) (x : List Byte), inText s x ∧ x.length ≤ s.caps.inCap ∧ x ≠ []) ∧
    ∃ s : State, s.caps.inCap < s.inp.len.toNat :=
  ⟨⟨withCaps ⟨7, 1, 8, 1, 1, 1⟩ (textState aabbbcc), aabbbcc, textState_inText _ (by decide), by decide, by decide⟩,
    withCaps ⟨6, 1, 8, 1, 1, 1⟩ (textState aabbbcc), by decide⟩

/-- For RankSortsThePresentSymbols, HuffBuildTreeProperties and HuffBuildMergesTheLeastKeys. -/
theorem witness_frequency_table :
    ∃ (s t : State), FreqOk s.freq ∧ s.freq.table ≠ [] ∧ exec .huffBuild s = .next t ∧
      (∃ (i j : Nat) (c d : Byte) (m n : Nat), i < j ∧ t.tree.nodes[i]? = some (Node.leaf c m) ∧ t.tree.nodes[j]? = some (Node.leaf d n)) ∧
      ∃ i w l r : Nat, t.tree.nodes[i]? = some (Node.internal w l r) ∧ ∃ j : Nat, j < i ∧ j ≠ l ∧ j ≠ r := by
  obtain ⟨t, h1, h2⟩ := after_next (show after (exec .huffBuild { State.reset with freq := aabbbccFreq }) (fun t =>
    decide (t.tree = aabbbccTree)) = true by decide)
  have h2 := of_decide_eq_true h2
  refine ⟨{ State.reset with freq := aabbbccFreq }, t, freqOk_aabbbcc, by decide, h1, ?_, ?_⟩
  · rw [h2]
    exact ⟨0, 1, _, _, _, _, by decide, rfl, rfl⟩
  · rw [h2]
    exact ⟨3, _, _, _, rfl, 1, by decide, by decide, by decide⟩

theorem witness_HuffCodesArePaths :
    (∃ s : State, TreeOk s.tree ∧ s.tree.root = none) ∧
    (∃ (s : State) (r : Nat) (c : Byte) (w : Nat), TreeOk s.tree ∧ s.tree.root = some r ∧
      s.tree.nodes[r]? = some (Node.leaf c w)) ∧
    ∃ (s : State) (r w a b : Nat), TreeOk s.tree ∧ s.tree.root = some r ∧
      s.tree.nodes[r]? = some (Node.internal w a b) :=
  ⟨⟨State.reset, treeOk_empty, rfl⟩, ⟨{ State.reset with tree := aaaaTree }, 0, 0x61, 4, treeOk_aaaa, rfl, rfl⟩,
    { State.reset with tree := aabbbccTree }, 4, 7, 1, 3, treeOk_aabbbcc, rfl, rfl⟩

theorem witness_HuffmanCodesMeetKraftEquality :
    (∃ s t : State, TreeOk s.tree ∧ exec .huffCodes s = .next t ∧ 2 ≤ t.ctab.codes.length) ∧
    ∃ s t : State, TreeOk s.tree ∧ exec .huffCodes s = .next t ∧ t.ctab.codes.length = 1 := by
  refine ⟨?_, ?_⟩
  · obtain ⟨t, h1, h2⟩ := after_next (show after (exec .huffCodes { State.reset with tree := aabbbccTree }) (fun t =>
      decide (2 ≤ t.ctab.codes.length)) = true by decide)
    exact ⟨_, t, treeOk_aabbbcc, h1, of_decide_eq_true h2⟩
  · obtain ⟨t, h1, h2⟩ := after_next (show after (exec .huffCodes { State.reset with tree := aaaaTree }) (fun t =>
      decide (t.ctab.codes.length = 1)) = true by decide)
    exact ⟨_, t, treeOk_aaaa, h1, of_decide_eq_true h2⟩

theorem witness_SplitPointIsTheLeastMinimum :
    ∃ cs : List Nat, 2 ≤ cs.length ∧ (∀ c ∈ cs, 1 ≤ c) ∧ 1 < splitPoint cs := ⟨[1, 1, 1, 1], by decide, by decide, by decide⟩

theorem witness_SfCodesSplitTheRankedList :
    (∃ (s : State) (e : RankEntry), RankOk s.rank ∧ s.rank.entries = [e]) ∧
    ∃ s : State, RankOk s.rank ∧ 2 ≤ s.rank.entries.length :=
  ⟨⟨{ State.reset with rank := ⟨[⟨0x61, 4⟩], 1⟩ }, ⟨0x61, 4⟩, rankOk_single, rfl⟩,
    { State.reset with rank := aabbbccRank }, rankOk_aabbbcc, by decide⟩

theorem witness_EncodeConcatenatesTheCodes :
    (∃ (s : State) (x : List Byte), inText s x ∧ x.length ≤ s.caps.inCap ∧ (∀ c ∈ x, codeOf s.ctab c ≠ []) ∧
      (x.flatMap (codeOf s.ctab)).length ≤ s.caps.bitsCap ∧ s.caps.bitsCap < 2 ^ 32) ∧
    (∃ s : State, s.caps.inCap < s.inp.len.toNat) ∧
    (∃ (s : State) (x : List Byte) (c : Byte), Memory.holds s.inp.mem 0 (x ++ [c]) ∧ x.length < s.inp.len.toNat ∧
      s.inp.len.toNat ≤ s.caps.inCap ∧ (∀ d ∈ x, codeOf s.ctab d ≠ []) ∧
      (x.flatMap (codeOf s.ctab)).length ≤ s.caps.bitsCap ∧ codeOf s.ctab c = []) ∧
    ∃ (s : State) (x : List Byte) (c : Byte), Memory.holds s.inp.mem 0 (x ++ [c]) ∧ x.length < s.inp.len.toNat ∧
      s.inp.len.toNat ≤ s.caps.inCap ∧ (∀ d ∈ x, codeOf s.ctab d ≠ []) ∧
      (x.flatMap (codeOf s.ctab)).length ≤ s.caps.bitsCap ∧ codeOf s.ctab c ≠ [] ∧
      s.caps.bitsCap < (x.flatMap (codeOf s.ctab)).length + (codeOf s.ctab c).length :=
  ⟨⟨withCaps ⟨7, 1, 11, 2, 1, 1⟩ (withTable aabbbccTable (textState aabbbcc)), aabbbcc, textState_inText _ (by decide),
      by decide, by decide, by decide, by decide⟩,
    ⟨withCaps ⟨6, 1, 11, 2, 1, 1⟩ (textState aabbbcc), by decide⟩,
    ⟨withTable aabbbccTable (textState [0x61, 0x64]), [0x61], 0x64, Memory.holds_cells 0 _, by decide, by decide,
      by decide, by decide, by decide⟩,
    withCaps ⟨7, 1, 8, 1, 1, 1⟩ (withTable aabbbccTable (textState aabbbcc)), [0x61, 0x61, 0x62, 0x62, 0x62], 0x63,
    ⟨rfl, rfl, rfl, rfl, rfl, rfl, trivial⟩, by decide, by decide, by decide, by decide, by decide, by decide⟩

theorem witness_DecodeParsesAndDropsTheRest :
    (∃ (s : State) (x : List Byte) (rest : BitString), CtabOk s.ctab ∧ (∀ c ∈ x, codeOf s.ctab c ≠ []) ∧
      (∀ p, p <+: rest → ∀ c, codeOf s.ctab c ≠ [] → codeOf s.ctab c ≠ p) ∧ rest ≠ [] ∧
      bitText s (x.flatMap (codeOf s.ctab) ++ rest) ∧ s.bits.len.toNat ≤ s.caps.bitsCap ∧ x.length ≤ s.caps.outCap) ∧
    (∃ s : State, s.caps.bitsCap < s.bits.len.toNat) ∧
    ∃ (s : State) (x : List Byte) (c : Byte) (rest : BitString), CtabOk s.ctab ∧
      (∀ d ∈ x ++ [c], codeOf s.ctab d ≠ []) ∧ x.length = s.caps.outCap ∧
      bitText s ((x ++ [c]).flatMap (codeOf s.ctab) ++ rest) ∧ s.bits.len.toNat ≤ s.caps.bitsCap := by
  refine ⟨⟨withCaps ⟨1, 1, 4, 1, 1, 1⟩ (withTable aTable (bitState [false, true, true, false])), [0x61],
      [true, true, false], ctabOk_a, by decide, ?_, by decide, bitState_bitText _ (by decide), by decide, by decide⟩,
    ⟨withCaps ⟨1, 1, 3, 1, 1, 1⟩ (bitState [false, true, true, false]), by decide⟩,
    withCaps ⟨1, 1, 4, 1, 1, 1⟩ (withTable aTable (bitState [false, false, true, true])), [0x61], 0x61, [true, true],
    ctabOk_a, by decide, by decide, bitState_bitText _ (by decide), by decide⟩
  intro p hp c hc he
  have hcode : codeOf aTable c = [false] := by
    unfold codeOf aTable Memory.get at *
    by_cases h : 0x61 = c.toNat
    · simp [← h]
    · exfalso
      apply hc
      show Option.getD (if 0x61 = c.toNat then some [false] else Memory.get [] c.toNat) [] = []
      rw [if_neg h]
      rfl
  have : ([false] : BitString) <+: [true, true, false] := by
    have h2 : codeOf aTable c = p := he
    have h3 : p = [false] := h2.symm.trans hcode
    rw [← h3]
    exact h3 ▸ hp
  exact absurd this (by decide)

theorem witness_EncodeThenDecodeRoundTrip :
    ∃ (s t : State) (x : List Byte), s.caps.wf = true ∧ CtabOk s.ctab ∧ inText s x ∧ exec .encode s = .next t ∧
      t.ctl.error = noError ∧ x.length ≤ s.caps.outCap ∧ x ≠ [] := by
  obtain ⟨t, h1, h2⟩ := after_noErr (show after (exec .encode (withTable aabbbccTable (textState aabbbcc))) noErr = true
    by decide)
  exact ⟨withTable aabbbccTable (textState aabbbcc), t, aabbbcc, by decide, ctabOk_aabbbcc, textState_inText _ (by decide), h1, h2, by decide, by decide⟩

theorem witness_LzwCompressParsesTheText :
    (∃ (s : State) (x : List Byte), s.caps.wf = true ∧ inText s x ∧ x.length ≤ s.caps.inCap ∧
      x.length ≤ s.caps.codesCap ∧ x.length ≤ s.caps.dictCap + 1 ∧ x ≠ []) ∧
    (∃ s : State, s.caps.inCap < s.inp.len.toNat) ∧
    (∃ (s t : State) (x : List Byte), s.caps.wf = true ∧ inText s x ∧ exec .lzwCompress s = .next t ∧
      t.ctl.error = noError ∧ x ≠ []) ∧
    ∃ (s t : State), s.caps.wf = true ∧ inText s [] ∧ exec .lzwCompress s = .next t ∧ t.ctl.error = noError := by
  refine ⟨⟨withCaps ⟨7, 1, 8, 1, 7, 6⟩ (textState aabbbcc), aabbbcc, by decide, textState_inText _ (by decide), by decide,
      by decide, by decide, by decide⟩, ⟨withCaps ⟨6, 1, 8, 1, 1, 1⟩ (textState aabbbcc), by decide⟩, ?_, ?_⟩
  · obtain ⟨t, h1, h2⟩ := after_noErr (show after (exec .lzwCompress (textState aabbbcc)) noErr = true by decide)
    exact ⟨_, t, aabbbcc, by decide, textState_inText _ (by decide), h1, h2, by decide⟩
  · obtain ⟨t, h1, h2⟩ := after_noErr (show after (exec .lzwCompress (textState [])) noErr = true by decide)
    exact ⟨_, t, by decide, textState_inText _ (by decide), h1, h2⟩

theorem lzwParse_aaa : lzwParse [0x61, 0x61, 0x61] [97, 256] [⟨97, 0x61⟩] := by
  have seed : ∀ k, k < 256 → stringOf [⟨97, 0x61⟩] k = [BitVec.ofNat 8 k] := fun k hk => by
    simp [stringOf, stringFrom, hk]
  have entry : stringOf [⟨97, 0x61⟩] 256 = [0x61, 0x61] := by decide
  refine ⟨⟨rfl, fun j hj => ?_⟩, fun j w hw => ?_, fun i j hi hj hne he => ?_, by decide⟩
  · obtain rfl : j = 0 := by simpa using hj
    exact ⟨97, 256, rfl, rfl, by rw [entry]; rfl⟩
  · match j with
    | 0 => simp at hw; omega
    | 1 => simp at hw; omega
    | j + 2 => simp at hw
  · have hi : i < 257 := hi
    have hj : j < 257 := hj
    obtain h1 | rfl : i < 256 ∨ i = 256 := by omega
    · obtain h2 | rfl : j < 256 ∨ j = 256 := by omega
      · rw [seed i h1, seed j h2] at he
        have := congrArg BitVec.toNat (List.cons.inj he).1
        simp only [BitVec.toNat_ofNat] at this
        omega
      · rw [seed i h1, entry] at he
        simp at he
    · obtain h2 | rfl : j < 256 ∨ j = 256 := by omega
      · rw [seed j h2, entry] at he
        simp at he
      · exact hne rfl

/-- The codes fit; CODES is full at the final emit (info IN_LEN = 3); the dictionary is full at the second insertion of a
longer text (info 3); a failure. -/
theorem witness_LzwCompressErrorState :
    (∃ (s : State) (x : List Byte) (ws : List Nat) (d : List DictEntry), s.caps.wf = true ∧ inText s x ∧
      x.length ≤ s.caps.inCap ∧ lzwParse x ws d ∧ ws.length ≤ s.caps.codesCap ∧ ws.length ≤ s.caps.dictCap + 1) ∧
    (∃ (s : State) (x : List Byte) (ws : List Nat) (d : List DictEntry), s.caps.wf = true ∧ inText s x ∧
      x.length ≤ s.caps.inCap ∧ lzwParse x ws d ∧ s.caps.codesCap < ws.length ∧
      after (exec .lzwCompress s) (fun t => t.ctl.errInfo == 3) = true) ∧
    (∃ (s : State) (x : List Byte), s.caps.wf = true ∧ inText s x ∧ x.length ≤ s.caps.inCap ∧
      s.caps.dictCap < s.caps.codesCap ∧ after (exec .lzwCompress s) (fun t => t.ctl.errInfo == 3) = true) ∧
    ∃ s t : State, s.inp.len.toNat ≤ s.caps.inCap ∧ exec .lzwCompress s = .next t ∧ t.ctl.error ≠ noError := by
  refine ⟨⟨withCaps ⟨3, 1, 8, 1, 2, 1⟩ (textState [0x61, 0x61, 0x61]), _, _, _, by decide, textState_inText _ (by decide),
      by decide, lzwParse_aaa, by decide, by decide⟩,
    ⟨withCaps ⟨3, 1, 8, 1, 1, 1⟩ (textState [0x61, 0x61, 0x61]), _, _, _, by decide, textState_inText _ (by decide),
      by decide, lzwParse_aaa, by decide, by decide⟩,
    ⟨withCaps ⟨4, 1, 8, 1, 9, 1⟩ (textState [0x61, 0x61, 0x61, 0x62]), _, by decide, textState_inText _ (by decide),
      by decide, by decide, by decide⟩, ?_⟩
  obtain ⟨t, h1, h2⟩ := after_next (show after (exec .lzwCompress (withCaps ⟨7, 1, 8, 1, 2, 9⟩ (textState aabbbcc)))
    (fun t => decide (t.ctl.error ≠ noError)) = true by decide)
  exact ⟨_, t, by decide, h1, of_decide_eq_true h2⟩

theorem resolvable_of {ws : List Nat} (h : (List.range ws.length).all (fun j => decide (ws.getD j 0 ≤ 255 + j)) = true) :
    lzwResolvable ws := by
  intro j k hk
  obtain ⟨hj, he⟩ := List.getElem?_eq_some_iff.mp hk
  have := List.all_eq_true.mp h j (List.mem_range.mpr hj)
  simp only [decide_eq_true_eq, List.getD_eq_getElem?_getD, hk, Option.getD_some] at this
  exact this

theorem lzwDict_two (a b : Nat) (e : Byte) (h : (stringOf [⟨a, e⟩] b).headD 0 = e) : lzwDict [a, b] [⟨a, e⟩] := by
  refine ⟨rfl, fun j hj => ?_⟩
  obtain rfl : j = 0 := by simpa using hj
  exact ⟨a, b, rfl, rfl, by rw [h]; rfl⟩

theorem lzwDict_one (a : Nat) : lzwDict [a] [] := ⟨rfl, fun j hj => by simp at hj⟩

theorem lzwDict_none : lzwDict [] [] := ⟨rfl, fun j hj => by simp at hj⟩

theorem witness_LzwDecompressWritesTheStrings :
    (∃ (s : State) (ws : List Word) (d : List DictEntry), s.caps.wf = true ∧ codeList s ws ∧
      lzwResolvable (ws.map BitVec.toNat) ∧ lzwDict (ws.map BitVec.toNat) d ∧ ws.length ≤ s.caps.codesCap ∧
      ws.length ≤ s.caps.dictCap + 1 ∧ (ws.flatMap fun w => stringOf d w.toNat).length ≤ s.caps.outCap ∧ d ≠ []) ∧
    (∃ s : State, s.caps.codesCap < s.codes.len.toNat) ∧
    (∃ (s : State) (ws : List Word) (k : Word) (d : List DictEntry), s.caps.wf = true ∧
      s.codes.len.toNat ≤ s.caps.codesCap ∧ ws.length < s.codes.len.toNat ∧
      (∀ j, j < (ws ++ [k]).length → codeAt s j = (ws ++ [k])[j]?) ∧ lzwResolvable (ws.map BitVec.toNat) ∧
      lzwDict (ws.map BitVec.toNat) d ∧ d.length ≤ s.caps.dictCap ∧
      (ws.flatMap fun w => stringOf d w.toNat).length ≤ s.caps.outCap ∧ 255 + ws.length < k.toNat ∧ ws ≠ []) ∧
    (∃ (s : State) (k : Word), s.caps.wf = true ∧ s.codes.len.toNat ≤ s.caps.codesCap ∧ 0 < s.codes.len.toNat ∧
      (∀ j, j < ([] ++ [k]).length → codeAt s j = ([] ++ [k])[j]?) ∧ lzwResolvable [] ∧ lzwDict [] [] ∧
      255 + 0 < k.toNat) ∧
    (∃ (s : State) (ws : List Word) (k : Word) (d : List DictEntry), s.caps.wf = true ∧
      s.codes.len.toNat ≤ s.caps.codesCap ∧ ws.length < s.codes.len.toNat ∧
      (∀ j, j < (ws ++ [k]).length → codeAt s j = (ws ++ [k])[j]?) ∧ lzwResolvable (ws.map BitVec.toNat) ∧
      lzwDict ((ws ++ [k]).map BitVec.toNat) d ∧ ws ≠ [] ∧ k.toNat ≤ 255 + ws.length ∧ d.length ≤ s.caps.dictCap + 1 ∧
      (ws.flatMap fun w => stringOf d w.toNat).length ≤ s.caps.outCap ∧
      s.caps.outCap < ((ws ++ [k]).flatMap fun w => stringOf d w.toNat).length) ∧
    ∃ (s : State) (ws : List Word) (k : Word) (d : List DictEntry), s.caps.wf = true ∧
      s.codes.len.toNat ≤ s.caps.codesCap ∧ ws.length < s.codes.len.toNat ∧
      (∀ j, j < (ws ++ [k]).length → codeAt s j = (ws ++ [k])[j]?) ∧ lzwResolvable (ws.map BitVec.toNat) ∧
      lzwDict ((ws ++ [k]).map BitVec.toNat) d ∧ ws ≠ [] ∧ k.toNat ≤ 255 + ws.length ∧
      ((ws ++ [k]).flatMap fun w => stringOf d w.toNat).length ≤ s.caps.outCap ∧ d.length = s.caps.dictCap + 1 := by
  have three : lzwDict [65, 256, 65] [⟨65, 0x41⟩, ⟨256, 0x41⟩] := by
    refine ⟨rfl, fun j hj => ?_⟩
    obtain rfl | rfl : j = 0 ∨ j = 1 := by simp at hj; omega
    · exact ⟨65, 256, rfl, rfl, rfl⟩
    · exact ⟨256, 65, rfl, rfl, rfl⟩
  refine ⟨⟨withCaps ⟨1, 3, 8, 1, 2, 1⟩ (codesState [65, 256]), [65, 256], [⟨65, 0x41⟩], by decide,
      codesState_codeList _ (by decide), resolvable_of (by decide), lzwDict_two _ _ _ (by decide), by decide, by decide,
      by decide, by decide⟩,
    ⟨withCaps ⟨1, 1, 8, 1, 1, 1⟩ (codesState [65, 256]), by decide⟩,
    ⟨codesState [65, 300], [65], 300, [], by decide, by decide, by decide, ?_, resolvable_of (by decide), lzwDict_one _,
      by decide, by decide, by decide, by decide⟩,
    ⟨codesState [256], 256, by decide, by decide, by decide, ?_, resolvable_of (by decide), lzwDict_none, by decide⟩,
    ⟨withCaps ⟨1, 2, 8, 1, 2, 1⟩ (codesState [65, 256]), [65], 256, [⟨65, 0x41⟩], by decide, by decide, by decide, ?_,
      resolvable_of (by decide), lzwDict_two _ _ _ (by decide), by decide, by decide, by decide, by decide, by decide⟩,
    ⟨withCaps ⟨1, 9, 8, 1, 3, 1⟩ (codesState [65, 256, 65]), [65, 256], 65, [⟨65, 0x41⟩, ⟨256, 0x41⟩], by decide,
      by decide, by decide, ?_, resolvable_of (by decide), three, by decide, by decide, by decide, by decide⟩⟩
  · exact (codesState_codeList [65, 300] (by decide)).2
  · exact (codesState_codeList [256] (by decide)).2
  · exact (codesState_codeList [65, 256] (by decide)).2
  · exact (codesState_codeList [65, 256, 65] (by decide)).2

theorem witness_LzwRoundTrip :
    ∃ (s t : State) (x : List Byte), s.caps.wf = true ∧ inText s x ∧ x ≠ [] ∧ exec .lzwCompress s = .next t ∧
      t.ctl.error = noError ∧ x.length ≤ s.caps.outCap := by
  obtain ⟨t, h1, h2⟩ := after_noErr (show after (exec .lzwCompress (textState aabbbcc)) noErr = true by decide)
  exact ⟨_, t, aabbbcc, by decide, textState_inText _ (by decide), by decide, h1, h2, by decide⟩

theorem witness_SerializeTableWritesTheArtifact :
    (∃ (s : State) (x : List Byte), CtabOk s.ctab ∧ payloadText s x ∧ x.length ≤ s.caps.payloadCap ∧
      (x = [] → s.pad = 0) ∧ (s.ctab.codes = [] → x = []) ∧
      11 + (s.ctab.codes.map fun c => 2 + (c.2.length + 7) / 8).sum + x.length ≤ s.caps.outCap ∧
      s.caps.outCap < 2 ^ 32) ∧
    (∃ s : State, s.caps.payloadCap < s.payload.len.toNat) ∧
    (∃ s : State, s.payload.len = 0 ∧ s.pad ≠ 0) ∧
    (∃ s : State, s.payload.len ≠ 0 ∧ s.payload.len.toNat ≤ s.caps.payloadCap ∧ s.ctab.ctabN = 0) ∧
    ∃ s : State, s.payload.len.toNat ≤ s.caps.payloadCap ∧ (s.payload.len = 0 → s.pad = 0) ∧
      (s.ctab.ctabN = 0 → s.payload.len = 0) ∧
      s.caps.outCap < 11 + (s.ctab.codes.map fun c => 2 + (c.2.length + 7) / 8).sum + s.payload.len.toNat :=
  ⟨⟨withCaps ⟨1, 22, 16, 2, 1, 1⟩ (withTable aabbbccTable (payloadState [0xA1, 0xE0] 5)), [0xA1, 0xE0], ctabOk_aabbbcc,
      payloadState_payloadText [0xA1, 0xE0] 5 (by decide), by decide, by decide, by decide, by decide, by decide⟩,
    ⟨withCaps ⟨1, 22, 8, 1, 1, 1⟩ (payloadState [0xA1, 0xE0] 5), by decide⟩,
    ⟨payloadState [] 1, by decide, by decide⟩, ⟨payloadState [0xA1] 0, by decide, by decide, by decide⟩,
    withCaps ⟨1, 21, 16, 2, 1, 1⟩ (withTable aabbbccTable (payloadState [0xA1, 0xE0] 5)), by decide, by decide, by decide,
    by decide⟩

theorem witness_SerializeLzwWritesTheArtifact :
    (∃ (s : State) (ws : List Word), codeList s ws ∧ ws.length ≤ s.caps.codesCap ∧
      9 + 4 * ws.length ≤ s.caps.outCap ∧ s.caps.outCap < 2 ^ 32) ∧
    (∃ s : State, s.caps.codesCap < s.codes.len.toNat) ∧
    ∃ s : State, s.codes.len.toNat ≤ s.caps.codesCap ∧ s.caps.outCap < 9 + 4 * s.codes.len.toNat :=
  ⟨⟨withCaps ⟨1, 21, 8, 1, 3, 1⟩ (codesState [97, 256, 97]), [97, 256, 97], codesState_codeList _ (by decide), by decide,
      by decide, by decide⟩,
    ⟨withCaps ⟨1, 21, 8, 1, 2, 1⟩ (codesState [97, 256, 97]), by decide⟩,
    withCaps ⟨1, 20, 8, 1, 3, 1⟩ (codesState [97, 256, 97]), by decide, by decide⟩

theorem witness_DeserializeRestoresTheParts :
    (∃ (s : State) (tag : Byte) (pad : BitVec 3) (tab : CodeTable) (x : List Byte), (tag = 1 ∨ tag = 2) ∧ CtabOk tab ∧
      (x = [] → pad = 0) ∧ (tab.codes = [] → x = []) ∧ x.length ≤ s.caps.payloadCap ∧ s.inp.len.toNat ≤ s.caps.inCap ∧
      inText s ([0x44, 0x43, 0x01, tag, pad.setWidth 8] ++ be32 x.length ++ be16 tab.codes.length ++
        (tab.codes.flatMap fun c =>
          BitVec.ofNat 8 c.1 :: BitVec.ofNat 8 c.2.length :: packBytes ((c.2.length + 7) / 8) c.2) ++ x)) ∧
    ∃ (s : State) (ws : List Word), ws.length ≤ s.caps.codesCap ∧ s.inp.len.toNat ≤ s.caps.inCap ∧
      inText s ([0x44, 0x43, 0x01, 0x03, 0x00] ++ be32 (4 * ws.length) ++ ws.flatMap fun w => be32 w.toNat) :=
  ⟨⟨textState _, 1, 5, aabbbccTable, [0xA1, 0xE7], .inl rfl, ctabOk_aabbbcc, by decide, by decide, by decide, by decide,
      textState_inText _ (by decide)⟩,
    textState _, [97, 256, 97], by decide, by decide, textState_inText _ (by decide)⟩

/-- Rows 1 to 13 of 45_container R271: one artifact for each condition of the statement. -/
theorem witness_DeserializeHeaderChecksInOrder :
    (∃ s : State, s.caps.inCap < s.inp.len.toNat) ∧
    (∃ s : State, s.inp.len.toNat ≤ s.caps.inCap ∧ s.inp.len.toNat < 9) ∧
    (∀ (b0 b1 b2 tag pad l0 l1 l2 l3 : Byte),
      ∃ (s : State) (more : List Byte), s.inp.len.toNat ≤ s.caps.inCap ∧
        inText s ([b0, b1, b2, tag, pad, l0, l1, l2, l3] ++ more)) ∧
    (∃ (s : State), s.inp.len.toNat ≤ s.caps.inCap ∧
      inText s ([0x44, 0x43, 0x01, 0x03, 0, 0, 0, 0, 8] ++ [0, 0, 0, 0]) ∧ s.inp.len.toNat < 9 + 8) ∧
    (∃ (s : State), s.inp.len.toNat ≤ s.caps.inCap ∧
      inText s ([0x44, 0x43, 0x01, 0x03, 0, 0, 0, 0, 0] ++ [0]) ∧ 9 + 0 < s.inp.len.toNat) ∧
    ∃ (s : State), s.inp.len.toNat ≤ s.caps.inCap ∧
      inText s ([0x44, 0x43, 0x01, 0x03, 0, 0, 0, 0, 8] ++ [0, 0, 0, 0, 0, 0, 0, 0]) ∧ s.inp.len.toNat = 9 + 8 ∧
      s.caps.codesCap < 8 / 4 :=
  ⟨⟨withCaps ⟨6, 1, 8, 1, 1, 1⟩ (textState aabbbcc), by decide⟩, ⟨textState aabbbcc, by decide, by decide⟩,
    fun _ _ _ _ _ _ _ _ _ => ⟨textState _, [], by simp [textState, State.reset, Caps.default], textState_inText _ (by simp)⟩,
    ⟨textState _, by decide, textState_inText _ (by decide), by decide⟩,
    ⟨textState _, by decide, textState_inText _ (by decide), by decide⟩,
    withCaps ⟨17, 1, 8, 1, 1, 1⟩ (textState _), by decide, textState_inText _ (by decide), by decide, by decide⟩

/-- Rows 14 to 25 of 45_container R271: artifacts for the conditions of the statement, with no entry read yet and with
the entry a = "0" read. -/
theorem witness_DeserializeTableChecksInOrder :
    (∃ s : State, s.inp.len.toNat ≤ s.caps.inCap ∧ inText s ([0x44, 0x43, 0x01, 1, 0, 0, 0, 0, 1] ++ [0]) ∧
      s.inp.len.toNat < 11) ∧
    (∀ (c0 c1 : Byte) (tail : List Byte), tail.length < 100 → ∃ s : State, s.inp.len.toNat ≤ s.caps.inCap ∧
      inText s ([0x44, 0x43, 0x01, 2, 7, 0, 0, 0, 1] ++ c0 :: c1 :: ([] ++ tail))) ∧
    (∀ tail : List Byte, tail.length < 100 → ∃ s : State, s.inp.len.toNat ≤ s.caps.inCap ∧
      CtabOk ⟨aTable.codes, BitVec.ofNat 32 aTable.codes.length⟩ ∧
      inText s ([0x44, 0x43, 0x01, 1, 7, 0, 0, 0, 1] ++ 0 :: 2 :: ((aTable.codes.flatMap fun c =>
        BitVec.ofNat 8 c.1 :: BitVec.ofNat 8 c.2.length :: packBytes ((c.2.length + 7) / 8) c.2) ++ tail))) ∧
    (∃ e ∈ aTable.codes, (0x61 : Byte).toNat ≤ e.1) ∧ (∀ e ∈ aTable.codes, e.1 < (0x62 : Byte).toNat) ∧
    true ∈ (bitsOfBytes [0xC0]).drop 1 ∧ true ∉ (bitsOfBytes [0x00]).drop 1 ∧
    (∃ e ∈ aTable.codes, e.2 <+: (bitsOfBytes [0x40]).take 2 ∨ (bitsOfBytes [0x40]).take 2 <+: e.2) ∧
    CtabOk ⟨[], BitVec.ofNat 32 ([] : Memory BitString).length⟩ ∧
    ∃ (s : State) (tail : List Byte), s.inp.len.toNat ≤ s.caps.inCap ∧
      inText s ([0x44, 0x43, 0x01, 1, 0, 0, 0, 0, 2] ++ 0 :: 1 :: ((aTable.codes.flatMap fun c =>
        BitVec.ofNat 8 c.1 :: BitVec.ofNat 8 c.2.length :: packBytes ((c.2.length + 7) / 8) c.2) ++ tail)) ∧
      aTable.codes.length = 1 ∧ tail.length = 2 ∧ s.caps.payloadCap < 2 := by
  refine ⟨⟨textState _, by decide, textState_inText _ (by decide), by decide⟩, fun c0 c1 tail h => ?_, fun tail h => ?_,
    by decide, by decide, by decide, by decide, by decide, ctabOk_empty,
    withCaps ⟨16, 1, 8, 1, 1, 1⟩ (textState _), [5, 6], by decide, textState_inText _ (by decide), by decide, by decide,
    by decide⟩
  · refine ⟨textState _, ?_, textState_inText _ (by simp; omega)⟩
    simp [textState, State.reset, Caps.default]
    omega
  · refine ⟨textState _, ?_, ctabOk_a, textState_inText _ (by simp [aTable]; omega)⟩
    simp [textState, State.reset, Caps.default, aTable]
    omega

/-- For SerializeThenDeserialize and DeserializeThenSerialize, each codec: a state of the invariant, its artifact, and a
state that holds the artifact. -/
theorem witness_SerializeThenDeserialize :
    (∃ (s t u : State) (a : List Byte), Inv s ∧ exec .serializeHuf s = .next t ∧ t.ctl.error = noError ∧ outText t a ∧
      u.caps = s.caps ∧ inText u a ∧ a.length ≤ s.caps.inCap) ∧
    (∃ (s t u : State) (a : List Byte), Inv s ∧ exec .serializeSf s = .next t ∧ t.ctl.error = noError ∧ outText t a ∧
      u.caps = s.caps ∧ inText u a ∧ a.length ≤ s.caps.inCap) ∧
    ∃ (s t u : State) (a : List Byte), Inv s ∧ exec .serializeLzw s = .next t ∧ t.ctl.error = noError ∧ outText t a ∧
      u.caps = s.caps ∧ inText u a ∧ a.length ≤ s.caps.inCap := by
  have key : ∀ (i : Instr) (a : List Byte), a.length < 2 ^ 24 →
      after (exec i fullState) (fun t => decide (t.ctl.error = noError ∧ t.out = outBuffer a)) = true →
      ∃ (s t u : State) (a : List Byte), Inv s ∧ exec i s = .next t ∧ t.ctl.error = noError ∧ outText t a ∧
        u.caps = s.caps ∧ inText u a ∧ a.length ≤ s.caps.inCap := by
    intro i a hl h
    obtain ⟨t, h1, h2⟩ := after_next h
    have h2 := of_decide_eq_true h2
    exact ⟨fullState, t, textState a, a, inv_fullState, h1, h2.1, outText_of_eq h2.2 (by omega), rfl,
      textState_inText a (by omega), by simp [fullState, State.reset, Caps.default]; omega⟩
  refine ⟨key .serializeHuf aabbbccArtifact (by decide) (by decide),
    key .serializeSf (aabbbccArtifact.set 3 2) (by decide) (by decide),
    key .serializeLzw [0x44, 0x43, 0x01, 0x03, 0x00, 0, 0, 0, 0x0C, 0, 0, 0, 0x61, 0, 0, 1, 0, 0, 0, 0, 0x61] (by decide)
      (by decide)⟩

theorem witness_DeserializeThenSerialize :
    ∃ (s t : State) (a : List Byte), s.caps.wf = true ∧ inText s a ∧ exec .deserialize s = .next t ∧
      t.ctl.error = noError ∧ a.length ≤ s.caps.outCap := by
  obtain ⟨t, h1, h2⟩ := after_noErr (show after (exec .deserialize (textState aabbbccArtifact)) noErr = true by decide)
  exact ⟨_, t, aabbbccArtifact, by decide, textState_inText _ (by decide), h1, h2, by decide⟩

theorem witness_CompressTableCompletes :
    ∃ (s : State) (x : List Byte), s.caps.wf = true ∧ inText s x ∧ x ≠ [] ∧ x.length ≤ s.caps.inCap ∧
      255 * x.length ≤ s.caps.bitsCap ∧ 8715 + 32 * x.length ≤ s.caps.outCap :=
  ⟨textState aabbbcc, aabbbcc, by decide, textState_inText _ (by decide), by decide, by decide, by decide, by decide⟩

theorem witness_CompressLzwCompletes :
    ∃ (s : State) (x : List Byte), s.caps.wf = true ∧ inText s x ∧ x ≠ [] ∧ x.length ≤ s.caps.inCap ∧
      x.length ≤ s.caps.codesCap ∧ x.length ≤ s.caps.dictCap + 1 ∧ 9 + 4 * x.length ≤ s.caps.outCap :=
  ⟨withCaps ⟨7, 37, 8, 1, 7, 6⟩ (textState aabbbcc), aabbbcc, by decide, textState_inText _ (by decide), by decide,
    by decide, by decide, by decide, by decide⟩

theorem witness_CompositeIsTheSequenceOfItsSteps :
    (∃ s : State, s.caps.inCap < s.inp.len.toNat) ∧ (∃ s : State, s.inp.len = 0) ∧
    (∃ s t : State, s.inp.len.toNat ≤ s.caps.inCap ∧ s.inp.len ≠ 0 ∧
      runCommands (compressSteps .compressHuf) s = .next t ∧ t.ctl.error = noError) ∧
    (∃ s t : State, s.inp.len.toNat ≤ s.caps.inCap ∧ s.inp.len ≠ 0 ∧
      runCommands (compressSteps .compressSf) s = .next t ∧ t.ctl.error ≠ noError) ∧
    (∃ (s : State) (f : Fault), s.inp.len.toNat ≤ s.caps.inCap ∧ s.inp.len ≠ 0 ∧
      runCommands (compressSteps .compressLzw) s = .fault f) ∧
    (∃ s t : State, exec .deserialize s = .next t ∧ t.ctl.error ≠ noError) ∧
    (∃ s t u : State, exec .deserialize s = .next t ∧ t.ctl.error = noError ∧
      runCommands (decompressSteps t.artKind) t = .next u ∧ u.ctl.error = noError) ∧
    ∃ s t u : State, exec .deserialize s = .next t ∧ t.ctl.error = noError ∧
      runCommands (decompressSteps t.artKind) t = .next u ∧ u.ctl.error ≠ noError := by
  have two : ∀ (x : List Byte) (p : State → Bool),
      after (exec .deserialize (textState x)) (fun t => noErr t && after (runCommands (decompressSteps t.artKind) t) p) =
        true →
      ∃ s t u : State, exec .deserialize s = .next t ∧ t.ctl.error = noError ∧
        runCommands (decompressSteps t.artKind) t = .next u ∧ p u = true := by
    intro x p h
    obtain ⟨t, h1, h2⟩ := after_next h
    simp only [Bool.and_eq_true] at h2
    obtain ⟨u, h3, h4⟩ := after_next h2.2
    exact ⟨_, t, u, h1, noErr_eq h2.1, h3, h4⟩
  refine ⟨⟨withCaps ⟨6, 1, 8, 1, 1, 1⟩ (textState aabbbcc), by decide⟩, ⟨State.reset, rfl⟩, ?_, ?_, ?_, ?_, ?_, ?_⟩
  · obtain ⟨t, h1, h2⟩ := after_noErr (show after (runCommands (compressSteps .compressHuf) (textState aabbbcc)) noErr = true
      by decide)
    exact ⟨_, t, by decide, by decide, h1, h2⟩
  · obtain ⟨t, h1, h2⟩ := after_next (show after (runCommands (compressSteps .compressSf)
      (withCaps ⟨7, 1, 8, 1, 1, 1⟩ (textState aabbbcc))) (fun t => decide (t.ctl.error ≠ noError)) = true by decide)
    exact ⟨_, t, by decide, by decide, h1, of_decide_eq_true h2⟩
  · exact ⟨{ State.reset with inp := ⟨[], 1⟩ }, .unwrittenIn 0, by decide, by decide, rfl⟩
  · obtain ⟨t, h1, h2⟩ := after_next (show after (exec .deserialize (textState [])) (fun t =>
      decide (t.ctl.error ≠ noError)) = true by decide)
    exact ⟨_, t, h1, of_decide_eq_true h2⟩
  · obtain ⟨s, t, u, h1, h2, h3, h4⟩ := two aabbbccArtifact noErr (by decide)
    exact ⟨s, t, u, h1, h2, h3, noErr_eq h4⟩
  · obtain ⟨s, t, u, h1, h2, h3, h4⟩ := two [0x44, 0x43, 0x01, 0x03, 0, 0, 0, 0, 8, 0, 0, 0, 0x41, 0, 0, 1, 0x2C]
      (fun t => decide (t.ctl.error ≠ noError)) (by decide)
    exact ⟨s, t, u, h1, h2, h3, of_decide_eq_true h4⟩

theorem witness_DecompressRestoresTheText :
    (∃ (s : State) (tag : Byte) (pad : BitVec 3) (tab : CodeTable) (y x : List Byte) (rest : BitString),
      (tag = 1 ∨ tag = 2) ∧ s.caps.wf = true ∧ CtabOk tab ∧ (y = [] → pad = 0) ∧ (tab.codes = [] → y = []) ∧
      y.length ≤ s.caps.payloadCap ∧ s.inp.len.toNat ≤ s.caps.inCap ∧
      inText s ([0x44, 0x43, 0x01, tag, pad.setWidth 8] ++ be32 y.length ++ be16 tab.codes.length ++
        (tab.codes.flatMap fun c =>
          BitVec.ofNat 8 c.1 :: BitVec.ofNat 8 c.2.length :: packBytes ((c.2.length + 7) / 8) c.2) ++ y) ∧
      (bitsOfBytes y).take (8 * y.length - pad.toNat) = x.flatMap (codeOf tab) ++ rest ∧
      (∀ c ∈ x, codeOf tab c ≠ []) ∧ (∀ p, p <+: rest → ∀ c, codeOf tab c ≠ [] → codeOf tab c ≠ p) ∧
      8 * y.length - pad.toNat ≤ s.caps.bitsCap ∧ x.length ≤ s.caps.outCap) ∧
    ∃ (s : State) (ws : List Word) (d : List DictEntry), s.caps.wf = true ∧ ws.length ≤ s.caps.codesCap ∧
      s.inp.len.toNat ≤ s.caps.inCap ∧
      inText s ([0x44, 0x43, 0x01, 0x03, 0x00] ++ be32 (4 * ws.length) ++ ws.flatMap fun w => be32 w.toNat) ∧
      lzwResolvable (ws.map BitVec.toNat) ∧ lzwDict (ws.map BitVec.toNat) d ∧ ws.length ≤ s.caps.dictCap + 1 ∧
      (ws.flatMap fun w => stringOf d w.toNat).length ≤ s.caps.outCap := by
  refine ⟨⟨textState _, 1, 5, aabbbccTable, [0xA1, 0xE7], aabbbcc, [], .inl rfl, by decide, ctabOk_aabbbcc, by decide,
      by decide, by decide, by decide, textState_inText _ (by decide), by decide, by decide, ?_, by decide, by decide⟩,
    textState _, [65, 256], [⟨65, 0x41⟩], by decide, by decide, by decide, textState_inText _ (by decide),
    resolvable_of (by decide), lzwDict_two _ _ _ (by decide), by decide, by decide⟩
  intro p hp c hc he
  rw [List.prefix_nil] at hp
  exact hc (he.trans hp)

theorem witness_OnlySuccessfulCompositesWriteTheSizes :
    (∃ (s t : State), s.caps.wf = true ∧ exec .compressHuf s = .next t ∧ t.ctl.error ≠ noError) ∧
    (∃ (s t : State), s.caps.wf = true ∧ exec .compressHuf s = .next t ∧ t.ctl.error = noError) ∧
    ∃ (s t : State), s.caps.wf = true ∧ exec .decompress s = .next t ∧ t.ctl.error = noError := by
  refine ⟨?_, ?_, ?_⟩
  · obtain ⟨t, h1, h2⟩ := after_next (show after (exec .compressHuf State.reset) (fun t =>
      decide (t.ctl.error ≠ noError)) = true by decide)
    exact ⟨_, t, by decide, h1, of_decide_eq_true h2⟩
  · obtain ⟨t, h1, h2⟩ := after_noErr (show after (exec .compressHuf (textState aabbbcc)) noErr = true by decide)
    exact ⟨_, t, by decide, h1, h2⟩
  · obtain ⟨t, h1, h2⟩ := after_noErr (show after (exec .decompress (textState aabbbccArtifact)) noErr = true by decide)
    exact ⟨_, t, by decide, h1, h2⟩

/-- For WholeStackRoundTrip and SingleSymbolGetsCodeZero, each codec: "aaaa" (section 1.4). -/
theorem witness_WholeStackRoundTrip :
    ∀ i : Instr, (i = .compressHuf ∨ i = .compressSf ∨ i = .compressLzw) →
      ∃ (s t u : State) (a : List Byte), s.caps.wf = true ∧ inText s (List.replicate 4 0x61) ∧
        exec i s = .next t ∧ t.ctl.error = noError ∧ outText t a ∧ u.caps = s.caps ∧ inText u a ∧
        a.length ≤ s.caps.inCap ∧ 4 ≤ s.caps.outCap := by
  have key : ∀ (i : Instr) (a : List Byte), a.length < 2 ^ 24 →
      after (exec i (textState (List.replicate 4 0x61))) (fun t =>
        decide (t.ctl.error = noError ∧ t.out = outBuffer a)) = true →
      ∃ (s t u : State) (a : List Byte), s.caps.wf = true ∧ inText s (List.replicate 4 0x61) ∧
        exec i s = .next t ∧ t.ctl.error = noError ∧ outText t a ∧ u.caps = s.caps ∧ inText u a ∧
        a.length ≤ s.caps.inCap ∧ 4 ≤ s.caps.outCap := by
    intro i a hl h
    obtain ⟨t, h1, h2⟩ := after_next h
    have h2 := of_decide_eq_true h2
    exact ⟨_, t, textState a, a, by decide, textState_inText _ (by decide), h1, h2.1, outText_of_eq h2.2 (by omega), rfl,
      textState_inText a (by omega), by simp [textState, State.reset, Caps.default]; omega, by decide⟩
  rintro i (rfl | rfl | rfl)
  · exact key _ [0x44, 0x43, 0x01, 0x01, 0x04, 0, 0, 0, 1, 0, 1, 0x61, 1, 0, 0] (by decide) (by decide)
  · exact key _ [0x44, 0x43, 0x01, 0x02, 0x04, 0, 0, 0, 1, 0, 1, 0x61, 1, 0, 0] (by decide) (by decide)
  · exact key _ [0x44, 0x43, 0x01, 0x03, 0x00, 0, 0, 0, 0x0C, 0, 0, 0, 0x61, 0, 0, 1, 0, 0, 0, 0, 0x61] (by decide)
      (by decide)

/-- Two different states that agree on the input and the capacities; a success, an error and a DECOMPRESS. -/
theorem witness_CompositesIgnoreLeftoverState :
    (∃ (s s' t : State) (x : List Byte), s.caps.wf = true ∧ s'.caps = s.caps ∧ s ≠ s' ∧ inText s x ∧ inText s' x ∧
      exec .compressSf s = .next t ∧ t.ctl.error = noError) ∧
    (∃ (s s' t : State) (x : List Byte), s.caps.wf = true ∧ s'.caps = s.caps ∧ s ≠ s' ∧ inText s x ∧ inText s' x ∧
      exec .compressLzw s = .next t ∧ t.ctl.error ≠ noError) ∧
    ∃ (s s' t : State) (x : List Byte), s.caps.wf = true ∧ s'.caps = s.caps ∧ s ≠ s' ∧ inText s x ∧ inText s' x ∧
      exec .decompress s = .next t ∧ t.ctl.error = noError := by
  refine ⟨?_, ?_, ?_⟩
  · obtain ⟨t, h1, h2⟩ := after_noErr (show after (exec .compressSf (textState aabbbcc)) noErr = true by decide)
    exact ⟨textState aabbbcc, withTable aTable (textState aabbbcc), t, aabbbcc, by decide, rfl, by decide,
      textState_inText _ (by decide), textState_inText _ (by decide), h1, h2⟩
  · obtain ⟨t, h1, h2⟩ := after_next (show after (exec .compressLzw (withCaps ⟨7, 9, 8, 1, 7, 6⟩ (textState aabbbcc)))
      (fun t => decide (t.ctl.error ≠ noError)) = true by decide)
    exact ⟨withCaps ⟨7, 9, 8, 1, 7, 6⟩ (textState aabbbcc),
      withTable aTable (withCaps ⟨7, 9, 8, 1, 7, 6⟩ (textState aabbbcc)), t, aabbbcc, by decide, rfl, by decide,
      textState_inText _ (by decide), textState_inText _ (by decide), h1, of_decide_eq_true h2⟩
  · obtain ⟨t, h1, h2⟩ := after_noErr (show after (exec .decompress (textState aabbbccArtifact)) noErr = true by decide)
    exact ⟨textState aabbbccArtifact, withTable aTable (textState aabbbccArtifact), t, aabbbccArtifact, by decide, rfl,
      by decide, textState_inText _ (by decide), textState_inText _ (by decide), h1, h2⟩

theorem witness_CompressErrorsAreCapacityErrors :
    ∃ (s t : State), s.caps.wf = true ∧ exec .compressHuf s = .next t ∧ t.ctl.error ≠ noError := by
  obtain ⟨t, h1, h2⟩ := after_next (show after (exec .compressHuf (withCaps ⟨7, 21, 16, 2, 1, 1⟩ (textState aabbbcc)))
    (fun t => decide (t.ctl.error ≠ noError)) = true by decide)
  exact ⟨_, t, by decide, h1, of_decide_eq_true h2⟩

theorem witness_BusErrorConditions :
    (busAccess ⟨.read, 11, 0, .w32, 0⟩ State.reset).1 = .busError ∧
    (busAccess ⟨.read, 0, 0x6C, .w32, 0⟩ State.reset).1 ≠ .busError ∧
    (busAccess ⟨.read, 0, 0x70, .w32, 0⟩ State.reset).1 = .busError ∧
    (busAccess ⟨.read, 1, 0, .w8, 0⟩ (busyState 0 [])).1 = .busError := by decide

theorem witness_BusyBlockRefusesTheHost :
    ∃ (s : State) (t : Txn), s.ctl.busy = true ∧ t.space ≠ 0 ∧ ControlOk s.ctl :=
  ⟨busyState 0 [], ⟨.read, 1, 0, .w8, 0⟩, rfl, by decide, controlOk_busy⟩

theorem witness_RegistersReadAsTheirFields :
    (∃ s : State, s.tree.root = none) ∧ ∃ (s : State) (i : Nat), s.tree.root = some i :=
  ⟨⟨State.reset, rfl⟩, { State.reset with tree := aabbbccTree }, 4, rfl⟩

theorem witness_CapacitiesAreConstant :
    (∃ s : State, s.caps.wf = true) ∧ ∃ s t : State, step s = .next t :=
  ⟨⟨State.reset, by decide⟩, State.reset, State.reset, rfl⟩

theorem witness_RegisterWritesWhileIdle : ∃ s : State, s.ctl.busy = false := ⟨State.reset, rfl⟩

/-- At the last valid offset of each space, and a read elsewhere. -/
theorem witness_StorageWritesReadBack :
    (∃ s : State, s.ctl.busy = false ∧ (memRead 1 (BitVec.ofNat 32 (2 ^ 24 - 1)) .w8 s).1 ≠ .busError ∧
      (memRead 3 (BitVec.ofNat 32 (2 ^ 24 - 1)) .w8 s).1 ≠ .busError ∧
      (memRead 4 (BitVec.ofNat 32 (2 ^ 24 - 1)) .w8 s).1 ≠ .busError ∧
      (memRead 5 (BitVec.ofNat 32 (2 ^ 26 - 4)) .w32 s).1 ≠ .busError) ∧
    ∃ r : Txn, r.op = .read ∧ r.space ≠ 1 := by
  have ne : ∀ v : Word, Response.okData v ≠ .busError := fun _ h => by cases h
  exact ⟨⟨State.reset, rfl, ne _, ne _, ne _, ne _⟩, ⟨.read, 0, 0, .w32, 0⟩, rfl, by decide⟩

theorem witness_ListWindowsShowTheirEntries :
    (∃ s : State, s.ctl.busy = false ∧ outText s [0x61, 0x62] ∧ ([0x61, 0x62] : List Byte)[1]? = some 0x62) ∧
    (∃ s : State, s.ctl.busy = false ∧ s.caps.wf = true ∧ 1 < s.caps.payloadCap ∧ 1 < s.caps.inCap ∧
      1 < (s.caps.bitsCap + 7) / 8 ∧ Memory.get s.inp.mem 1 = some 0x62 ∧ Memory.get s.bits.mem 1 = some 0xE0 ∧
      Memory.get s.payload.mem 1 = some 0xE7) ∧
    (∃ (s : State) (w : Word), s.ctl.busy = false ∧ s.caps.wf = true ∧ 2 < s.caps.codesCap ∧ codeAt s 2 = some w) ∧
    (∃ (s : State) (c d : Byte) (i : Nat), s.ctl.busy = false ∧ FreqOk s.freq ∧ firstOf s.freq c.toNat = none ∧
      freqOf s.freq c.toNat = 0 ∧ firstOf s.freq d.toNat = some i) ∧
    (∃ (s : State) (e : RankEntry), s.ctl.busy = false ∧ RankOk s.rank ∧ s.rank.entries[2]? = some e) ∧
    ∃ (s : State) (e : DictEntry), s.ctl.busy = false ∧ DictOk s.dict ∧ 255 < s.dict.nextCode.toNat ∧
      8 * 256 + 4 < 2 ^ 32 ∧ 256 < s.dict.nextCode.toNat ∧ s.dict.entries[256 - 256]? = some e :=
  ⟨⟨storeOut State.reset [0x61, 0x62], rfl, outText_of_eq rfl (by decide), rfl⟩,
    ⟨{ textState [0x61, 0x62] with
        bits := ⟨Memory.cells 0 [0xA1, 0xE0], 11⟩, payload := ⟨Memory.cells 0 [0xA1, 0xE7], 2⟩,
        caps := ⟨2, 1, 9, 2, 1, 1⟩ }, rfl, by decide, by decide, by decide, by decide, rfl, rfl, rfl⟩,
    ⟨codesState [97, 256, 97], 97, rfl, by decide, by decide, rfl⟩,
    ⟨{ State.reset with freq := aabbbccFreq }, 0xFF, 0x63, 5, rfl, freqOk_aabbbcc, rfl, rfl, rfl⟩,
    ⟨{ State.reset with rank := aabbbccRank }, ⟨0x63, 2⟩, rfl, rankOk_aabbbcc, rfl⟩,
    { State.reset with dict := ⟨[⟨84, 0x4F⟩], 257⟩ }, ⟨84, 0x4F⟩, rfl, dictOk_one, by decide, by decide, by decide, rfl⟩

theorem witness_TreeAndCodeWindowsShowTheirEntries :
    (∃ (s : State) (c : Byte) (w w' l r : Nat), s.ctl.busy = false ∧ TreeOk s.tree ∧
      s.tree.nodes[0]? = some (Node.leaf c w) ∧ s.tree.nodes[4]? = some (Node.internal w' l r)) ∧
    ∃ s : State, s.ctl.busy = false ∧ CtabOk s.ctab ∧ codeOf s.ctab 0x61 ≠ [] :=
  ⟨⟨{ State.reset with tree := aabbbccTree }, 0x61, 2, 7, 1, 3, rfl, treeOk_aabbbcc, rfl, rfl⟩,
    withTable aabbbccTable State.reset, rfl, ctabOk_aabbbcc, by decide⟩

theorem witness_ResetRestoresEveryRegister :
    (∃ (s : State) (ts : List Turn), s.ctl.busy = true ∧ s.turns = .reset :: ts) ∧
    ∃ (s : State) (ts : List Turn), s.turns = .resetInAccess :: ts :=
  ⟨⟨busyState 3 [.reset], [], rfl, rfl⟩, busyState 3 [.resetInAccess, .host], [.host], rfl⟩

/-- A step from a state of the invariant that is not the reset state. -/
theorem witness_StepKeepsTheInvariant : ∃ s t : State, Inv s ∧ s ≠ State.reset ∧ step s = .next t :=
  ⟨fullState, fullState, inv_fullState, by decide, rfl⟩

theorem witness_NotFoundIsNeverRaised : ∃ s t : State, s.ctl.error.code ≠ .notFound ∧ step s = .next t :=
  ⟨State.reset, State.reset, by decide, rfl⟩

/-- Two Host turns pass while the NOP is busy: the second CMD write of program P5 is lost. -/
theorem witness_BusyCommandCompletesAfterHostTurns :
    ∃ (n : Nat) (s u : State) (i : Instr), n = 2 ∧ s.ctl.busy = true ∧ decode s.ctl.cmd = .ok i ∧
      s.turns = List.replicate n .host ∧ Sys2Proof.core.run n s = .next u :=
  ⟨2, { busyState 0 [.host, .host] with host := { State.reset.host with
    prog := [plain (wCsr .cmd 3), plain (wCsr .ctrl 1)] } }, _, .nop, rfl, rfl, by decide, rfl, rfl⟩

theorem witness_HostBranchesGoToTheirLabels :
    (∃ (s : State) (v : Word), s.host.vars[(7 : Fin 8)] = .word v ∧ v &&& 1 = 0 ∧ s.host.prog.labelsDistinct = true ∧
      s.host.prog[s.host.pos]? = some ⟨none, .bnz 7 1 1⟩ ∧ s.host.prog[1]? = some ⟨some 1, .halt⟩) ∧
    (∃ (s : State) (v : Word), s.host.vars[(7 : Fin 8)] = .word v ∧ v &&& 1 ≠ 0 ∧ s.host.prog.labelsDistinct = true ∧
      s.host.prog[s.host.pos]? = some ⟨none, .bz 7 1 1⟩ ∧ s.host.prog[1]? = some ⟨some 1, .halt⟩) ∧
    (∃ s : State, s.host.prog[s.host.pos]? = some ⟨none, .jump 1⟩ ∧ 1 ∉ s.host.prog.labels) ∧
    (∃ s : State, s.host.prog[s.host.pos]? = some ⟨some 1, .halt⟩) ∧
    ∃ s : State, s.host.vars[(7 : Fin 8)] = .noData ∧ s.host.prog[s.host.pos]? = some ⟨none, .bz 7 1 1⟩ :=
  ⟨⟨{ State.reset with host := ⟨[plain (.bnz 7 1 1), labelled 1 .halt], 0, Vector.replicate 8 (.word 0), none⟩ }, 0, rfl,
      rfl, by decide, rfl, rfl⟩,
    ⟨{ State.reset with host := ⟨[plain (.bz 7 1 1), labelled 1 .halt], 0, Vector.replicate 8 (.word 1), none⟩ }, 1, rfl,
      by decide, by decide, rfl, rfl⟩,
    ⟨{ State.reset with host := ⟨[plain (.jump 1)], 0, Vector.replicate 8 (.word 0), none⟩ }, rfl, by decide⟩,
    ⟨{ State.reset with host := ⟨[labelled 1 .halt], 0, Vector.replicate 8 (.word 0), none⟩ }, rfl⟩,
    { State.reset with host := ⟨[plain (.bz 7 1 1)], 0, Vector.replicate 8 .noData, none⟩ }, rfl, rfl⟩

theorem witness_RunPseudoInstructionRunsTheCommand :
    (∃ (s : State) (i : Instr) (fresh : Nat), s.ctl.busy = false ∧ s.host.prog = pRun i fresh ∧ s.host.pos = 0 ∧
      s.turns = []) ∧
    ∀ later : List Turn, later = [] ∨ later = [.block] →
      ∃ (s u t : State) (i : Instr) (fresh n : Nat), n = 1 ∧ s.ctl.busy = false ∧ s.host.prog = pRun i fresh ∧
        s.host.pos = 0 ∧ s.turns = List.replicate (n + 1) .host ++ later ∧ Sys2Proof.core.run (n + 1) s = .next u ∧
        exec i { u with turns := [] } = .next t :=
  ⟨⟨{ State.reset with host := { State.reset.host with prog := pRun .analyze 1 } }, .analyze, 1, rfl, rfl, rfl, rfl⟩,
    fun later _ => ⟨{ State.reset with
        host := { State.reset.host with prog := pRun .analyze 1 }, turns := [.host, .host] ++ later }, _, _, .analyze, 1, 1, rfl, rfl, rfl, rfl, rfl, rfl, rfl⟩⟩

/-- For UnwrittenStorageStopsCommandsOnly, clause by clause, each with the fault it gives. -/
theorem witness_UnwrittenStorageStopsCommandsOnly :
    (∃ (s : State) (x : List Byte), Memory.holds s.inp.mem 0 x ∧ Memory.get s.inp.mem x.length = none ∧
      x.length < s.inp.len.toNat ∧ s.inp.len.toNat ≤ s.caps.inCap ∧ (∀ c ∈ x, codeOf s.ctab c ≠ []) ∧
      (x.flatMap (codeOf s.ctab)).length ≤ s.caps.bitsCap ∧ x.length ≤ s.caps.codesCap ∧ x.length ≤ s.caps.dictCap ∧
      x ≠ [] ∧ stopsWith (exec .analyze s) (.unwrittenIn 1) = true ∧
      stopsWith (exec .encode s) (.unwrittenIn 1) = true ∧ stopsWith (exec .lzwCompress s) (.unwrittenIn 1) = true) ∧
    (∃ (s : State) (x y : List Byte), Memory.holds s.inp.mem 0 x ∧ Memory.get s.inp.mem x.length = none ∧ y ≠ [] ∧
      s.inp.len.toNat = (x ++ y).length ∧ s.inp.len.toNat ≤ s.caps.inCap ∧
      (∃ (tag : Byte) (pad : BitVec 3) (tab : CodeTable) (z : List Byte), (tag = 1 ∨ tag = 2) ∧ CtabOk tab ∧
        (z = [] → pad = 0) ∧ (tab.codes = [] → z = []) ∧ z.length ≤ s.caps.payloadCap ∧
        x ++ y = [0x44, 0x43, 0x01, tag, pad.setWidth 8] ++ be32 z.length ++ be16 tab.codes.length ++
          (tab.codes.flatMap fun c =>
            BitVec.ofNat 8 c.1 :: BitVec.ofNat 8 c.2.length :: packBytes ((c.2.length + 7) / 8) c.2) ++ z) ∧
      stopsWith (exec .deserialize s) (.unwrittenIn x.length) = true ∧
      stopsWith (exec .decompress s) (.unwrittenIn x.length) = true) ∧
    (∃ (s : State) (x y : List Byte) (ws : List Word), Memory.holds s.inp.mem 0 x ∧
      Memory.get s.inp.mem x.length = none ∧ y ≠ [] ∧ s.inp.len.toNat = (x ++ y).length ∧
      s.inp.len.toNat ≤ s.caps.inCap ∧ ws.length ≤ s.caps.codesCap ∧
      x ++ y = [0x44, 0x43, 0x01, 0x03, 0x00] ++ be32 (4 * ws.length) ++ (ws.flatMap fun w => be32 w.toNat) ∧
      stopsWith (exec .deserialize s) (.unwrittenIn x.length) = true) ∧
    (∃ (s : State) (a : Nat), 0 < a ∧ (∀ b, b < a → Memory.get s.bits.mem b ≠ none) ∧ Memory.get s.bits.mem a = none ∧
      8 * a < s.bits.len.toNat ∧ s.bits.len.toNat ≤ s.caps.bitsCap ∧ (s.bits.len.toNat + 7) / 8 ≤ s.caps.payloadCap ∧
      8 * a ≤ s.caps.outCap ∧ stopsWith (exec .pack s) (.unwrittenBits a) = true ∧
      stopsWith (exec .decode s) (.unwrittenBits a) = true) ∧
    (∃ (s : State) (a : Nat), 0 < a ∧ (∀ b, b < a → Memory.get s.payload.mem b ≠ none) ∧
      Memory.get s.payload.mem a = none ∧ a < s.payload.len.toNat ∧ s.payload.len.toNat ≤ s.caps.payloadCap ∧
      8 * s.payload.len.toNat - s.pad.toNat ≤ s.caps.bitsCap ∧ s.ctab.ctabN ≠ 0 ∧
      11 + (s.ctab.codes.map fun c => 2 + (c.2.length + 7) / 8).sum + s.payload.len.toNat ≤ s.caps.outCap ∧
      stopsWith (exec .unpack s) (.unwrittenPayload a) = true ∧
      stopsWith (exec .serializeSf s) (.unwrittenPayload a) = true) ∧
    (∃ (s : State) (ws : List Word) (d : List DictEntry), (∀ j, j < ws.length → codeAt s j = ws[j]?) ∧
      codeAt s ws.length = none ∧ ws.length < s.codes.len.toNat ∧ s.codes.len.toNat ≤ s.caps.codesCap ∧
      9 + 4 * s.codes.len.toNat ≤ s.caps.outCap ∧ lzwResolvable (ws.map BitVec.toNat) ∧
      lzwDict (ws.map BitVec.toNat) d ∧ d.length ≤ s.caps.dictCap ∧
      (ws.flatMap fun w => stringOf d w.toNat).length ≤ s.caps.outCap ∧ d ≠ [] ∧
      stopsWith (exec .serializeLzw s) (.unwrittenCodes ws.length) = true ∧
      stopsWith (exec .lzwDecompress s) (.unwrittenCodes ws.length) = true) ∧
    (∃ (i : Instr) (s : State) (f : Fault), s.caps.wf = true ∧ exec i s = .fault f) ∧
    ∃ s : State, s.caps.wf = true ∧ s.ctl.busy = false ∧ 2 ^ 24 - 1 < s.caps.inCap ∧ 2 ^ 24 - 1 < s.caps.codesCap := by
  refine ⟨⟨{ withTable aTable (textState [0x61]) with
        inp := ⟨Memory.cells 0 [0x61], 2⟩, caps := ⟨2, 1, 1, 1, 1, 1⟩ }, [0x61],
      Memory.holds_cells 0 _, rfl, by decide, by decide, by decide, by decide, by decide, by decide, by decide, by decide,
      by decide, by decide⟩,
    ⟨{ State.reset with inp := ⟨Memory.cells 0 (aabbbccArtifact.take 13), 22⟩ }, aabbbccArtifact.take 13,
      aabbbccArtifact.drop 13, Memory.holds_cells 0 _, by decide, by decide, by decide, by decide,
      ⟨1, 5, aabbbccTable, [0xA1, 0xE0], .inl rfl, ctabOk_aabbbcc, by decide, by decide, by decide, by decide⟩, by decide,
      by decide⟩,
    ⟨{ State.reset with inp := ⟨Memory.cells 0 [0x44, 0x43, 0x01, 0x03, 0, 0, 0, 0, 4, 0, 0], 13⟩ },
      [0x44, 0x43, 0x01, 0x03, 0, 0, 0, 0, 4, 0, 0], [0, 0x41], [0x41], Memory.holds_cells 0 _, by decide, by decide,
      by decide, by decide, by decide, by decide, by decide⟩,
    ⟨{ withTable aTable State.reset with bits := ⟨Memory.cells 0 [0x00], 9⟩, caps := ⟨1, 8, 9, 2, 1, 1⟩ }, 1, by decide,
      by decide, rfl, by decide, by decide, by decide, by decide, by decide, by decide⟩,
    ⟨{ withTable aTable State.reset with payload := ⟨Memory.cells 0 [0x00], 2⟩, pad := 7, caps := ⟨1, 16, 9, 2, 1, 1⟩ }, 1,
      by decide, by decide, rfl, by decide, by decide, by decide, by decide, by decide, by decide, by decide⟩,
    ⟨{ State.reset with codes := ⟨Memory.cells 0 [65, 256], 3⟩, caps := ⟨1, 21, 8, 1, 3, 1⟩ }, [65, 256], [⟨65, 0x41⟩],
      by decide, rfl, by decide, by decide, by decide, resolvable_of (by decide), lzwDict_two _ _ _ (by decide), by decide,
      by decide, by decide, by decide, by decide⟩,
    ⟨.analyze, { State.reset with inp := ⟨[], 1⟩ }, .unwrittenIn 0, by decide, rfl⟩,
    State.reset, by decide, rfl, by decide, by decide⟩

end Sys2Proof.Tests
end

section
/-! PROOFS of 00_scope.md: a step of the busy block runs the latched command (R11), any number of Host turns may pass
before it (R12), and the command changes nothing outside its write set (R18). -/

namespace Sys2Proof.Machine

/-! ## The latched command -/

/-- 30_encoding R108, R109: the word of a command decodes to the command. -/
@[simp] theorem decode_encode (i : Instr) : decode (encode i) = .ok i := by
  cases i <;> decide

/-- The Block's step of a busy block whose latch is legal (60_exceptions R341). -/
theorem blockStep_legal {s : State} {i : Instr} (hb : s.ctl.busy = true) (hd : decode s.ctl.cmd = .ok i) :
    blockStep s = exec i s := by
  simp [blockStep, hb, hd]

/-- With no turn scheduled a busy block completes its command (log entry 1). -/
theorem step_legal {s : State} {i : Instr} (ht : s.turns = []) (hb : s.ctl.busy = true)
    (hd : decode s.ctl.cmd = .ok i) : step s = exec i s :=
  (step_busy ht hb).trans (blockStep_legal hb hd)

/-- The fetch helper accepts exactly the word it is given and leaves no turn before its completion. -/
theorem withFetchWord_eq (s : State) (w : Word) :
    s.withFetchWord 32 w.toNat = { accept w s with turns := [] } := by
  have hw : BitVec.ofNat 32 (w.toNat % 2 ^ 32) = w := by
    rw [Nat.mod_eq_of_lt w.isLt, BitVec.ofNat_toNat, BitVec.setWidth_eq]
  rw [State.withFetchWord, hw]

/-- 60_exceptions R341 step 5: every completion clears BUSY and sets DONE. -/
theorem exec_next_idle {i : Instr} {s t : State} (h : exec i s = .next t) :
    t.ctl.busy = false ∧ t.ctl.done = true := by
  obtain ⟨u, -, rfl⟩ | ⟨c, n, b, u, -, rfl⟩ := exec_next h
  · exact ⟨completeOk_ctl_busy u, completeOk_ctl_done u⟩
  · exact ⟨completeError_ctl_busy .., completeError_ctl_done ..⟩

/-- Settles O5: `step` takes the Block's turn, and the Block's step is `exec` of the decoded latch. -/
theorem stepRunsTheLatchedCommand : Obligations.StepRunsTheLatchedCommand := by
  refine ⟨fun s i hb hd => ⟨fun ht => ?_, fun ts ht => ?_⟩, fun s i => ?_⟩
  · exact step_legal ht hb hd
  · exact (step_block ht).trans (blockStep_legal hb hd)
  · rw [withFetchWord_eq]
    exact step_legal rfl (accept_ctl_busy _ _) (decode_encode i)

/-- Settles O57: the Host's turns change only WBUSY and the Host, so the block is still busy with the same latch when
they are used up, and its step is the command. -/
theorem busyCommandCompletesAfterHostTurns : Obligations.BusyCommandCompletesAfterHostTurns := by
  intro n s u i hb hd ht hrun
  obtain ⟨hst, wb, rfl⟩ := hostTurns_busy hb (ht.trans (List.append_nil _).symm) hrun
  have hlast := (run_add (n := 1) hrun).trans (run_one _)
  exact ⟨rfl, hlast.trans (step_legal rfl hb hd), fun v hv => exec_next_idle hv⟩

/-! ## Frames -/

/-- Agreement on a group of state is transitive. -/
theorem Part.same_trans {s t u : State} {p : Part} (h : Part.same s t p) (h' : Part.same t u p) : Part.same s u p := by
  cases p
  case codes => exact ⟨h'.1.trans h.1, h'.2.trans h.2⟩
  all_goals exact Eq.trans h' h

/-- What a rule keeps before the completion writes the status (00_scope R18): the groups outside `ps`, the control
registers, the capacities, the Host, the turns and the reset count. -/
structure KeepsOutside (ps : List Part) (s t : State) : Prop where
  parts : ∀ p, p ∉ ps → Part.same s t p
  ctl : t.ctl = s.ctl
  caps : t.caps = s.caps
  host : t.host = s.host
  turns : t.turns = s.turns
  resetCount : t.resetCount = s.resetCount

theorem KeepsOutside.refl (ps : List Part) (s : State) : KeepsOutside ps s s :=
  ⟨fun p _ => by cases p <;> simp [Part.same], rfl, rfl, rfl, rfl, rfl⟩

theorem KeepsOutside.trans {ps : List Part} {s t u : State} (h : KeepsOutside ps s t) (h' : KeepsOutside ps t u) :
    KeepsOutside ps s u :=
  ⟨fun p hp => Part.same_trans (h.parts p hp) (h'.parts p hp), h'.ctl.trans h.ctl, h'.caps.trans h.caps,
    h'.host.trans h.host, h'.turns.trans h.turns, h'.resetCount.trans h.resetCount⟩

theorem KeepsOutside.mono {ps qs : List Part} {s t : State} (h : KeepsOutside ps s t) (hsub : ps ⊆ qs) :
    KeepsOutside qs s t :=
  { h with parts := fun p hp => h.parts p fun hm => hp (hsub hm) }

/-- Completion writes BUSY, DONE, ERROR and ERR_INFO on top of what the rule left (60_exceptions R341). -/
theorem KeepsOutside.completed {ps : List Part} {s u : State} {c : Control} (h : KeepsOutside ps s u)
    (hcmd : c.cmd = u.ctl.cmd) (hie : c.ie = u.ctl.ie) (hwbusy : c.wbusy = u.ctl.wbusy) :
    (∀ p, p ∉ ps → Part.same s { u with ctl := c } p) ∧ sameFixed s { u with ctl := c } := by
  refine ⟨fun p hp => ?_, ?_⟩
  · have hsame := h.parts p hp
    cases p <;> exact hsame
  · rw [h.ctl] at hcmd hie hwbusy
    exact ⟨hcmd, hie, hwbusy, h.caps, h.host, h.turns, h.resetCount⟩

/-- The state a rule ends in, with success or with an error, agrees with `s` outside `ps`. -/
def Ending.keepsOutside (ps : List Part) (s : State) (e : Ending) : Prop :=
  ∀ t, e.state? = some t → KeepsOutside ps s t

theorem Ending.keepsOutside_mono {ps qs : List Part} {s : State} {e : Ending} (h : e.keepsOutside ps s)
    (hsub : ps ⊆ qs) : e.keepsOutside qs s :=
  fun t ht => (h t ht).mono hsub

theorem Ending.keepsOutside_done {ps : List Part} {s t : State} (h : KeepsOutside ps s t) :
    (Ending.done t).keepsOutside ps s := by
  rintro _ ⟨⟩
  exact h

theorem Ending.keepsOutside_raised {ps : List Part} {s t : State} (code : ErrCode) (info : Nat) (sub : Byte)
    (h : KeepsOutside ps s t) : (Ending.raised code info sub t).keepsOutside ps s := by
  rintro _ ⟨⟩
  exact h

theorem Ending.keepsOutside_ofRun {α : Type} {ps : List Part} {s sErr : State} {r : Run α} {keep : α → State}
    (sub : Byte) (hErr : KeepsOutside ps s sErr) (hOk : ∀ a, r = .ok a → KeepsOutside ps s (keep a)) :
    (Ending.ofRun sub sErr r keep).keepsOutside ps s := by
  obtain ⟨a, hr, he⟩ | ⟨code, info, -, he⟩ | ⟨f, -, he⟩ := ofRun_cases sub sErr r keep
  · rw [he]
    exact keepsOutside_done (hOk a hr)
  · rw [he]
    exact keepsOutside_raised code info sub hErr
  · rw [he]
    rintro _ ⟨⟩

/-- A composite's next step adds its own write set (10_state R52). -/
theorem Ending.keepsOutside_andThen {ps : List Part} (qs : List Part) {s : State} {e : Ending} {f : State → Ending}
    (he : e.keepsOutside ps s) (hf : ∀ a, (f a).keepsOutside qs a) (hsub : qs ⊆ ps) :
    (e.andThen f).keepsOutside ps s :=
  andThen_state_rel (R := KeepsOutside ps) (fun _ _ _ => KeepsOutside.trans) he fun a t ht => (hf a t ht).mono hsub

/-! ## What each rule keeps -/

theorem storePacked_keepsOutside (s : State) (x : List Byte) (pad : Nat) :
    KeepsOutside [.payload, .pad] s (storePacked s x pad) :=
  ⟨fun p hp => by cases p <;> simp [Part.same] at hp ⊢, rfl, rfl, rfl, rfl, rfl⟩

theorem storeBits_keepsOutside (s : State) (b : BitString) : KeepsOutside [.bits] s (storeBits s b) :=
  ⟨fun p hp => by cases p <;> simp [Part.same] at hp ⊢, rfl, rfl, rfl, rfl, rfl⟩

theorem storeOut_keepsOutside (s : State) (x : List Byte) : KeepsOutside [.out] s (storeOut s x) :=
  ⟨fun p hp => by cases p <;> simp [Part.same] at hp ⊢, rfl, rfl, rfl, rfl, rfl⟩

theorem storeCodeTable_keepsOutside (s : State) (cs : List (Byte × BitString)) :
    KeepsOutside [.ctab] s (storeCodeTable s cs) :=
  ⟨fun p hp => by cases p <;> simp [Part.same] at hp ⊢, rfl, rfl, rfl, rfl, rfl⟩

theorem storeCompressed_keepsOutside (s : State) (cs : List Nat) (d : List DictEntry) :
    KeepsOutside [.codes, .dict] s (storeCompressed s cs d) :=
  ⟨fun p hp => by cases p <;> simp [Part.same] at hp ⊢, rfl, rfl, rfl, rfl, rfl⟩

theorem scrubCompressed_keepsOutside (s : State) : KeepsOutside [.codes, .dict] s (scrubCompressed s) :=
  ⟨fun p hp => by cases p <;> simp [Part.same] at hp ⊢, rfl, rfl, rfl, rfl, rfl⟩

theorem storeDecompressed_keepsOutside (s : State) (x : List Byte) (d : List DictEntry) :
    KeepsOutside [.out, .dict] s (storeDecompressed s x d) :=
  ⟨fun p hp => by cases p <;> simp [Part.same] at hp ⊢, rfl, rfl, rfl, rfl, rfl⟩

theorem storeArtifact_keepsOutside (s : State) (tag : Byte) (x : List Byte) :
    KeepsOutside [.out, .artKind] s (storeArtifact s tag x) :=
  ⟨fun p hp => by cases p <;> simp [Part.same] at hp ⊢, rfl, rfl, rfl, rfl, rfl⟩

theorem storeParsedCodes_keepsOutside (s : State) (ws : List Word) :
    KeepsOutside [.codes, .pad, .artKind] s (storeParsedCodes s ws) :=
  ⟨fun p hp => by cases p <;> simp [Part.same] at hp ⊢, rfl, rfl, rfl, rfl, rfl⟩

theorem storeParsedTable_keepsOutside (s : State) (tag : Byte) (pad : Nat) (t : Memory BitString) (x : List Byte) :
    KeepsOutside [.ctab, .payload, .pad, .artKind] s (storeParsedTable s tag pad t x) :=
  ⟨fun p hp => by cases p <;> simp [Part.same] at hp ⊢, rfl, rfl, rfl, rfl, rfl⟩

theorem freq_update_keepsOutside (s : State) (f : FreqTable) : KeepsOutside [.freq] s { s with freq := f } :=
  ⟨fun p hp => by cases p <;> simp [Part.same] at hp ⊢, rfl, rfl, rfl, rfl, rfl⟩

theorem rank_update_keepsOutside (s : State) (r : RankTable) : KeepsOutside [.rank] s { s with rank := r } :=
  ⟨fun p hp => by cases p <;> simp [Part.same] at hp ⊢, rfl, rfl, rfl, rfl, rfl⟩

theorem tree_update_keepsOutside (s : State) (t : TreeArena) : KeepsOutside [.tree] s { s with tree := t } :=
  ⟨fun p hp => by cases p <;> simp [Part.same] at hp ⊢, rfl, rfl, rfl, rfl, rfl⟩

theorem sizes_update_keepsOutside (s : State) (z : Sizes) : KeepsOutside [.sizes] s { s with sizes := z } :=
  ⟨fun p hp => by cases p <;> simp [Part.same] at hp ⊢, rfl, rfl, rfl, rfl, rfl⟩

/-- What DESERIALIZE leaves once every check has passed (45_container R270): a code list or a table with its payload. -/
theorem deserializeRun_ok_stores {s u : State} (h : deserializeRun s = .ok u) :
    (∃ ws, u = storeParsedCodes s ws) ∨ ∃ tag pad t x, u = storeParsedTable s tag pad t x := by
  obtain ⟨hd, -, h⟩ := (run_bind_ok _ _ _).mp h
  split at h
  · obtain ⟨ws, -, ⟨⟩⟩ := (run_bind_ok _ _ _).mp h
    exact .inl ⟨ws, rfl⟩
  · obtain ⟨r, -, ⟨⟩⟩ := (run_bind_ok _ _ _).mp h
    exact .inr ⟨_, _, _, _, rfl⟩

theorem nopRule_keepsOutside (s : State) : (nopRule s).keepsOutside (writeSet .nop) s :=
  Ending.keepsOutside_done (.refl _ s)

theorem packRule_keepsOutside (s : State) : (packRule s).keepsOutside (writeSet .pack) s :=
  Ending.keepsOutside_ofRun _ (.refl _ s) fun _ _ => storePacked_keepsOutside s _ _

theorem unpackRule_keepsOutside (s : State) : (unpackRule s).keepsOutside (writeSet .unpack) s :=
  Ending.keepsOutside_ofRun _ (.refl _ s) fun _ _ => storeBits_keepsOutside s _

theorem analyzeRule_keepsOutside (s : State) : (analyzeRule s).keepsOutside (writeSet .analyze) s :=
  Ending.keepsOutside_ofRun _ (.refl _ s) fun _ _ => freq_update_keepsOutside s _

theorem rankRule_keepsOutside (s : State) : (rankRule s).keepsOutside (writeSet .rank) s :=
  Ending.keepsOutside_done (rank_update_keepsOutside s _)

theorem huffBuildRule_keepsOutside (s : State) : (huffBuildRule s).keepsOutside (writeSet .huffBuild) s :=
  Ending.keepsOutside_done (tree_update_keepsOutside s _)

theorem huffCodesRule_keepsOutside (s : State) : (huffCodesRule s).keepsOutside (writeSet .huffCodes) s :=
  Ending.keepsOutside_done (storeCodeTable_keepsOutside s _)

theorem sfCodesRule_keepsOutside (s : State) : (sfCodesRule s).keepsOutside (writeSet .sfCodes) s :=
  Ending.keepsOutside_done (storeCodeTable_keepsOutside s _)

theorem encodeRule_keepsOutside (s : State) : (encodeRule s).keepsOutside (writeSet .encode) s :=
  Ending.keepsOutside_ofRun _ (.refl _ s) fun _ _ => storeBits_keepsOutside s _

theorem decodeRule_keepsOutside (s : State) : (decodeRule s).keepsOutside (writeSet .decode) s := by
  rw [decodeRule]
  split
  · exact Ending.keepsOutside_ofRun _ (storeOut_keepsOutside s _) fun _ _ => storeOut_keepsOutside s _
  · exact Ending.keepsOutside_raised _ _ _ (.refl _ s)

theorem lzwCompressRule_keepsOutside (s : State) : (lzwCompressRule s).keepsOutside (writeSet .lzwCompress) s := by
  rw [lzwCompressRule]
  split
  · exact Ending.keepsOutside_ofRun _ (scrubCompressed_keepsOutside s) fun _ _ => storeCompressed_keepsOutside s _ _
  · exact Ending.keepsOutside_raised _ _ _ (.refl _ s)

theorem lzwDecompressRule_keepsOutside (s : State) :
    (lzwDecompressRule s).keepsOutside (writeSet .lzwDecompress) s := by
  rw [lzwDecompressRule]
  split
  · exact Ending.keepsOutside_ofRun _ (storeDecompressed_keepsOutside s _ _) fun _ _ =>
      storeDecompressed_keepsOutside s _ _
  · exact Ending.keepsOutside_raised _ _ _ (.refl _ s)

theorem serializeHufRule_keepsOutside (s : State) : (serializeHufRule s).keepsOutside (writeSet .serializeHuf) s :=
  Ending.keepsOutside_ofRun _ (.refl _ s) fun _ _ => storeArtifact_keepsOutside s _ _

theorem serializeSfRule_keepsOutside (s : State) : (serializeSfRule s).keepsOutside (writeSet .serializeSf) s :=
  Ending.keepsOutside_ofRun _ (.refl _ s) fun _ _ => storeArtifact_keepsOutside s _ _

theorem serializeLzwRule_keepsOutside (s : State) : (serializeLzwRule s).keepsOutside (writeSet .serializeLzw) s :=
  Ending.keepsOutside_ofRun _ (.refl _ s) fun _ _ => storeArtifact_keepsOutside s _ _

theorem deserializeRule_keepsOutside (s : State) : (deserializeRule s).keepsOutside (writeSet .deserialize) s := by
  refine Ending.keepsOutside_ofRun _ (.refl _ s) fun u hu => ?_
  obtain ⟨ws, rfl⟩ | ⟨tag, pad, t, x, rfl⟩ := deserializeRun_ok_stores hu
  · exact (storeParsedCodes_keepsOutside s ws).mono (by decide)
  · exact (storeParsedTable_keepsOutside s tag pad t x).mono (by decide)

/-! ## What each composite keeps: the union of its steps' write sets -/

theorem compressStart_keepsOutside (ps : List Part) (s : State) : (compressStart s).keepsOutside ps s :=
  Ending.keepsOutside_ofRun _ (.refl _ s) fun _ _ => .refl _ s

theorem storeCompressSizes_keepsOutside (s : State) : (storeCompressSizes s).keepsOutside [.sizes] s :=
  Ending.keepsOutside_done (sizes_update_keepsOutside s _)

theorem storeDecompressSizes_keepsOutside (s : State) : (storeDecompressSizes s).keepsOutside [.sizes] s :=
  Ending.keepsOutside_done (sizes_update_keepsOutside s _)

theorem compressHufRule_keepsOutside (s : State) : (compressHufRule s).keepsOutside (writeSet .compressHuf) s := by
  have start := compressStart_keepsOutside (writeSet .compressHuf) s
  exact start
    |> (Ending.keepsOutside_andThen _ · analyzeRule_keepsOutside (by decide))
    |> (Ending.keepsOutside_andThen _ · huffBuildRule_keepsOutside (by decide))
    |> (Ending.keepsOutside_andThen _ · huffCodesRule_keepsOutside (by decide))
    |> (Ending.keepsOutside_andThen _ · encodeRule_keepsOutside (by decide))
    |> (Ending.keepsOutside_andThen _ · packRule_keepsOutside (by decide))
    |> (Ending.keepsOutside_andThen _ · serializeHufRule_keepsOutside (by decide))
    |> (Ending.keepsOutside_andThen _ · storeCompressSizes_keepsOutside (by decide))

theorem compressSfRule_keepsOutside (s : State) : (compressSfRule s).keepsOutside (writeSet .compressSf) s := by
  have start := compressStart_keepsOutside (writeSet .compressSf) s
  exact start
    |> (Ending.keepsOutside_andThen _ · analyzeRule_keepsOutside (by decide))
    |> (Ending.keepsOutside_andThen _ · rankRule_keepsOutside (by decide))
    |> (Ending.keepsOutside_andThen _ · sfCodesRule_keepsOutside (by decide))
    |> (Ending.keepsOutside_andThen _ · encodeRule_keepsOutside (by decide))
    |> (Ending.keepsOutside_andThen _ · packRule_keepsOutside (by decide))
    |> (Ending.keepsOutside_andThen _ · serializeSfRule_keepsOutside (by decide))
    |> (Ending.keepsOutside_andThen _ · storeCompressSizes_keepsOutside (by decide))

theorem compressLzwRule_keepsOutside (s : State) : (compressLzwRule s).keepsOutside (writeSet .compressLzw) s := by
  have start := compressStart_keepsOutside (writeSet .compressLzw) s
  exact start
    |> (Ending.keepsOutside_andThen _ · lzwCompressRule_keepsOutside (by decide))
    |> (Ending.keepsOutside_andThen _ · serializeLzwRule_keepsOutside (by decide))
    |> (Ending.keepsOutside_andThen _ · storeCompressSizes_keepsOutside (by decide))

/-- Either tail of DECOMPRESS (46_top_level R305) keeps what lies outside the command's write set. -/
theorem decompressTail_keepsOutside (s : State) : (decompressTail s).keepsOutside (writeSet .decompress) s := by
  rw [decompressTail]
  split
  · exact Ending.keepsOutside_mono (lzwDecompressRule_keepsOutside s) (by decide)
  · exact Ending.keepsOutside_andThen _ (Ending.keepsOutside_mono (unpackRule_keepsOutside s) (by decide))
      decodeRule_keepsOutside (by decide)

theorem decompressRule_keepsOutside (s : State) : (decompressRule s).keepsOutside (writeSet .decompress) s :=
  Ending.keepsOutside_mono (deserializeRule_keepsOutside s) (by decide)
    |> (Ending.keepsOutside_andThen _ · decompressTail_keepsOutside (by decide))
    |> (Ending.keepsOutside_andThen _ · storeDecompressSizes_keepsOutside (by decide))

/-- 00_scope R18 for the rule of each command, before the status is written. -/
theorem ruleOf_keepsOutside (i : Instr) (s : State) : (ruleOf i s).keepsOutside (writeSet i) s :=
  match i with
  | .nop => nopRule_keepsOutside s
  | .pack => packRule_keepsOutside s
  | .unpack => unpackRule_keepsOutside s
  | .analyze => analyzeRule_keepsOutside s
  | .rank => rankRule_keepsOutside s
  | .huffBuild => huffBuildRule_keepsOutside s
  | .huffCodes => huffCodesRule_keepsOutside s
  | .sfCodes => sfCodesRule_keepsOutside s
  | .encode => encodeRule_keepsOutside s
  | .decode => decodeRule_keepsOutside s
  | .lzwCompress => lzwCompressRule_keepsOutside s
  | .lzwDecompress => lzwDecompressRule_keepsOutside s
  | .serializeHuf => serializeHufRule_keepsOutside s
  | .serializeSf => serializeSfRule_keepsOutside s
  | .serializeLzw => serializeLzwRule_keepsOutside s
  | .deserialize => deserializeRule_keepsOutside s
  | .compressHuf => compressHufRule_keepsOutside s
  | .compressSf => compressSfRule_keepsOutside s
  | .compressLzw => compressLzwRule_keepsOutside s
  | .decompress => decompressRule_keepsOutside s

/-- Settles O43: a command is the completion of its rule, the rule keeps what is outside the write set, and the completion
writes only the status. -/
theorem commandsKeepStateOutsideTheirWriteSet : Obligations.CommandsKeepStateOutsideTheirWriteSet := by
  intro i s t h
  have hkeep := ruleOf_keepsOutside i s
  obtain ⟨u, hu, rfl⟩ | ⟨c, n, b, u, hu, rfl⟩ := exec_next h
  · rw [hu] at hkeep
    exact (hkeep u rfl).completed rfl rfl rfl
  · rw [hu] at hkeep
    exact (hkeep u rfl).completed rfl rfl rfl

end Sys2Proof.Machine
end

section
/-! PROOFS of 10_state.md, the registers: what each register of space 0 reads as (R23 to R38), what a write of it does
while idle (R22, R25, R26, R32), and what a reset leaves (R63). -/

namespace Sys2Proof.Machine

/-- A value that fits a 32-bit register is what the register holds (00_scope R9). -/
theorem ofNat_toNat_of_lt {n : Nat} (h : n < 2 ^ 32) : (BitVec.ofNat 32 n).toNat = n := by
  rw [BitVec.toNat_ofNat, Nat.mod_eq_of_lt h]

/-! ## One register access -/

/-- 10_state R22: the register that stands at a register's offset. -/
@[simp] theorem csrAt_offset (r : CsrName) : csrAt r.offset.toNat = some r := by
  cases r <;> rfl

theorem CsrName.offset_valid (r : CsrName) : r.offset.toNat % 4 = 0 ∧ r.offset.toNat < 0x70 := by
  cases r <;> decide

/-- A 32-bit access to a register's offset meets none of the conditions (a) to (e) of 20_memory R75. -/
theorem badAccess_csr (s : State) (op : Access) (r : CsrName) (v : Word) :
    badAccess s ⟨op, 0, r.offset, .w32, v⟩ = false := by
  obtain ⟨haligned, hbound⟩ := r.offset_valid
  simp [badAccess, spaceWidth, spaceBound, spaceWritable, haligned, hbound]

/-- Space 0 is open to the Host while BUSY = 1 (70_reset R380). -/
theorem busyRefused_csr (s : State) (op : Access) (off : Word) (width : Width) (v : Word) :
    busyRefused s ⟨op, 0, off, width, v⟩ = false :=
  Bool.and_false _

/-- A register read answers the register and changes nothing, busy or not. -/
theorem memRead_csr (s : State) (r : CsrName) : memRead 0 r.offset .w32 s = (.okData (csrRead s r), s) := by
  rw [memRead, busAccess_read rfl (busyRefused_csr ..) (badAccess_csr ..)]
  simp [busRead]

/-- A register write while idle answers OK and does what the register's rule says. -/
theorem memWrite_csr {s : State} (hidle : s.ctl.busy = false) (r : CsrName) (v : Word) :
    memWrite 0 r.offset .w32 v s = (.ok, csrWrite s r v) := by
  simp [memWrite, busAccess, busyRefused_csr, badAccess_csr, hidle, busWrite]

/-- The registers that no Host write changes (10_state R22, "RO"). -/
def CsrName.readOnly : List CsrName :=
  [.id, .error, .errInfo, .outLen, .nsym, .symTotal, .rankN, .nnodes, .root, .ctabN, .nextCode, .artKind, .origSize,
    .compSize, .inCapR, .outCapR, .bitsCapR, .payloadCapR, .codesCapR, .dictCapR]

theorem csrWrite_readOnly (s : State) (v : Word) : ∀ r ∈ CsrName.readOnly, csrWrite s r v = s := by
  simp [CsrName.readOnly, csrWrite]

/-! ## The registers of several fields -/

theorem ctrlWord_eq (c : Control) : ctrlWord c = if c.ie then 1 else 0 := by
  cases h : c.ie <;> simp [ctrlWord, h]

/-- The binary digits of a number given by five digits. -/
theorem testBit_five (a b c d e : Bool) (k : Nat) :
    (a.toNat + 2 * b.toNat + 4 * c.toNat + 8 * d.toNat + 16 * e.toNat).testBit k = [a, b, c, d, e].getD k false := by
  match k with
  | 0 | 1 | 2 | 3 | 4 => revert a b c d e; decide
  | k + 5 =>
    have hlt : a.toNat + 2 * b.toNat + 4 * c.toNat + 8 * d.toNat + 16 * e.toNat < 2 ^ (k + 5) := by
      have := a.toNat_le; have := b.toNat_le; have := c.toNat_le; have := d.toNat_le; have := e.toNat_le
      have := Nat.pow_le_pow_right (n := 2) (by decide) (show 5 ≤ k + 5 by omega)
      omega
    simpa using Nat.testBit_lt_two_pow hlt

/-- 10_state R26: bits 0 to 4 of STATUS are BUSY, DONE, ERR, WBUSY and IRQ, the others 0. -/
theorem statusWord_getLsbD (c : Control) (k : Nat) :
    (statusWord c).getLsbD k = [c.busy, c.done, errFlag c, c.wbusy, irq c].getD k false := by
  rw [statusWord, BitVec.getLsbD_ofNat, testBit_five]
  by_cases hk : k < 32
  · simp [hk]
  · rw [List.getD_eq_default _ _ (by simp; omega), Bool.and_false]

theorem errFlag_iff (c : Control) : errFlag c = true ↔ c.error.code ≠ .none := by
  simp [errFlag]

/-- 10_state R27: ERROR as a number, byte by byte. -/
theorem errorWord_toNat (e : ErrorReg) :
    (errorWord e).toNat = 65536 * e.sub.toNat + 256 * e.opc.toNat + e.code.toByte.toNat := by
  have hopc := e.opc.isLt
  have hcode := e.code.toByte.isLt
  simp only [errorWord, BitVec.toNat_append, BitVec.toNat_ofNat]
  rw [← Nat.shiftLeft_add_eq_or_of_lt hcode, ← Nat.shiftLeft_add_eq_or_of_lt hopc]
  simp [Nat.shiftLeft_eq]
  omega

/-- Settles O47: `memRead_csr` at each offset, with STATUS and ERROR by `statusWord_getLsbD` and `errorWord_toNat`. -/
theorem registersReadAsTheirFields : Obligations.RegistersReadAsTheirFields := by
  intro s
  have hbit := statusWord_getLsbD s.ctl
  refine ⟨memRead_csr s .id, memRead_csr s .cmd, ?ctrl, ?status, ?error, memRead_csr s .errInfo, memRead_csr s .inLen,
    memRead_csr s .outLen, memRead_csr s .bitsLen, ⟨_, memRead_csr s .pad, ?pad⟩, memRead_csr s .payloadLen,
    memRead_csr s .codesLen, memRead_csr s .nsym, memRead_csr s .symTotal, memRead_csr s .rankN, memRead_csr s .nnodes,
    fun hroot => ?none, fun i hroot => ?some, memRead_csr s .ctabN, memRead_csr s .nextCode,
    ⟨_, memRead_csr s .artKind, ?artKind⟩, memRead_csr s .origSize, memRead_csr s .compSize⟩
  case ctrl => exact ctrlWord_eq s.ctl ▸ memRead_csr s .ctrl
  case status =>
    exact ⟨_, memRead_csr s .status, hbit 0, hbit 1, (hbit 2).symm ▸ errFlag_iff s.ctl, hbit 3, hbit 4, hbit 4,
      fun k hk => (hbit k).trans (List.getD_eq_default _ _ hk)⟩
  case error =>
    have hnum : (csrRead s .error).toNat = _ := errorWord_toNat s.ctl.error
    have hopc := s.ctl.error.opc.isLt
    have hcode := s.ctl.error.code.toByte.isLt
    exact ⟨_, memRead_csr s .error, by omega, by omega, by omega⟩
  case pad => exact BitVec.toNat_setWidth_of_le (by decide)
  case none => exact (memRead_csr s .root).trans (by rw [csrRead, hroot]; rfl)
  case some => exact (memRead_csr s .root).trans (by rw [csrRead, hroot]; rfl)
  case artKind => exact BitVec.toNat_setWidth_of_le (by decide)

/-- Settles O49: `memWrite_csr` at each offset; the read-only registers ignore the write. -/
theorem registerWritesWhileIdle : Obligations.RegisterWritesWhileIdle := by
  intro s v hidle
  have hw := fun r => memWrite_csr hidle r v
  refine ⟨hw .ctrl, ?status, hw .inLen, hw .bitsLen, ⟨_, ?pad, hw .pad⟩, hw .payloadLen, hw .codesLen, ?readOnly⟩
  case status =>
    refine (hw .status).trans ?_
    simp only [csrWrite, clearStatus]
    cases v.getLsbD 1 <;> cases v.getLsbD 3 <;> simp
  case pad => exact BitVec.toNat_setWidth ..
  case readOnly =>
    have hro : ∀ off ∈ CsrName.readOnly.map CsrName.offset, memWrite 0 off .w32 v s = (.ok, s) :=
      List.forall_mem_map.mpr fun r hr => by rw [hw r, csrWrite_readOnly s v r hr]
    exact hro

/-! ## Completion with an error, reset -/

/-- Settles O7: the info is saved saturated, by `satWord_toNat` and `satWord_big`; the rest is the definition. -/
theorem errorCompletionSavesTheError : Obligations.ErrorCompletionSavesTheError :=
  fun _ info _ _ _ =>
    ⟨satWord_toNat info, satWord_big info, completeError_ctl_error .., completeError_ctl_busy ..,
      completeError_ctl_done .., rfl⟩

/-- A reset turn is `resetEvent`; only one that catches a transaction in progress moves the Host (log entry 13). -/
theorem step_resetTurn {s : State} {r : Turn} {ts : List Turn} (hr : r = .reset ∨ r = .resetInAccess)
    (ht : s.turns = r :: ts) :
    ∃ hst, step s = .next (resetEvent { s with host := hst, turns := ts }) ∧ (r = .reset → hst = s.host) := by
  obtain rfl | rfl := hr
  · exact ⟨s.host, step_reset ht, fun _ => rfl⟩
  · obtain ⟨hst, hcut⟩ := hostCutOff_eq { s with turns := ts }
    exact ⟨hst, (step_resetInAccess ht).trans (by rw [hcut]), by rintro ⟨⟩⟩

/-- Settles O53: the reset turn is `resetEvent` by `step_resetTurn`, and `resetEvent` starts from `State.reset`. -/
theorem resetRestoresEveryRegister : Obligations.ResetRestoresEveryRegister := by
  intro s r ts hr ht
  obtain ⟨hst, hstep, hhost⟩ := step_resetTurn hr ht
  refine ⟨_, hstep, ?_⟩
  simpa [resetEvent, State.reset, interruptOutput, irq, freqOf, firstOf, codeOf, codeAt] using hhost

/-! ## The capacities -/

/-- 00_scope R9: every capacity fits a 32-bit register. -/
theorem Caps.wf_lt {c : Caps} (h : c.wf = true) :
    c.inCap < 2 ^ 32 ∧ c.outCap < 2 ^ 32 ∧ c.bitsCap < 2 ^ 32 ∧ c.payloadCap < 2 ^ 32 ∧ 4 * c.codesCap < 2 ^ 32 ∧
    c.dictCap < 2 ^ 32 := by
  simp only [Caps.wf, Bool.and_eq_true, decide_eq_true_eq] at h
  omega

theorem busWrite_caps (s : State) (space off : Nat) (v : Word) : (busWrite s space off v).caps = s.caps := by
  obtain ⟨-, r, -, he⟩ | ⟨-, he⟩ | ⟨-, he⟩ | ⟨-, he⟩ | ⟨-, he⟩ | he := busWrite_cases s space off v
  case inl => rw [he]; cases r <;> rfl
  all_goals rw [he]

theorem busAccess_caps (t : Txn) (s : State) : (busAccess t s).2.caps = s.caps := by
  obtain he | ⟨-, he⟩ | ⟨-, -, -, he⟩ := busAccess_cases t s
  · rw [he]
  · rw [he, setWbusy_caps]
  · rw [he, busWrite_caps]

theorem hostStep_caps {s t : State} (h : hostStep s = .next t) : t.caps = s.caps := by
  obtain ⟨hst, rfl⟩ | ⟨txn, hst, rfl⟩ := hostStep_cases h
  · rfl
  · exact busAccess_caps txn s

/-- A command keeps the capacities (`commandsKeepStateOutsideTheirWriteSet`). -/
theorem exec_caps {i : Instr} {s t : State} (h : exec i s = .next t) : t.caps = s.caps := by
  obtain ⟨-, -, -, -, hcaps, -⟩ := commandsKeepStateOutsideTheirWriteSet i s t h
  exact hcaps

theorem blockStep_caps {s t : State} (h : blockStep s = .next t) : t.caps = s.caps := by
  obtain ⟨-, rfl⟩ | ⟨-, i, -, hexec⟩ | ⟨-, -, rfl⟩ := blockStep_cases h
  · rfl
  · exact exec_caps hexec
  · exact completeIllegal_caps s

/-- 10_state R38: a Host turn, a Block turn and a reset all keep the capacities. -/
theorem step_caps {s t : State} (h : step s = .next t) : t.caps = s.caps := by
  obtain ⟨ts, hhost⟩ | ⟨ts, hblock⟩ | ⟨hst, ts, rfl⟩ := step_cases h
  · exact hostStep_caps (s := { s with turns := ts }) hhost
  · exact blockStep_caps (s := { s with turns := ts }) hblock
  · rfl

/-- Settles O48: the registers by `memRead_csr`, each capacity below 2^32 by `Caps.wf_lt`, the constancy by `step_caps`. -/
theorem capacitiesAreConstant : Obligations.CapacitiesAreConstant := by
  refine ⟨fun s hwf => ?_, fun s t h => step_caps h⟩
  obtain ⟨hin, hout, hbits, hpayload, hcodes, hdict⟩ := Caps.wf_lt hwf
  exact ⟨_, _, _, _, _, _,
    memRead_csr s .inCapR, ofNat_toNat_of_lt hin, memRead_csr s .outCapR, ofNat_toNat_of_lt hout,
    memRead_csr s .bitsCapR, ofNat_toNat_of_lt hbits,
    memRead_csr s .payloadCapR, ofNat_toNat_of_lt hpayload,
    memRead_csr s .codesCapR, ofNat_toNat_of_lt (by omega), memRead_csr s .dictCapR, ofNat_toNat_of_lt hdict⟩

end Sys2Proof.Machine
end

section
/-! PROOFS for 10_state.md, the tables: the frequency table that ANALYZE leaves (41_frequency R151), the ranked list
(R154) and the code table of a list of codes of which none begins another (10_state R50) meet their parts of the
invariant. -/

namespace Sys2Proof.Machine

/-! ## Tables listed by symbol -/

variable {α : Type}

theorem Memory.addresses_nodup {m : Memory α} (hm : Memory.wf m) : (m.map Prod.fst).Nodup :=
  List.pairwise_map.mpr (hm.imp Nat.ne_of_lt)

theorem Memory.length_le_of_below {m : Memory α} {n : Nat} (hm : Memory.wf m) (hb : Memory.below m n) :
    m.length ≤ n := by
  have hsub : m.map Prod.fst ⊆ List.range n := fun a ha => by
    obtain ⟨c, hc, rfl⟩ := List.mem_map.mp ha
    exact List.mem_range.mpr (hb c hc)
  simpa using (List.subperm_of_subset (Memory.addresses_nodup hm) hsub).length_le

/-- The number of entries of a table by symbol is what its 32-bit number register holds. -/
theorem Memory.number_toNat {m : Memory α} (hm : Memory.wf m) (hb : Memory.below m 256) :
    (BitVec.ofNat 32 m.length).toNat = m.length :=
  ofNat_toNat_of_lt (Nat.lt_of_le_of_lt (Memory.length_le_of_below hm hb) (by decide))

theorem Memory.symbol_toNat {m : Memory α} (hb : Memory.below m 256) {c : Nat × α} (hc : c ∈ m) :
    (BitVec.ofNat 8 c.1).toNat = c.1 := by
  rw [BitVec.toNat_ofNat, Nat.mod_eq_of_lt (hb c hc)]

theorem Memory.symbols_nodup {m : Memory α} (hm : Memory.wf m) (hb : Memory.below m 256) :
    (m.map fun c => BitVec.ofNat 8 c.1).Nodup := by
  have hsym : (m.map fun c => BitVec.ofNat 8 c.1).map BitVec.toNat = m.map Prod.fst := by
    rw [List.map_map]
    exact List.map_congr_left fun c hc => Memory.symbol_toNat hb hc
  exact List.Nodup.of_map _ (hsym ▸ Memory.addresses_nodup hm)

/-! ## The frequency table -/

theorem countSymbol_below {t : Memory FreqEntry} (ht : Memory.below t 256) (i : Nat) (c : Byte) :
    Memory.below (countSymbol t i c) 256 := by
  have hc : c.toNat + 1 ≤ 256 := c.isLt
  unfold countSymbol
  split <;> exact Memory.write_below ht _ _ hc

theorem countSymbols_below {t : Memory FreqEntry} (ht : Memory.below t 256) (i : Nat) (x : List Byte) :
    Memory.below (countSymbols t i x) 256 := by
  induction x generalizing t i with
  | nil => exact ht
  | cons c x ih => exact ih (countSymbol_below ht i c) (i + 1)

/-- The frequency table of a text (41_frequency R150). -/
abbrev freqTable (x : List Byte) : Memory FreqEntry := countSymbols [] 0 x

theorem freqTable_wf (x : List Byte) : Memory.wf (freqTable x) := countSymbols_wf .nil 0 x

theorem freqTable_below (x : List Byte) : Memory.below (freqTable x) 256 :=
  countSymbols_below (by simp) 0 x

theorem get_freqTable (x : List Byte) (c : Byte) :
    Memory.get (freqTable x) c.toNat = if c ∈ x then some ⟨x.count c, x.idxOf c⟩ else none := by
  simpa using get_countSymbols [] 0 x c

/-- An entry lists a symbol of the text with its count and its least index. -/
theorem mem_freqTable {x : List Byte} {e : Nat × FreqEntry} (h : e ∈ freqTable x) :
    BitVec.ofNat 8 e.1 ∈ x ∧ e.2 = ⟨x.count (BitVec.ofNat 8 e.1), x.idxOf (BitVec.ofNat 8 e.1)⟩ := by
  have hget : Memory.get (freqTable x) (BitVec.ofNat 8 e.1).toNat = some e.2 := by
    rw [Memory.symbol_toNat (freqTable_below x) h]
    exact Memory.get_of_mem (freqTable_wf x) h
  rw [get_freqTable] at hget
  split at hget
  · exact ⟨‹_›, (Option.some.inj hget).symm⟩
  · cases hget

/-- The table lists exactly the symbols of the text. -/
theorem freqTable_symbols_perm (x : List Byte) : ((freqTable x).map fun e => BitVec.ofNat 8 e.1).Perm x.dedup := by
  refine (List.perm_ext_iff_of_nodup (Memory.symbols_nodup (freqTable_wf x) (freqTable_below x)) x.nodup_dedup).mpr
    fun c => ?_
  rw [List.mem_dedup, List.mem_map]
  refine ⟨?_, fun hc => ?_⟩
  · rintro ⟨e, he, rfl⟩
    exact (mem_freqTable he).1
  · have hget := get_freqTable x c
    rw [if_pos hc] at hget
    exact ⟨_, Memory.get_mem hget, by rw [BitVec.ofNat_toNat, BitVec.setWidth_eq]⟩

/-- 41_frequency R151: the counts of a text add up to its length. -/
theorem freqTable_counts_sum (x : List Byte) : ((freqTable x).map fun e => e.2.count).sum = x.length := by
  have hcount : ((freqTable x).map fun e => e.2.count) =
      ((freqTable x).map fun e => BitVec.ofNat 8 e.1).map fun c => x.count c := by
    rw [List.map_map]
    exact List.map_congr_left fun e he => congrArg FreqEntry.count (mem_freqTable he).2
  rw [hcount, ((freqTable_symbols_perm x).map _).sum_eq, List.sum_map_count_dedup_eq_length]

/-- Two symbols of a text have different least indices (41_frequency R151). -/
theorem freqTable_firsts_nodup (x : List Byte) : ((freqTable x).map fun e => e.2.first).Nodup := by
  have hfirst : ((freqTable x).map fun e => e.2.first) =
      ((freqTable x).map fun e => BitVec.ofNat 8 e.1).map fun c => x.idxOf c := by
    rw [List.map_map]
    exact List.map_congr_left fun e he => congrArg FreqEntry.first (mem_freqTable he).2
  rw [hfirst]
  refine (Memory.symbols_nodup (freqTable_wf x) (freqTable_below x)).map_on fun c hc d _ heq => ?_
  have hmem : c ∈ x := by
    obtain ⟨e, he, rfl⟩ := List.mem_map.mp hc
    exact (mem_freqTable he).1
  exact (List.idxOf_inj hmem).mp heq

/-- What ANALYZE leaves meets the table's part of the invariant. -/
theorem freqOk_freqTable {x : List Byte} {total : Word} (htotal : total.toNat = x.length) :
    FreqOk ⟨freqTable x, BitVec.ofNat 32 (freqTable x).length, total⟩ where
  canon := freqTable_wf x
  symbols := freqTable_below x
  counts e he := by
    obtain ⟨hmem, hval⟩ := mem_freqTable he
    rw [hval]
    exact List.count_pos_iff.mpr hmem
  firsts := freqTable_firsts_nodup x
  firstBound e he := by
    obtain ⟨hmem, hval⟩ := mem_freqTable he
    rw [hval, htotal]
    exact List.idxOf_lt_length_of_mem hmem
  total := (freqTable_counts_sum x).trans htotal.symm
  number := Memory.number_toNat (freqTable_wf x) (freqTable_below x)

/-! ## The ranked list -/

/-- The ranked list holds the table's symbols in another order. -/
theorem rankedList_symbols_perm (t : Memory FreqEntry) :
    ((rankedList t).map RankEntry.sym).Perm (t.map fun e => BitVec.ofNat 8 e.1) := by
  rw [rankedList, List.map_map]
  exact (sortBy_perm ranksBefore t).map _

/-- What RANK leaves meets the list's part of the invariant (41_frequency R154). -/
theorem rankOk_rankedList {f : FreqTable} (h : FreqOk f) :
    RankOk ⟨rankedList f.table, BitVec.ofNat 32 (rankedList f.table).length⟩ where
  number := by
    have hlen : (rankedList f.table).length = f.table.length := by simp [rankedList]
    simpa only [hlen] using Memory.number_toNat h.canon h.symbols
  symbols := (rankedList_symbols_perm f.table).nodup_iff.mpr (Memory.symbols_nodup h.canon h.symbols)
  counts e he := by
    obtain ⟨a, ha, rfl⟩ := List.mem_map.mp he
    exact h.counts a ((mem_sortBy _ _ _).mp ha)
  order := List.pairwise_map.mpr ((sortBy_ranksBefore_sorted f.table).imp fun {a b} hab => by
    show b.2.count ≤ a.2.count
    omega)

/-! ## Code tables -/

/-- A list of codes as the invariant asks of a code table (10_state R49, R50), whatever its number register says. -/
structure CodesOk (t : Memory BitString) : Prop where
  canon : Memory.wf t
  symbols : Memory.below t 256
  lengths : ∀ c ∈ t, 1 ≤ c.2.length ∧ c.2.length ≤ 255
  free : prefixFree t

theorem CodesOk.ctabOk {t : Memory BitString} (h : CodesOk t) : CtabOk ⟨t, BitVec.ofNat 32 t.length⟩ :=
  { h with count := Memory.number_toNat h.canon h.symbols }

/-- (symbol, code) pairs that make a code table: distinct symbols, codes of 1 to 255 bits, none the beginning of another. -/
structure PrefixCode (pairs : List (Byte × BitString)) : Prop where
  symbols : (pairs.map Prod.fst).Nodup
  lengths : ∀ e ∈ pairs, 1 ≤ e.2.length ∧ e.2.length ≤ 255
  free : ∀ a ∈ pairs, ∀ b ∈ pairs, a.1 ≠ b.1 → ¬ a.2 <+: b.2

/-- A table built from pairs with distinct symbols lists exactly the pairs. -/
theorem assignCodes_perm {pairs : List (Byte × BitString)} (hn : (pairs.map Prod.fst).Nodup) :
    (assignCodes pairs).Perm (pairs.map fun e => (e.1.toNat, e.2)) := by
  have hinj : Function.Injective fun e : Byte × BitString => (e.1.toNat, e.2) := fun a b h => by
    obtain ⟨hsym, hcode⟩ := Prod.mk.inj h
    exact Prod.ext (BitVec.eq_of_toNat_eq hsym) hcode
  refine (List.perm_ext_iff_of_nodup (List.Nodup.of_map _ (Memory.addresses_nodup (assignCodes_wf pairs)))
    (hn.of_map.map hinj)).mpr fun c => ?_
  rw [List.mem_map]
  constructor
  · intro hc
    have hsym := Memory.symbol_toNat (assignCodes_below pairs) hc
    have hget := Memory.get_of_mem (assignCodes_wf pairs) hc
    rw [← hsym, get_assignCodes pairs hn] at hget
    obtain ⟨e, he, hcode⟩ := Option.map_eq_some_iff.mp hget
    have hfst : e.1 = BitVec.ofNat 8 c.1 := by simpa using List.find?_some he
    exact ⟨e, List.mem_of_find?_eq_some he, Prod.ext (by rw [hfst, hsym]) hcode⟩
  · rintro ⟨e, he, rfl⟩
    refine Memory.get_mem ?_
    rw [get_assignCodes pairs hn]
    cases hf : pairs.find? fun a => a.1 == e.1 with
    | none => simpa using List.find?_eq_none.mp hf e he
    | some a =>
      have hfst : a.1 = e.1 := by simpa using List.find?_some hf
      rw [List.inj_on_of_nodup_map hn (List.mem_of_find?_eq_some hf) he hfst]
      rfl

/-- A table built from a `PrefixCode` meets the code table's part of the invariant. -/
theorem PrefixCode.codesOk {pairs : List (Byte × BitString)} (h : PrefixCode pairs) : CodesOk (assignCodes pairs) where
  canon := assignCodes_wf pairs
  symbols := assignCodes_below pairs
  lengths c hc := by
    obtain ⟨e, he, rfl⟩ := List.mem_map.mp ((assignCodes_perm h.symbols).mem_iff.mp hc)
    exact h.lengths e he
  free a ha b hb hab := by
    obtain ⟨e, he, rfl⟩ := List.mem_map.mp ((assignCodes_perm h.symbols).mem_iff.mp ha)
    obtain ⟨f, hf, rfl⟩ := List.mem_map.mp ((assignCodes_perm h.symbols).mem_iff.mp hb)
    exact h.free e he f hf fun hef => hab (congrArg BitVec.toNat hef)

theorem PrefixCode.ctabOk {pairs : List (Byte × BitString)} (h : PrefixCode pairs) :
    CtabOk ⟨assignCodes pairs, BitVec.ofNat 32 pairs.length⟩ := by
  have hlen : (assignCodes pairs).length = pairs.length := by
    simpa using (assignCodes_perm h.symbols).length_eq
  exact hlen ▸ h.codesOk.ctabOk

theorem prefixCode_nil : PrefixCode [] := ⟨List.nodup_nil, by simp, by simp⟩

/-- 42_huffman R181, 43_shannon_fano R215: the code "0" of a single symbol. -/
theorem prefixCode_single (c : Byte) : PrefixCode [(c, [false])] :=
  ⟨List.nodup_singleton _, by simp, by simp⟩

/-! ## Codes under a common stem: how the tree walk and the Shannon-Fano recursion split -/

/-- The codes that a splitting recursion gives below the stem `p`: at least one, each of at most one bit more than `p` for
every other code, none the beginning of another. -/
structure CodesUnder (p : BitString) (pairs : List (Byte × BitString)) : Prop where
  nonempty : 1 ≤ pairs.length
  under : ∀ e ∈ pairs, p <+: e.2
  short : ∀ e ∈ pairs, e.2.length < p.length + pairs.length
  free : ∀ a ∈ pairs, ∀ b ∈ pairs, a.1 ≠ b.1 → ¬ a.2 <+: b.2

theorem codesUnder_single (p : BitString) (c : Byte) : CodesUnder p [(c, p)] :=
  ⟨le_rfl, by simp, by simp, by simp⟩

/-- Of two strings that go on with different bits after a common stem, neither begins the other. -/
theorem not_prefix_of_split {p q r : BitString} {x y : Bool} (hxy : x ≠ y) (hq : p ++ [x] <+: q)
    (hr : p ++ [y] <+: r) : ¬ q <+: r := by
  intro h
  have hlen : (p ++ [x]).length = (p ++ [y]).length := by simp
  have heq := (List.prefix_of_prefix_length_le (hq.trans h) hr hlen.le).eq_of_length hlen
  exact hxy (by simpa using heq)

/-- The two halves of a split together. -/
theorem CodesUnder.append {p : BitString} {as bs : List (Byte × BitString)} (ha : CodesUnder (p ++ [false]) as)
    (hb : CodesUnder (p ++ [true]) bs) : CodesUnder p (as ++ bs) := by
  have hna := ha.nonempty
  have hnb := hb.nonempty
  refine ⟨by rw [List.length_append]; omega, fun e he => ?under, fun e he => ?short, fun e he f hf hef => ?free⟩
  case under =>
    obtain he | he := List.mem_append.mp he
    · exact (List.prefix_append p _).trans (ha.under e he)
    · exact (List.prefix_append p _).trans (hb.under e he)
  case short =>
    rw [List.length_append]
    obtain he | he := List.mem_append.mp he
    · have hshort := ha.short e he
      rw [List.length_append, List.length_singleton] at hshort
      omega
    · have hshort := hb.short e he
      rw [List.length_append, List.length_singleton] at hshort
      omega
  case free =>
    obtain he | he := List.mem_append.mp he <;> obtain hf | hf := List.mem_append.mp hf
    · exact ha.free e he f hf hef
    · exact not_prefix_of_split (by decide) (ha.under e he) (hb.under f hf)
    · exact not_prefix_of_split (by decide) (hb.under e he) (ha.under f hf)
    · exact hb.free e he f hf hef

theorem length_le_of_nodup_bytes {l : List Byte} (h : l.Nodup) : l.length ≤ 256 := by
  have hsub : l.map BitVec.toNat ⊆ List.range 256 := fun a ha => by
    obtain ⟨c, -, rfl⟩ := List.mem_map.mp ha
    exact List.mem_range.mpr c.isLt
  simpa using (List.subperm_of_subset (h.map fun _ _ => BitVec.eq_of_toNat_eq) hsub).length_le

/-- Of two or more codes of distinct symbols each has another beside it. -/
theorem exists_other_symbol {pairs : List (Byte × BitString)} (hn : (pairs.map Prod.fst).Nodup)
    (htwo : 2 ≤ pairs.length) (e : Byte × BitString) : ∃ f ∈ pairs, e.1 ≠ f.1 := by
  match pairs, htwo with
  | a :: b :: l, _ =>
    have hab : a.1 ≠ b.1 := fun heq => by simp [heq] at hn
    by_cases hea : e.1 = a.1
    · exact ⟨b, by simp, hea ▸ hab⟩
    · exact ⟨a, by simp, hea⟩

/-- Two or more codes of distinct symbols under the empty stem are a `PrefixCode`: with at most 256 symbols no code has
more than 255 bits, and a code of no bits would begin the others. -/
theorem CodesUnder.prefixCode {pairs : List (Byte × BitString)} (h : CodesUnder [] pairs)
    (hn : (pairs.map Prod.fst).Nodup) (htwo : 2 ≤ pairs.length) : PrefixCode pairs := by
  have hsyms : pairs.length ≤ 256 := by simpa using length_le_of_nodup_bytes hn
  refine ⟨hn, fun e he => ⟨?_, ?_⟩, h.free⟩
  · obtain ⟨f, hf, hef⟩ := exists_other_symbol hn htwo e
    refine List.length_pos_iff.mpr fun hempty => h.free e he f hf hef ?_
    rw [hempty]
    exact List.nil_prefix
  · have hshort := h.short e he
    rw [List.length_nil] at hshort
    omega

end Sys2Proof.Machine
end

section
/-! PROOFS for 10_state.md, the code builders: the Shannon-Fano split (43_shannon_fano R214) and the tree that HUFF_BUILD
leaves (42_huffman R177) give codes of which none begins another, and the tree meets its part of the invariant. -/

namespace Sys2Proof.Machine

/-! ## Shannon-Fano -/

/-- The scan keeps the best index so far or finds a later one inside the list. -/
theorem splitScan_bounds (total bestK bestD i sum : Nat) (cs : List Nat) (h : bestK < i) :
    bestK ≤ splitScan total bestK bestD i sum cs ∧ splitScan total bestK bestD i sum cs < i + cs.length := by
  induction cs generalizing bestK bestD i sum with
  | nil => exact ⟨le_rfl, h⟩
  | cons c cs ih =>
    rw [splitScan, List.length_cons]
    split
    · have := ih i (splitDiff total (sum + c)) (i + 1) (sum + c) (Nat.lt_succ_self i)
      omega
    · omega

/-- 43_shannon_fano R213: the split leaves entries on both sides. -/
theorem splitPoint_bounds {counts : List Nat} (h : 2 ≤ counts.length) :
    1 ≤ splitPoint counts ∧ splitPoint counts < counts.length := by
  have hscan := splitScan_bounds counts.sum 1 (splitDiff counts.sum (counts.headD 0)) 2 (counts.headD 0)
    counts.tail.dropLast (by decide)
  rw [List.length_dropLast, List.length_tail] at hscan
  exact ⟨hscan.1, Nat.lt_of_lt_of_eq hscan.2 (by omega)⟩

/-- 43_shannon_fano R214: the codes of a ranked list, all below the stem, one for each entry in order. -/
theorem buildCodes_under {fuel : Nat} {es : List RankEntry} (p : BitString) (hne : es ≠ []) (hfuel : es.length ≤ fuel) :
    CodesUnder p (buildCodes fuel es p) ∧ (buildCodes fuel es p).map Prod.fst = es.map RankEntry.sym := by
  induction fuel generalizing es p with
  | zero => exact absurd (List.length_eq_zero_iff.mp (Nat.le_zero.mp hfuel)) hne
  | succ fuel ih =>
    match es with
    | [e] => exact ⟨codesUnder_single p e.sym, rfl⟩
    | e :: f :: l =>
      rw [buildCodes]
      generalize hes : e :: f :: l = es at hfuel
      obtain ⟨hpos, hlt⟩ := splitPoint_bounds (counts := es.map RankEntry.count) (by simp [← hes])
      generalize splitPoint (es.map RankEntry.count) = k at hpos hlt
      rw [List.length_map] at hlt
      obtain ⟨hleft, hleftSyms⟩ := ih (es := es.take k) (p ++ [false])
        (List.ne_nil_of_length_pos (by rw [List.length_take]; omega)) (by rw [List.length_take]; omega)
      obtain ⟨hright, hrightSyms⟩ := ih (es := es.drop k) (p ++ [true])
        (List.ne_nil_of_length_pos (by rw [List.length_drop]; omega)) (by rw [List.length_drop]; omega)
      refine ⟨hleft.append hright, ?_⟩
      rw [List.map_append, hleftSyms, hrightSyms, ← List.map_append, List.take_append_drop]

/-- 43_shannon_fano R215, R216: the codes of a ranked list with distinct symbols are a `PrefixCode`. -/
theorem prefixCode_rankCodes {es : List RankEntry} (hn : (es.map RankEntry.sym).Nodup) : PrefixCode (rankCodes es) := by
  match es with
  | [] => exact prefixCode_nil
  | [e] => exact prefixCode_single e.sym
  | e :: f :: l =>
    obtain ⟨hunder, hsyms⟩ := buildCodes_under (fuel := (e :: f :: l).length) [] (by simp) le_rfl
    refine hunder.prefixCode (hsyms ▸ hn) ?_
    rw [← List.length_map (f := Prod.fst), hsyms]
    simp

/-! ## Walking a tree arena -/

/-- The arena's links (42_huffman R171, R177): children have smaller indices, and an internal node's weight is their
sum. -/
structure ArenaOk (nodes : List Node) : Prop where
  children : ∀ i w l r : Nat, nodes[i]? = some (Node.internal w l r) → l < i ∧ r < i
  weights : ∀ i w l r : Nat, nodes[i]? = some (Node.internal w l r) →
    ∃ a b, nodes[l]? = some a ∧ nodes[r]? = some b ∧ w = a.weight + b.weight

theorem TreeOk.arenaOk {t : TreeArena} (h : TreeOk t) : ArenaOk t.nodes := ⟨h.children, h.weights⟩

/-- The children of an internal node are nodes of the arena. -/
theorem ArenaOk.child_lt {nodes : List Node} (h : ArenaOk nodes) {i w l r : Nat}
    (hi : nodes[i]? = some (Node.internal w l r)) : l < nodes.length ∧ r < nodes.length := by
  obtain ⟨a, b, hl, hr, -⟩ := h.weights i w l r hi
  exact ⟨(List.getElem?_eq_some_iff.mp hl).1, (List.getElem?_eq_some_iff.mp hr).1⟩

theorem leafPaths_leaf {nodes : List Node} {fuel i w : Nat} {c : Byte} (hi : nodes[i]? = some (Node.leaf c w))
    (p : BitString) : leafPaths nodes (fuel + 1) i p = [(c, p)] := by
  simp [leafPaths, hi]

theorem leafPaths_internal {nodes : List Node} {fuel i w l r : Nat} (hi : nodes[i]? = some (Node.internal w l r))
    (p : BitString) : leafPaths nodes (fuel + 1) i p =
      leafPaths nodes fuel l (p ++ [false]) ++ leafPaths nodes fuel r (p ++ [true]) := by
  simp [leafPaths, hi]

/-- 42_huffman R180, R183: the paths to the leaves below a node, all below the path to the node. -/
theorem leafPaths_under {nodes : List Node} (h : ArenaOk nodes) {fuel i : Nat} (p : BitString)
    (hi : i < nodes.length) (hfuel : i < fuel) : CodesUnder p (leafPaths nodes fuel i p) := by
  induction fuel generalizing i p with
  | zero => omega
  | succ fuel ih =>
    have hnode := List.getElem?_eq_getElem hi
    cases hval : nodes[i] with
    | leaf c w =>
      rw [leafPaths_leaf (hval ▸ hnode)]
      exact codesUnder_single p c
    | internal w l r =>
      rw [hval] at hnode
      obtain ⟨hli, hri⟩ := h.children i w l r hnode
      obtain ⟨hl, hr⟩ := h.child_lt hnode
      rw [leafPaths_internal hnode]
      exact (ih _ hl (by omega)).append (ih _ hr (by omega))

/-- 42_huffman R180 to R182: the codes of a tree of the invariant are a `PrefixCode`. -/
theorem prefixCode_treeCodes {t : TreeArena} (h : TreeOk t) : PrefixCode (treeCodes t) := by
  have hleaves := h.leaves
  unfold treeCodes
  unfold treeSymbols at hleaves
  cases hroot : t.root with
  | none => exact prefixCode_nil
  | some r =>
    rw [hroot] at hleaves
    cases hnode : t.nodes[r]? with
    | none => simpa [hnode] using prefixCode_nil
    | some node =>
      cases node with
      | leaf c w => simpa [hnode] using prefixCode_single c
      | internal w l k =>
        have hr := (List.getElem?_eq_some_iff.mp hnode).1
        obtain ⟨hl, hk⟩ := h.arenaOk.child_lt hnode
        obtain ⟨hlr, hkr⟩ := h.children r w l k hnode
        obtain ⟨n, hn⟩ : ∃ n, t.nodes.length = n + 1 := ⟨t.nodes.length - 1, by omega⟩
        have htwo : 2 ≤ (leafPaths t.nodes t.nodes.length r []).length := by
          have hleft := (leafPaths_under h.arenaOk (fuel := n) ([] ++ [false]) hl (by omega)).nonempty
          have hright := (leafPaths_under h.arenaOk (fuel := n) ([] ++ [true]) hk (by omega)).nonempty
          rw [hn, leafPaths_internal hnode, List.length_append]
          omega
        simpa [hnode] using (leafPaths_under h.arenaOk [] hr hr).prefixCode hleaves htwo

/-! ## The symbols below a node -/

/-- The symbols of the leaves below a node, left to right; below the root they are `treeSymbols`. -/
def symbolsUnder (nodes : List Node) (i : Nat) : List Byte := (leafPaths nodes nodes.length i []).map Prod.fst

theorem treeSymbols_some (nodes : List Node) (n : Word) (r : Nat) :
    treeSymbols ⟨nodes, n, some r⟩ = symbolsUnder nodes r := rfl

/-- The symbols below a node depend on neither the path to it, nor the fuel that is left, nor later nodes. -/
theorem leafPaths_symbols_congr {nodes nodes' : List Node} (h : ArenaOk nodes) {i fuel fuel' : Nat} (p p' : BitString)
    (hagree : ∀ j ≤ i, nodes'[j]? = nodes[j]?) (hfuel : i < fuel) (hfuel' : i < fuel') :
    (leafPaths nodes' fuel' i p').map Prod.fst = (leafPaths nodes fuel i p).map Prod.fst := by
  induction i using Nat.strong_induction_on generalizing fuel fuel' p p' with
  | _ i ih =>
    obtain ⟨fuel, rfl⟩ : ∃ n, fuel = n + 1 := ⟨fuel - 1, by omega⟩
    obtain ⟨fuel', rfl⟩ : ∃ n, fuel' = n + 1 := ⟨fuel' - 1, by omega⟩
    cases hnode : nodes[i]? with
    | none => simp [leafPaths, hagree i le_rfl, hnode]
    | some node =>
      have hnode' := (hagree i le_rfl).trans hnode
      cases node with
      | leaf c w => simp [leafPaths_leaf hnode, leafPaths_leaf hnode']
      | internal w l r =>
        obtain ⟨hl, hr⟩ := h.children i w l r hnode
        rw [leafPaths_internal hnode, leafPaths_internal hnode', List.map_append, List.map_append,
          ih l hl (p ++ [false]) _ (fun j hj => hagree j (by omega)) (fuel := fuel) (by omega) (by omega),
          ih r hr (p ++ [true]) _ (fun j hj => hagree j (by omega)) (fuel := fuel) (by omega) (by omega)]

theorem symbolsUnder_leaf {nodes : List Node} {i w : Nat} {c : Byte} (hi : nodes[i]? = some (Node.leaf c w)) :
    symbolsUnder nodes i = [c] := by
  have hlt := (List.getElem?_eq_some_iff.mp hi).1
  obtain ⟨n, hn⟩ : ∃ n, nodes.length = n + 1 := ⟨nodes.length - 1, by omega⟩
  rw [symbolsUnder, hn, leafPaths_leaf hi]
  rfl

theorem symbolsUnder_internal {nodes : List Node} (h : ArenaOk nodes) {i w l r : Nat}
    (hi : nodes[i]? = some (Node.internal w l r)) :
    symbolsUnder nodes i = symbolsUnder nodes l ++ symbolsUnder nodes r := by
  have hlt := (List.getElem?_eq_some_iff.mp hi).1
  obtain ⟨hl, hr⟩ := h.children i w l r hi
  obtain ⟨n, hn⟩ : ∃ n, nodes.length = n + 1 := ⟨nodes.length - 1, by omega⟩
  have hleft := leafPaths_symbols_congr h (i := l) (fuel := nodes.length) (fuel' := n) [] ([] ++ [false])
    (fun _ _ => rfl) (by omega) (by omega)
  have hright := leafPaths_symbols_congr h (i := r) (fuel := nodes.length) (fuel' := n) [] ([] ++ [true])
    (fun _ _ => rfl) (by omega) (by omega)
  rw [symbolsUnder, symbolsUnder, symbolsUnder, ← hleft, ← hright, ← List.map_append, ← leafPaths_internal hi, ← hn]

/-- A node added at the end changes nothing below the earlier nodes. -/
theorem symbolsUnder_append {nodes : List Node} (h : ArenaOk nodes) (x : Node) {i : Nat} (hi : i < nodes.length) :
    symbolsUnder (nodes ++ [x]) i = symbolsUnder nodes i :=
  leafPaths_symbols_congr h _ _ (fun j hj => List.getElem?_append_left (by omega)) hi
    (by rw [List.length_append]; omega)

/-- A parent added at the end (42_huffman R175) keeps the arena's links. -/
theorem ArenaOk.append_parent {nodes : List Node} (h : ArenaOk nodes) {l r : Nat} {a b : Node}
    (hl : nodes[l]? = some a) (hr : nodes[r]? = some b) :
    ArenaOk (nodes ++ [.internal (a.weight + b.weight) l r]) := by
  have hl' := (List.getElem?_eq_some_iff.mp hl).1
  have hr' := (List.getElem?_eq_some_iff.mp hr).1
  have hkeep : ∀ (j : Nat) (nd : Node), nodes[j]? = some nd →
      (nodes ++ [Node.internal (a.weight + b.weight) l r])[j]? = some nd := fun j nd hj => by
    rwa [List.getElem?_append_left (List.getElem?_eq_some_iff.mp hj).1]
  have hold : ∀ i w l' r' : Nat,
      (nodes ++ [Node.internal (a.weight + b.weight) l r])[i]? = some (Node.internal w l' r') →
      nodes[i]? = some (Node.internal w l' r') ∨ i = nodes.length ∧ w = a.weight + b.weight ∧ l' = l ∧ r' = r := by
    intro i w l' r' hi
    obtain hlt | rfl | hgt := Nat.lt_trichotomy i nodes.length
    · exact .inl (by rwa [List.getElem?_append_left hlt] at hi)
    · simp only [List.getElem?_concat_length, Option.some.injEq, Node.internal.injEq] at hi
      exact .inr ⟨rfl, hi.1.symm, hi.2.1.symm, hi.2.2.symm⟩
    · rw [List.getElem?_eq_none (by simp; omega)] at hi
      cases hi
  refine ⟨fun i w l' r' hi => ?_, fun i w l' r' hi => ?_⟩
  · obtain hi | ⟨rfl, -, rfl, rfl⟩ := hold i w l' r' hi
    · exact h.children i w l' r' hi
    · exact ⟨hl', hr'⟩
  · obtain hi | ⟨rfl, rfl, rfl, rfl⟩ := hold i w l' r' hi
    · obtain ⟨c, d, hc, hd, hw⟩ := h.weights i w l' r' hi
      exact ⟨c, d, hkeep _ _ hc, hkeep _ _ hd, hw⟩
    · exact ⟨a, b, hkeep _ _ hl, hkeep _ _ hr, rfl⟩

/-! ## The merge loop -/

/-- What every round of the merge loop keeps (42_huffman R175), for n leaves: the keys are the weights of the queued
nodes, the last node is queued, nodes and queue together count 2n, and no symbol is below two queued nodes. -/
structure Forest (n : Nat) (nodes : List Node) (q : List QueueKey) : Prop where
  arena : ArenaOk nodes
  keys : ∀ k ∈ q, ∃ nd, nodes[k.2]? = some nd ∧ nd.weight = k.1
  count : nodes.length + q.length = 2 * n
  last : ∃ k ∈ q, k.2 + 1 = nodes.length
  distinct : (q.flatMap fun k => symbolsUnder nodes k.2).Nodup

/-- One round: the two least nodes get a parent. -/
theorem Forest.merge {n : Nat} {nodes : List Node} {a b : QueueKey} {q : List QueueKey}
    (h : Forest n nodes (a :: b :: q)) :
    Forest n (nodes ++ [.internal (a.1 + b.1) a.2 b.2]) (insertSorted keyBefore (a.1 + b.1, nodes.length) q) := by
  obtain ⟨x, hx, hxw⟩ := h.keys a (by simp)
  obtain ⟨y, hy, hyw⟩ := h.keys b (by simp)
  have hperm := insertSorted_perm keyBefore (a.1 + b.1, nodes.length) q
  have hlt : ∀ k ∈ a :: b :: q, k.2 < nodes.length := fun k hk => by
    obtain ⟨nd, hnd, -⟩ := h.keys k hk
    exact (List.getElem?_eq_some_iff.mp hnd).1
  have harena : ArenaOk (nodes ++ [.internal (a.1 + b.1) a.2 b.2]) := hxw ▸ hyw ▸ h.arena.append_parent hx hy
  refine ⟨harena, fun k hk => ?keys, ?count, ?last, ?distinct⟩
  case keys =>
    obtain rfl | hk := List.mem_cons.mp (hperm.mem_iff.mp hk)
    · exact ⟨_, List.getElem?_concat_length, rfl⟩
    · obtain ⟨nd, hnd, hw⟩ := h.keys k (by simp [hk])
      exact ⟨nd, by rw [List.getElem?_append_left (hlt k (by simp [hk])), hnd], hw⟩
  case count =>
    have hcount := h.count
    rw [List.length_append, hperm.length_eq]
    simp only [List.length_cons, List.length_nil] at hcount ⊢
    omega
  case last => exact ⟨_, hperm.mem_iff.mpr List.mem_cons_self, by simp⟩
  case distinct =>
    have hold : ∀ k ∈ a :: b :: q,
        symbolsUnder (nodes ++ [.internal (a.1 + b.1) a.2 b.2]) k.2 = symbolsUnder nodes k.2 :=
      fun k hk => symbolsUnder_append h.arena _ (hlt k hk)
    have hq : (q.flatMap fun k => symbolsUnder (nodes ++ [.internal (a.1 + b.1) a.2 b.2]) k.2) =
        q.flatMap fun k => symbolsUnder nodes k.2 :=
      List.flatMap_congr fun k hk => hold k (by simp [hk])
    have hnew := symbolsUnder_internal harena List.getElem?_concat_length
    rw [hold a (by simp), hold b (by simp)] at hnew
    refine (hperm.flatMap_right _).nodup_iff.mpr ?_
    rw [List.flatMap_cons, hnew, hq, List.append_assoc]
    exact h.distinct

/-- 42_huffman R176: the loop ends with one node in the queue. -/
theorem mergeLoop_forest {n fuel : Nat} {nodes : List Node} {q : List QueueKey} (h : Forest n nodes q)
    (hfuel : q.length ≤ fuel + 1) :
    ∃ k, (mergeLoop fuel nodes q).2 = [k] ∧ Forest n (mergeLoop fuel nodes q).1 [k] := by
  induction fuel generalizing nodes q with
  | zero =>
    obtain ⟨k, hk, -⟩ := h.last
    obtain ⟨k, rfl⟩ := List.length_eq_one_iff.mp (Nat.le_antisymm hfuel (List.length_pos_of_mem hk))
    exact ⟨k, rfl, h⟩
  | succ fuel ih =>
    match q with
    | [] =>
      obtain ⟨k, hk, -⟩ := h.last
      cases hk
    | [k] => exact ⟨k, rfl, h⟩
    | a :: b :: q =>
      refine ih h.merge ?_
      rw [(insertSorted_perm _ _ _).length_eq]
      simpa using hfuel

theorem queueFrom_perm (i : Nat) (ns : List Node) :
    (queueFrom i ns).Perm ((ns.zipIdx i).map fun e => (e.1.weight, e.2)) := by
  induction ns generalizing i with
  | nil => exact .refl _
  | cons n ns ih => exact (insertSorted_perm _ _ _).trans ((ih (i + 1)).cons _)

/-- Below the leaves are their own symbols. -/
theorem leaves_symbolsUnder (t : Memory FreqEntry) :
    ((leavesOf t).zipIdx.flatMap fun e => symbolsUnder (leavesOf t) e.2) =
      (sortBy firstBefore t).map fun e => BitVec.ofNat 8 e.1 := by
  have hone : ∀ e ∈ (sortBy firstBefore t).zipIdx,
      symbolsUnder (leavesOf t) e.2 = [BitVec.ofNat 8 e.1.1] := fun e he => by
    refine symbolsUnder_leaf (w := e.1.2.count) ?_
    rw [leavesOf, List.getElem?_map, List.mem_zipIdx_iff_getElem?.mp he]
    rfl
  calc ((leavesOf t).zipIdx.flatMap fun e => symbolsUnder (leavesOf t) e.2)
      = (sortBy firstBefore t).zipIdx.flatMap fun e => symbolsUnder (leavesOf t) e.2 := by
        conv_lhs => enter [2]; rw [leavesOf, List.zipIdx_map]
        rw [List.flatMap_map]
        rfl
    _ = (sortBy firstBefore t).zipIdx.flatMap fun e => [BitVec.ofNat 8 e.1.1] := List.flatMap_congr hone
    _ = (sortBy firstBefore t).map fun e => BitVec.ofNat 8 e.1 := by
        rw [← List.map_eq_flatMap]
        conv_rhs => rw [← List.zipIdx_map_fst 0 (sortBy firstBefore t), List.map_map]
        rfl

/-- 42_huffman R172, R173: the leaves of a table with distinct symbols, all in the queue. -/
theorem forest_leaves {t : Memory FreqEntry} (hwf : Memory.wf t) (hb : Memory.below t 256) (hne : t ≠ []) :
    Forest t.length (leavesOf t) (queueFrom 0 (leavesOf t)) := by
  have hperm := queueFrom_perm 0 (leavesOf t)
  have hlen : (leavesOf t).length = t.length := by simp [leavesOf]
  have hleaf : ∀ i w l r : Nat, (leavesOf t)[i]? ≠ some (Node.internal w l r) := fun i w l r => by
    simp [leavesOf]
  refine ⟨⟨fun i w l r hi => absurd hi (hleaf i w l r), fun i w l r hi => absurd hi (hleaf i w l r)⟩,
    fun k hk => ?keys, ?count, ?last, ?distinct⟩
  case keys =>
    obtain ⟨e, he, rfl⟩ := List.mem_map.mp (hperm.mem_iff.mp hk)
    exact ⟨e.1, List.mem_zipIdx_iff_getElem?.mp he, rfl⟩
  case count =>
    rw [hperm.length_eq, List.length_map, List.length_zipIdx, hlen]
    omega
  case last =>
    have hpos : 0 < (leavesOf t).length := hlen ▸ List.length_pos_iff.mpr hne
    have hlast : (leavesOf t).length - 1 < (leavesOf t).length := by omega
    refine ⟨_, hperm.mem_iff.mpr (List.mem_map.mpr
      ⟨((leavesOf t)[(leavesOf t).length - 1], (leavesOf t).length - 1), ?_, rfl⟩), ?_⟩
    · exact List.mem_zipIdx_iff_getElem?.mpr (List.getElem?_eq_getElem hlast)
    · show (leavesOf t).length - 1 + 1 = _
      omega
  case distinct =>
    refine (hperm.flatMap_right _).nodup_iff.mpr ?_
    have hsyms : (((leavesOf t).zipIdx.map fun e => (e.1.weight, e.2)).flatMap
        fun k => symbolsUnder (leavesOf t) k.2) =
        (sortBy firstBefore t).map fun e => BitVec.ofNat 8 e.1 := by
      rw [List.flatMap_map, leaves_symbolsUnder]
    rw [hsyms]
    exact ((sortBy_perm firstBefore t).map _).nodup_iff.mpr (Memory.symbols_nodup hwf hb)

/-! ## The tree -/

theorem treeOk_nil : TreeOk ⟨[], 0, none⟩ :=
  ⟨rfl, by simp, rfl, by simp, by simp, List.nodup_nil⟩

/-- The tree of a merge loop that has ended (42_huffman R177). -/
theorem Forest.treeOk {n : Nat} {nodes : List Node} {k : QueueKey} (h : Forest n nodes [k]) (hn : n ≤ 256) :
    TreeOk ⟨nodes, BitVec.ofNat 32 nodes.length, some k.2⟩ := by
  have hcount := h.count
  have hlast : k.2 + 1 = nodes.length := by simpa using h.last
  rw [List.length_singleton] at hcount
  refine ⟨ofNat_toNat_of_lt (by omega), by show nodes.length ≤ 511; omega, ?_, h.arena.children, h.arena.weights, ?_⟩
  · have hne : nodes ≠ [] := List.ne_nil_of_length_pos (by omega)
    rw [if_neg hne, ← hlast, Nat.add_sub_cancel]
  · rw [treeSymbols_some]
    simpa using h.distinct

/-- What HUFF_BUILD leaves meets the arena's part of the invariant. -/
theorem treeOk_buildTree {f : FreqTable} (h : FreqOk f) :
    TreeOk ⟨(buildTree f.table).1, BitVec.ofNat 32 (buildTree f.table).1.length, (buildTree f.table).2⟩ := by
  by_cases hne : f.table = []
  · rw [hne]
    exact treeOk_nil
  · have hq : (queueFrom 0 (leavesOf f.table)).length ≤ (leavesOf f.table).length + 1 := by
      rw [(queueFrom_perm _ _).length_eq, List.length_map, List.length_zipIdx]
      omega
    obtain ⟨k, hk, hforest⟩ := mergeLoop_forest (forest_leaves h.canon h.symbols hne) hq
    have hroot : (buildTree f.table).2 = some k.2 := by simp [buildTree, hk]
    rw [hroot]
    exact hforest.treeOk (Memory.length_le_of_below h.canon h.symbols)

end Sys2Proof.Machine
end

section
/-! PROOFS for 10_state.md, the commands' results: what each computation that succeeds hands to its rule's write, within
the capacities (10_state R43 to R45, R51), and which errors DESERIALIZE and LZW_DECOMPRESS raise. -/

namespace Sys2Proof.Machine

/-! ## The bit packer and the encoder -/

theorem packRun_ok_length {s : State} {r : List Byte × Nat} (h : packRun s = .ok r) :
    r.1.length ≤ s.caps.payloadCap := by
  rw [packRun_eq] at h
  split at h
  · split at h
    · rename_i hcap
      obtain ⟨b, -, ⟨⟩⟩ := (run_bind_ok _ _ _).mp h
      rwa [packBytes_length]
    · cases h
  · cases h

theorem unpackRun_ok_length {s : State} {b : BitString} (h : unpackRun s = .ok b) : b.length ≤ s.caps.bitsCap := by
  rw [unpackRun_eq] at h
  split at h
  · split at h
    · cases h
    · split at h
      · rename_i hcap
        obtain ⟨x, -, ⟨⟩⟩ := (run_bind_ok _ _ _).mp h
        exact (List.length_take_le _ _).trans hcap
      · cases h
  · cases h

theorem encodeRun_ok_length {s : State} {b : BitString} (h : encodeRun s = .ok b) : b.length ≤ s.caps.bitsCap := by
  rw [encodeRun_eq] at h
  split at h
  · obtain ⟨x, -, -, -, rfl, hcap⟩ := encodeLoop_ok.mp h
    by_cases hx : x = []
    · simp [hx]
    · simpa using hcap hx
  · cases h

/-! ## The LZW dictionary -/

/-- 10_state R51: each entry's parent is below the entry's own code. -/
def ParentsOk (d : List DictEntry) : Prop := ∀ i e, d[i]? = some e → e.parent < 256 + i

theorem parentsOk_nil : ParentsOk [] := by simp [ParentsOk]

/-- An insertion whose parent is known keeps the order of parents (44_lzw R230). -/
theorem ParentsOk.append {d : List DictEntry} (h : ParentsOk d) {w : Nat} (hw : w < nextFree d) (c : Byte) :
    ParentsOk (d ++ [⟨w, c⟩]) := by
  intro i e hi
  obtain hlt | rfl | hgt := Nat.lt_trichotomy i d.length
  · exact h i e (by rwa [List.getElem?_append_left hlt] at hi)
  · rw [List.getElem?_concat_length] at hi
    cases hi
    exact hw
  · rw [List.getElem?_eq_none (by simp; omega)] at hi
    cases hi

theorem nextFree_append (d : List DictEntry) (e : DictEntry) : nextFree (d ++ [e]) = nextFree d + 1 := by
  simp [nextFree, Nat.add_assoc]

theorem byte_lt_nextFree (c : Byte) (d : List DictEntry) : c.toNat < nextFree d :=
  Nat.lt_of_lt_of_le c.isLt (Nat.le_add_right 256 _)

theorem findEntry_lt {d : List DictEntry} {w k : Nat} {c : Byte} (h : findEntry d w c = some k) : k < nextFree d := by
  obtain ⟨i, hi, rfl⟩ := Option.map_eq_some_iff.mp h
  exact Nat.add_lt_add_left (List.findIdx?_eq_some_iff_findIdx_eq.mp hi).1 256

/-- DICT and NEXT_CODE of a dictionary meet their part of the invariant. -/
theorem ParentsOk.dictOk {d : List DictEntry} (h : ParentsOk d) (hlen : d.length ≤ 2 ^ 30) : DictOk (dictionary d) :=
  ⟨ofNat_toNat_of_lt (by unfold nextFree; omega), h⟩

/-- What a successful scan of LZW_COMPRESS leaves (44_lzw R233): a dictionary with ordered parents and no more entries
than codes, and codes that fit. -/
theorem compressLoop_ok {s : State} {n i m : Nat} {d : List DictEntry} {w : Option Nat} {r : List Nat × List DictEntry}
    (h : compressLoop s n i d w m = .ok r) (hp : ParentsOk d) (hw : ∀ k ∈ w, k < nextFree d)
    (hm : m ≤ s.caps.codesCap) :
    ParentsOk r.2 ∧ m + r.1.length ≤ s.caps.codesCap ∧ r.2.length ≤ d.length + r.1.length := by
  induction n generalizing i d w m r with
  | zero =>
    cases w with
    | none =>
      cases h
      exact ⟨hp, hm, le_rfl⟩
    | some w =>
      simp only [compressLoop, run_bind_ok, check_ok, run_pure, Except.ok.injEq, decide_eq_true_eq] at h
      obtain ⟨-, hroom, rfl⟩ := h
      exact ⟨hp, by rw [List.length_singleton]; omega, Nat.le_add_right _ _⟩
  | succ n ih =>
    cases w with
    | none =>
      obtain ⟨c, -, h⟩ := (run_bind_ok _ _ _).mp h
      exact ih h hp (by simpa using byte_lt_nextFree c d) hm
    | some w =>
      obtain ⟨c, -, h⟩ := (run_bind_ok _ _ _).mp h
      split at h
      · rename_i k hk
        exact ih h hp (by simpa using findEntry_lt hk) hm
      · simp only [run_bind_ok, check_ok, run_pure, Except.ok.injEq, decide_eq_true_eq] at h
        obtain ⟨-, hroom, -, -, q, hq, rfl⟩ := h
        obtain ⟨hparents, hcodes, hentries⟩ := ih hq (hp.append (hw w rfl) c)
          (by simpa using byte_lt_nextFree c _) (by omega)
        rw [List.length_append, List.length_singleton] at hentries
        refine ⟨hparents, ?_, ?_⟩ <;> simp only [List.length_cons] <;> omega

theorem decompressLoop_parents {s : State} {n j o w : Nat} {d : List DictEntry} {r : List Byte × List DictEntry}
    (h : decompressLoop s n j d w o = .ok r) (hp : ParentsOk d) (hw : w < nextFree d) : ParentsOk r.2 := by
  induction n generalizing j d w o r with
  | zero =>
    cases h
    exact hp
  | succ n ih =>
    simp only [decompressLoop, run_bind_ok, check_ok, run_pure, Except.ok.injEq, decide_eq_true_eq] at h
    obtain ⟨k, -, -, hk, -, -, -, -, q, hq, rfl⟩ := h
    show ParentsOk q.2
    refine ih hq (hp.append hw _) ?_
    rw [nextFree_append]
    omega

/-- What a successful LZW_DECOMPRESS leaves (44_lzw R241): a text that fits and a dictionary with ordered parents and
fewer entries than codes. -/
theorem decompressRun_ok {s : State} {m : Nat} {r : List Byte × List DictEntry} (h : decompressRun s m = .ok r) :
    r.1.length ≤ s.caps.outCap ∧ ParentsOk r.2 ∧ r.2.length ≤ m := by
  cases m with
  | zero =>
    cases h
    exact ⟨Nat.zero_le _, parentsOk_nil, le_rfl⟩
  | succ n =>
    simp only [decompressRun, run_bind_ok, check_ok, run_pure, Except.ok.injEq, decide_eq_true_eq] at h
    obtain ⟨k, -, -, hseed, -, hfirst, q, hq, rfl⟩ := h
    obtain ⟨htext, hentries, -⟩ := decompressLoop_ok_bounds hq hfirst (Nat.zero_le _)
    have hparents := decompressLoop_parents hq parentsOk_nil (Nat.lt_add_right _ hseed)
    refine ⟨by rwa [List.length_append], hparents, ?_⟩
    rw [hentries, List.length_nil]
    omega

/-! ## Which errors a computation can raise -/

/-- Every error the computation raises is one of `cs`; it may also fault. -/
def raisesOnly {α : Type} (cs : List ErrCode) (r : Run α) : Prop :=
  ∀ code info, r = .error (.error code info) → code ∈ cs

section
variable {α β : Type} {cs : List ErrCode}

@[simp] theorem raisesOnly_ok (a : α) : raisesOnly cs (.ok a : Run α) := by
  rintro code info ⟨⟩

@[simp] theorem raisesOnly_bind (x : Run α) (f : α → Run β) :
    raisesOnly cs (x >>= f) ↔ raisesOnly cs x ∧ ∀ a, x = .ok a → raisesOnly cs (f a) := by
  refine ⟨fun h => ⟨fun code info hx => ?_, fun a ha code info hf => ?_⟩, fun ⟨hx, hf⟩ code info h => ?_⟩
  · exact h code info ((run_bind_error _ _ _).mpr (.inl hx))
  · exact h code info ((run_bind_error _ _ _).mpr (.inr ⟨a, ha, hf⟩))
  · obtain hxe | ⟨a, ha, hfe⟩ := (run_bind_error _ _ _).mp h
    · exact hx code info hxe
    · exact hf a ha code info hfe

@[simp] theorem raisesOnly_check (ok : Bool) (code : ErrCode) (info : Nat) :
    raisesOnly cs (check ok code info) ↔ ok = true ∨ code ∈ cs := by
  cases ok <;> simp [raisesOnly]

@[simp] theorem raisesOnly_readIn (s : State) (i : Nat) : raisesOnly cs (readIn s i) := fun _ _ h => by
  cases readIn_error h

@[simp] theorem raisesOnly_readInRange (s : State) (a n : Nat) : raisesOnly cs (readInRange s a n) := fun _ _ h => by
  obtain ⟨i, he⟩ := readInRange_error h
  cases he

@[simp] theorem raisesOnly_readCode (s : State) (j : Nat) : raisesOnly cs (readCode s j) := fun _ _ h => by
  cases readCode_error h

end

theorem decompressRun_raises (s : State) (m : Nat) :
    raisesOnly [.corruptData, .capacityExceeded] (decompressRun s m) := by
  cases m with
  | zero => exact raisesOnly_ok _
  | succ n =>
    have hloop : ∀ j d w o, raisesOnly [.corruptData, .capacityExceeded] (decompressLoop s n j d w o) :=
      fun j d w o code info h => by simpa using (decompressLoop_error h).1
    simp [decompressRun, hloop]

/-! ## DESERIALIZE -/

/-- The errors of DESERIALIZE (45_container R271). -/
abbrev parseErrors : List ErrCode := [.formatError, .capacityExceeded]

theorem parseHeader_raises (s : State) : raisesOnly parseErrors (parseHeader s) := by
  simp [parseHeader]

theorem parseCodes_raises (s : State) (a n : Nat) : raisesOnly parseErrors (parseCodes s a n) := by
  induction n generalizing a with
  | zero => exact raisesOnly_ok _
  | succ n ih => simp [parseCodes, ih]

theorem parseCodeList_raises (s : State) (len : Nat) : raisesOnly parseErrors (parseCodeList s len) := by
  simp [parseCodeList, parseCodes_raises]

theorem parseEntries_raises (s : State) (n count pos : Nat) (t : Memory BitString) :
    raisesOnly parseErrors (parseEntries s n count pos t) := by
  induction count generalizing pos t with
  | zero => exact raisesOnly_ok _
  | succ count ih => simp [parseEntries, ih]

theorem parseTable_raises (s : State) (len : Nat) : raisesOnly parseErrors (parseTable s len) := by
  simp [parseTable, parseEntries_raises]

theorem deserializeRun_raises (s : State) : raisesOnly parseErrors (deserializeRun s) := by
  refine (raisesOnly_bind _ _).mpr ⟨parseHeader_raises s, fun h _ => ?_⟩
  split
  · simp [parseCodeList_raises]
  · simp [parseTable_raises]

/-- 45_container R270: the header a successful parse has read. -/
theorem parseHeader_ok {s : State} {hd : Byte × Nat × Nat} (h : parseHeader s = .ok hd) :
    9 ≤ s.inp.len.toNat ∧ hd.1.toNat ≤ 3 := by
  simp only [parseHeader, run_bind_ok, check_ok, run_pure, Except.ok.injEq, decide_eq_true_eq] at h
  obtain ⟨-, -, -, hnine, -, -, -, -, -, -, -, -, -, -, -, -, tag, -, -, htag, -, -, -, -, -, -, -, -, -, -, rfl⟩ := h
  refine ⟨hnine, show tag.toNat ≤ 3 from ?_⟩
  simp only [Bool.or_eq_true, beq_iff_eq] at htag
  obtain (rfl | rfl) | rfl := htag <;> decide

theorem parseCodes_ok_length {s : State} {a n : Nat} {ws : List Word} (h : parseCodes s a n = .ok ws) :
    ws.length = n := by
  induction n generalizing a ws with
  | zero =>
    cases h
    rfl
  | succ n ih =>
    simp only [parseCodes, run_bind_ok, run_pure, Except.ok.injEq] at h
    obtain ⟨-, -, rest, hrest, rfl⟩ := h
    rw [List.length_cons, ih hrest]

theorem parseCodeList_ok_length {s : State} {len : Nat} {ws : List Word} (h : parseCodeList s len = .ok ws) :
    ws.length ≤ s.caps.codesCap := by
  simp only [parseCodeList, run_bind_ok, check_ok, decide_eq_true_eq] at h
  obtain ⟨-, -, -, -, -, -, -, hcap, hws⟩ := h
  rwa [parseCodes_ok_length hws]

/-- R271 check 17: a symbol above the last entry's is above every entry's. -/
theorem lt_of_aboveLast {t : Memory BitString} (ht : Memory.wf t) {sym : Byte} (h : aboveLast t sym = true)
    {c : Nat × BitString} (hc : c ∈ t) : c.1 < sym.toNat := by
  obtain rfl | ⟨init, e, rfl⟩ := List.eq_nil_or_concat t
  · cases hc
  · have he : e.1 < sym.toNat := by simpa [aboveLast] using h
    obtain hc | rfl : c ∈ init ∨ c = e := by simpa using hc
    · have hce : c.1 < e.1 := (List.pairwise_append.mp (List.concat_eq_append ▸ ht)).2.2 c hc e (by simp)
      omega
    · exact he

/-- An entry that passes R271's checks 17, 18 and 21 extends a code table. -/
theorem CodesOk.append {t : Memory BitString} (h : CodesOk t) {sym : Byte} {code : BitString}
    (habove : aboveLast t sym = true) (hlen : 1 ≤ code.length ∧ code.length ≤ 255)
    (hfree : prefixFreeWith t code = true) : CodesOk (t ++ [(sym.toNat, code)]) := by
  have hfree' : ∀ c ∈ t, ¬ c.2 <+: code ∧ ¬ code <+: c.2 := by
    simpa [prefixFreeWith, ← List.isPrefixOf_iff_prefix] using hfree
  refine ⟨?canon, fun c hc => ?symbols, fun c hc => ?lengths, fun a ha b hb hab => ?free⟩
  case canon =>
    exact List.pairwise_append.mpr ⟨h.canon, List.pairwise_singleton _ _, fun c hc d hd => by
      rw [List.mem_singleton.mp hd]
      exact lt_of_aboveLast h.canon habove hc⟩
  case symbols =>
    obtain hc | rfl : c ∈ t ∨ c = (sym.toNat, code) := by simpa using hc
    · exact h.symbols c hc
    · exact sym.isLt
  case lengths =>
    obtain hc | rfl : c ∈ t ∨ c = (sym.toNat, code) := by simpa using hc
    · exact h.lengths c hc
    · exact hlen
  case free =>
    obtain ha | rfl : a ∈ t ∨ a = (sym.toNat, code) := by simpa using ha
    all_goals obtain hb | rfl : b ∈ t ∨ b = (sym.toNat, code) := by simpa using hb
    · exact h.free a ha b hb hab
    · exact (hfree' a ha).1
    · exact (hfree' b hb).2
    · exact absurd rfl hab

/-- The entry loop of R270 leaves a code table. -/
theorem parseEntries_ok {s : State} {n count pos : Nat} {t : Memory BitString} {r : Memory BitString × Nat}
    (h : parseEntries s n count pos t = .ok r) (ht : CodesOk t) : CodesOk r.1 := by
  induction count generalizing pos t with
  | zero =>
    cases h
    exact ht
  | succ count ih =>
    simp only [parseEntries, run_bind_ok, check_ok, decide_eq_true_eq] at h
    obtain ⟨-, -, sym, -, len, -, -, habove, -, hlen, -, -, bytes, hbytes, -, -, -, hfree, h⟩ := h
    have hcode : ((bitsOfBytes bytes).take len.toNat).length = len.toNat := by
      have hroom := le_ceilDiv8 len.toNat
      rw [List.length_take, bitsOfBytes_length, (readRange_ok hbytes).1, Nat.min_eq_left hroom]
    have hpos : len.toNat ≠ 0 := fun hzero => hlen (BitVec.eq_of_toNat_eq hzero)
    have hmax := len.isLt
    exact ih h (ht.append habove (by omega) hfree)

theorem codesOk_nil : CodesOk [] := ⟨.nil, by simp, by simp, by simp [prefixFree]⟩

/-- 45_container R270: the table of a successful parse is a code table and its payload fits. -/
theorem parseTable_ok {s : State} {len : Nat} {r : Memory BitString × List Byte} (h : parseTable s len = .ok r) :
    CodesOk r.1 ∧ r.2.length ≤ s.caps.payloadCap := by
  simp only [parseTable, run_bind_ok, check_ok, run_pure, Except.ok.injEq, decide_eq_true_eq] at h
  obtain ⟨-, -, count, -, -, -, q, hq, -, -, -, -, -, -, -, hcap, body, hbody, rfl⟩ := h
  exact ⟨parseEntries_ok hq codesOk_nil, by rwa [(readRange_ok hbody).1]⟩

/-- What DESERIALIZE stores once every check has passed (45_container R270), within the capacities. -/
theorem deserializeRun_ok {s u : State} (h : deserializeRun s = .ok u) :
    9 ≤ s.inp.len.toNat ∧
    ((∃ ws, ws.length ≤ s.caps.codesCap ∧ u = storeParsedCodes s ws) ∨
     ∃ tag pad t x, tag.toNat ≤ 3 ∧ CodesOk t ∧ x.length ≤ s.caps.payloadCap ∧ u = storeParsedTable s tag pad t x) := by
  obtain ⟨hd, hhd, h⟩ := (run_bind_ok _ _ _).mp h
  obtain ⟨hnine, htag⟩ := parseHeader_ok hhd
  refine ⟨hnine, ?_⟩
  split at h
  · obtain ⟨ws, hws, ⟨⟩⟩ := (run_bind_ok _ _ _).mp h
    exact .inl ⟨ws, parseCodeList_ok_length hws, rfl⟩
  · obtain ⟨r, hr, ⟨⟩⟩ := (run_bind_ok _ _ _).mp h
    obtain ⟨hcodes, hbody⟩ := parseTable_ok hr
    exact .inr ⟨hd.1, hd.2.1, r.1, r.2, htag, hcodes, hbody, rfl⟩

end Sys2Proof.Machine
end

section
/-! PROOFS of 10_state.md R43 to R45 and 60_exceptions R342: a command changes no storage at or above the length it ends
with, and the commands that check before they write leave nothing behind when they fail. -/

namespace Sys2Proof.Machine

/-! ## Storage beyond a length -/

/-- The storage of BITS, PAYLOAD or CODES at and above the length in `t` is that of `s` (10_state R43 to R45); no demand on
the other groups. -/
def Part.keepsBeyond (s t : State) : Part → Prop
  | .bits => ∀ a, ceilDiv8 t.bits.len.toNat ≤ a → Memory.get t.bits.mem a = Memory.get s.bits.mem a
  | .payload => ∀ a, t.payload.len.toNat ≤ a → Memory.get t.payload.mem a = Memory.get s.payload.mem a
  | .codes => ∀ a, t.codes.len.toNat ≤ a → codeAt t a = codeAt s a
  | _ => True

/-- What a word of CODES holds depends on the group CODES and the reset count only. -/
theorem codeAt_congr {s t : State} (h : Part.same s t .codes) (hreset : t.resetCount = s.resetCount) (a : Nat) :
    codeAt t a = codeAt s a := by
  obtain ⟨hcodes, hscrubs⟩ := h
  rw [codeAt, codeAt, hcodes, hscrubs, hreset]

theorem Part.keepsBeyond_of_same {s t : State} {p : Part} (h : Part.same s t p) (hreset : t.resetCount = s.resetCount) :
    Part.keepsBeyond s t p := by
  cases p
  case bits => exact fun a _ => congrArg (fun b => Memory.get b.mem a) h
  case payload => exact fun a _ => congrArg (fun b => Memory.get b.mem a) h
  case codes => exact fun a _ => codeAt_congr h hreset a
  all_goals trivial

/-- A change after a step that left the group alone. -/
theorem Part.keepsBeyond_after_same {s u t : State} {p : Part} (h : Part.same s u p)
    (hreset : u.resetCount = s.resetCount) (h' : Part.keepsBeyond u t p) : Part.keepsBeyond s t p := by
  cases p
  case bits => exact fun a ha => (h' a ha).trans (congrArg (fun b => Memory.get b.mem a) h)
  case payload => exact fun a ha => (h' a ha).trans (congrArg (fun b => Memory.get b.mem a) h)
  case codes => exact fun a ha => (h' a ha).trans (codeAt_congr h hreset a)
  all_goals trivial

/-- A change before a step that leaves the group alone. -/
theorem Part.keepsBeyond_before_same {s u t : State} {p : Part} (h : Part.keepsBeyond s u p)
    (h' : Part.same u t p) (hreset : t.resetCount = u.resetCount) : Part.keepsBeyond s t p := by
  cases p
  case bits =>
    intro a ha
    rw [show t.bits = u.bits from h'] at ha ⊢
    exact h a ha
  case payload =>
    intro a ha
    rw [show t.payload = u.payload from h'] at ha ⊢
    exact h a ha
  case codes => exact fun a ha => (codeAt_congr h' hreset a).trans (h a (h'.1 ▸ ha))
  all_goals trivial

/-- A frame leaves only the written groups to look at. -/
theorem KeepsOutside.keepsBeyond {ps : List Part} {s t : State} (h : KeepsOutside ps s t)
    (hps : ∀ p ∈ ps, Part.keepsBeyond s t p) (p : Part) : Part.keepsBeyond s t p := by
  by_cases hp : p ∈ ps
  · exact hps p hp
  · exact Part.keepsBeyond_of_same (h.parts p hp) h.resetCount

/-! ## The writes -/

theorem storePacked_keepsBeyond (s : State) {x : List Byte} (pad : Nat) (hx : x.length < 2 ^ 32) :
    ∀ p, Part.keepsBeyond s (storePacked s x pad) p := by
  refine (storePacked_keepsOutside s x pad).keepsBeyond ?_
  have hpayload : Part.keepsBeyond s (storePacked s x pad) .payload := fun a ha =>
    Memory.get_write_outside _ _ _ _ (.inr (by rw [storePacked_payload, Buffer.store, ofNat_toNat_of_lt hx] at ha; omega))
  simpa [Part.keepsBeyond] using hpayload

theorem storeBits_keepsBeyond (s : State) {b : BitString} (hb : b.length < 2 ^ 32) :
    ∀ p, Part.keepsBeyond s (storeBits s b) p := by
  refine (storeBits_keepsOutside s b).keepsBeyond ?_
  have hbits : Part.keepsBeyond s (storeBits s b) .bits := fun a ha =>
    Memory.get_write_outside _ _ _ _ (.inr (by
      rw [storeBits_bits, Buffer.store, ofNat_toNat_of_lt hb] at ha
      rw [packBytes_length]
      omega))
  simpa [Part.keepsBeyond] using hbits

/-- CODES after words were stored in its first places. -/
theorem codeAt_store {s t : State} {ws : List Word} (hws : ws.length < 2 ^ 32)
    (hcodes : t.codes = Buffer.store s.codes ws ws.length) (hscrubs : t.scrubs = s.scrubs)
    (hreset : t.resetCount = s.resetCount) : Part.keepsBeyond s t .codes := fun a ha => by
  rw [hcodes, Buffer.store, ofNat_toNat_of_lt hws] at ha
  rw [codeAt, codeAt, hcodes, hscrubs, hreset, Buffer.store, Memory.get_write_outside _ _ _ _ (.inr (by omega))]

theorem storeCompressed_keepsBeyond (s : State) {cs : List Nat} (d : List DictEntry) (hcs : cs.length < 2 ^ 32) :
    ∀ p, Part.keepsBeyond s (storeCompressed s cs d) p := by
  refine (storeCompressed_keepsOutside s cs d).keepsBeyond ?_
  have hcodes : Part.keepsBeyond s (storeCompressed s cs d) .codes :=
    codeAt_store (ws := cs.map (BitVec.ofNat 32)) (by rwa [List.length_map]) (by simp) rfl rfl
  simpa [Part.keepsBeyond] using hcodes

theorem storeParsedCodes_keepsBeyond (s : State) {ws : List Word} (hws : ws.length < 2 ^ 32) :
    ∀ p, Part.keepsBeyond s (storeParsedCodes s ws) p := by
  refine (storeParsedCodes_keepsOutside s ws).keepsBeyond ?_
  have hcodes : Part.keepsBeyond s (storeParsedCodes s ws) .codes := codeAt_store hws rfl rfl rfl
  simpa [Part.keepsBeyond] using hcodes

theorem storeParsedTable_keepsBeyond (s : State) (tag : Byte) (pad : Nat) (t : Memory BitString) {x : List Byte}
    (hx : x.length < 2 ^ 32) : ∀ p, Part.keepsBeyond s (storeParsedTable s tag pad t x) p := by
  refine (storeParsedTable_keepsOutside s tag pad t x).keepsBeyond ?_
  have hpayload : Part.keepsBeyond s (storeParsedTable s tag pad t x) .payload := fun a ha =>
    Memory.get_write_outside _ _ _ _
      (.inr (by rw [storeParsedTable_payload, Buffer.store, ofNat_toNat_of_lt hx] at ha; omega))
  simpa [Part.keepsBeyond] using hpayload

/-! ## The rules -/

/-- The opcode of the step that raised an ending's error. -/
def Ending.sub? : Ending → Option Byte
  | .done _ => none
  | .raised _ _ sub _ => some sub
  | .fault _ => none

/-- A rule that changes nothing outside `ps` and no storage beyond a length, but for CODES when the step that failed is
LZW_COMPRESS (44_lzw R236). -/
structure Ending.StaysWithin (ps : List Part) (s : State) (e : Ending) : Prop where
  outside : e.keepsOutside ps s
  beyond : ∀ t p, e.state? = some t → (p = .codes → e.sub? ≠ some 0x0A) → Part.keepsBeyond s t p

/-- A rule that writes none of the three buffers. -/
theorem Ending.staysWithin_of_keepsOutside {ps : List Part} {s : State} {e : Ending} (h : e.keepsOutside ps s)
    (hps : Part.bits ∉ ps ∧ Part.payload ∉ ps ∧ Part.codes ∉ ps) : e.StaysWithin ps s := by
  refine ⟨h, fun t p ht _ => (h t ht).keepsBeyond (fun q hq => ?_) p⟩
  obtain ⟨hbits, hpayload, hcodes⟩ := hps
  cases q
  case bits => exact absurd hq hbits
  case payload => exact absurd hq hpayload
  case codes => exact absurd hq hcodes
  all_goals trivial

theorem Ending.staysWithin_raised (ps : List Part) (s : State) (code : ErrCode) (info : Nat) (sub : Byte) :
    (Ending.raised code info sub s).StaysWithin ps s := by
  refine ⟨keepsOutside_raised code info sub (.refl ps s), ?_⟩
  rintro _ p ⟨⟩ -
  exact (KeepsOutside.refl [] s).keepsBeyond (by simp) p

/-- A rule of one computation. -/
theorem Ending.staysWithin_ofRun {α : Type} {ps : List Part} {s sErr : State} {sub : Byte} {r : Run α} {keep : α → State}
    (h : (Ending.ofRun sub sErr r keep).keepsOutside ps s)
    (hErr : ∀ p, (p = .codes → sub ≠ 0x0A) → Part.keepsBeyond s sErr p)
    (hOk : ∀ a, r = .ok a → ∀ p, Part.keepsBeyond s (keep a) p) : (Ending.ofRun sub sErr r keep).StaysWithin ps s := by
  refine ⟨h, fun t p ht hsub => ?_⟩
  obtain ⟨a, hr, he⟩ | ⟨code, info, -, he⟩ | ⟨f, -, he⟩ := ofRun_cases sub sErr r keep
  · rw [he] at ht
    cases ht
    exact hOk a hr p
  · rw [he] at ht hsub
    cases ht
    exact hErr p fun hp hsub' => hsub hp (congrArg some hsub')
  · rw [he] at ht
    cases ht

/-- A rule of one computation that leaves the state alone when it fails. -/
theorem Ending.staysWithin_ofRun_same {α : Type} {ps : List Part} {s : State} {sub : Byte} {r : Run α} {keep : α → State}
    (h : (Ending.ofRun sub s r keep).keepsOutside ps s)
    (hOk : ∀ a, r = .ok a → ∀ p, Part.keepsBeyond s (keep a) p) : (Ending.ofRun sub s r keep).StaysWithin ps s :=
  staysWithin_ofRun h (fun p _ => (KeepsOutside.refl [] s).keepsBeyond (by simp) p) hOk

/-- A composite's next step, when the two write no group in common. -/
theorem Ending.StaysWithin.andThen {ps qs : List Part} {s : State} {e : Ending} {f : State → Ending}
    (he : e.StaysWithin ps s) (hf : ∀ a, a.caps = s.caps → (f a).StaysWithin qs a) (hdisj : ∀ p ∈ ps, p ∉ qs) :
    (e.andThen f).StaysWithin (ps ++ qs) s := by
  cases e with
  | fault x => exact ⟨by rintro _ ⟨⟩, by rintro _ _ ⟨⟩⟩
  | raised c n sub u => exact ⟨keepsOutside_mono he.outside (by simp), he.beyond⟩
  | done u =>
    have hu := he.outside u rfl
    have hfu := hf u hu.caps
    refine ⟨fun t ht => (hu.mono (by simp)).trans ((hfu.outside t ht).mono (by simp)), fun t p ht hsub => ?_⟩
    have hut := hfu.outside t ht
    by_cases hp : p ∈ ps
    · have hsu := he.beyond u p rfl (by simp [Ending.sub?])
      exact Part.keepsBeyond_before_same hsu (hut.parts p (hdisj p hp)) hut.resetCount
    · exact Part.keepsBeyond_after_same (hu.parts p hp) hu.resetCount (hfu.beyond t p ht hsub)

section
variable {s : State}

theorem packRule_staysWithin (hwf : s.caps.wf = true) : (packRule s).StaysWithin (writeSet .pack) s := by
  obtain ⟨-, -, -, hcap, -⟩ := Caps.wf_lt hwf
  exact Ending.staysWithin_ofRun_same (packRule_keepsOutside s) fun r hr =>
    storePacked_keepsBeyond s _ (Nat.lt_of_le_of_lt (packRun_ok_length hr) hcap)

theorem unpackRule_staysWithin (hwf : s.caps.wf = true) : (unpackRule s).StaysWithin (writeSet .unpack) s := by
  obtain ⟨-, -, hcap, -⟩ := Caps.wf_lt hwf
  exact Ending.staysWithin_ofRun_same (unpackRule_keepsOutside s) fun r hr =>
    storeBits_keepsBeyond s (Nat.lt_of_le_of_lt (unpackRun_ok_length hr) hcap)

theorem encodeRule_staysWithin (hwf : s.caps.wf = true) : (encodeRule s).StaysWithin (writeSet .encode) s := by
  obtain ⟨-, -, hcap, -⟩ := Caps.wf_lt hwf
  exact Ending.staysWithin_ofRun_same (encodeRule_keepsOutside s) fun r hr =>
    storeBits_keepsBeyond s (Nat.lt_of_le_of_lt (encodeRun_ok_length hr) hcap)

theorem deserializeRule_staysWithin (hwf : s.caps.wf = true) :
    (deserializeRule s).StaysWithin (writeSet .deserialize) s := by
  obtain ⟨-, -, -, hpayload, hcodes, -⟩ := Caps.wf_lt hwf
  refine Ending.staysWithin_ofRun_same (deserializeRule_keepsOutside s) fun u hu => ?_
  obtain ⟨-, ⟨ws, hws, rfl⟩ | ⟨tag, pad, t, x, -, -, hx, rfl⟩⟩ := deserializeRun_ok hu
  · exact storeParsedCodes_keepsBeyond s (by omega)
  · exact storeParsedTable_keepsBeyond s tag pad t (by omega)

/-- A failed scan leaves CODES to any value (44_lzw R236) and the other buffers alone. -/
theorem lzwCompressRule_staysWithin (hwf : s.caps.wf = true) :
    (lzwCompressRule s).StaysWithin (writeSet .lzwCompress) s := by
  obtain ⟨-, -, -, -, hcap, -⟩ := Caps.wf_lt hwf
  have hout := lzwCompressRule_keepsOutside s
  rw [lzwCompressRule] at hout ⊢
  split at hout
  · rename_i hn
    rw [if_pos hn]
    refine Ending.staysWithin_ofRun hout (fun p hp => ?_) fun r hr => ?_
    · cases p
      case codes => exact absurd rfl (hp rfl)
      case bits | payload =>
        exact Part.keepsBeyond_of_same ((scrubCompressed_keepsOutside s).parts _ (by decide)) rfl
      all_goals trivial
    · obtain ⟨-, hcodes, -⟩ := compressLoop_ok hr parentsOk_nil (by simp) (Nat.zero_le _)
      exact storeCompressed_keepsBeyond s _ (by omega)
  · rename_i hn
    rw [if_neg hn]
    exact Ending.staysWithin_raised _ _ _ _ _

theorem compressStart_staysWithin (s : State) : (compressStart s).StaysWithin [] s :=
  Ending.staysWithin_of_keepsOutside (compressStart_keepsOutside [] s) (by decide)

theorem storeCompressSizes_staysWithin (s : State) : (storeCompressSizes s).StaysWithin [.sizes] s :=
  Ending.staysWithin_of_keepsOutside (storeCompressSizes_keepsOutside s) (by decide)

theorem storeDecompressSizes_staysWithin (s : State) : (storeDecompressSizes s).StaysWithin [.sizes] s :=
  Ending.staysWithin_of_keepsOutside (storeDecompressSizes_keepsOutside s) (by decide)

/-- The commands that write none of the three buffers. -/
theorem ruleOf_staysWithin_of_not_writer {i : Instr} (s : State)
    (hi : Part.bits ∉ writeSet i ∧ Part.payload ∉ writeSet i ∧ Part.codes ∉ writeSet i) :
    (ruleOf i s).StaysWithin (writeSet i) s :=
  Ending.staysWithin_of_keepsOutside (ruleOf_keepsOutside i s) hi

theorem compressHufRule_staysWithin (hwf : s.caps.wf = true) :
    (compressHufRule s).StaysWithin (writeSet .compressHuf) s :=
  (compressStart_staysWithin s)
    |>.andThen (fun a _ => ruleOf_staysWithin_of_not_writer (i := .analyze) a (by decide)) (by decide)
    |>.andThen (fun a _ => ruleOf_staysWithin_of_not_writer (i := .huffBuild) a (by decide)) (by decide)
    |>.andThen (fun a _ => ruleOf_staysWithin_of_not_writer (i := .huffCodes) a (by decide)) (by decide)
    |>.andThen (fun _ hcaps => encodeRule_staysWithin (hcaps ▸ hwf)) (by decide)
    |>.andThen (fun _ hcaps => packRule_staysWithin (hcaps ▸ hwf)) (by decide)
    |>.andThen (fun a _ => ruleOf_staysWithin_of_not_writer (i := .serializeHuf) a (by decide)) (by decide)
    |>.andThen (fun a _ => storeCompressSizes_staysWithin a) (by decide)

theorem compressSfRule_staysWithin (hwf : s.caps.wf = true) :
    (compressSfRule s).StaysWithin (writeSet .compressSf) s :=
  (compressStart_staysWithin s)
    |>.andThen (fun a _ => ruleOf_staysWithin_of_not_writer (i := .analyze) a (by decide)) (by decide)
    |>.andThen (fun a _ => ruleOf_staysWithin_of_not_writer (i := .rank) a (by decide)) (by decide)
    |>.andThen (fun a _ => ruleOf_staysWithin_of_not_writer (i := .sfCodes) a (by decide)) (by decide)
    |>.andThen (fun _ hcaps => encodeRule_staysWithin (hcaps ▸ hwf)) (by decide)
    |>.andThen (fun _ hcaps => packRule_staysWithin (hcaps ▸ hwf)) (by decide)
    |>.andThen (fun a _ => ruleOf_staysWithin_of_not_writer (i := .serializeSf) a (by decide)) (by decide)
    |>.andThen (fun a _ => storeCompressSizes_staysWithin a) (by decide)

theorem compressLzwRule_staysWithin (hwf : s.caps.wf = true) :
    (compressLzwRule s).StaysWithin (writeSet .compressLzw) s :=
  (compressStart_staysWithin s)
    |>.andThen (fun _ hcaps => lzwCompressRule_staysWithin (hcaps ▸ hwf)) (by decide)
    |>.andThen (fun a _ => ruleOf_staysWithin_of_not_writer (i := .serializeLzw) a (by decide)) (by decide)
    |>.andThen (fun a _ => storeCompressSizes_staysWithin a) (by decide)

theorem Ending.StaysWithin.mono {ps qs : List Part} {e : Ending} (h : e.StaysWithin ps s) (hsub : ps ⊆ qs) :
    e.StaysWithin qs s :=
  ⟨keepsOutside_mono h.outside hsub, h.beyond⟩

/-- The rest of DECOMPRESS writes what DESERIALIZE does not (46_top_level R305). -/
theorem decompressTail_staysWithin (hwf : s.caps.wf = true) :
    (decompressTail s).StaysWithin [.bits, .out, .dict] s := by
  rw [decompressTail]
  split
  · exact (ruleOf_staysWithin_of_not_writer (i := .lzwDecompress) s (by decide)).mono (by decide)
  · have hdecode := fun a (_ : a.caps = s.caps) => ruleOf_staysWithin_of_not_writer (i := .decode) a (by decide)
    exact ((unpackRule_staysWithin hwf).andThen hdecode (by decide)).mono (by decide)

theorem decompressRule_staysWithin (hwf : s.caps.wf = true) :
    (decompressRule s).StaysWithin (writeSet .decompress) s :=
  ((deserializeRule_staysWithin hwf)
    |>.andThen (fun _ hcaps => decompressTail_staysWithin (hcaps ▸ hwf)) (by decide)
    |>.andThen (fun a _ => storeDecompressSizes_staysWithin a) (by decide)).mono (by decide)

/-- 10_state R43 to R45 for the rule of each command. -/
theorem ruleOf_staysWithin (i : Instr) (hwf : s.caps.wf = true) : (ruleOf i s).StaysWithin (writeSet i) s := by
  cases i with
  | pack => exact packRule_staysWithin hwf
  | unpack => exact unpackRule_staysWithin hwf
  | encode => exact encodeRule_staysWithin hwf
  | lzwCompress => exact lzwCompressRule_staysWithin hwf
  | deserialize => exact deserializeRule_staysWithin hwf
  | compressHuf => exact compressHufRule_staysWithin hwf
  | compressSf => exact compressSfRule_staysWithin hwf
  | compressLzw => exact compressLzwRule_staysWithin hwf
  | decompress => exact decompressRule_staysWithin hwf
  | _ => exact ruleOf_staysWithin_of_not_writer s (by decide)

end

/-! ## Checks before writes -/

/-- The commands whose every check precedes every write (60_exceptions R342). -/
def checksFirst : List Instr :=
  [.pack, .unpack, .analyze, .rank, .encode, .serializeHuf, .serializeSf, .serializeLzw, .deserialize]

/-- When such a command's rule fails, the state is the one it started in. -/
theorem raised_of_checksFirst {i : Instr} (hi : i ∈ checksFirst) {s u : State} {code : ErrCode} {info : Nat} {sub : Byte}
    (h : ruleOf i s = .raised code info sub u) : u = s := by
  cases i
  case pack | unpack | analyze | encode | serializeHuf | serializeSf | serializeLzw | deserialize =>
    obtain ⟨-, -, hu⟩ := ofRun_eq_raised h
    exact hu
  case rank => cases h
  all_goals simp [checksFirst] at hi

/-- Settles O44: the rule stays within its lengths by `ruleOf_staysWithin`, a failed rule of `checksFirst` leaves its first
state, and the completion writes only the status. -/
theorem storedRangesBoundTheChange : Obligations.StoredRangesBoundTheChange := by
  intro i s t hwf h
  have hstays := ruleOf_staysWithin i hwf
  obtain ⟨u, hu, rfl⟩ | ⟨c, n, b, u, hu, rfl⟩ := exec_next h
  · rw [hu] at hstays
    have hbeyond := fun p => hstays.beyond u p rfl (by simp [Ending.sub?])
    exact ⟨hbeyond .bits, hbeyond .payload, fun _ => hbeyond .codes, fun _ herr => absurd rfl herr⟩
  · rw [hu] at hstays
    have hbeyond := fun p => hstays.beyond u p rfl
    refine ⟨hbeyond .bits (by simp), hbeyond .payload (by simp), fun hsub => hbeyond .codes ?_, fun hi _ => ?_⟩
    · exact fun _ hs => hsub (Option.some.inj hs)
    · rw [raised_of_checksFirst hi hu]
      rfl

end Sys2Proof.Machine
end

section
/-! PROOFS of 10_state.md R50, R51, R63, the invariant: it holds right after reset, and a Host turn, a Block turn and a
reset keep it. Group by group (`Part`) for the data, beside the control registers. -/

namespace Sys2Proof.Machine

/-! ## The invariant, group by group -/

/-- A group's part of the invariant. -/
def Part.ok (s : State) : Part → Prop
  | .inp => Memory.wf s.inp.mem ∧ Memory.below s.inp.mem s.caps.inCap
  | .freq => FreqOk s.freq
  | .rank => RankOk s.rank
  | .tree => TreeOk s.tree
  | .ctab => CtabOk s.ctab
  | .bits => Memory.wf s.bits.mem ∧ Memory.below s.bits.mem (ceilDiv8 s.caps.bitsCap)
  | .payload => Memory.wf s.payload.mem ∧ Memory.below s.payload.mem s.caps.payloadCap
  | .pad => True
  | .codes => Memory.wf s.codes.mem ∧ Memory.below s.codes.mem s.caps.codesCap
  | .dict => DictOk s.dict
  | .out => ∃ xs, s.out = outBuffer xs ∧ xs.length ≤ s.caps.outCap
  | .artKind => s.artKind.toNat ≤ 3
  | .sizes => s.sizes = ⟨0, 0⟩ ∨ 9 ≤ s.sizes.comp.toNat

/-- The invariant but for the control registers. -/
structure DataOk (s : State) : Prop where
  caps : s.caps.wf = true
  parts : ∀ p, Part.ok s p

theorem Inv.dataOk {s : State} (h : Inv s) : DataOk s := by
  obtain ⟨hcaps, -, hstorage, hfreq, hrank, htree, hctab, hdict, hkind, hsizes⟩ := h
  refine ⟨hcaps, fun p => ?_⟩
  cases p with
  | inp => exact ⟨hstorage.inCanon, hstorage.inBound⟩
  | freq => exact hfreq
  | rank => exact hrank
  | tree => exact htree
  | ctab => exact hctab
  | bits => exact ⟨hstorage.bitsCanon, hstorage.bitsBound⟩
  | payload => exact ⟨hstorage.payloadCanon, hstorage.payloadBound⟩
  | pad => trivial
  | codes => exact ⟨hstorage.codesCanon, hstorage.codesBound⟩
  | dict => exact hdict
  | out => exact hstorage.outExact
  | artKind => exact hkind
  | sizes => exact hsizes

theorem DataOk.inv {s : State} (h : DataOk s) (hctl : ControlOk s.ctl) : Inv s where
  caps := h.caps
  control := hctl
  storage := ⟨(h.parts .inp).1, (h.parts .inp).2, (h.parts .bits).1, (h.parts .bits).2, (h.parts .payload).1,
    (h.parts .payload).2, (h.parts .codes).1, (h.parts .codes).2, h.parts .out⟩
  freq := h.parts .freq
  rank := h.parts .rank
  tree := h.parts .tree
  ctab := h.parts .ctab
  dict := h.parts .dict
  kind := h.parts .artKind
  sizes := h.parts .sizes

theorem Part.ok_of_same {s t : State} {p : Part} (hok : Part.ok s p) (hcaps : t.caps = s.caps)
    (hsame : Part.same s t p) : Part.ok t p := by
  cases p
  case pad => trivial
  all_goals
    simp only [Part.same] at hsame
    simpa only [Part.ok, hsame, hcaps] using hok

/-- Only the groups that a change may touch are to be looked at again. -/
theorem DataOk.changed {s t : State} (h : DataOk s) (ps : List Part) (hcaps : t.caps = s.caps)
    (hsame : ∀ p, p ∉ ps → Part.same s t p) (hps : ∀ p ∈ ps, Part.ok t p) : DataOk t := by
  refine ⟨hcaps ▸ h.caps, fun p => ?_⟩
  by_cases hp : p ∈ ps
  · exact hps p hp
  · exact Part.ok_of_same (h.parts p) hcaps (hsame p hp)

theorem DataOk.written {s t : State} {ps : List Part} (h : DataOk s) (hkeep : KeepsOutside ps s t)
    (hps : ∀ p ∈ ps, Part.ok t p) : DataOk t :=
  h.changed ps hkeep.caps hkeep.parts hps

/-- The control registers, the Host and the turns are not data. -/
theorem DataOk.withControl {s : State} (h : DataOk s) (c : Control) (hst : HostAgent) (ts : List Turn) :
    DataOk { s with ctl := c, host := hst, turns := ts } := by
  refine ⟨h.caps, fun p => ?_⟩
  have hp := h.parts p
  cases p <;> exact hp

/-! ## Reset -/

/-- The state after reset, with any capacities (00_scope R9), Host and turns. -/
theorem inv_reset {c : Caps} (hc : c.wf = true) (hst : HostAgent) (ts : List Turn) (n : Nat) :
    Inv { State.reset with caps := c, host := hst, turns := ts, resetCount := n } := by
  have hfreq : FreqOk State.reset.freq := freqOk_freqTable (x := []) rfl
  have hdata : DataOk { State.reset with caps := c, host := hst, turns := ts, resetCount := n } := by
    refine ⟨hc, fun p => ?_⟩
    cases p with
    | inp | bits | payload | codes => exact ⟨.nil, by simp [State.reset]⟩
    | freq => exact hfreq
    | rank => exact rankOk_rankedList hfreq
    | tree => exact treeOk_nil
    | ctab => exact codesOk_nil.ctabOk
    | pad => trivial
    | dict => exact parentsOk_nil.dictOk (Nat.zero_le _)
    | out => exact ⟨[], rfl, Nat.zero_le _⟩
    | artKind => exact Nat.zero_le 3
    | sizes => exact .inl rfl
  exact hdata.inv ⟨by simp [State.reset], fun _ => ⟨rfl, rfl⟩, by simp [State.reset]⟩

/-- Settles O54: `inv_reset` with the default capacities. -/
theorem resetMeetsTheInvariant : Obligations.ResetMeetsTheInvariant :=
  inv_reset (c := Caps.default) (by decide) State.reset.host [] 0

/-! ## The writes of the commands -/

section
variable {s : State}

theorem Buffer.store_below {α : Type} {b : Buffer α} {n : Nat} (hb : Memory.below b.mem n) {xs : List α} (len : Nat)
    (hxs : xs.length ≤ n) : Memory.below (Buffer.store b xs len).mem n :=
  Memory.write_below hb 0 xs (by omega)

theorem storePacked_dataOk (h : DataOk s) {x : List Byte} (pad : Nat) (hx : x.length ≤ s.caps.payloadCap) :
    DataOk (storePacked s x pad) := by
  refine h.written (storePacked_keepsOutside s x pad) ?_
  obtain ⟨hwf, hbelow⟩ := h.parts .payload
  have hpayload : Part.ok (storePacked s x pad) .payload :=
    ⟨Buffer.store_wf hwf _ _, Buffer.store_below hbelow _ hx⟩
  simpa [Part.ok] using hpayload

theorem storeBits_dataOk (h : DataOk s) {b : BitString} (hb : b.length ≤ s.caps.bitsCap) : DataOk (storeBits s b) := by
  refine h.written (storeBits_keepsOutside s b) ?_
  obtain ⟨hwf, hbelow⟩ := h.parts .bits
  have hbytes : (packBytes (ceilDiv8 b.length) b).length ≤ ceilDiv8 s.caps.bitsCap := by
    rw [packBytes_length, ceilDiv8_le]
    exact hb.trans (le_ceilDiv8 _)
  have hbits : Part.ok (storeBits s b) .bits := ⟨Buffer.store_wf hwf _ _, Buffer.store_below hbelow _ hbytes⟩
  simpa using hbits

theorem storeOut_dataOk (h : DataOk s) {x : List Byte} (hx : x.length ≤ s.caps.outCap) : DataOk (storeOut s x) := by
  have hout : Part.ok (storeOut s x) .out := ⟨x, rfl, hx⟩
  exact h.written (storeOut_keepsOutside s x) (by simpa using hout)

theorem storeCodeTable_dataOk (h : DataOk s) {pairs : List (Byte × BitString)} (hp : PrefixCode pairs) :
    DataOk (storeCodeTable s pairs) := by
  have hctab : Part.ok (storeCodeTable s pairs) .ctab := hp.ctabOk
  exact h.written (storeCodeTable_keepsOutside s pairs) (by simpa using hctab)

theorem storeCompressed_dataOk (h : DataOk s) {cs : List Nat} {d : List DictEntry} (hcs : cs.length ≤ s.caps.codesCap)
    (hd : DictOk (dictionary d)) : DataOk (storeCompressed s cs d) := by
  refine h.written (storeCompressed_keepsOutside s cs d) ?_
  obtain ⟨hwf, hbelow⟩ := h.parts .codes
  have hcodes : Part.ok (storeCompressed s cs d) .codes :=
    ⟨Buffer.store_wf hwf _ _, Buffer.store_below hbelow _ (by rwa [List.length_map])⟩
  have hdict : Part.ok (storeCompressed s cs d) .dict := hd
  simpa using ⟨hcodes, hdict⟩

theorem dictOk_empty : DictOk (dictionary []) := parentsOk_nil.dictOk (Nat.zero_le _)

theorem scrubCompressed_dataOk (h : DataOk s) : DataOk (scrubCompressed s) := by
  refine h.written (scrubCompressed_keepsOutside s) ?_
  have hcodes : Part.ok (scrubCompressed s) .codes := ⟨.nil, by simp⟩
  have hdict : Part.ok (scrubCompressed s) .dict := dictOk_empty
  simpa using ⟨hcodes, hdict⟩

theorem storeDecompressed_dataOk (h : DataOk s) {x : List Byte} {d : List DictEntry} (hx : x.length ≤ s.caps.outCap)
    (hd : DictOk (dictionary d)) : DataOk (storeDecompressed s x d) := by
  refine h.written (storeDecompressed_keepsOutside s x d) ?_
  have hout : Part.ok (storeDecompressed s x d) .out := ⟨x, rfl, hx⟩
  have hdict : Part.ok (storeDecompressed s x d) .dict := hd
  simpa using ⟨hout, hdict⟩

theorem storeArtifact_dataOk (h : DataOk s) {tag : Byte} {x : List Byte} (htag : tag.toNat ≤ 3)
    (hx : x.length ≤ s.caps.outCap) : DataOk (storeArtifact s tag x) := by
  refine h.written (storeArtifact_keepsOutside s tag x) ?_
  have hout : Part.ok (storeArtifact s tag x) .out := ⟨x, rfl, hx⟩
  have hkind : Part.ok (storeArtifact s tag x) .artKind := htag
  simpa using ⟨hout, hkind⟩

theorem storeParsedCodes_dataOk (h : DataOk s) {ws : List Word} (hws : ws.length ≤ s.caps.codesCap) :
    DataOk (storeParsedCodes s ws) := by
  refine h.written (storeParsedCodes_keepsOutside s ws) ?_
  obtain ⟨hwf, hbelow⟩ := h.parts .codes
  have hcodes : Part.ok (storeParsedCodes s ws) .codes :=
    ⟨Buffer.store_wf hwf _ _, Buffer.store_below hbelow _ hws⟩
  have hpad : Part.ok (storeParsedCodes s ws) .pad := trivial
  have hkind : Part.ok (storeParsedCodes s ws) .artKind := le_refl 3
  simpa using ⟨hcodes, hpad, hkind⟩

theorem storeParsedTable_dataOk (h : DataOk s) {tag : Byte} (pad : Nat) {t : Memory BitString} {x : List Byte}
    (htag : tag.toNat ≤ 3) (ht : CodesOk t) (hx : x.length ≤ s.caps.payloadCap) :
    DataOk (storeParsedTable s tag pad t x) := by
  refine h.written (storeParsedTable_keepsOutside s tag pad t x) ?_
  obtain ⟨hwf, hbelow⟩ := h.parts .payload
  have hctab : Part.ok (storeParsedTable s tag pad t x) .ctab := ht.ctabOk
  have hpayload : Part.ok (storeParsedTable s tag pad t x) .payload :=
    ⟨Buffer.store_wf hwf _ _, Buffer.store_below hbelow _ hx⟩
  have hpad : Part.ok (storeParsedTable s tag pad t x) .pad := trivial
  have hkind : Part.ok (storeParsedTable s tag pad t x) .artKind := htag
  simpa using ⟨hctab, hpayload, hpad, hkind⟩

end

/-! ## How a rule ends in a state of the invariant -/

/-- The error codes that the block raises: neither "none" nor NOT_FOUND (60_exceptions R333). -/
def blockErrors : List ErrCode :=
  [.emptyInput, .formatError, .corruptData, .capacityExceeded, .illegalCommand, .unmappedSymbol]

theorem raisesOnly.mono {α : Type} {cs ds : List ErrCode} {r : Run α} (h : raisesOnly cs r) (hsub : cs ⊆ ds) :
    raisesOnly ds r :=
  fun code info hr => hsub (h code info hr)

/-- A rule that succeeds leaves a state of `P`; one that fails raises an error of the block's and leaves good data. -/
def Ending.good (P : State → Prop) : Ending → Prop
  | .done t => P t
  | .raised code _ _ t => code ∈ blockErrors ∧ DataOk t
  | .fault _ => True

theorem Ending.good_ofRun {α : Type} {P : State → Prop} {sub : Byte} {sErr : State} {r : Run α} {keep : α → State}
    (hErr : DataOk sErr) (hcodes : raisesOnly blockErrors r) (hOk : ∀ a, r = .ok a → P (keep a)) :
    (Ending.ofRun sub sErr r keep).good P := by
  obtain ⟨a, hr, he⟩ | ⟨code, info, hr, he⟩ | ⟨f, -, he⟩ := ofRun_cases sub sErr r keep <;> rw [he]
  · exact hOk a hr
  · exact ⟨hcodes code info hr, hErr⟩
  · trivial

theorem Ending.good.andThen {P Q : State → Prop} {e : Ending} {f : State → Ending} (he : e.good P)
    (hf : ∀ a, P a → (f a).good Q) : (e.andThen f).good Q := by
  cases e with
  | done a => exact hf a he
  | raised code info sub t => exact he
  | fault x => trivial

theorem Ending.good.mono {P Q : State → Prop} {e : Ending} (he : e.good P) (h : ∀ t, P t → Q t) : e.good Q := by
  cases e with
  | done t => exact h t he
  | raised code info sub t => exact he
  | fault x => trivial

/-! ## The rules -/

section
variable {s : State}

theorem packRule_good (h : DataOk s) : (packRule s).good DataOk :=
  Ending.good_ofRun h (fun _ _ hr => packRun_error hr ▸ by decide) fun _ hr =>
    storePacked_dataOk h _ (packRun_ok_length hr)

theorem unpackRule_good (h : DataOk s) : (unpackRule s).good DataOk := by
  refine Ending.good_ofRun h (fun _ _ hr => ?_) fun _ hr => storeBits_dataOk h (unpackRun_ok_length hr)
  obtain rfl | rfl := unpackRun_error hr <;> decide

theorem analyzeRule_good (h : DataOk s) : (analyzeRule s).good DataOk := by
  refine Ending.good_ofRun h (fun _ _ hr => analyzeRun_error hr ▸ by decide) fun t ht => ?_
  rw [analyzeRun_eq] at ht
  split at ht
  · obtain ⟨x, hx, ⟨⟩⟩ := (run_bind_ok _ _ _).mp ht
    have hfreq := freqOk_freqTable (readRange_ok hx).1.symm
    exact h.written (freq_update_keepsOutside s _) (by simpa [Part.ok] using hfreq)
  · cases ht

theorem rankRule_good (h : DataOk s) : (rankRule s).good DataOk := by
  have hrank := rankOk_rankedList (h.parts .freq)
  exact h.written (rank_update_keepsOutside s _) (by simpa [Part.ok] using hrank)

theorem huffBuildRule_good (h : DataOk s) : (huffBuildRule s).good DataOk := by
  have htree := treeOk_buildTree (h.parts .freq)
  exact h.written (tree_update_keepsOutside s _) (by simpa [Part.ok] using htree)

theorem huffCodesRule_good (h : DataOk s) : (huffCodesRule s).good DataOk :=
  storeCodeTable_dataOk h (prefixCode_treeCodes (h.parts .tree))

theorem sfCodesRule_good (h : DataOk s) : (sfCodesRule s).good DataOk := by
  have hrank : RankOk s.rank := h.parts .rank
  exact storeCodeTable_dataOk h (prefixCode_rankCodes (hrank.symbols.sublist ((List.take_sublist _ _).map _)))

theorem encodeRun_raises (s : State) : raisesOnly blockErrors (encodeRun s) := fun code info hr => by
  rw [encodeRun_eq] at hr
  split at hr
  · obtain rfl | rfl := (encodeLoop_error hr).1 <;> decide
  · cases hr
    decide

theorem encodeRule_good (h : DataOk s) : (encodeRule s).good DataOk :=
  Ending.good_ofRun h (encodeRun_raises s) fun _ hr => storeBits_dataOk h (encodeRun_ok_length hr)

theorem decodeRule_good (h : DataOk s) : (decodeRule s).good DataOk := by
  rw [decodeRule]
  split
  · refine Ending.good_ofRun (storeOut_dataOk h (Nat.zero_le _)) (fun _ _ hr => (decodeLoop_error hr).1 ▸ by decide)
      fun x hx => storeOut_dataOk h ?_
    have hlen := decodeLoop_ok_length hx (Nat.zero_le _)
    omega
  · exact ⟨by decide, h⟩

theorem lzwCompressRule_good (h : DataOk s) : (lzwCompressRule s).good DataOk := by
  obtain ⟨-, -, -, -, hcap, -⟩ := Caps.wf_lt h.caps
  rw [lzwCompressRule]
  split
  · refine Ending.good_ofRun (scrubCompressed_dataOk h) (fun _ _ hr => (compressLoop_error hr).1 ▸ by decide)
      fun r hr => ?_
    obtain ⟨hparents, hcodes, hentries⟩ := compressLoop_ok hr parentsOk_nil (by simp) (Nat.zero_le _)
    rw [List.length_nil] at hentries
    exact storeCompressed_dataOk h (by omega) (hparents.dictOk (by omega))
  · exact ⟨by decide, h⟩

theorem lzwDecompressRule_good (h : DataOk s) : (lzwDecompressRule s).good DataOk := by
  obtain ⟨-, -, -, -, hcap, -⟩ := Caps.wf_lt h.caps
  rw [lzwDecompressRule]
  split
  · rename_i hm
    refine Ending.good_ofRun (storeDecompressed_dataOk h (Nat.zero_le _) dictOk_empty)
      ((decompressRun_raises s _).mono (by decide)) fun r hr => ?_
    obtain ⟨htext, hparents, hentries⟩ := decompressRun_ok hr
    exact storeDecompressed_dataOk h htext (hparents.dictOk (by omega))
  · exact ⟨by decide, h⟩

/-- Good data, and OUT holds at least a header (45_container R260). -/
def HoldsArtifact (s : State) : Prop := DataOk s ∧ 9 ≤ s.out.len.toNat

/-- Good data, and IN holds at least a header. -/
def HoldsInput (s : State) : Prop := DataOk s ∧ 9 ≤ s.inp.len.toNat

theorem DataOk.holdsArtifact (h : DataOk s) {tag : Byte} {x : List Byte} (htag : tag.toNat ≤ 3)
    (hnine : 9 ≤ x.length) (hx : x.length ≤ s.caps.outCap) : HoldsArtifact (storeArtifact s tag x) := by
  obtain ⟨-, hcap, -⟩ := Caps.wf_lt h.caps
  have hlen : (BitVec.ofNat 32 x.length).toNat = x.length := ofNat_toNat_of_lt (by omega)
  exact ⟨storeArtifact_dataOk h htag hx, hnine.trans_eq hlen.symm⟩

theorem serializeTable_good (h : DataOk s) {tag : Byte} (htag : tag.toNat ≤ 3) :
    (Ending.ofRun 0x0C s (serializeTableRun tag s) fun a => storeArtifact s tag a).good HoldsArtifact := by
  refine Ending.good_ofRun h (fun _ _ hr => ?_) fun x hx => ?_
  · obtain rfl | rfl := serializeTableRun_error hr <;> decide
  · obtain ⟨hlen, hcap, -⟩ := serializeTableRun_ok hx
    exact h.holdsArtifact htag (by omega) hcap

theorem serializeHufRule_good (h : DataOk s) : (serializeHufRule s).good HoldsArtifact :=
  serializeTable_good h (by decide)

theorem serializeSfRule_good (h : DataOk s) : (serializeSfRule s).good HoldsArtifact :=
  serializeTable_good h (by decide)

theorem serializeLzwRule_good (h : DataOk s) : (serializeLzwRule s).good HoldsArtifact := by
  refine Ending.good_ofRun h (fun _ _ hr => serializeLzwRun_error hr ▸ by decide) fun x hx => ?_
  obtain ⟨ws, -, -, -, hlen, hcap, -⟩ := serializeLzwRun_ok hx
  exact h.holdsArtifact (by decide) (by omega) hcap

theorem deserializeRule_good (h : DataOk s) : (deserializeRule s).good HoldsInput := by
  refine Ending.good_ofRun h ((deserializeRun_raises s).mono (by decide)) fun u hu => ?_
  obtain ⟨hnine, ⟨ws, hws, rfl⟩ | ⟨tag, pad, t, x, htag, ht, hx, rfl⟩⟩ := deserializeRun_ok hu
  · exact ⟨storeParsedCodes_dataOk h hws, hnine⟩
  · exact ⟨storeParsedTable_dataOk h pad htag ht hx, hnine⟩

/-! ## The composites -/

theorem compressStart_good (h : DataOk s) : (compressStart s).good DataOk := by
  refine Ending.good_ofRun h ?_ fun _ _ => h
  simp [compressChecks, blockErrors]

theorem storeCompressSizes_good (h : HoldsArtifact s) : (storeCompressSizes s).good DataOk := by
  obtain ⟨hdata, hnine⟩ := h
  exact hdata.written (sizes_update_keepsOutside s _) (by simpa [Part.ok] using .inr hnine)

theorem storeDecompressSizes_good (h : HoldsInput s) : (storeDecompressSizes s).good DataOk := by
  obtain ⟨hdata, hnine⟩ := h
  exact hdata.written (sizes_update_keepsOutside s _) (by simpa [Part.ok] using .inr hnine)

theorem compressHufRule_good (h : DataOk s) : (compressHufRule s).good DataOk :=
  (compressStart_good h)
    |>.andThen (fun _ => analyzeRule_good)
    |>.andThen (fun _ => huffBuildRule_good)
    |>.andThen (fun _ => huffCodesRule_good)
    |>.andThen (fun _ => encodeRule_good)
    |>.andThen (fun _ => packRule_good)
    |>.andThen (fun _ => serializeHufRule_good)
    |>.andThen (fun _ => storeCompressSizes_good)

theorem compressSfRule_good (h : DataOk s) : (compressSfRule s).good DataOk :=
  (compressStart_good h)
    |>.andThen (fun _ => analyzeRule_good)
    |>.andThen (fun _ => rankRule_good)
    |>.andThen (fun _ => sfCodesRule_good)
    |>.andThen (fun _ => encodeRule_good)
    |>.andThen (fun _ => packRule_good)
    |>.andThen (fun _ => serializeSfRule_good)
    |>.andThen (fun _ => storeCompressSizes_good)

theorem compressLzwRule_good (h : DataOk s) : (compressLzwRule s).good DataOk :=
  (compressStart_good h)
    |>.andThen (fun _ => lzwCompressRule_good)
    |>.andThen (fun _ => serializeLzwRule_good)
    |>.andThen (fun _ => storeCompressSizes_good)

/-- The rest of DECOMPRESS keeps IN (10_state R52). -/
theorem decompressTail_good (h : HoldsInput s) : (decompressTail s).good HoldsInput := by
  obtain ⟨hdata, hnine⟩ := h
  have hgood : (decompressTail s).good DataOk := by
    rw [decompressTail]
    split
    · exact lzwDecompressRule_good hdata
    · exact (unpackRule_good hdata).andThen fun _ => decodeRule_good
  have hkeep := decompressTail_keepsOutside s
  cases hend : decompressTail s with
  | done t =>
    rw [hend] at hgood hkeep
    have hinp : t.inp = s.inp := (hkeep t rfl).parts .inp (by decide)
    exact ⟨hgood, hinp ▸ hnine⟩
  | raised code info sub t =>
    rw [hend] at hgood
    exact hgood
  | fault f => trivial

theorem decompressRule_good (h : DataOk s) : (decompressRule s).good DataOk :=
  (deserializeRule_good h)
    |>.andThen (fun _ => decompressTail_good)
    |>.andThen (fun _ => storeDecompressSizes_good)

/-- Every command's rule leaves good data, and raises an error of the block's when it fails. -/
theorem ruleOf_good (i : Instr) (h : DataOk s) : (ruleOf i s).good DataOk :=
  match i with
  | .nop => h
  | .pack => packRule_good h
  | .unpack => unpackRule_good h
  | .analyze => analyzeRule_good h
  | .rank => rankRule_good h
  | .huffBuild => huffBuildRule_good h
  | .huffCodes => huffCodesRule_good h
  | .sfCodes => sfCodesRule_good h
  | .encode => encodeRule_good h
  | .decode => decodeRule_good h
  | .lzwCompress => lzwCompressRule_good h
  | .lzwDecompress => lzwDecompressRule_good h
  | .serializeHuf => (serializeHufRule_good h).mono fun _ => And.left
  | .serializeSf => (serializeSfRule_good h).mono fun _ => And.left
  | .serializeLzw => (serializeLzwRule_good h).mono fun _ => And.left
  | .deserialize => (deserializeRule_good h).mono fun _ => And.left
  | .compressHuf => compressHufRule_good h
  | .compressSf => compressSfRule_good h
  | .compressLzw => compressLzwRule_good h
  | .decompress => decompressRule_good h

end

/-! ## The Block's turn -/

theorem inv_completeOk {s : State} (h : DataOk s) : Inv (completeOk s) :=
  (h.withControl _ s.host s.turns).inv ⟨by rintro ⟨⟩, fun _ => ⟨rfl, rfl⟩, by rintro ⟨⟩⟩

theorem inv_completeError {s : State} (h : DataOk s) {code : ErrCode} (hcode : code ∈ blockErrors) (info : Nat)
    (opc sub : Byte) : Inv (completeError code info opc sub s) := by
  have hnone : code ≠ .none := fun hc => absurd (hc ▸ hcode) (by decide)
  have hfound : code ≠ .notFound := fun hc => absurd (hc ▸ hcode) (by decide)
  exact (h.withControl _ s.host s.turns).inv ⟨by rintro ⟨⟩, fun hc => absurd hc hnone, hfound⟩

theorem exec_inv {i : Instr} {s t : State} (hs : DataOk s) (h : exec i s = .next t) : Inv t := by
  have hgood := ruleOf_good i hs
  obtain ⟨u, hu, rfl⟩ | ⟨c, n, b, u, hu, rfl⟩ := exec_next h
  · rw [hu] at hgood
    exact inv_completeOk hgood
  · rw [hu] at hgood
    obtain ⟨hcode, hdata⟩ := hgood
    exact inv_completeError hdata hcode ..

theorem blockStep_inv {s t : State} (hs : Inv s) (h : blockStep s = .next t) : Inv t := by
  obtain ⟨-, rfl⟩ | ⟨-, i, -, hexec⟩ | ⟨-, -, rfl⟩ := blockStep_cases h
  · exact hs
  · exact exec_inv hs.dataOk hexec
  · exact inv_completeError hs.dataOk (by decide) ..

/-! ## The Host's turn -/

/-- The Host and the turns are not the block's. -/
theorem Inv.withHost {s : State} (h : Inv s) (hst : HostAgent) (ts : List Turn) :
    Inv { s with host := hst, turns := ts } :=
  (h.dataOk.withControl s.ctl hst ts).inv h.control

theorem accept_inv {s : State} (h : Inv s) (w : Word) : Inv (accept w s) :=
  (h.dataOk.withControl _ s.host s.turns).inv ⟨fun _ => ⟨rfl, rfl, rfl⟩, fun _ => ⟨rfl, rfl⟩, by rintro ⟨⟩⟩

theorem setWbusy_inv {s : State} (h : Inv s) : Inv (setWbusy s) :=
  (h.dataOk.withControl _ s.host s.turns).inv ⟨h.control.busy, h.control.success, h.control.notFound⟩

theorem clearStatus_inv {s : State} (h : Inv s) (hidle : s.ctl.busy = false) (v : Word) : Inv (clearStatus v s) :=
  (h.dataOk.withControl _ s.host s.turns).inv
    ⟨fun hb => absurd (hidle.symm.trans hb) (by decide), h.control.success, h.control.notFound⟩

/-- A register write while idle: the length registers take any value (10_state R29 to R34). -/
theorem csrWrite_inv {s : State} (h : Inv s) (hidle : s.ctl.busy = false) (r : CsrName) (v : Word) :
    Inv (csrWrite s r v) := by
  have hdata := h.dataOk
  cases r with
  | cmd => exact accept_inv h v
  | ctrl =>
    exact (hdata.withControl _ s.host s.turns).inv ⟨h.control.busy, h.control.success, h.control.notFound⟩
  | status => exact clearStatus_inv h hidle v
  | inLen | bitsLen | pad | payloadLen | codesLen =>
    refine DataOk.inv ⟨hdata.caps, fun p => ?_⟩ h.control
    have hp := hdata.parts p
    cases p <;> exact hp
  | _ => exact h

theorem lt_spaceBound_of_not_badAccess {s : State} {t : Txn} (h : badAccess s t = false) :
    t.off.toNat < spaceBound s t.space := by
  simp only [badAccess, Bool.or_eq_false_iff, decide_eq_false_iff_not] at h
  omega

/-- One element written below the capacity. -/
theorem write_one_ok {α : Type} {m : Memory α} {n a : Nat} (hwf : Memory.wf m) (hb : Memory.below m n) (ha : a < n)
    (x : α) : Memory.wf (Memory.write m a [x]) ∧ Memory.below (Memory.write m a [x]) n :=
  ⟨Memory.write_wf hwf a [x], Memory.write_below hb a [x] ha⟩

/-- A write of one buffer. -/
theorem Inv.wroteBuffer {s t : State} (h : Inv s) (p : Part) (hctl : t.ctl = s.ctl) (hcaps : t.caps = s.caps)
    (hsame : ∀ q, q ∉ [p] → Part.same s t q) (hp : Part.ok t p) : Inv t :=
  (h.dataOk.changed [p] hcaps hsame (by simpa using hp)).inv (hctl ▸ h.control)

/-- A valid write while idle (20_memory R94: below the space's bound). -/
theorem busWrite_inv {s : State} (h : Inv s) (hidle : s.ctl.busy = false) {space off : Nat} (v : Word)
    (hoff : off < spaceBound s space) : Inv (busWrite s space off v) := by
  have hstorage := h.storage
  obtain ⟨-, r, -, he⟩ | ⟨rfl, he⟩ | ⟨rfl, he⟩ | ⟨rfl, he⟩ | ⟨rfl, he⟩ | he := busWrite_cases s space off v <;> rw [he]
  · exact csrWrite_inv h hidle r v
  · exact h.wroteBuffer .inp rfl rfl (fun p hp => by cases p <;> simp [Part.same] at hp ⊢)
      (write_one_ok hstorage.inCanon hstorage.inBound hoff _)
  · exact h.wroteBuffer .bits rfl rfl (fun p hp => by cases p <;> simp [Part.same] at hp ⊢)
      (write_one_ok hstorage.bitsCanon hstorage.bitsBound hoff _)
  · exact h.wroteBuffer .payload rfl rfl (fun p hp => by cases p <;> simp [Part.same] at hp ⊢)
      (write_one_ok hstorage.payloadCanon hstorage.payloadBound hoff _)
  · exact h.wroteBuffer .codes rfl rfl (fun p hp => by cases p <;> simp [Part.same] at hp ⊢)
      (write_one_ok hstorage.codesCanon hstorage.codesBound (Nat.div_lt_of_lt_mul hoff) _)
  · exact h

theorem busAccess_inv {s : State} (h : Inv s) (t : Txn) : Inv (busAccess t s).2 := by
  obtain he | ⟨-, he⟩ | ⟨hidle, -, hvalid, he⟩ := busAccess_cases t s
  · exact he.symm ▸ h
  · exact he.symm ▸ setWbusy_inv h
  · exact he.symm ▸ busWrite_inv h hidle t.data (lt_spaceBound_of_not_badAccess hvalid)

theorem hostStep_inv {s t : State} (hs : Inv s) (h : hostStep s = .next t) : Inv t := by
  obtain ⟨hst, rfl⟩ | ⟨txn, hst, rfl⟩ := hostStep_cases h
  · exact hs.withHost hst s.turns
  · exact (busAccess_inv hs txn).withHost hst _

/-- Settles O55: the Host's turn by `hostStep_inv`, the Block's by `blockStep_inv`, a reset by `inv_reset`. -/
theorem stepKeepsTheInvariant : Obligations.StepKeepsTheInvariant := by
  intro s t hs h
  obtain ⟨ts, hhost⟩ | ⟨ts, hblock⟩ | ⟨hst, ts, rfl⟩ := step_cases h
  · exact hostStep_inv (hs.withHost s.host ts) hhost
  · exact blockStep_inv (hs.withHost s.host ts) hblock
  · exact inv_reset hs.caps hst ts _

end Sys2Proof.Machine
end

section
/-! PROOFS of 20_memory.md, the transactions: which of them get BUS_ERROR (R75), that a read changes WBUSY at most (R86),
and what a write to a storage space changes and leaves alone (R73, R74). -/

namespace Sys2Proof.Machine

/-! ## BUS_ERROR -/

theorem busyRefused_iff (s : State) (t : Txn) : busyRefused s t = true ↔ s.ctl.busy = true ∧ t.space ≠ 0 := by
  simp [busyRefused]

/-- 20_memory R75: none of the conditions (a) to (e). -/
theorem badAccess_eq_false_iff (s : State) (t : Txn) :
    badAccess s t = false ↔
      spaceWidth t.space = some t.width ∧ (t.width = .w32 → t.off.toNat % 4 = 0) ∧
      t.off.toNat < spaceBound s t.space ∧ (t.op = .write → spaceWritable t.space = true) := by
  simp only [badAccess, Bool.or_eq_false_iff, bne_eq_false_iff_eq, Bool.and_eq_false_imp, beq_iff_eq,
    decide_eq_false_iff_not, not_not, not_le, Bool.not_eq_false', and_assoc]

theorem busAccess_busError_iff (t : Txn) (s : State) :
    (busAccess t s).1 = .busError ↔ busyRefused s t = true ∨ badAccess s t = true := by
  unfold busAccess
  cases busyRefused s t
  · cases badAccess s t
    · cases t.op
      · simp
      · cases s.ctl.busy <;> simp
    · simp
  · simp

theorem busAccess_granted_iff (t : Txn) (s : State) :
    (busAccess t s).1 ≠ .busError ↔ busyRefused s t = false ∧ badAccess s t = false := by
  rw [Ne, busAccess_busError_iff, not_or, Bool.not_eq_true, Bool.not_eq_true]

/-- 20_memory R75, 70_reset R381: the effect of a BUS_ERROR. -/
theorem busAccess_busError_state {t : Txn} {s : State} (h : (busAccess t s).1 = .busError) :
    (busAccess t s).2 = if s.ctl.busy = true ∧ t.space ≠ 0 then setWbusy s else s := by
  simp only [← busyRefused_iff]
  cases hr : busyRefused s t
  · have hbad : badAccess s t = true := by simpa [hr] using (busAccess_busError_iff t s).mp h
    simp [busAccess, hr, hbad]
  · simp [busAccess, hr]

/-- 20_memory R71: spaces 1 to 4 take 8-bit accesses, the others up to 10 take 32-bit accesses. -/
theorem spaceWidth_eq_some_iff (space : Nat) (width : Width) :
    spaceWidth space = some width ↔ space ≤ 10 ∧ ((1 ≤ space ∧ space ≤ 4) ↔ width = .w8) := by
  by_cases hspace : space ≤ 10
  · interval_cases space <;> cases width <;> simp [spaceWidth]
  · obtain ⟨n, rfl⟩ : ∃ n, space = n + 11 := ⟨space - 11, by omega⟩
    simp [spaceWidth]

/-- 20_memory R73, R74: the read-only spaces. -/
theorem spaceWritable_eq_true_iff {space : Nat} (h : space ≤ 10) :
    spaceWritable space = true ↔ space ∉ [2, 6, 7, 8, 9, 10] := by
  interval_cases space <;> decide

/-- Settles O45: an access is granted iff none of the conditions holds, each condition by its own lemma and the offset
bound space by space. -/
theorem busErrorConditions : Obligations.BusErrorConditions := by
  intro t s off byteSpace outside
  refine ⟨?_, busAccess_busError_state⟩
  have hbound (hspace : t.space ≤ 10) (halign : ¬ byteSpace → off % 4 = 0) :
      off < spaceBound s t.space ↔ ¬ outside := by
    simp only [byteSpace, outside] at halign ⊢
    generalize t.space = space at *
    interval_cases space <;> simp [spaceBound, ceilDiv8] at halign ⊢ <;> omega
  have hwidth : t.width = .w32 ↔ ¬ t.width = .w8 := by cases t.width <;> decide
  rw [busAccess_busError_iff, ← not_iff_not, not_or, Bool.not_eq_true (badAccess s t), badAccess_eq_false_iff,
    spaceWidth_eq_some_iff, busyRefused_iff]
  simp only [not_or, not_lt, not_not]
  constructor
  · rintro ⟨hidle, ⟨hspace, hunit⟩, halign, hoff, hwrite⟩
    have halign' : ¬ byteSpace → off % 4 = 0 := fun h => halign (hwidth.mpr fun h8 => h (hunit.mpr h8))
    exact ⟨hspace, hunit, fun h => h.2 (halign' h.1), (hbound hspace halign').mp hoff,
      fun h => (spaceWritable_eq_true_iff hspace).mp (hwrite h.1) h.2, hidle⟩
  · rintro ⟨hspace, hunit, halign, hin, hwrite, hidle⟩
    have halign' : ¬ byteSpace → off % 4 = 0 := fun h => not_not.mp fun h4 => halign ⟨h, h4⟩
    exact ⟨hidle, ⟨hspace, hunit⟩, fun h => halign' fun hb => hwidth.mp h (hunit.mp hb),
      (hbound hspace halign').mpr hin, fun h => (spaceWritable_eq_true_iff hspace).mpr fun hm => hwrite ⟨h, hm⟩⟩

/-! ## Reads -/

/-- The storage with every buffer's contents replaced and every length register kept. -/
def State.withStorage (s : State) (inp bits payload : Memory Byte) (codes : Memory Word) : State :=
  { s with
    inp := ⟨inp, s.inp.len⟩, bits := ⟨bits, s.bits.len⟩, payload := ⟨payload, s.payload.len⟩,
    codes := ⟨codes, s.codes.len⟩ }

@[simp] theorem busyRefused_withStorage (s : State) (i b p : Memory Byte) (c : Memory Word) (t : Txn) :
    busyRefused (s.withStorage i b p c) t = busyRefused s t := rfl

@[simp] theorem badAccess_withStorage (s : State) (i b p : Memory Byte) (c : Memory Word) (t : Txn) :
    badAccess (s.withStorage i b p c) t = badAccess s t := rfl

@[simp] theorem csrRead_withStorage (s : State) (i b p : Memory Byte) (c : Memory Word) (r : CsrName) :
    csrRead (s.withStorage i b p c) r = csrRead s r := by
  cases r <;> rfl

/-- A read shows of the four storage buffers at most the one element it names. -/
theorem busRead_withStorage {s : State} {i b p : Memory Byte} {c : Memory Word} {space off : Nat}
    (hi : space = 1 → Memory.get i off = Memory.get s.inp.mem off)
    (hb : space = 3 → Memory.get b off = Memory.get s.bits.mem off)
    (hp : space = 4 → Memory.get p off = Memory.get s.payload.mem off)
    (hc : space = 5 → Memory.get c (off / 4) = Memory.get s.codes.mem (off / 4)) :
    busRead (s.withStorage i b p c) space off = busRead s space off := by
  unfold busRead
  split
  case h_1 => simp only [csrRead_withStorage]
  case h_2 => simp only [State.withStorage, hostByte, hi rfl]
  case h_4 => simp only [State.withStorage, hostByte, hb rfl]
  case h_5 => simp only [State.withStorage, hostByte, hp rfl]
  case h_6 => rw [State.withStorage, codesWindow, codesWindow, codeAt, codeAt, hc rfl]
  all_goals rfl

/-- 20_memory R86: what a read answers, granted or refused. -/
theorem busAccess_read_eq {t : Txn} (ho : t.op = .read) (s : State) :
    (busAccess t s).1 =
      if busyRefused s t = true ∨ badAccess s t = true then .busError else .okData (busRead s t.space t.off.toNat) := by
  split
  · rename_i h
    exact (busAccess_busError_iff t s).mpr h
  · rename_i h
    simp only [not_or, Bool.not_eq_true] at h
    rw [busAccess_read ho h.1 h.2]

/-- 20_memory R86: a read changes WBUSY at most. -/
theorem busAccess_read_state {t : Txn} (ho : t.op = .read) (s : State) :
    (busAccess t s).2 = if s.ctl.busy = true ∧ t.space ≠ 0 then setWbusy s else s := by
  by_cases h : (busAccess t s).1 = .busError
  · exact busAccess_busError_state h
  · obtain ⟨hr, hbad⟩ := (busAccess_granted_iff t s).mp h
    rw [busAccess_read ho hr hbad, if_neg fun hc => by simp [(busyRefused_iff s t).mpr hc] at hr]

/-! ## A write to a storage space while idle -/

section
variable {space : Nat} (hspace : space ∈ [1, 3, 4, 5])
include hspace

/-- 20_memory R73, R74: a write to IN, BITS, PAYLOAD or CODES changes the contents of that buffer only. -/
theorem busWrite_storage_frame (s : State) (off : Nat) (v : Word) :
    ∃ i b p c, busWrite s space off v = s.withStorage i b p c ∧
      (space ≠ 1 → i = s.inp.mem) ∧ (space ≠ 3 → b = s.bits.mem) ∧ (space ≠ 4 → p = s.payload.mem) ∧
      (space ≠ 5 → c = s.codes.mem) := by
  simp only [List.mem_cons, List.not_mem_nil, or_false] at hspace
  obtain rfl | rfl | rfl | rfl := hspace
  · exact ⟨Memory.write s.inp.mem off [v.setWidth 8], _, _, _, rfl, by simp⟩
  · exact ⟨_, Memory.write s.bits.mem off [v.setWidth 8], _, _, rfl, by simp⟩
  · exact ⟨_, _, Memory.write s.payload.mem off [v.setWidth 8], _, rfl, by simp⟩
  · exact ⟨_, _, _, Memory.write s.codes.mem (off / 4) [v], rfl, by simp⟩

/-- The element written reads back: the low byte in a byte space, the word in CODES. -/
theorem busRead_busWrite_same (s : State) (off : Nat) (v : Word) :
    busRead (busWrite s space off v) space off = if space = 5 then v else (v.setWidth 8).setWidth 32 := by
  simp only [List.mem_cons, List.not_mem_nil, or_false] at hspace
  have hget {α : Type} (m : Memory α) (a : Nat) (x : α) : Memory.get (Memory.write m a [x]) a = some x :=
    Memory.get_write_inside m a [x] 0 Nat.zero_lt_one
  obtain rfl | rfl | rfl | rfl := hspace <;> simp [busRead, busWrite, hostByte, codesWindow, codeAt, hget]

/-- Every element but the one written reads as before. -/
theorem busRead_busWrite_other (s : State) {off space' off' : Nat} (v : Word)
    (hother : space' = space → off' ≠ off ∧ (space = 5 → off' / 4 ≠ off / 4)) :
    busRead (busWrite s space off v) space' off' = busRead s space' off' := by
  have hget {α : Type} (m : Memory α) {a b : Nat} (x : α) (h : b ≠ a) :
      Memory.get (Memory.write m a [x]) b = Memory.get m b :=
    Memory.get_write_outside m a [x] b (by simp only [List.length_singleton]; omega)
  simp only [List.mem_cons, List.not_mem_nil, or_false] at hspace
  obtain rfl | rfl | rfl | rfl := hspace
  · exact busRead_withStorage (fun h => hget _ _ (hother h).1) (fun _ => rfl) (fun _ => rfl) fun _ => rfl
  · exact busRead_withStorage (fun _ => rfl) (fun h => hget _ _ (hother h).1) (fun _ => rfl) fun _ => rfl
  · exact busRead_withStorage (fun _ => rfl) (fun _ => rfl) (fun h => hget _ _ (hother h).1) fun _ => rfl
  · exact busRead_withStorage (fun _ => rfl) (fun _ => rfl) (fun _ => rfl) fun h => hget _ _ ((hother h).2 rfl)

end

/-- A valid offset of a storage space: the write answers OK. -/
theorem memWrite_storage {s : State} {space : Nat} {width : Width} {off : Word} (hidle : s.ctl.busy = false)
    (hspace : space ∈ [1, 3, 4, 5]) (hvalid : badAccess s ⟨.read, space, off, width, 0⟩ = false) (v : Word) :
    memWrite space off width v s = (.ok, busWrite s space off.toNat v) := by
  have hwritable : spaceWritable space = true := by
    simp only [List.mem_cons, List.not_mem_nil, or_false] at hspace
    obtain rfl | rfl | rfl | rfl := hspace <;> rfl
  obtain ⟨hunit, halign, hoff, -⟩ := (badAccess_eq_false_iff _ _).mp hvalid
  have hgood : badAccess s ⟨.write, space, off, width, v⟩ = false :=
    (badAccess_eq_false_iff _ _).mpr ⟨hunit, halign, hoff, fun _ => hwritable⟩
  simp [memWrite, busAccess, busyRefused, hidle, hgood]

/-- 20_memory R73, R74: every other read answers as before the write. -/
theorem busAccess_read_after_busWrite {s : State} {space : Nat} {width : Width} {off : Word}
    (hspace : space ∈ [1, 3, 4, 5]) (hvalid : badAccess s ⟨.read, space, off, width, 0⟩ = false) (v : Word) {r : Txn}
    (ho : r.op = .read) (hother : r.space ≠ space ∨ r.off ≠ off) :
    (busAccess r (busWrite s space off.toNat v)).1 = (busAccess r s).1 := by
  obtain ⟨i, b, p, c, he, -⟩ := busWrite_storage_frame hspace s off.toNat v
  rw [busAccess_read_eq ho, busAccess_read_eq ho, he, busyRefused_withStorage, badAccess_withStorage, ← he]
  split
  · rfl
  · rename_i hgood
    simp only [not_or, Bool.not_eq_true] at hgood
    obtain ⟨hunit, halign, -⟩ := (badAccess_eq_false_iff _ _).mp hvalid
    obtain ⟨hunit', halign', -⟩ := (badAccess_eq_false_iff _ _).mp hgood.2
    refine congrArg _ (busRead_busWrite_other hspace s v fun hs => ?_)
    have hoff : r.off.toNat ≠ off.toNat := fun h => (hother.resolve_left (not_not.mpr hs)) (BitVec.eq_of_toNat_eq h)
    refine ⟨hoff, fun h5 => ?_⟩
    subst h5
    rw [hs] at hunit'
    have hword : off.toNat % 4 = 0 := halign (Option.some.inj hunit).symm
    have hword' : r.off.toNat % 4 = 0 := halign' (Option.some.inj hunit').symm
    omega

/-- Settles O50: the write is `memWrite_storage`, its effect `busWrite_storage_frame`; the element reads back by
`busRead_busWrite_same`, every other read is unchanged by `busAccess_read_after_busWrite`. -/
theorem storageWritesReadBack : Obligations.StorageWritesReadBack := by
  refine ⟨fun s space width off v hidle hunit hread => ?_, fun s r ho => busAccess_read_state ho s⟩
  have hspace : space ∈ [1, 3, 4, 5] := by
    simp only [List.mem_cons, List.not_mem_nil, or_false]
    tauto
  have hvalid : badAccess s ⟨.read, space, off, width, 0⟩ = false :=
    ((busAccess_granted_iff _ s).mp hread).2
  have hword : width = .w8 ↔ space ≠ 5 := by
    obtain ⟨rfl | rfl | rfl, rfl⟩ | ⟨rfl, rfl⟩ := hunit <;> decide
  refine ⟨_, memWrite_storage hidle hspace hvalid v, ?_, fun r => busAccess_read_after_busWrite hspace hvalid v, ?_⟩
  · obtain ⟨i, b, p, c, he, -⟩ := busWrite_storage_frame hspace s off.toNat v
    have hidle' : busyRefused (busWrite s space off.toNat v) ⟨.read, space, off, width, 0⟩ = false := by
      rw [he, busyRefused_withStorage, busyRefused, hidle, Bool.false_and]
    have hvalid' : badAccess (busWrite s space off.toNat v) ⟨.read, space, off, width, 0⟩ = false := by
      rw [he, badAccess_withStorage, hvalid]
    rw [memRead, busAccess_read rfl hidle' hvalid', busRead_busWrite_same hspace]
    simp only [hword, ite_not]
  · obtain ⟨i, b, p, c, he, hi, hb, hp, hc⟩ := busWrite_storage_frame hspace s off.toNat v
    rw [he]
    refine ⟨rfl, fun h => ?_, fun h => ?_, fun h => ?_, fun h => ?_⟩
    · rw [hi h]; rfl
    · rw [hb h]; rfl
    · rw [hp h]; rfl
    · rw [hc h]; rfl

end Sys2Proof.Machine
end

section
/-! PROOFS of 20_memory.md, the spaces as the Host reads them while idle: the stored bytes (R73) and the layouts of the
windows (R77 to R82). -/

namespace Sys2Proof.Machine

/-! ## Granted reads while idle -/

section
variable {s : State} (hidle : s.ctl.busy = false)
include hidle

/-- 20_memory R71: an aligned access of the space's unit below its bound is granted. -/
theorem memRead_granted {space off : Nat} {width : Width} (hunit : spaceWidth space = some width)
    (halign : width = .w32 → off % 4 = 0) (hbound : off < spaceBound s space) (hoff : off < 2 ^ 32) :
    memRead space (BitVec.ofNat 32 off) width s = (.okData (busRead s space off), s) := by
  have hnat := ofNat_toNat_of_lt hoff
  have hgood : badAccess s ⟨.read, space, BitVec.ofNat 32 off, width, 0⟩ = false := by
    rw [badAccess_eq_false_iff, hnat]
    exact ⟨hunit, halign, hbound, fun h => by cases h⟩
  rw [memRead, busAccess_read rfl (by rw [busyRefused, hidle, Bool.false_and]) hgood, hnat]

/-- A byte space shows a byte that has been written (20_memory R73). -/
theorem memRead_byte {space off : Nat} {m : Memory Byte} {y : Byte} (hunit : spaceWidth space = some .w8)
    (hbyte : busRead s space off = (hostByte s space m off).setWidth 32) (hbound : off < spaceBound s space)
    (hoff : off < 2 ^ 32) (hy : Memory.get m off = some y) :
    memRead space (BitVec.ofNat 32 off) .w8 s = (.okData (BitVec.ofNat 32 y.toNat), s) := by
  rw [memRead_granted hidle hunit (by rintro ⟨⟩) hbound hoff, hbyte, hostByte, hy, Option.getD_some,
    BitVec.ofNat_toNat]

/-- A word space shows a word. -/
theorem memRead_word {space off : Nat} {v : Word} (hunit : spaceWidth space = some .w32) (halign : off % 4 = 0)
    (hbound : off < spaceBound s space) (hoff : off < 2 ^ 32) (hv : busRead s space off = v) :
    memRead space (BitVec.ofNat 32 off) .w32 s = (.okData v, s) :=
  hv ▸ memRead_granted hidle hunit (fun _ => halign) hbound hoff

end

/-! ## What the windows show -/

section
variable (s : State)

/-- An entry of two words at offset 8c is the words 2c and 2c + 1 of its window (20_memory R78, R79, R82). -/
theorem pairEntry_words (c : Nat) :
    8 * c / 4 = 2 * c ∧ (8 * c + 4) / 4 = 2 * c + 1 ∧ (2 * c + 1) / 2 = c ∧ (2 * c + 1) % 2 = 1 := by
  omega

theorem busRead_codes {j : Nat} {w : Word} (h : codeAt s j = some w) : busRead s 5 (4 * j) = w := by
  simp [busRead, codesWindow, h]

/-- 20_memory R78: word 2c of the window is FREQ[c], word 2c + 1 is FIRST[c]. -/
theorem busRead_freq (c : Nat) :
    busRead s 6 (8 * c) = BitVec.ofNat 32 (freqOf s.freq c) ∧
    busRead s 6 (8 * c + 4) = indexWord (firstOf s.freq c) := by
  simp [busRead, freqWindow, pairEntry_words]

/-- 10_state R46: a symbol with FREQ = 0 has FIRST = NONE. -/
theorem firstOf_eq_none {t : FreqTable} (ht : FreqOk t) {c : Nat} (h : freqOf t c = 0) : firstOf t c = none := by
  cases he : Memory.get t.table c with
  | none => simp [firstOf, he]
  | some e =>
    have hcount : 1 ≤ e.count := ht.counts _ (Memory.get_mem he)
    simp only [freqOf, he] at h
    omega

/-- 20_memory R79: word 2j of the window is entry j's symbol, word 2j + 1 its count. -/
theorem busRead_rank {j : Nat} {e : RankEntry} (h : s.rank.entries[j]? = some e) :
    busRead s 7 (8 * j) = BitVec.ofNat 32 e.sym.toNat ∧ busRead s 7 (8 * j + 4) = BitVec.ofNat 32 e.count := by
  simp [busRead, rankWindow, pairEntry_words, h]

/-- 20_memory R82: the seed codes show NONE and themselves. -/
theorem busRead_dict_seed {k : Nat} (hk : k < 256) :
    busRead s 10 (8 * k) = noneWord ∧ busRead s 10 (8 * k + 4) = BitVec.ofNat 32 k := by
  simp [busRead, dictWindow, pairEntry_words, hk]

/-- 20_memory R82: an entry shows its parent and its byte. -/
theorem busRead_dict_entry {k : Nat} (hk : 256 ≤ k) {e : DictEntry} (h : s.dict.entries[k - 256]? = some e) :
    busRead s 10 (8 * k) = BitVec.ofNat 32 e.parent ∧ busRead s 10 (8 * k + 4) = BitVec.ofNat 32 e.byte.toNat := by
  simp [busRead, dictWindow, pairEntry_words, hk.not_gt, h]

/-- 20_memory R80: word 4i + k of the window is word k of node i. -/
theorem busRead_node {i k : Nat} (hk : k < 4) {n : Node} (h : s.tree.nodes[i]? = some n) :
    busRead s 8 (16 * i + 4 * k) = nodeWord n k := by
  have hword : (16 * i + 4 * k) / 4 = 4 * i + k := by omega
  have hnode : (4 * i + k) / 4 = i := by omega
  have hpart : (4 * i + k) % 4 = k := by omega
  simp only [busRead, nodeWindow, hword, hnode, hpart, h]

/-- 20_memory R81: word 16c + q of the window is the length for q = 0, 32 code bits for q up to 8, and 0 above. -/
theorem busRead_ctab (c : Byte) {q : Nat} (hq : q < 16) :
    busRead s 9 (64 * c.toNat + 4 * q) =
      if q = 0 then BitVec.ofNat 32 (codeOf s.ctab c).length
      else if q ≤ 8 then wordOfBits ((codeOf s.ctab c).drop (32 * (q - 1)))
      else 0 := by
  have hword : (64 * c.toNat + 4 * q) / 4 = 16 * c.toNat + q := by omega
  have hsym : (16 * c.toNat + q) / 16 = c.toNat := by omega
  have hpart : (16 * c.toNat + q) % 16 = q := by omega
  simp only [busRead, ctabWindow, hword, hsym, hpart, BitVec.ofNat_toNat, BitVec.setWidth_eq]

end

/-- Settles O51: each space by what its window shows, the offsets within its bound by the table's part of the
invariant. -/
theorem listWindowsShowTheirEntries : Obligations.ListWindowsShowTheirEntries := by
  intro s hidle reads readsByte
  refine ⟨fun x hx o y hy => ?out, fun hwf o y => ⟨fun ho hy => ?inp, fun ho hy => ?bits, fun ho hy => ?payload⟩,
    fun j w hwf hj hw => ?codes, fun c => ?freq, fun hrank j e he => ?rank, fun hdict k hk hoff => ?dict⟩
  case out =>
    obtain ⟨hlen, hholds⟩ := hx
    have ho : o < x.length := (List.getElem?_eq_some_iff.mp hy).1
    have hget : Memory.get s.out.mem o = some y := by
      simpa [hy] using (Memory.holds_iff _ _ _).mp hholds o ho
    have hbound : o < s.out.len.toNat := hlen ▸ ho
    exact memRead_byte hidle rfl rfl hbound (by omega) hget
  case inp => exact memRead_byte hidle rfl rfl ho (ho.trans (Caps.wf_lt hwf).1) hy
  case bits =>
    obtain ⟨-, -, hcap, -⟩ := Caps.wf_lt hwf
    exact memRead_byte hidle rfl rfl ho (by omega) hy
  case payload =>
    obtain ⟨-, -, -, hcap, -⟩ := Caps.wf_lt hwf
    exact memRead_byte hidle rfl rfl ho (ho.trans hcap) hy
  case codes =>
    obtain ⟨-, -, -, -, hcap, -⟩ := Caps.wf_lt hwf
    have hbound : 4 * j < 4 * s.caps.codesCap := by omega
    exact memRead_word hidle rfl (by omega) hbound (by omega) (busRead_codes s hw)
  case freq =>
    have hc := c.isLt
    obtain ⟨hcount, hfirst⟩ := busRead_freq s c.toNat
    have hodd {v : Word} (hv : indexWord (firstOf s.freq c.toNat) = v) : reads 6 (8 * c.toNat + 4) v :=
      memRead_word hidle rfl (by omega) (show _ < 0x800 by omega) (by omega) (hfirst.trans hv)
    refine ⟨memRead_word hidle rfl (by omega) (show _ < 0x800 by omega) (by omega) hcount, fun h => hodd ?_,
      fun i h => hodd ?_, fun hfreq h => hodd ?_⟩
    · rw [h]; rfl
    · rw [h]; rfl
    · rw [firstOf_eq_none hfreq h]; rfl
  case rank =>
    have hj : j < s.rank.entries.length := (List.getElem?_eq_some_iff.mp he).1
    have hlen : s.rank.entries.length ≤ 256 := by simpa using length_le_of_nodup_bytes hrank.symbols
    have hbound : 8 * j + 4 < 8 * s.rank.rankN.toNat := by rw [hrank.number]; omega
    obtain ⟨hsym, hcount⟩ := busRead_rank s he
    exact ⟨memRead_word hidle rfl (by omega) (by simp only [spaceBound]; omega) (by omega) hsym,
      memRead_word hidle rfl (by omega) hbound (by omega) hcount⟩
  case dict =>
    have hbound : 8 * k + 4 < 8 * s.dict.nextCode.toNat := by omega
    have hboth {a b : Word} (h : busRead s 10 (8 * k) = a ∧ busRead s 10 (8 * k + 4) = b) :
        reads 10 (8 * k) a ∧ reads 10 (8 * k + 4) b :=
      ⟨memRead_word hidle rfl (by omega) (by simp only [spaceBound]; omega) (by omega) h.1,
        memRead_word hidle rfl (by omega) hbound hoff h.2⟩
    exact ⟨fun hseed => hboth (busRead_dict_seed s hseed), fun e hk' he => hboth (busRead_dict_entry s hk' he)⟩

/-- Settles O52: the words of a node by `busRead_node`, the words of a symbol by `busRead_ctab` and the bits of a word by
`wordOfBits_getLsbD`. -/
theorem treeAndCodeWindowsShowTheirEntries : Obligations.TreeAndCodeWindowsShowTheirEntries := by
  intro s hidle reads
  refine ⟨fun htree i => ?node, fun _ c => ?ctab⟩
  case node =>
    have hword {n : Node} (hn : s.tree.nodes[i]? = some n) (k : Nat) (hk : k < 4) :
        reads 8 (16 * i + 4 * k) (nodeWord n k) := by
      have hi : i < s.tree.nodes.length := (List.getElem?_eq_some_iff.mp hn).1
      have hsize := htree.size
      have hbound : 16 * i + 4 * k < 16 * s.tree.nnodes.toNat := by rw [htree.number]; omega
      exact memRead_word hidle rfl (by omega) hbound (by omega) (busRead_node s hk hn)
    refine ⟨fun c w hn => ?_, fun w l r hn => ?_⟩
    · have hsym : nodeWord (.leaf c w) 0 = BitVec.ofNat 32 c.toNat := (BitVec.ofNat_toNat 32 c).symm
      exact ⟨hsym ▸ hword hn 0 (by decide), hword hn 1 (by decide), hword hn 2 (by decide), hword hn 3 (by decide)⟩
    · exact ⟨hword hn 0 (by decide), hword hn 1 (by decide), hword hn 2 (by decide), hword hn 3 (by decide)⟩
  case ctab =>
    have hc := c.isLt
    have hword {q : Nat} (hq : q < 16) {v : Word} (hv : busRead s 9 (64 * c.toNat + 4 * q) = v) :
        reads 9 (64 * c.toNat + 4 * q) v :=
      memRead_word hidle rfl (by omega) (show _ < 0x4000 by omega) (by omega) hv
    refine ⟨hword (q := 0) (by decide) (busRead_ctab s c (by decide)), fun q hq => ?bits, fun q hq hq' => ?zeros⟩
    case bits =>
      refine ⟨wordOfBits ((codeOf s.ctab c).drop (32 * q)), ?_, fun k hk => ?_⟩
      · have hoff : 64 * c.toNat + 4 + 4 * q = 64 * c.toNat + 4 * (q + 1) := by omega
        rw [hoff]
        refine hword (by omega) ?_
        rw [busRead_ctab s c (by omega), if_neg (by omega), if_pos (by omega), Nat.add_sub_cancel]
      · rw [wordOfBits_getLsbD _ _ hk, List.getD_eq_getElem?_getD, List.getD_eq_getElem?_getD, List.getElem?_drop]
    case zeros =>
      refine hword hq' ?_
      rw [busRead_ctab s c hq', if_neg (by omega), if_neg (by omega)]

end Sys2Proof.Machine
end

section
/-! PROOFS of 30_encoding.md, the command words: a word's fields are its opcode, codec and reserved bits (R100), decode
and encode are inverse to each other, and the legal words are those whose fields stand in a row of R104 (R105). -/

namespace Sys2Proof

open Machine (decode_encode)

/-! ## The fields of a word -/

/-- R100: the three fields make up the whole word. -/
@[simp] theorem fieldsWord_wordFields (w : Word) : fieldsWord (wordFields w) = w := by
  unfold fieldsWord wordFields
  rw [BitVec.extractLsb'_append_extractLsb'_eq_extractLsb', BitVec.extractLsb'_append_extractLsb'_eq_extractLsb']
  · simp
  · rfl
  · rfl

theorem wordFields_opc_toNat (w : Word) : (wordFields w).opc.toNat = w.toNat % 256 := by
  simp [wordFields]

theorem wordFields_codec_toNat (w : Word) : (wordFields w).codec.toNat = w.toNat / 256 % 4 := by
  simp [wordFields, Nat.shiftRight_eq_div_pow]

theorem wordFields_rsvd_toNat (w : Word) : (wordFields w).rsvd.toNat = w.toNat / 1024 := by
  have hw := w.isLt
  simp only [wordFields, BitVec.extractLsb'_toNat, Nat.shiftRight_eq_div_pow]
  omega

/-- The row of a command in R104 is what its word is made of. -/
theorem encode_eq_iff {w : Word} {i : Instr} : encode i = w ↔ wordFields w = ⟨opcOf i, codecOf i, 0⟩ := by
  constructor
  · rintro rfl
    cases i <;> decide
  · intro hrow
    rw [encode, ← hrow, fieldsWord_wordFields]

/-! ## The rows of the opcode map -/

/-- R102, R104: a row found by the opcode alone is a command's, and its codec is 0. -/
theorem plainRow_row {opc : Byte} {i : Instr} (h : plainRow opc = some i) : opcOf i = opc ∧ codecOf i = 0 := by
  have table : ∀ opc : Byte, ∀ i ∈ plainRow opc, opcOf i = opc ∧ codecOf i = 0 := by decide
  exact table opc i h

/-- R102, R104: a row found by opcode and codec is a command's. -/
theorem codecRow_row {opc : Byte} {codec : BitVec 2} {i : Instr} (h : codecRow opc codec = some i) :
    opcOf i = opc ∧ codecOf i = codec := by
  have table : ∀ (opc : Byte) (codec : BitVec 2), ∀ i ∈ codecRow opc codec, opcOf i = opc ∧ codecOf i = codec := by
    decide
  exact table opc codec i h

/-- R105: the opcodes that take no codec. -/
theorem exists_plainRow {opc : Byte} (h : opc.toNat ≤ 0x0B ∨ opc.toNat = 0x0D ∨ opc.toNat = 0x11) :
    ∃ i, plainRow opc = some i := by
  rw [← Option.isSome_iff_exists]
  revert opc
  decide

/-- R105: the opcodes that take a codec, each with 1, 2 and 3. -/
theorem exists_codecRow {opc : Byte} {codec : BitVec 2} (hopc : opc.toNat = 0x0C ∨ opc.toNat = 0x10)
    (hcodec : codec.toNat = 1 ∨ codec.toNat = 2 ∨ codec.toNat = 3) : ∃ i, codecRow opc codec = some i := by
  rw [← Option.isSome_iff_exists]
  revert opc codec
  decide

/-! ## Decode and encode -/

/-- R109: a word that decodes to a command has the fields of the command's row. -/
theorem decode_ok_fields {w : Word} {i : Instr} (h : decode w = .ok i) :
    wordFields w = ⟨opcOf i, codecOf i, 0⟩ := by
  simp only [decode] at h
  generalize wordFields w = f at h ⊢
  obtain ⟨opc, codec, rsvd⟩ := f
  split at h
  · cases h
  next hrsvd =>
    obtain rfl : rsvd = 0 := not_not.mp hrsvd
    split at h
    next i hrow =>
      split at h
      next hcodec =>
        cases h
        obtain ⟨rfl, hzero⟩ := plainRow_row hrow
        rw [hzero, ← hcodec]
      next => cases h
    next =>
      split at h
      next =>
        split at h
        next i hrow =>
          cases h
          obtain ⟨rfl, rfl⟩ := codecRow_row hrow
          rfl
        next => cases h
      next => cases h

/-- R105, R107: decode and encode are inverse to each other. -/
theorem decode_eq_ok_iff {w : Word} {i : Instr} : decode w = .ok i ↔ encode i = w :=
  ⟨fun h => encode_eq_iff.mpr (decode_ok_fields h), fun h => h ▸ decode_encode i⟩

/-- R106: a word that is no command's is illegal. -/
theorem decode_error_of_not_encode {w : Word} (h : ∀ i, encode i ≠ w) : ∃ e, decode w = .error e := by
  cases hd : decode w with
  | ok i => exact absurd (decode_eq_ok_iff.mp hd) (h i)
  | error e => exact ⟨e, rfl⟩

/-- R105: the fields of the twenty commands, as numbers. -/
theorem row_toNat (i : Instr) :
    (((opcOf i).toNat ≤ 0x0B ∨ (opcOf i).toNat = 0x0D ∨ (opcOf i).toNat = 0x11) ∧ (codecOf i).toNat = 0) ∨
    (((opcOf i).toNat = 0x0C ∨ (opcOf i).toNat = 0x10) ∧
      ((codecOf i).toNat = 1 ∨ (codecOf i).toNat = 2 ∨ (codecOf i).toNat = 3)) := by
  cases i <;> decide

/-- Settles O2: the inverse is `decode_eq_ok_iff`; a word's fields are a command's row (`decode_ok_fields`), and fields
that meet R105 find one (`exists_plainRow`, `exists_codecRow`). -/
theorem legalWordsAreTheTwentyWords : Obligations.LegalWordsAreTheTwentyWords := by
  refine ⟨fun w i => decode_eq_ok_iff, fun w => ?_⟩
  simp only [decode_eq_ok_iff, encode_eq_iff, ← wordFields_opc_toNat, ← wordFields_codec_toNat,
    ← wordFields_rsvd_toNat]
  obtain ⟨opc, codec, rsvd⟩ := wordFields w
  constructor
  · rintro ⟨i, hrow⟩
    cases hrow
    exact ⟨rfl, row_toNat i⟩
  · rintro ⟨hrsvd, ⟨hopc, hcodec⟩ | ⟨hopc, hcodec⟩⟩ <;> obtain rfl : rsvd = 0 := BitVec.eq_of_toNat_eq hrsvd
    · obtain ⟨i, hi⟩ := exists_plainRow hopc
      obtain rfl : codec = 0 := BitVec.eq_of_toNat_eq hcodec
      obtain ⟨rfl, hzero⟩ := plainRow_row hi
      exact ⟨i, by rw [hzero]⟩
    · obtain ⟨i, hi⟩ := exists_codecRow hopc hcodec
      obtain ⟨rfl, rfl⟩ := codecRow_row hi
      exact ⟨i, rfl⟩

/-- Settles O1: each table word is the word of its row's command. -/
theorem decoderReadsTheTableWords : Obligations.DecoderReadsTheTableWords :=
  ⟨decode_encode .nop, decode_encode .pack, decode_encode .unpack, decode_encode .analyze, decode_encode .rank,
    decode_encode .huffBuild, decode_encode .huffCodes, decode_encode .sfCodes, decode_encode .encode,
    decode_encode .decode, decode_encode .lzwCompress, decode_encode .lzwDecompress, decode_encode .serializeHuf,
    decode_encode .serializeSf, decode_encode .serializeLzw, decode_encode .deserialize, decode_encode .compressHuf,
    decode_encode .compressSf, decode_encode .compressLzw, decode_encode .decompress⟩

end Sys2Proof
end

section
/-! PROOFS of 30_encoding.md, the words on the bus and the Host programs: an illegal word completes with ILLEGAL_COMMAND
(R106), and the control transfers of a Host program go to their labels (R111, R112). -/

namespace Sys2Proof.Machine

/-! ## The Block's turn -/

/-- A busy block completes on a Block turn and with no turn left (log entry 1). -/
theorem step_blockTurn {s : State} {rest : List Turn} (hb : s.ctl.busy = true)
    (ht : s.turns = [] ∧ rest = [] ∨ s.turns = .block :: rest) : step s = blockStep { s with turns := rest } := by
  obtain ⟨ht, rfl⟩ | ht := ht
  · rw [step_busy ht hb, ← ht]
  · exact step_block ht

theorem blockStep_illegal {s : State} (hb : s.ctl.busy = true) (hd : ∃ e, decode s.ctl.cmd = .error e) :
    blockStep s = .next (completeIllegal s) := by
  obtain ⟨e, he⟩ := hd
  simp [blockStep, hb, he]

/-- A word is below the saturation bound of ERR_INFO (10_state R28). -/
@[simp] theorem satWord_word (w : Word) : satWord w.toNat = w :=
  BitVec.eq_of_toNat_eq (satWord_toNat _ w.isLt)

/-- R106: what the completion of an illegal word writes. -/
theorem completeIllegal_eq (s : State) :
    completeIllegal s = { s with ctl := ⟨s.ctl.cmd, s.ctl.ie, false, true, s.ctl.wbusy,
      ⟨.illegalCommand, s.ctl.cmd.setWidth 8, s.ctl.cmd.setWidth 8⟩, s.ctl.cmd⟩ } := by
  simp [completeIllegal, completeError, BitVec.setWidth_eq_extractLsb']

/-- Settles O3: the Host's turns change only WBUSY and the Host (`hostTurns_busy`), and the word in the latch decodes to
no command, so the Block's turn is `completeIllegal`. -/
theorem illegalWordCompletesWithIllegalCommand : Obligations.IllegalWordCompletesWithIllegalCommand := by
  intro s w hillegal hidle
  refine ⟨memWrite_csr hidle .cmd w, fun n later rest u hlater ht hrun => ?_⟩
  obtain ⟨hst, wb, hu⟩ := hostTurns_busy (accept_ctl_busy w s) ht hrun
  have hbusy : u.ctl.busy = true := by rw [hu]; rfl
  have hdecode : ∃ e, decode u.ctl.cmd = .error e := by rw [hu]; exact decode_error_of_not_encode hillegal
  have hturns : u.turns = later := by rw [hu]
  rw [step_blockTurn hbusy (by rwa [hturns]), blockStep_illegal (s := { u with turns := rest }) hbusy hdecode,
    completeIllegal_eq, hu]
  exact ⟨rfl, rfl⟩

/-! ## Control transfers of a Host program -/

/-- The Host's turn is the statement of its line. -/
theorem hostStep_line {s : State} {lab : Option Nat} {st : Stmt} (h : s.host.prog[s.host.pos]? = some ⟨lab, st⟩) :
    hostStep s = hostStmt s st := by
  simp [hostStep, h]

/-- R111: a label that marks one line stands for that line. -/
theorem lineOf_eq_some {p : HostProgram} {q l : Nat} {line : Line} (hp : p.labelsDistinct = true)
    (hq : p[q]? = some line) (hl : line.label = some l) : lineOf p l = some q := by
  obtain ⟨hlt, rfl⟩ := List.getElem?_eq_some_iff.mp hq
  have hdistinct : p.Pairwise fun a b => ∀ k, a.label = some k → ∀ k', b.label = some k' → k ≠ k' :=
    List.pairwise_filterMap.mp (of_decide_eq_true hp)
  refine List.findIdx?_eq_some_iff_getElem.mpr ⟨hlt, by simpa using hl, fun j hj hlabel => ?_⟩
  exact List.pairwise_iff_getElem.mp hdistinct j q _ hlt hj l (by simpa using hlabel) l hl rfl

/-- R112: a label that no line has stands for none. -/
theorem lineOf_eq_none {p : HostProgram} {l : Nat} (h : l ∉ p.labels) : lineOf p l = none := by
  simpa [lineOf, HostProgram.labels] using h

theorem hostJump_label {s : State} {l q : Nat} (h : lineOf s.host.prog l = some q) :
    hostJump s l = .next (hostGoto s q) := by
  simp [hostJump, h]

section
variable {s : State} {t : Fin 8} {mask v : Word} (hv : s.host.vars[t] = .word v)
include hv

/-- R111: a branch whose condition holds is a jump. -/
theorem hostBranch_taken {onNonzero : Bool} (h : (v &&& mask != 0) = onNonzero) (l : Nat) :
    hostBranch s t mask onNonzero l = hostJump s l := by
  subst h
  simp [hostBranch, hv]

/-- R111: a branch whose condition fails goes on at the next line. -/
theorem hostBranch_notTaken {onNonzero : Bool} (h : (v &&& mask != 0) = !onNonzero) (l : Nat) :
    hostBranch s t mask onNonzero l = .next (hostGoto s (s.host.pos + 1)) := by
  obtain rfl : onNonzero = !(v &&& mask != 0) := by rw [h, Bool.not_not]
  simp [hostBranch, hv]

end

/-- 70_reset R383: a branch on a variable without data. -/
theorem hostBranch_noData {s : State} {t : Fin 8} (hv : s.host.vars[t] = .noData) (mask : Word) (onNonzero : Bool)
    (l : Nat) : hostBranch s t mask onNonzero l = .fault (.hostUsesRefusedRead t) := by
  simp [hostBranch, hv]

/-- Settles O58: each statement by its case of `hostBranch` and `hostJump`, the label's line by `lineOf_eq_some`. -/
theorem hostBranchesGoToTheirLabels : Obligations.HostBranchesGoToTheirLabels := by
  intro s lab t mask l
  refine ⟨fun v hv => ⟨fun hz h => ?_, fun hz h => ?_, fun q line hp hq hl => ?_⟩, hostStep_line, fun hv h => ?_,
    fun hl h => ?_⟩
  · exact (hostStep_line h).trans (hostBranch_notTaken hv (by simpa using hz) l)
  · exact (hostStep_line h).trans (hostBranch_notTaken hv (by simpa using hz) l)
  · have hjump := hostJump_label (lineOf_eq_some hp hq hl)
    refine ⟨fun hz h => ?_, fun hz h => ?_, fun h => ?_⟩
    · exact (hostStep_line h).trans ((hostBranch_taken hv (by simpa using hz) l).trans hjump)
    · exact (hostStep_line h).trans ((hostBranch_taken hv (by simpa using hz) l).trans hjump)
    · exact (hostStep_line h).trans hjump
  · obtain h | h := h
    · exact (hostStep_line h).trans (hostBranch_noData hv mask true l)
    · exact (hostStep_line h).trans (hostBranch_noData hv mask false l)
  · refine (hostStep_line h).trans ?_
    simp [hostStmt, hostJump, lineOf_eq_none hl]

end Sys2Proof.Machine
end

section
/-! PROOFS of 30_encoding.md, the Host program `RUN m` (R113): its first turn is the acceptance, its loop polls STATUS
while BUSY = 1 (70_reset R377), and it leaves the loop after the completion. -/

namespace Sys2Proof.Machine

/-! ## Runs and turns -/

theorem run_step {s t : State} (h : step s = .next t) (n : Nat) :
    Sys2Proof.core.run (n + 1) s = Sys2Proof.core.run n t := by
  rw [Nat.add_comm]
  exact run_add ((run_one s).trans h)

/-- A command keeps the Host and the turns (`commandsKeepStateOutsideTheirWriteSet`). -/
theorem exec_host_turns {i : Instr} {s t : State} (h : exec i s = .next t) :
    t.host = s.host ∧ t.turns = s.turns := by
  obtain ⟨-, -, -, -, -, hhost, hturns, -⟩ := commandsKeepStateOutsideTheirWriteSet i s t h
  exact ⟨hhost, hturns⟩

/-- 10_state R26: the test of STATUS against mask 1 is BUSY. -/
theorem status_busy_test (s : State) : (csrRead s .status &&& 0x1 != 0) = s.ctl.busy := by
  have hbit : (statusWord s.ctl).getLsbD 0 = s.ctl.busy := statusWord_getLsbD s.ctl 0
  change (statusWord s.ctl &&& 1#32 != 0) = s.ctl.busy
  rw [BitVec.and_one_eq_setWidth_ofBool_getLsbD, hbit]
  cases s.ctl.busy <;> rfl

/-! ## The statements of RUN m -/

section
variable {s : State} {i : Instr} {fresh : Nat} (hprog : s.host.prog = pRun i fresh)
include hprog

/-- `W csr.CMD, m`, while idle: the command is accepted. -/
theorem hostStep_runAccept (hpos : s.host.pos = 0) (hidle : s.ctl.busy = false) :
    hostStep s = .next (hostReceived (accept (encode i) s) .ok) := by
  have hline : s.host.prog[s.host.pos]? = some (plain (wCsr .cmd (encode i))) := by rw [hprog, hpos]; rfl
  rw [hostStep_line hline]
  simp only [hostStmt, wCsr, memWrite_csr hidle, csrWrite]

/-- `R t7, csr.STATUS`, busy or not. -/
theorem hostStep_runPoll (hpos : s.host.pos = 1) :
    ∃ hst, hostStep s = .next { s with host := hst } ∧ hst.prog = s.host.prog ∧ hst.pos = 2 ∧
      hst.vars[(7 : Fin 8)] = .word (csrRead s .status) := by
  have hline : s.host.prog[s.host.pos]? = some (labelled fresh (rCsr 7 .status)) := by rw [hprog, hpos]; rfl
  rw [hostStep_line hline]
  simp only [hostStmt, rCsr, memRead_csr]
  exact ⟨_, rfl, rfl, congrArg (· + 1) hpos, Vector.getElem_set_self _⟩

/-- `BNZ t7, 1` after STATUS was read: back to the poll while it shows BUSY = 1, past the program otherwise. -/
theorem hostStep_runBranch {v : Word} {busy : Bool} (hpos : s.host.pos = 2) (hv : s.host.vars[(7 : Fin 8)] = .word v)
    (htest : (v &&& 0x1 != 0) = busy) : hostStep s = .next (hostGoto s (if busy then 1 else 3)) := by
  have hline : s.host.prog[s.host.pos]? = some (plain (.bnz 7 0x1 fresh)) := by rw [hprog, hpos]; rfl
  rw [hostStep_line hline, hostStmt]
  cases busy with
  | true =>
    have hlabel : lineOf s.host.prog fresh = some 1 := by
      rw [hprog]
      exact lineOf_eq_some (decide_eq_true (List.nodup_singleton fresh)) rfl rfl
    rw [hostBranch_taken hv htest, hostJump_label hlabel, if_pos rfl]
  | false =>
    rw [hostBranch_notTaken hv htest, hpos]
    rfl

end

/-! ## Polling -/

/-- The Host after `k` turns in the loop of a `RUN m`, all of them while BUSY = 1: at the poll when `k` is even, and at
the branch with a STATUS that shows BUSY = 1 when it is odd. -/
structure Polling (p : HostProgram) (k : Nat) (h : HostAgent) : Prop where
  prog : h.prog = p
  pos : h.pos = 1 + k % 2
  status : k % 2 = 1 → ∃ v, h.vars[(7 : Fin 8)] = .word v ∧ (v &&& 0x1 != 0) = true

section
variable {s : State} {i : Instr} {fresh k : Nat}

/-- A turn in the loop while BUSY = 1 changes the Host alone and stays in the loop. -/
theorem Polling.nextTurn (h : Polling (pRun i fresh) k s.host) (hb : s.ctl.busy = true) :
    ∃ hst, hostStep s = .next { s with host := hst } ∧ Polling (pRun i fresh) (k + 1) hst := by
  obtain ⟨hprog, hpos, hstatus⟩ := h
  obtain hk | hk := Nat.mod_two_eq_zero_or_one k
  · obtain ⟨hst, hstep, hprog', hpos', hvar⟩ := hostStep_runPoll hprog (by rw [hpos, hk])
    exact ⟨hst, hstep, hprog'.trans hprog, by omega, fun _ => ⟨_, hvar, (status_busy_test s).trans hb⟩⟩
  · obtain ⟨v, hv, htest⟩ := hstatus hk
    exact ⟨_, hostStep_runBranch hprog (by rw [hpos, hk]) hv htest, hprog, by simp; omega, by omega⟩

/-- 70_reset R377: any number of polls while BUSY = 1 change the Host alone. -/
theorem Polling.turns {n : Nat} {later : List Turn} (h : Polling (pRun i fresh) k s.host) (hb : s.ctl.busy = true)
    (ht : s.turns = List.replicate n .host ++ later) :
    ∃ hst, Sys2Proof.core.run n s = .next { s with host := hst, turns := later } ∧
      Polling (pRun i fresh) (k + n) hst := by
  induction n generalizing s k with
  | zero =>
    obtain rfl : s.turns = later := ht
    exact ⟨s.host, rfl, h⟩
  | succ n ih =>
    obtain ⟨hst, hstep, hpoll⟩ := h.nextTurn (s := { s with turns := List.replicate n .host ++ later }) hb
    obtain ⟨hst', hrun, hpoll'⟩ :=
      ih (s := { s with host := hst, turns := List.replicate n .host ++ later }) hpoll hb rfl
    exact ⟨hst', (run_step ((step_host ht).trans hstep) n).trans hrun, by rwa [Nat.add_right_comm] at hpoll'⟩

/-! ## Leaving the loop -/

/-- The poll after the completion reads BUSY = 0, and the branch ends the program. -/
theorem run_leaveLoop (ht : s.turns = []) (hidle : s.ctl.busy = false) (hprog : s.host.prog = pRun i fresh)
    (hpos : s.host.pos = 1) :
    ∃ hst, Sys2Proof.core.run 2 s = .next { s with host := hst } ∧ hst.prog = s.host.prog ∧ hst.pos = 3 ∧
      hst.vars[(7 : Fin 8)] = .word (csrRead s .status) := by
  obtain ⟨hst, hpoll, hprog', hpos', hvar⟩ := hostStep_runPoll hprog hpos
  have hbranch := hostStep_runBranch (s := { s with host := hst }) (hprog'.trans hprog) hpos' hvar
    ((status_busy_test s).trans hidle)
  refine ⟨{ hst with pos := 3 }, ?_, hprog', rfl, hvar⟩
  rw [run_step ((step_idle ht hidle).trans hpoll), run_one, step_idle (s := { s with host := hst }) ht hidle, hbranch]
  rfl

/-- The Host leaves the loop after the completion; from the branch it goes back to the poll first. -/
theorem Polling.leaveLoop (h : Polling (pRun i fresh) k s.host) (ht : s.turns = []) (hidle : s.ctl.busy = false) :
    ∃ hst, Sys2Proof.core.run (2 + k % 2) s = .next { s with host := hst } ∧ hst.prog = s.host.prog ∧ hst.pos = 3 ∧
      hst.vars[(7 : Fin 8)] = .word (csrRead s .status) := by
  obtain ⟨hprog, hpos, hstatus⟩ := h
  obtain hk | hk := Nat.mod_two_eq_zero_or_one k <;> rw [hk] at hpos ⊢
  · exact run_leaveLoop ht hidle hprog hpos
  · obtain ⟨v, hv, htest⟩ := hstatus hk
    rw [run_step ((step_idle ht hidle).trans (hostStep_runBranch hprog hpos hv htest))]
    exact run_leaveLoop (s := hostGoto s 1) ht hidle hprog rfl

end

/-! ## The whole program -/

/-- The schedules for n polls: a Host turn, n more, then a Block turn or none (log entry 1). -/
theorem step_firstTurn {s : State} {n : Nat} (hidle : s.ctl.busy = false)
    (ht : s.turns = List.replicate (n + 1) .host ∨ s.turns = List.replicate (n + 1) .host ++ [.block] ∨
      (n = 0 ∧ s.turns = [])) :
    ∃ later, (later = [] ∨ later = [.block]) ∧
      step s = hostStep { s with turns := List.replicate n .host ++ later } := by
  obtain ht | ht | ⟨rfl, ht⟩ := ht
  · exact ⟨[], .inl rfl, step_host (by rw [ht, List.append_nil]; rfl)⟩
  · exact ⟨[.block], .inr rfl, step_host ht⟩
  · have hnone : s = { s with turns := [] } := by rw [← ht]
    exact ⟨[], .inl rfl, (step_idle ht hidle).trans (congrArg hostStep hnone)⟩

/-- The Host's n + 1 turns: the command is accepted and the Host polls. -/
theorem run_acceptance {s : State} {i : Instr} {fresh n : Nat} (hidle : s.ctl.busy = false)
    (hprog : s.host.prog = pRun i fresh) (hpos : s.host.pos = 0)
    (ht : s.turns = List.replicate (n + 1) .host ∨ s.turns = List.replicate (n + 1) .host ++ [.block] ∨
      (n = 0 ∧ s.turns = [])) :
    ∃ u, Sys2Proof.core.run (n + 1) s = .next u ∧
      { u with host := s.host, turns := s.turns } = accept (encode i) s ∧
      (u.turns = [] ∨ u.turns = [.block]) ∧ Polling (pRun i fresh) n u.host := by
  obtain ⟨later, hlater, hfirst⟩ := step_firstTurn hidle ht
  have haccept := hfirst.trans (hostStep_runAccept hprog hpos hidle)
  have hstart : Polling (pRun i fresh) 0 { s.host with pos := s.host.pos + 1, resp := some .ok } :=
    ⟨hprog, congrArg (· + 1) hpos, by rintro ⟨⟩⟩
  obtain ⟨hst, hpolls, hpolling⟩ := Polling.turns
    (s := hostReceived (accept (encode i) { s with turns := List.replicate n .host ++ later }) .ok) hstart rfl rfl
  rw [Nat.zero_add] at hpolling
  exact ⟨_, (run_step haccept n).trans hpolls, rfl, hlater, hpolling⟩

/-- The turns after the polls: the Block completes the command, and the Host leaves the loop. -/
theorem run_completion {u t : State} {i : Instr} {fresh n : Nat} (hbusy : u.ctl.busy = true)
    (hdecode : decode u.ctl.cmd = .ok i) (hlater : u.turns = [] ∨ u.turns = [.block])
    (hpolling : Polling (pRun i fresh) n u.host) (hexec : exec i { u with turns := [] } = .next t) :
    ∃ hst, Sys2Proof.core.run (2 + n % 2 + 1) u = .next { t with host := hst } ∧ hst.prog = u.host.prog ∧
      hst.pos = 3 ∧ hst.vars[(7 : Fin 8)] = .word (csrRead t .status) := by
  obtain ⟨hhost, hturns⟩ := exec_host_turns hexec
  obtain ⟨hidle, -⟩ := exec_next_idle hexec
  have hstep : step u = .next t := by
    rw [step_blockTurn hbusy (hlater.imp_left fun h => ⟨h, rfl⟩),
      blockStep_legal (s := { u with turns := [] }) hbusy hdecode, hexec]
  rw [run_step hstep, ← hhost]
  exact Polling.leaveLoop (s := t) (by rwa [hhost]) hturns hidle

/-- Settles O59: the acceptance and the polls by `run_acceptance`, the completion and the way out of the loop by
`run_completion`. -/
theorem runPseudoInstructionRunsTheCommand : Obligations.RunPseudoInstructionRunsTheCommand := by
  intro s i fresh n hidle hprog hpos ht
  obtain ⟨u, hrun, haccepted, hlater, hpolling⟩ := run_acceptance hidle hprog hpos ht
  refine ⟨u, hrun, haccepted, fun t hexec => ?_⟩
  have hctl : u.ctl = (accept (encode i) s).ctl := (congrArg State.ctl haccepted :)
  obtain ⟨hst, hend, hprog', hpos', hvar⟩ := run_completion (by rw [hctl]; rfl) (by rw [hctl]; exact decode_encode i)
    hlater hpolling hexec
  refine ⟨{ t with host := hst }, ?_, rfl, hpos', hprog'.trans (hpolling.prog.trans hprog.symm), hvar⟩
  rw [show n + 4 + n % 2 = n + 1 + (2 + n % 2 + 1) by omega, run_add hrun, hend]

end Sys2Proof.Machine
end

section
/-! PROOFS of 40_bitpacker.md: PACK groups the bit string into bytes (R131 to R133), UNPACK expands the payload and drops
the padding (R134, R135), and the second undoes the first (R136). -/

namespace Sys2Proof.Machine

/-! ## The padding -/

theorem padCount_lt (n : Nat) : padCount n < 8 := Nat.mod_lt _ (by decide)

/-- 40_bitpacker R132: the padding fills the last byte. -/
theorem ceilDiv8_sub_padCount (n : Nat) : 8 * ceilDiv8 n - padCount n = n := by
  unfold ceilDiv8 padCount
  omega

theorem padCount_ofNat_toNat (n : Nat) : (BitVec.ofNat 3 (padCount n)).toNat = padCount n :=
  (BitVec.toNat_ofNat _ _).trans (Nat.mod_eq_of_lt (padCount_lt n))

theorem succeeded_completeOk (s : State) : succeeded (completeOk s) := ⟨rfl, rfl, rfl, rfl⟩

/-! ## PACK -/

theorem exec_pack_of_ok {s : State} {x : List Byte} {pad : Nat} (h : packRun s = .ok (x, pad)) :
    exec .pack s = .next (completeOk (storePacked s x pad)) :=
  execPack_next.mpr (.inl ⟨_, h, rfl⟩)

theorem exec_pack_of_error {s : State} {code : ErrCode} {info : Nat} (h : packRun s = .error (.error code info)) :
    exec .pack s = .next (completeError code info 0x01 0x01 s) :=
  execPack_next.mpr (.inr ⟨_, _, h, rfl⟩)

/-- 40_bitpacker R131: within the capacities PACK computes the bytes of the string, its padding being zeros. -/
theorem packRun_of_bitText {s : State} {b : BitString} (hb : bitText s b) (hbits : b.length ≤ s.caps.bitsCap)
    (hpayload : ceilDiv8 b.length ≤ s.caps.payloadCap) :
    packRun s = .ok (packBytes (ceilDiv8 b.length) b, padCount b.length) := by
  rw [packRun_eq, hb.1, if_pos hbits, if_pos hpayload, readBitString_of_bitText hb, run_ok_bind, packBytes_append_zeros]

theorem storePacked_payloadText (s : State) {x : List Byte} (pad : Nat) (hx : x.length < 2 ^ 32) :
    payloadText (storePacked s x pad) x :=
  ⟨ofNat_toNat_of_lt hx, Memory.holds_write _ _ _⟩

/-- The bytes of a bit string that BITS can hold fit PAYLOAD_LEN. -/
theorem packBytes_length_lt {s : State} {b : BitString} (hb : bitText s b) :
    (packBytes (ceilDiv8 b.length) b).length < 2 ^ 32 := by
  have hlt := s.bits.len.isLt
  have hlen := hb.1
  rw [packBytes_length, ceilDiv8]
  omega

/-- 40_bitpacker R131: PACK's completion once its computation has answered the bytes and the padding count. -/
theorem exec_pack_stores {s : State} {x : List Byte} {pad : Nat} (h : packRun s = .ok (x, pad)) (hx : x.length < 2 ^ 32) :
    ∃ t, exec .pack s = .next t ∧ succeeded t ∧ payloadText t x ∧ t.pad = BitVec.ofNat 3 pad ∧
      (∀ a, x.length ≤ a → Memory.get t.payload.mem a = Memory.get s.payload.mem a) ∧
      ∀ p, p ≠ .payload → p ≠ .pad → Part.same s t p := by
  have htext := storePacked_payloadText s pad hx
  have hbeyond := storePacked_keepsBeyond s pad hx .payload
  have hframe := (storePacked_keepsOutside s x pad).completed rfl rfl rfl
  exact ⟨_, exec_pack_of_ok h, succeeded_completeOk _, htext, rfl, fun a ha => hbeyond a (htext.1.trans_le ha),
    fun p hp hp' => hframe.1 p (by simp [hp, hp'])⟩

/-- Settles O9: PACK computes `packBytes` of the string (`packRun_of_bitText`), whose bits are those of the string
(`packBytes_getElem?`), and stores it (`exec_pack_stores`); each error is the check that fails first. -/
theorem packWritesThePaddedBytes : Obligations.PackWritesThePaddedBytes := by
  refine ⟨fun s b hb hbits hpayload => ?_, fun s hbits => ?_, fun s hbits hpayload => ?_⟩
  · have hrun := packRun_of_bitText hb hbits hpayload
    obtain ⟨t, hexec, hok, ⟨hlen, hholds⟩, hpad, hbeyond, hframe⟩ := exec_pack_stores hrun (packBytes_length_lt hb)
    rw [packBytes_length] at hlen hbeyond
    refine ⟨t, hexec, hok, hlen, hpad ▸ padCount_ofNat_toNat _, fun j k hj hk => ?_, hbeyond, hframe⟩
    obtain ⟨y, hy, hbit⟩ := packBytes_getElem? (ceilDiv8 b.length) b j hj
    have hget := (Memory.holds_iff _ _ _).mp hholds j (by rwa [packBytes_length])
    rw [Nat.zero_add] at hget
    exact ⟨y, hget.trans hy, hbit k hk⟩
  · exact exec_pack_of_error (by rw [packRun_eq, if_neg (Nat.not_le.mpr hbits)])
  · exact exec_pack_of_error (by
      rw [packRun_eq, if_pos hbits, ceilDiv8, if_neg (Nat.not_le.mpr hpayload)])

/-! ## UNPACK -/

theorem exec_unpack_of_ok {s : State} {b : BitString} (h : unpackRun s = .ok b) :
    exec .unpack s = .next (completeOk (storeBits s b)) :=
  execUnpack_next.mpr (.inl ⟨_, h, rfl⟩)

theorem exec_unpack_of_error {s : State} {code : ErrCode} {info : Nat} (h : unpackRun s = .error (.error code info)) :
    exec .unpack s = .next (completeError code info 0x02 0x02 s) :=
  execUnpack_next.mpr (.inr ⟨_, _, h, rfl⟩)

/-- 40_bitpacker R134: within the capacities UNPACK computes the payload's bits without the last PAD. -/
theorem unpackRun_of_payloadText {s : State} {x : List Byte} (hx : payloadText s x)
    (hpayload : x.length ≤ s.caps.payloadCap) (hpad : x = [] → s.pad = 0)
    (hbits : 8 * x.length - s.pad.toNat ≤ s.caps.bitsCap) :
    unpackRun s = .ok ((bitsOfBytes x).take (8 * x.length - s.pad.toNat)) := by
  have hformat : ¬(x.length = 0 ∧ s.pad.toNat ≠ 0) := fun ⟨hnil, hne⟩ =>
    hne (congrArg BitVec.toNat (hpad (List.length_eq_zero_iff.mp hnil)))
  rw [unpackRun_eq, hx.1, if_pos hpayload, if_neg hformat, if_pos hbits, readPayload_of_payloadText hx, run_ok_bind]

/-- 20_memory R83 for the first n bits of a byte string. -/
theorem bitsOfBytes_take_eq_map {x : List Byte} {n : Nat} (hn : n ≤ 8 * x.length) :
    (bitsOfBytes x).take n = (List.range n).map fun i => (x.getD (i / 8) 0).getLsbD (7 - i % 8) := by
  refine List.ext_getElem? fun i => ?_
  by_cases hi : i < n
  · have hbyte : i / 8 < x.length := by omega
    simp [List.getElem?_take_of_lt hi, bitsOfBytes_getElem?, hi, hbyte]
  · rw [List.getElem?_eq_none (by simp; omega), List.getElem?_eq_none (by simp; omega)]

/-- Every bit of the bytes that hold a command's bit string: a bit of the string, or 0 beyond it (10_state R43). -/
theorem storeBits_bit (s : State) (b : BitString) {i : Nat} (hi : i < 8 * ceilDiv8 b.length) :
    ∃ y, Memory.get (storeBits s b).bits.mem (i / 8) = some y ∧ y.getLsbD (7 - i % 8) = b.getD i false := by
  obtain ⟨y, hy, hbit⟩ := packBytes_getElem? (ceilDiv8 b.length) b (i / 8) (by omega)
  have hget := (Memory.holds_iff _ _ _).mp (Memory.holds_write s.bits.mem 0 (packBytes (ceilDiv8 b.length) b)) (i / 8)
    (by rw [packBytes_length]; omega)
  rw [Nat.zero_add] at hget
  exact ⟨y, hget.trans hy, by rw [hbit _ (by omega), Nat.div_add_mod]⟩

theorem storeBits_bitTextZeroFilled (s : State) {b : BitString} (hb : b.length < 2 ^ 32) :
    bitTextZeroFilled (storeBits s b) b := by
  refine ⟨⟨ofNat_toNat_of_lt hb, fun i hi => ?_⟩, fun i hi hi' => ?_⟩
  · obtain ⟨y, hy, hbit⟩ := storeBits_bit s b (hi.trans_le (le_ceilDiv8 _))
    exact ⟨y, hy, by rw [hbit, List.getD_eq_getElem _ _ hi, List.getElem?_eq_getElem hi]⟩
  · obtain ⟨y, hy, hbit⟩ := storeBits_bit s b hi'
    exact ⟨y, hy, by rw [hbit, List.getD_eq_default _ _ hi]⟩

/-- 40_bitpacker R134: UNPACK's completion once its computation has answered a string. -/
theorem exec_unpack_stores {s : State} {b : BitString} (h : unpackRun s = .ok b) (hb : b.length < 2 ^ 32) :
    ∃ t, exec .unpack s = .next t ∧ succeeded t ∧ bitTextZeroFilled t b ∧
      (∀ a, ceilDiv8 b.length ≤ a → Memory.get t.bits.mem a = Memory.get s.bits.mem a) ∧
      ∀ p, p ≠ .bits → Part.same s t p := by
  have hfilled := storeBits_bitTextZeroFilled s hb
  have hbeyond := storeBits_keepsBeyond s hb .bits
  have hframe := (storeBits_keepsOutside s b).completed rfl rfl rfl
  refine ⟨_, exec_unpack_of_ok h, succeeded_completeOk _, hfilled, fun a ha => hbeyond a ?_,
    fun p hp => hframe.1 p (by simpa using hp)⟩
  rwa [hfilled.1.1]

/-- Settles O10: UNPACK computes the payload's bits without the last PAD (`unpackRun_of_payloadText`) and stores them with
zeros to the byte boundary (`exec_unpack_stores`); each error is the check that fails first. -/
theorem unpackRestoresTheBits : Obligations.UnpackRestoresTheBits := by
  refine ⟨fun s x hwf hx hpayload hpad hbits => ?_, fun s hpayload => ?_, fun s hempty hpad => ?_,
    fun s hpayload hpad hbits => ?_⟩
  · obtain ⟨-, -, hcap, -⟩ := Caps.wf_lt hwf
    have hrun := unpackRun_of_payloadText hx hpayload hpad hbits
    rw [bitsOfBytes_take_eq_map (Nat.sub_le _ _)] at hrun
    have hstores := exec_unpack_stores hrun (by simpa using Nat.lt_of_le_of_lt hbits hcap)
    rwa [List.length_map, List.length_range] at hstores
  · exact exec_unpack_of_error (by rw [unpackRun_eq, if_neg (Nat.not_le.mpr hpayload)])
  · have hformat : s.payload.len.toNat = 0 ∧ s.pad.toNat ≠ 0 :=
      ⟨congrArg BitVec.toNat hempty, fun h => hpad (BitVec.eq_of_toNat_eq h)⟩
    exact exec_unpack_of_error (by rw [unpackRun_eq, if_pos (by omega), if_pos hformat])
  · have hformat : ¬(s.payload.len.toNat = 0 ∧ s.pad.toNat ≠ 0) := fun ⟨hempty, hne⟩ =>
      hne (congrArg BitVec.toNat (hpad (BitVec.eq_of_toNat_eq hempty)))
    exact exec_unpack_of_error (by
      rw [unpackRun_eq, if_pos hpayload, if_neg hformat, if_neg (Nat.not_le.mpr hbits)])

/-! ## The round trip -/

/-- 00_scope R9: PAYLOAD has room for the bytes of every string that BITS can hold. -/
theorem Caps.ceilDiv8_le_payloadCap {c : Caps} (hwf : c.wf = true) {n : Nat} (hn : n ≤ c.bitsCap) :
    ceilDiv8 n ≤ c.payloadCap := by
  simp only [Caps.wf, Bool.and_eq_true, decide_eq_true_eq] at hwf
  rw [ceilDiv8_le]
  omega

/-- 40_bitpacker R136: from the bytes and the padding count of a string UNPACK computes the string. -/
theorem unpackRun_of_packed {s : State} {b : BitString} (hx : payloadText s (packBytes (ceilDiv8 b.length) b))
    (hpad : s.pad = BitVec.ofNat 3 (padCount b.length)) (hbits : b.length ≤ s.caps.bitsCap)
    (hpayload : ceilDiv8 b.length ≤ s.caps.payloadCap) : unpackRun s = .ok b := by
  have hempty : packBytes (ceilDiv8 b.length) b = [] → s.pad = 0 := by
    intro hnil
    have hbytes := congrArg List.length hnil
    rw [packBytes_length, List.length_nil] at hbytes
    have hroom := le_ceilDiv8 b.length
    rw [hpad, show b.length = 0 by omega]
    rfl
  have hkept : 8 * (packBytes (ceilDiv8 b.length) b).length - s.pad.toNat = b.length := by
    rw [packBytes_length, hpad, padCount_ofNat_toNat, ceilDiv8_sub_padCount]
  have hrun := unpackRun_of_payloadText hx (by rwa [packBytes_length]) hempty (hkept.trans_le hbits)
  rw [hrun, hkept, bitsOfBytes_packBytes_take]

/-- Settles O11: PACK leaves the bytes and the padding count of the string, from which UNPACK computes it
(`unpackRun_of_packed`) and stores it (`exec_unpack_stores`). -/
theorem packThenUnpackRoundTrip : Obligations.PackThenUnpackRoundTrip := by
  intro s b hwf hb hbits
  obtain ⟨-, -, hcap, -⟩ := Caps.wf_lt hwf
  have hpayload := Caps.ceilDiv8_le_payloadCap hwf hbits
  have htext := storePacked_payloadText s (padCount b.length) (packBytes_length_lt hb)
  have hrun := unpackRun_of_packed (s := completeOk (storePacked s _ _)) htext rfl hbits hpayload
  obtain ⟨u, hunpack, hok, hfilled, -⟩ := exec_unpack_stores hrun (Nat.lt_of_le_of_lt hbits hcap)
  exact ⟨_, u, exec_pack_of_ok (packRun_of_bitText hb hbits hpayload), succeeded_completeOk _, hunpack, hok, hfilled.1⟩

end Sys2Proof.Machine
end

section
/-! PROOFS of 41_frequency.md: ANALYZE counts the symbols of the text and records their first indices (R150, R151), RANK
lists the present symbols in the order of their keys (R153). -/

namespace Sys2Proof.Machine

/-! ## The entries of a frequency table -/

section
variable {f : FreqTable} (hf : FreqOk f)
include hf

theorem FreqOk.freqOf_of_mem {e : Nat × FreqEntry} (he : e ∈ f.table) : freqOf f e.1 = e.2.count := by
  simp [freqOf, Memory.get_of_mem hf.canon he]

theorem FreqOk.firstOf_of_mem {e : Nat × FreqEntry} (he : e ∈ f.table) : firstOf f e.1 = some e.2.first := by
  simp [firstOf, Memory.get_of_mem hf.canon he]

/-- 10_state R46: the table lists exactly the symbols with FREQ > 0. -/
theorem FreqOk.freqOf_pos_iff {c : Nat} : 0 < freqOf f c ↔ ∃ e ∈ f.table, e.1 = c := by
  constructor
  · intro hpos
    cases hget : Memory.get f.table c with
    | none => simp [freqOf, hget] at hpos
    | some v => exact ⟨(c, v), Memory.get_mem hget, rfl⟩
  · rintro ⟨e, he, rfl⟩
    rw [hf.freqOf_of_mem he]
    exact hf.counts e he

/-- The listed addresses are the symbols with FREQ > 0, in another order. -/
theorem FreqOk.addresses_perm :
    (f.table.map Prod.fst).Perm ((List.range 256).filter fun c => decide (0 < freqOf f c)) := by
  refine (List.perm_ext_iff_of_nodup (Memory.addresses_nodup hf.canon) (List.nodup_range.filter _)).mpr fun c => ?_
  rw [List.mem_map, List.mem_filter, List.mem_range, decide_eq_true_eq, hf.freqOf_pos_iff]
  exact ⟨fun ⟨e, he, hc⟩ => ⟨hc ▸ hf.symbols e he, e, he, hc⟩, And.right⟩

/-- 41_frequency R150: NSYM is the number of symbols with FREQ > 0. -/
theorem FreqOk.nsym_eq_countP :
    f.nsym.toNat = (List.range 256).countP fun c => decide (0 < freqOf f c) := by
  rw [hf.number, List.countP_eq_length_filter, ← hf.addresses_perm.length_eq, List.length_map]

/-- 41_frequency R151: the 256 counts add up to SYM_TOTAL, as those of absent symbols are 0. -/
theorem FreqOk.sum_freqOf : ((List.range 256).map (freqOf f)).sum = f.symTotal.toNat := by
  have hlisted : f.table.map (fun e => freqOf f e.1) = f.table.map fun e => e.2.count :=
    List.map_congr_left fun e he => hf.freqOf_of_mem he
  have hnonzero : ((· != 0) ∘ freqOf f) = fun c => decide (0 < freqOf f c) :=
    funext fun c => Bool.eq_iff_iff.mpr (by simp [Nat.pos_iff_ne_zero])
  calc ((List.range 256).map (freqOf f)).sum
      = (((List.range 256).map (freqOf f)).filter (· != 0)).sum := (List.sum_filter_bne_zero _).symm
    _ = (((List.range 256).filter fun c => decide (0 < freqOf f c)).map (freqOf f)).sum := by
        rw [List.filter_map, hnonzero]
    _ = ((f.table.map Prod.fst).map (freqOf f)).sum := ((hf.addresses_perm.map _).sum_eq).symm
    _ = (f.table.map fun e => e.2.count).sum := by rw [List.map_map, ← hlisted]; rfl
    _ = f.symTotal.toNat := hf.total

/-- 41_frequency R151: a present symbol shares its FIRST with no other symbol. -/
theorem FreqOk.firstOf_ne {c d : Nat} (hcd : c ≠ d) (hc : 0 < freqOf f c) : firstOf f c ≠ firstOf f d := by
  obtain ⟨e, he, rfl⟩ := hf.freqOf_pos_iff.mp hc
  rw [hf.firstOf_of_mem he]
  intro hfirst
  cases hget : Memory.get f.table d with
  | none => simp [firstOf, hget] at hfirst
  | some v =>
    have hd := Memory.get_mem hget
    have hsame : e.2.first = v.first := by simpa [firstOf, hget] using hfirst
    exact hcd (congrArg Prod.fst (List.inj_on_of_nodup_map hf.firsts he hd hsame))

end

/-! ## ANALYZE -/

/-- 41_frequency R150: within the capacity ANALYZE computes the frequency table of the text. -/
theorem analyzeRun_of_inText {s : State} {x : List Byte} (hx : inText s x) (hcap : x.length ≤ s.caps.inCap) :
    analyzeRun s = .ok (freqTable x) := by
  have hread : readInRange s 0 x.length = .ok x := by
    simpa using readInRange_of_inText hx (a := 0) (n := x.length) (by omega)
  rw [analyzeRun_eq, hx.1, if_pos hcap, hread, run_ok_bind]

theorem exec_analyze_of_ok {s : State} {m : Memory FreqEntry} (h : analyzeRun s = .ok m) :
    exec .analyze s = .next (completeOk { s with freq := ⟨m, BitVec.ofNat 32 m.length, s.inp.len⟩ }) :=
  execAnalyze_next.mpr (.inl ⟨_, h, rfl⟩)

theorem exec_analyze_of_error {s : State} {code : ErrCode} {info : Nat} (h : analyzeRun s = .error (.error code info)) :
    exec .analyze s = .next (completeError code info 0x03 0x03 s) :=
  execAnalyze_next.mpr (.inr ⟨_, _, h, rfl⟩)

theorem freqOf_freqTable (x : List Byte) (nsym total : Word) (c : Byte) :
    freqOf ⟨freqTable x, nsym, total⟩ c.toNat = x.count c := by
  by_cases hc : c ∈ x
  · simp [freqOf, get_freqTable, hc]
  · simp [freqOf, get_freqTable, hc, List.count_eq_zero_of_not_mem hc]

theorem firstOf_freqTable (x : List Byte) (nsym total : Word) (c : Byte) :
    firstOf ⟨freqTable x, nsym, total⟩ c.toNat = if c ∈ x then some (x.idxOf c) else none := by
  by_cases hc : c ∈ x <;> simp [firstOf, get_freqTable, hc]

/-- Settles O12: ANALYZE leaves the table of the text (`analyzeRun_of_inText`), which meets the table's part of the
invariant (`freqOk_freqTable`), and NSYM, SYM_TOTAL and the distinct FIRST follow from that part. -/
theorem analyzeCountsTheText : Obligations.AnalyzeCountsTheText := by
  refine ⟨fun s x hx hcap => ?_, fun s hcap => ?_⟩
  · have hok := freqOk_freqTable hx.1
    have hexec := exec_analyze_of_ok (analyzeRun_of_inText hx hcap)
    obtain ⟨hframe, -⟩ := commandsKeepStateOutsideTheirWriteSet _ _ _ hexec
    exact ⟨_, hexec, succeeded_completeOk _, freqOf_freqTable x _ _,
      firstOf_freqTable x _ _, hok.nsym_eq_countP, hx.1, hok.sum_freqOf,
      fun c d hcd => hok.firstOf_ne fun h => hcd (BitVec.eq_of_toNat_eq h),
      hok, fun p hp => hframe p (by simpa [writeSet] using hp)⟩
  · exact exec_analyze_of_error (by rw [analyzeRun_eq, if_neg (Nat.not_le.mpr hcap)])

/-! ## RANK -/

section
variable {f : FreqTable} (hf : FreqOk f)
include hf

/-- 41_frequency R153: the ranked list holds exactly the symbols with FREQ > 0, each with its count. -/
theorem FreqOk.mem_rankedList_iff (c : Byte) (n : Nat) :
    (⟨c, n⟩ : RankEntry) ∈ rankedList f.table ↔ freqOf f c.toNat = n ∧ 0 < n := by
  simp only [rankedList, List.mem_map, mem_sortBy, RankEntry.mk.injEq]
  constructor
  · rintro ⟨e, he, rfl, rfl⟩
    rw [Memory.symbol_toNat hf.symbols he]
    exact ⟨hf.freqOf_of_mem he, hf.counts e he⟩
  · rintro ⟨rfl, hpos⟩
    obtain ⟨e, he, hsym⟩ := hf.freqOf_pos_iff.mp hpos
    refine ⟨e, he, ?_, ?_⟩
    · rw [hsym, BitVec.ofNat_toNat, BitVec.setWidth_eq]
    · rw [← hsym, hf.freqOf_of_mem he]

/-- 41_frequency R153: no two entries share a key, so the sorted table is in strict order. -/
theorem FreqOk.sortBy_ranksBefore_strict :
    (sortBy ranksBefore f.table).Pairwise fun a b =>
      b.2.count < a.2.count ∨ (a.2.count = b.2.count ∧ a.2.first < b.2.first) := by
  have hdistinct : (sortBy ranksBefore f.table).Pairwise fun a b => a.2.first ≠ b.2.first :=
    List.pairwise_map.mp (((sortBy_perm ranksBefore f.table).map _).nodup_iff.mpr hf.firsts)
  exact ((sortBy_ranksBefore_sorted f.table).and hdistinct).imp fun ⟨hle, hne⟩ => by omega

/-- 41_frequency R153: count descending, then FIRST ascending. -/
theorem FreqOk.rankedList_sorted :
    (rankedList f.table).Pairwise fun a b => b.count < a.count ∨
      (a.count = b.count ∧ ∃ i j, firstOf f a.sym.toNat = some i ∧ firstOf f b.sym.toNat = some j ∧ i < j) := by
  have hfirst : ∀ e ∈ sortBy ranksBefore f.table, firstOf f (BitVec.ofNat 8 e.1).toNat = some e.2.first := by
    intro e he
    have hmem := (mem_sortBy _ _ _).mp he
    rw [Memory.symbol_toNat hf.symbols hmem, hf.firstOf_of_mem hmem]
  refine List.pairwise_map.mpr (hf.sortBy_ranksBefore_strict.imp_of_mem fun {a b} ha hb hab => ?_)
  exact hab.imp_right fun ⟨hcount, hlt⟩ => ⟨hcount, _, _, hfirst a ha, hfirst b hb, hlt⟩

end

/-- Settles O13: RANK leaves the ranked list of the table (`execRank_eq`), which holds the present symbols
(`FreqOk.mem_rankedList_iff`) in the order of their keys (`FreqOk.rankedList_sorted`). -/
theorem rankSortsThePresentSymbols : Obligations.RankSortsThePresentSymbols := by
  intro s hf
  have hok := rankOk_rankedList hf
  have hlength : (rankedList s.freq.table).length = s.freq.table.length := by simp [rankedList]
  have hexec : exec .rank s = _ := execRank_eq s
  obtain ⟨hframe, -⟩ := commandsKeepStateOutsideTheirWriteSet _ _ _ hexec
  exact ⟨_, hexec, succeeded_completeOk _, hf.mem_rankedList_iff, hf.rankedList_sorted, hok.number,
    hok.number.trans (hlength.trans hf.number.symm), hok, fun p hp => hframe p (by simpa [writeSet] using hp)⟩

end Sys2Proof.Machine
end

section
/-! PROOFS of 42_huffman.md, section 1: the tree that HUFF_BUILD leaves (R176, R177), and the pairs of nodes it merges
(R172 to R175). -/

namespace Sys2Proof.Machine

/-! ## The leaves -/

theorem leavesOf_length (t : Memory FreqEntry) : (leavesOf t).length = t.length := by simp [leavesOf]

theorem leavesOf_ne_internal (t : Memory FreqEntry) (i w l r : Nat) :
    (leavesOf t)[i]? ≠ some (Node.internal w l r) := by simp [leavesOf]

/-- The leaves are the ranked symbols with their counts, in another order. -/
theorem leavesOf_perm (t : Memory FreqEntry) :
    (leavesOf t).Perm ((rankedList t).map fun e => Node.leaf e.sym e.count) := by
  rw [rankedList, List.map_map]
  exact ((sortBy_perm firstBefore t).trans (sortBy_perm ranksBefore t).symm).map _

/-- Whether a node is a leaf of the symbol. -/
def isLeafOf (c : Byte) : Node → Bool
  | .leaf d _ => d == c
  | .internal _ _ _ => false

section
variable {f : FreqTable} (hf : FreqOk f)
include hf

theorem FreqOk.mem_leavesOf_iff (c : Byte) (n : Nat) :
    Node.leaf c n ∈ leavesOf f.table ↔ freqOf f c.toNat = n ∧ 0 < n := by
  rw [(leavesOf_perm f.table).mem_iff, ← hf.mem_rankedList_iff, List.mem_map]
  constructor
  · rintro ⟨e, he, hleaf⟩
    obtain ⟨rfl, rfl⟩ := Node.leaf.inj hleaf
    exact he
  · exact fun he => ⟨⟨c, n⟩, he, rfl⟩

theorem FreqOk.leavesOf_nodup : (leavesOf f.table).Nodup := by
  have hranked : (rankedList f.table).Nodup := List.Nodup.of_map _ (rankOk_rankedList hf).symbols
  exact (leavesOf_perm f.table).nodup_iff.mpr (hranked.map fun ⟨_, _⟩ ⟨_, _⟩ hab => by simpa using hab)

/-- 42_huffman R177: one leaf for each present symbol and none for another. -/
theorem FreqOk.leavesOf_filter (c : Byte) :
    (leavesOf f.table).filter (isLeafOf c) =
      if 0 < freqOf f c.toNat then [.leaf c (freqOf f c.toNat)] else [] := by
  have hsame : (leavesOf f.table).filter (isLeafOf c) =
      (leavesOf f.table).filter (· == Node.leaf c (freqOf f c.toNat)) := by
    refine List.filter_congr fun n hn => Bool.eq_iff_iff.mpr ?_
    cases n with
    | internal w l r => simp [isLeafOf]
    | leaf d m =>
      obtain ⟨hcount, -⟩ := (hf.mem_leavesOf_iff d m).mp hn
      simp only [isLeafOf, beq_iff_eq, Node.leaf.injEq]
      exact ⟨fun h => ⟨h, by rw [← hcount, h]⟩, And.left⟩
  rw [hsame, List.filter_beq, hf.leavesOf_nodup.count]
  simp only [hf.mem_leavesOf_iff, true_and]
  split <;> rfl

/-- 42_huffman R172: the leaves stand in ascending first occurrence. -/
theorem FreqOk.leavesOf_sorted :
    (leavesOf f.table).Pairwise fun a b => ∀ c m d n, a = .leaf c m → b = .leaf d n →
      ∃ p q, firstOf f c.toNat = some p ∧ firstOf f d.toNat = some q ∧ p < q := by
  have hdistinct : (sortBy firstBefore f.table).Pairwise fun a b => a.2.first ≠ b.2.first :=
    List.pairwise_map.mp (((sortBy_perm firstBefore f.table).map _).nodup_iff.mpr hf.firsts)
  have hfirst : ∀ e ∈ sortBy firstBefore f.table, firstOf f (BitVec.ofNat 8 e.1).toNat = some e.2.first := by
    intro e he
    have hmem := (mem_sortBy _ _ _).mp he
    rw [Memory.symbol_toNat hf.symbols hmem, hf.firstOf_of_mem hmem]
  refine List.pairwise_map.mpr (((sortBy_firstBefore_sorted f.table).and hdistinct).imp_of_mem
    fun {a b} ha hb ⟨hle, hne⟩ c m d n hc hd => ?_)
  obtain ⟨rfl, -⟩ := Node.leaf.inj hc
  obtain ⟨rfl, -⟩ := Node.leaf.inj hd
  exact ⟨_, _, hfirst a ha, hfirst b hb, Nat.lt_of_le_of_ne hle hne⟩

/-- The weights of the leaves add up to SYM_TOTAL. -/
theorem FreqOk.leavesOf_weights : ((leavesOf f.table).map Node.weight).sum = f.symTotal.toNat := by
  rw [← hf.total, leavesOf, List.map_map]
  exact ((sortBy_perm firstBefore f.table).map _).sum_eq

end

/-! ## What the merge loop adds -/

/-- 42_huffman R175: the loop keeps the nodes it starts with and adds internal nodes. -/
theorem mergeLoop_nodes (fuel : Nat) (nodes : List Node) (q : List QueueKey) :
    ∃ more, (mergeLoop fuel nodes q).1 = nodes ++ more ∧ ∀ n ∈ more, ∃ w l r, n = Node.internal w l r := by
  induction fuel generalizing nodes q with
  | zero => exact ⟨[], by simp [mergeLoop]⟩
  | succ fuel ih =>
    match q with
    | [] | [_] => exact ⟨[], by simp [mergeLoop]⟩
    | a :: b :: q =>
      obtain ⟨more, hnodes, hmore⟩ := ih (nodes ++ [.internal (a.1 + b.1) a.2 b.2])
        (insertSorted keyBefore (a.1 + b.1, nodes.length) q)
      exact ⟨.internal (a.1 + b.1) a.2 b.2 :: more, by simp [mergeLoop, hnodes], by simpa using hmore⟩

/-- Merging keeps the sum of the queued weights. -/
theorem mergeLoop_weights (fuel : Nat) (nodes : List Node) (q : List QueueKey) :
    ((mergeLoop fuel nodes q).2.map Prod.fst).sum = (q.map Prod.fst).sum := by
  induction fuel generalizing nodes q with
  | zero => rfl
  | succ fuel ih =>
    match q with
    | [] | [_] => rfl
    | a :: b :: q =>
      rw [mergeLoop, ih, ((insertSorted_perm _ _ q).map _).sum_eq]
      simp [Nat.add_assoc]

theorem queueFrom_weights (i : Nat) (ns : List Node) :
    ((queueFrom i ns).map Prod.fst).sum = (ns.map Node.weight).sum := by
  induction ns generalizing i with
  | nil => rfl
  | cons n ns ih => rw [queueFrom, ((insertSorted_perm _ _ _).map _).sum_eq, List.map_cons, List.sum_cons, ih]; rfl

/-- The arena of HUFF_BUILD: the leaves, then internal nodes. -/
theorem buildTree_nodes (t : Memory FreqEntry) :
    ∃ more, (buildTree t).1 = leavesOf t ++ more ∧ ∀ n ∈ more, ∃ w l r, n = Node.internal w l r :=
  mergeLoop_nodes _ _ _

theorem buildTree_leaf {t : Memory FreqEntry} {i m : Nat} {c : Byte}
    (hi : (buildTree t).1[i]? = some (Node.leaf c m)) : (leavesOf t)[i]? = some (Node.leaf c m) := by
  obtain ⟨more, hnodes, hmore⟩ := buildTree_nodes t
  rw [hnodes, List.getElem?_append] at hi
  split at hi
  · exact hi
  · obtain ⟨w, l, r, hn⟩ := hmore _ (List.mem_of_getElem? hi)
    cases hn

theorem buildTree_internal {t : Memory FreqEntry} {i w l r : Nat}
    (hi : (buildTree t).1[i]? = some (Node.internal w l r)) : (leavesOf t).length ≤ i := by
  obtain ⟨more, hnodes, -⟩ := buildTree_nodes t
  rw [hnodes, List.getElem?_append] at hi
  split at hi
  · exact absurd hi (leavesOf_ne_internal t i w l r)
  · omega

theorem buildTree_filter (t : Memory FreqEntry) (c : Byte) :
    (buildTree t).1.filter (isLeafOf c) = (leavesOf t).filter (isLeafOf c) := by
  obtain ⟨more, hnodes, hmore⟩ := buildTree_nodes t
  have hnone : more.filter (isLeafOf c) = [] := by
    refine List.filter_eq_nil_iff.mpr fun n hn => ?_
    obtain ⟨w, l, r, rfl⟩ := hmore n hn
    simp [isLeafOf]
  rw [hnodes, List.filter_append, hnone, List.append_nil]

/-! ## The whole tree -/

/-- 42_huffman R176: with a present symbol the loop ends with one queued node, the root, of weight SYM_TOTAL. -/
theorem FreqOk.buildTree_forest {f : FreqTable} (hf : FreqOk f) (hne : f.table ≠ []) :
    ∃ k, (buildTree f.table).2 = some k.2 ∧ k.1 = f.symTotal.toNat ∧
      Forest f.table.length (buildTree f.table).1 [k] := by
  have hfuel : (queueFrom 0 (leavesOf f.table)).length ≤ (leavesOf f.table).length + 1 := by
    rw [(queueFrom_perm _ _).length_eq, List.length_map, List.length_zipIdx]
    omega
  obtain ⟨k, hk, hforest⟩ := mergeLoop_forest (forest_leaves hf.canon hf.symbols hne) hfuel
  have hweight := mergeLoop_weights (leavesOf f.table).length (leavesOf f.table) (queueFrom 0 (leavesOf f.table))
  rw [hk, queueFrom_weights, hf.leavesOf_weights] at hweight
  exact ⟨k, by simp [buildTree, hk], by simpa using hweight, hforest⟩

/-- 42_huffman R177: n leaves and n - 1 merges. -/
theorem FreqOk.buildTree_length {f : FreqTable} (hf : FreqOk f) :
    (buildTree f.table).1.length = 2 * f.table.length - 1 := by
  by_cases hne : f.table = []
  · rw [hne]
    rfl
  · obtain ⟨k, -, -, hforest⟩ := hf.buildTree_forest hne
    have hcount := hforest.count
    rw [List.length_singleton] at hcount
    omega

theorem FreqOk.buildTree_root_weight {f : FreqTable} (hf : FreqOk f) {r : Nat} (hr : (buildTree f.table).2 = some r) :
    ((buildTree f.table).1[r]?).map Node.weight = some f.symTotal.toNat := by
  have hne : f.table ≠ [] := fun hnil => by rw [hnil] at hr; cases hr
  obtain ⟨k, hroot, hweight, hforest⟩ := hf.buildTree_forest hne
  obtain ⟨nd, hnode, hnd⟩ := hforest.keys k List.mem_cons_self
  obtain rfl := Option.some.inj (hr.symm.trans hroot)
  rw [hnode, Option.map_some, hnd, hweight]

/-- Settles O14: the tree meets its part of the invariant (`treeOk_buildTree`), the count and the root's weight come
from the loop's invariant (`FreqOk.buildTree_forest`), and merging adds no leaf (`buildTree_filter`). -/
theorem huffBuildTreeProperties : Obligations.HuffBuildTreeProperties := by
  intro s hf
  have hok := treeOk_buildTree hf
  have hlength := hf.buildTree_length
  have hexec : exec .huffBuild s = _ := execHuffBuild_eq s
  obtain ⟨hframe, -⟩ := commandsKeepStateOutsideTheirWriteSet _ _ _ hexec
  refine ⟨_, hexec, succeeded_completeOk _, hok.number.trans hlength, hok.number, ?root,
    fun r hr => hf.buildTree_root_weight hr, fun c => ?leaves, hok.children, hok,
    fun p hp => hframe p (by simpa [writeSet] using hp)⟩
  case root =>
    refine hok.rootLast.trans ?_
    simp only [← List.length_eq_zero_iff, hlength]
    by_cases hn : s.freq.table.length = 0
    · simp [hn]
    · rw [if_neg (by omega), if_neg hn, Nat.sub_sub]
  case leaves =>
    refine Eq.trans (List.filter_congr fun n _ => ?_) ((buildTree_filter _ c).trans (hf.leavesOf_filter c))
    cases n <;> rfl

/-! ## The merged pairs -/

/-- Node `j` is a child of an internal node before `i`. -/
def takenBefore (nodes : List Node) (j i : Nat) : Prop :=
  ∃ k w l r : Nat, k < i ∧ nodes[k]? = some (Node.internal w l r) ∧ (j = l ∨ j = r)

/-- The order of the keys (weight, index) of two nodes (42_huffman R174). -/
def keyLess (nodes : List Node) (a b : Nat) : Prop :=
  ∃ m n : Node, nodes[a]? = some m ∧ nodes[b]? = some n ∧ (m.weight < n.weight ∨ (m.weight = n.weight ∧ a < b))

/-- 42_huffman R175: a merge at arena index `i` that takes the least untaken node `l` and the second least `r`. -/
structure MergesLeast (nodes : List Node) (i w l r : Nat) : Prop where
  left_lt : l < i
  right_lt : r < i
  left_free : ¬ takenBefore nodes l i
  right_free : ¬ takenBefore nodes r i
  less : keyLess nodes l r
  least : ∀ j : Nat, j < i → j ≠ l → j ≠ r → ¬ takenBefore nodes j i → keyLess nodes r j
  weight : ∃ m n : Node, nodes[l]? = some m ∧ nodes[r]? = some n ∧ w = m.weight + n.weight

theorem takenBefore_append {nodes : List Node} {i : Nat} (hi : i ≤ nodes.length) (more : List Node) (j : Nat) :
    takenBefore (nodes ++ more) j i ↔ takenBefore nodes j i := by
  unfold takenBefore
  refine exists_congr fun k => exists_congr fun w => exists_congr fun l => exists_congr fun r =>
    and_congr_right fun hk => ?_
  rw [List.getElem?_append_left (by omega)]

theorem keyLess_append {nodes : List Node} {a b : Nat} (ha : a < nodes.length) (hb : b < nodes.length)
    (more : List Node) : keyLess (nodes ++ more) a b ↔ keyLess nodes a b := by
  unfold keyLess
  rw [List.getElem?_append_left ha, List.getElem?_append_left hb]

/-- A merge speaks of the nodes before it only. -/
theorem MergesLeast.append {nodes : List Node} {i w l r : Nat} (h : MergesLeast nodes i w l r)
    (hi : i ≤ nodes.length) (more : List Node) : MergesLeast (nodes ++ more) i w l r := by
  have hl : l < nodes.length := h.left_lt.trans_le hi
  have hr : r < nodes.length := h.right_lt.trans_le hi
  refine ⟨h.left_lt, h.right_lt, by rw [takenBefore_append hi]; exact h.left_free,
    by rw [takenBefore_append hi]; exact h.right_free, (keyLess_append hl hr more).mpr h.less,
    fun j hj hjl hjr hfree => ?_, ?_⟩
  · rw [takenBefore_append hi] at hfree
    exact (keyLess_append hr (hj.trans_le hi) more).mpr (h.least j hj hjl hjr hfree)
  · rw [List.getElem?_append_left hl, List.getElem?_append_left hr]
    exact h.weight

/-- What every round of the merge loop keeps (42_huffman R173 to R175): the queue holds the untaken nodes in the order
of their keys, and every merge so far took the least two. -/
structure QueueOk (nodes : List Node) (q : List QueueKey) : Prop where
  queued : ∀ k : QueueKey, k ∈ q ↔
    (∃ nd, nodes[k.2]? = some nd ∧ nd.weight = k.1) ∧ ¬ takenBefore nodes k.2 nodes.length
  sorted : q.Pairwise fun a b => keyBefore a b = true
  nodup : q.Nodup
  merges : ∀ i w l r : Nat, nodes[i]? = some (Node.internal w l r) → MergesLeast nodes i w l r

theorem getElem?_concat_eq_some {α : Type} {l : List α} {x y : α} {i : Nat} :
    (l ++ [x])[i]? = some y ↔ l[i]? = some y ∨ i = l.length ∧ x = y := by
  obtain hi | rfl | hi := Nat.lt_trichotomy i l.length
  · simp [List.getElem?_append_left hi, Nat.ne_of_lt hi]
  · simp
  · rw [List.getElem?_eq_none (by simp; omega), List.getElem?_eq_none (by omega)]
    simp [Nat.ne_of_gt hi]

/-- A new internal node takes its two children. -/
theorem takenBefore_concat (nodes : List Node) (w l r j : Nat) :
    takenBefore (nodes ++ [.internal w l r]) j (nodes.length + 1) ↔
      takenBefore nodes j nodes.length ∨ j = l ∨ j = r := by
  simp only [takenBefore, getElem?_concat_eq_some, Node.internal.injEq]
  constructor
  · rintro ⟨k, w', l', r', -, hk | ⟨-, -, rfl, rfl⟩, hj⟩
    · exact .inl ⟨k, w', l', r', (List.getElem?_eq_some_iff.mp hk).1, hk, hj⟩
    · exact .inr hj
  · rintro (⟨k, w', l', r', hlt, hk, hj⟩ | hj)
    · exact ⟨k, w', l', r', by omega, .inl hk, hj⟩
    · exact ⟨nodes.length, w, l, r, by omega, .inr ⟨rfl, rfl, rfl, rfl⟩, hj⟩

section
variable {nodes : List Node} {a b : QueueKey} {q : List QueueKey}

/-- A queued node is its key: two keys of one node are equal. -/
theorem QueueOk.key_ext (h : QueueOk nodes q) (ha : a ∈ q) (hb : b ∈ q) (hab : a.2 = b.2) : a = b := by
  obtain ⟨⟨x, hx, hxw⟩, -⟩ := (h.queued a).mp ha
  obtain ⟨⟨y, hy, hyw⟩, -⟩ := (h.queued b).mp hb
  obtain rfl : x = y := by simpa [hab, hy] using hx.symm
  exact Prod.ext (hxw.symm.trans hyw) hab

theorem QueueOk.key_lt (h : QueueOk nodes q) (ha : a ∈ q) : a.2 < nodes.length := by
  obtain ⟨⟨x, hx, -⟩, -⟩ := (h.queued a).mp ha
  exact (List.getElem?_eq_some_iff.mp hx).1

/-- The order of the queue is that of the nodes. -/
theorem QueueOk.keyLess_of_keyBefore (h : QueueOk nodes q) (ha : a ∈ q) (hb : b ∈ q) (hne : a ≠ b)
    (hab : keyBefore a b = true) : keyLess nodes a.2 b.2 := by
  obtain ⟨⟨x, hx, hxw⟩, -⟩ := (h.queued a).mp ha
  obtain ⟨⟨y, hy, hyw⟩, -⟩ := (h.queued b).mp hb
  refine ⟨x, y, hx, hy, ?_⟩
  have hindex : a.2 ≠ b.2 := fun heq => hne (h.key_ext ha hb heq)
  rw [keyBefore_iff] at hab
  omega

/-- The first two of the queue are the least two untaken nodes. -/
theorem QueueOk.mergesLeast (h : QueueOk nodes (a :: b :: q)) :
    MergesLeast nodes nodes.length (a.1 + b.1) a.2 b.2 := by
  have ha : a ∈ a :: b :: q := by simp
  have hb : b ∈ a :: b :: q := by simp
  obtain ⟨⟨x, hx, hxw⟩, hafree⟩ := (h.queued a).mp ha
  obtain ⟨⟨y, hy, hyw⟩, hbfree⟩ := (h.queued b).mp hb
  obtain ⟨hamin, htail⟩ := List.pairwise_cons.mp h.sorted
  obtain ⟨hbmin, -⟩ := List.pairwise_cons.mp htail
  have hab : a ≠ b := fun heq => (List.nodup_cons.mp h.nodup).1 (by simp [heq])
  refine ⟨h.key_lt ha, h.key_lt hb, hafree, hbfree, h.keyLess_of_keyBefore ha hb hab (hamin b (by simp)),
    fun j hj hja hjb hfree => ?_, x, y, hx, hy, by rw [hxw, hyw]⟩
  have hmem : (nodes[j].weight, j) ∈ a :: b :: q :=
    (h.queued (nodes[j].weight, j)).mpr ⟨⟨_, List.getElem?_eq_getElem hj, rfl⟩, hfree⟩
  have hne : b ≠ (nodes[j].weight, j) := fun heq => hjb (congrArg Prod.snd heq).symm
  obtain heq | heq | hq := by simpa only [List.mem_cons] using hmem
  · exact absurd (congrArg Prod.snd heq) hja
  · exact absurd heq.symm hne
  · exact h.keyLess_of_keyBefore hb hmem hne (hbmin _ hq)

/-- One round: the least two nodes leave the queue and their parent enters it. -/
theorem QueueOk.merge (h : QueueOk nodes (a :: b :: q)) :
    QueueOk (nodes ++ [.internal (a.1 + b.1) a.2 b.2]) (insertSorted keyBefore (a.1 + b.1, nodes.length) q) := by
  have hperm := insertSorted_perm keyBefore (a.1 + b.1, nodes.length) q
  obtain ⟨haq, hnodup⟩ := List.nodup_cons.mp h.nodup
  obtain ⟨hbq, hnodup⟩ := List.nodup_cons.mp hnodup
  have hqmem : ∀ k ∈ q, k ∈ a :: b :: q := fun k hk => by simp [hk]
  refine ⟨fun k => ?queued, insertSorted_keyBefore_sorted _ h.sorted.of_cons.of_cons, ?nodup, fun i w l r hi => ?merges⟩
  case nodup =>
    refine hperm.nodup_iff.mpr (List.nodup_cons.mpr ⟨fun hmem => ?_, hnodup⟩)
    exact Nat.lt_irrefl _ (h.key_lt (hqmem _ hmem))
  case merges =>
    obtain hi | ⟨rfl, hnew⟩ := getElem?_concat_eq_some.mp hi
    · exact (h.merges i w l r hi).append (List.getElem?_eq_some_iff.mp hi).1.le _
    · obtain ⟨rfl, rfl, rfl⟩ := Node.internal.inj hnew
      exact h.mergesLeast.append le_rfl _
  case queued =>
    simp only [hperm.mem_iff, List.mem_cons, List.length_append, List.length_singleton, takenBefore_concat,
      getElem?_concat_eq_some, not_or]
    constructor
    · rintro (rfl | hk)
      · refine ⟨⟨_, .inr ⟨rfl, rfl⟩, rfl⟩, ?_, (h.key_lt (by simp)).ne', (h.key_lt (by simp)).ne'⟩
        rintro ⟨i, w, l, r, hlt, hi, hchild⟩
        have hmerge := h.merges i w l r hi
        have hl := hmerge.left_lt
        have hr := hmerge.right_lt
        dsimp only at hchild
        omega
      · obtain ⟨⟨nd, hnd, hw⟩, hfree⟩ := (h.queued k).mp (hqmem k hk)
        refine ⟨⟨nd, .inl hnd, hw⟩, hfree, fun heq => haq ?_, fun heq => hbq ?_⟩
        · rw [← h.key_ext (hqmem k hk) (by simp) heq]
          exact List.mem_cons_of_mem _ hk
        · rwa [← h.key_ext (hqmem k hk) (by simp) heq]
    · rintro ⟨⟨nd, hnd | ⟨hlen, rfl⟩, hw⟩, hfree, hka, hkb⟩
      · obtain rfl | rfl | hq := by simpa only [List.mem_cons] using (h.queued k).mpr ⟨⟨nd, hnd, hw⟩, hfree⟩
        · exact absurd rfl hka
        · exact absurd rfl hkb
        · exact .inr hq
      · exact .inl (Prod.ext hw.symm hlen)

end

theorem mergeLoop_queueOk {nodes : List Node} {q : List QueueKey} (h : QueueOk nodes q) (fuel : Nat) :
    QueueOk (mergeLoop fuel nodes q).1 (mergeLoop fuel nodes q).2 := by
  induction fuel generalizing nodes q with
  | zero => exact h
  | succ fuel ih =>
    match q with
    | [] | [_] => exact h
    | a :: b :: q => exact ih h.merge

theorem queueFrom_sorted (i : Nat) (ns : List Node) : (queueFrom i ns).Pairwise fun a b => keyBefore a b = true := by
  induction ns generalizing i with
  | nil => exact .nil
  | cons n ns ih => exact insertSorted_keyBefore_sorted _ (ih (i + 1))

/-- 42_huffman R173: all leaves are queued and none is taken. -/
theorem queueOk_leaves (t : Memory FreqEntry) : QueueOk (leavesOf t) (queueFrom 0 (leavesOf t)) := by
  have hperm := queueFrom_perm 0 (leavesOf t)
  refine ⟨fun k => ?queued, queueFrom_sorted 0 _, hperm.nodup_iff.mpr ?nodup,
    fun i w l r hi => absurd hi (leavesOf_ne_internal t i w l r)⟩
  case queued =>
    have hfree : ¬ takenBefore (leavesOf t) k.2 (leavesOf t).length := by
      rintro ⟨i, w, l, r, -, hi, -⟩
      exact leavesOf_ne_internal t i w l r hi
    rw [hperm.mem_iff, List.mem_map, and_iff_left hfree]
    constructor
    · rintro ⟨e, he, rfl⟩
      exact ⟨e.1, List.mem_zipIdx_iff_getElem?.mp he, rfl⟩
    · rintro ⟨nd, hnd, hw⟩
      exact ⟨(nd, k.2), List.mem_zipIdx_iff_getElem?.mpr hnd, Prod.ext hw rfl⟩
  case nodup =>
    refine List.Nodup.of_map Prod.snd ?_
    rw [List.map_map]
    exact List.nodup_zipIdx_map_snd (leavesOf t)

/-- Settles O15: the leaves stand first (`buildTree_leaf`, `buildTree_internal`) in ascending FIRST
(`FreqOk.leavesOf_sorted`), and every merge took the least two of the queue (`mergeLoop_queueOk`). -/
theorem huffBuildMergesTheLeastKeys : Obligations.HuffBuildMergesTheLeastKeys := by
  intro s hf t hexec
  obtain rfl := Host.Outcome.next.inj ((execHuffBuild_eq s).symm.trans hexec)
  refine ⟨fun i j c d m n hij hi hj => ?order, fun i j w l r d n hi hj => ?leavesFirst, fun i w l r hi => ?merge⟩
  case order =>
    obtain ⟨hilt, hci⟩ := List.getElem?_eq_some_iff.mp (buildTree_leaf hi)
    obtain ⟨hjlt, hdj⟩ := List.getElem?_eq_some_iff.mp (buildTree_leaf hj)
    exact List.pairwise_iff_getElem.mp hf.leavesOf_sorted i j hilt hjlt hij c m d n hci hdj
  case leavesFirst =>
    exact (List.getElem?_eq_some_iff.mp (buildTree_leaf hj)).1.trans_le (buildTree_internal hi)
  case merge =>
    obtain ⟨hl, hr, hlfree, hrfree, hless, hleast, hweight⟩ :=
      (mergeLoop_queueOk (queueOk_leaves s.freq.table) _).merges i w l r hi
    exact ⟨hl, hr, hlfree, hrfree, hless, hleast, hweight⟩

end Sys2Proof.Machine
end

section
/-! PROOFS of 42_huffman.md, section 2: HUFF_CODES gives each leaf its path (R180 to R182), and the codes fill the code
space (R184). -/

namespace Sys2Proof.Machine

/-! ## The codes of a tree -/

section
variable {t : TreeArena} {r : Nat}

theorem treeCodes_none (hroot : t.root = none) : treeCodes t = [] := by simp [treeCodes, hroot]

theorem treeCodes_leaf {c : Byte} {w : Nat} (hroot : t.root = some r) (hr : t.nodes[r]? = some (Node.leaf c w)) :
    treeCodes t = [(c, [false])] := by simp [treeCodes, hroot, hr]

theorem treeCodes_internal {w a b : Nat} (hroot : t.root = some r) (hr : t.nodes[r]? = some (Node.internal w a b)) :
    treeCodes t = leafPaths t.nodes t.nodes.length r [] := by simp [treeCodes, hroot, hr]

theorem treeCodes_outside (hroot : t.root = some r) (hr : t.nodes[r]? = none) : treeCodes t = [] := by
  simp [treeCodes, hroot, hr]

end

theorem leafPaths_outside {nodes : List Node} {i : Nat} (hi : nodes[i]? = none) (fuel : Nat) (p : BitString) :
    leafPaths nodes fuel i p = [] := by
  cases fuel <;> simp [leafPaths, hi]

/-- The codes are those of the symbols of the leaves, in the tree's order. -/
theorem treeCodes_symbols (t : TreeArena) : (treeCodes t).map Prod.fst = treeSymbols t := by
  unfold treeSymbols
  cases hroot : t.root with
  | none => simp [treeCodes_none hroot]
  | some r =>
    cases hr : t.nodes[r]? with
    | none => simp [treeCodes_outside hroot hr, leafPaths_outside hr]
    | some node =>
      cases node with
      | leaf c w =>
        obtain ⟨n, hn⟩ := Nat.exists_eq_succ_of_ne_zero (Nat.ne_zero_of_lt (List.getElem?_eq_some_iff.mp hr).1)
        simp [treeCodes_leaf hroot hr, hn, leafPaths_leaf hr]
      | internal w a b => simp [treeCodes_internal hroot hr]

/-! ## Paths -/

section
variable {nodes : List Node} {i : Nat}

theorem descend_cons_internal {w l r : Nat} (hi : nodes[i]? = some (Node.internal w l r)) (b : Bool) (p : BitString) :
    descend nodes i (b :: p) = descend nodes (if b then r else l) p := by
  simp [descend, hi]

/-- Only an internal node leads on. -/
theorem descend_eq_some_iff (hi : ∀ w l r, nodes[i]? ≠ some (Node.internal w l r)) {d : BitString} {k : Nat} :
    descend nodes i d = some k ↔ d = [] ∧ k = i := by
  cases d with
  | nil => simp [descend, eq_comm]
  | cons b d =>
    rw [descend]
    split
    · exact absurd ‹_› (hi _ _ _)
    · simp
    · simp

/-- 42_huffman R180, R183: the walk below a node lists each leaf's symbol with the path that leads to it. -/
theorem mem_leafPaths_iff (h : ArenaOk nodes) {fuel : Nat} (hfuel : i < fuel) {p q : BitString} {c : Byte} :
    (c, q) ∈ leafPaths nodes fuel i p ↔
      ∃ d k m, q = p ++ d ∧ descend nodes i d = some k ∧ nodes[k]? = some (Node.leaf c m) := by
  induction fuel generalizing i p with
  | zero => omega
  | succ fuel ih =>
    cases hi : nodes[i]? with
    | none =>
      simp [leafPaths_outside hi, descend_eq_some_iff (nodes := nodes) (i := i) (by simp [hi]), hi]
    | some node =>
      cases node with
      | leaf c' w =>
        simp [leafPaths_leaf hi, descend_eq_some_iff (nodes := nodes) (i := i) (by simp [hi]), hi, and_comm, eq_comm]
      | internal w l r =>
        obtain ⟨hl, hr⟩ := h.children i w l r hi
        rw [leafPaths_internal hi, List.mem_append, ih (by omega), ih (by omega)]
        constructor
        · rintro (⟨d, k, m, rfl, hd, hk⟩ | ⟨d, k, m, rfl, hd, hk⟩)
          · exact ⟨false :: d, k, m, by simp, by rwa [descend_cons_internal hi], hk⟩
          · exact ⟨true :: d, k, m, by simp, by rwa [descend_cons_internal hi], hk⟩
        · rintro ⟨_ | ⟨b, d⟩, k, m, rfl, hd, hk⟩
          · obtain rfl := Option.some.inj hd
            simp [hi] at hk
          · rw [descend_cons_internal hi] at hd
            cases b with
            | false => exact .inl ⟨d, k, m, by simp, hd, hk⟩
            | true => exact .inr ⟨d, k, m, by simp, hd, hk⟩

end

/-! ## The table -/

/-- The table of a `PrefixCode` gives exactly the listed codes. -/
theorem PrefixCode.codeOf_iff {pairs : List (Byte × BitString)} (h : PrefixCode pairs) {n : Word} {c : Byte}
    {p : BitString} : codeOf ⟨assignCodes pairs, n⟩ c = p ∧ p ≠ [] ↔ (c, p) ∈ pairs := by
  have hlisted : Memory.get (assignCodes pairs) c.toNat = some p ↔ (c, p) ∈ pairs := by
    refine ⟨fun hget => ?_, fun hmem => Memory.get_of_mem (assignCodes_wf pairs)
      ((assignCodes_perm h.symbols).mem_iff.mpr (List.mem_map_of_mem hmem))⟩
    obtain ⟨e, he, heq⟩ := List.mem_map.mp ((assignCodes_perm h.symbols).mem_iff.mp (Memory.get_mem hget))
    obtain ⟨hsym, rfl⟩ := Prod.mk.inj heq
    rwa [← BitVec.eq_of_toNat_eq hsym]
  rw [← hlisted, codeOf]
  constructor
  · rintro ⟨hcode, hne⟩
    cases hget : Memory.get (assignCodes pairs) c.toNat with
    | none => exact absurd (by simpa [hget] using hcode.symm) hne
    | some q => simpa [hget] using hcode
  · intro hget
    refine ⟨by simp [hget], List.length_pos_iff.mp (h.lengths (c, p) (hlisted.mp hget)).1⟩

theorem PrefixCode.length_assignCodes {pairs : List (Byte × BitString)} (h : PrefixCode pairs) :
    (assignCodes pairs).length = pairs.length := by
  simpa using (assignCodes_perm h.symbols).length_eq

/-- Settles O16: HUFF_CODES stores the table of `treeCodes`, a `PrefixCode` (`prefixCode_treeCodes`) whose pairs below
an internal root are the paths to the leaves (`mem_leafPaths_iff`). -/
theorem huffCodesArePaths : Obligations.HuffCodesArePaths := by
  intro s htree
  have hcodes := prefixCode_treeCodes htree
  have hcount : (treeCodes s.tree).length = (treeSymbols s.tree).length := by
    rw [← treeCodes_symbols, List.length_map]
  have hok := hcodes.ctabOk
  have hexec : exec .huffCodes s = _ := execHuffCodes_eq s
  obtain ⟨hframe, -⟩ := commandsKeepStateOutsideTheirWriteSet _ _ _ hexec
  refine ⟨_, hexec, succeeded_completeOk _, fun hroot c => ?none, fun r c w hroot hr d => ?leaf,
    fun r w a b hroot hr c p => ?internal, ?count, hok, fun p hp => hframe p (by simpa [writeSet] using hp)⟩
  case none =>
    show codeOf ⟨assignCodes (treeCodes s.tree), _⟩ c = []
    rw [treeCodes_none hroot]
    rfl
  case leaf =>
    show codeOf ⟨assignCodes (treeCodes s.tree), _⟩ d = _
    rw [treeCodes_leaf hroot hr, codeOf, get_assignCodes _ (prefixCode_single c).symbols, List.find?_singleton]
    by_cases hd : d = c
    · simp [hd]
    · simp [hd, Ne.symm hd]
  case internal =>
    refine hcodes.codeOf_iff.trans ?_
    rw [treeCodes_internal hroot hr, mem_leafPaths_iff htree.arenaOk (List.getElem?_eq_some_iff.mp hr).1]
    simp
  case count => exact hok.count.trans (hcodes.length_assignCodes.trans hcount)

/-! ## The code space -/

/-- 42_huffman R184: what the codes of `pairs` fill of the code space, in units of 2^(-n). -/
def kraftSum (n : Nat) (pairs : List (Byte × BitString)) : Nat := (pairs.map fun e => 2 ^ (n - e.2.length)).sum

theorem kraftSum_append (n : Nat) (as bs : List (Byte × BitString)) :
    kraftSum n (as ++ bs) = kraftSum n as + kraftSum n bs := by
  simp [kraftSum]

/-- The table of a `PrefixCode` fills what its pairs fill. -/
theorem PrefixCode.kraftSum_eq {pairs : List (Byte × BitString)} (h : PrefixCode pairs) (n : Nat) :
    ((assignCodes pairs).map fun c => 2 ^ (n - c.2.length)).sum = kraftSum n pairs := by
  rw [((assignCodes_perm h.symbols).map _).sum_eq, List.map_map]
  rfl

/-- 42_huffman R184: the codes below a node fill the part of the code space that its path names; at an internal node
the two halves fill it together. -/
theorem kraftSum_leafPaths {nodes : List Node} (h : ArenaOk nodes) {fuel i n : Nat} (p : BitString)
    (hi : i < nodes.length) (hfuel : i < fuel) (hn : ∀ e ∈ leafPaths nodes fuel i p, e.2.length ≤ n) :
    kraftSum n (leafPaths nodes fuel i p) = 2 ^ (n - p.length) := by
  induction fuel generalizing i p with
  | zero => omega
  | succ fuel ih =>
    have hnode := List.getElem?_eq_getElem hi
    cases hval : nodes[i] with
    | leaf c w =>
      rw [leafPaths_leaf (hval ▸ hnode)]
      simp [kraftSum]
    | internal w l r =>
      rw [hval] at hnode
      obtain ⟨hli, hri⟩ := h.children i w l r hnode
      obtain ⟨hl, hr⟩ := h.child_lt hnode
      have hunder := leafPaths_under h (fuel := fuel) (p ++ [false]) hl (by omega)
      rw [leafPaths_internal hnode] at hn ⊢
      have hroom : p.length + 1 ≤ n := by
        obtain ⟨e, he⟩ := List.exists_mem_of_length_pos hunder.nonempty
        have hle := (hunder.under e he).length_le.trans (hn e (List.mem_append_left _ he))
        simpa using hle
      rw [kraftSum_append, ih _ hl (by omega) fun e he => hn e (List.mem_append_left _ he),
        ih _ hr (by omega) fun e he => hn e (List.mem_append_right _ he), List.length_append, List.length_append,
        List.length_singleton, List.length_singleton, ← Nat.two_mul, ← pow_succ']
      congr 1
      omega

/-- An internal node has leaves on both sides. -/
theorem two_le_leafPaths_internal {nodes : List Node} (h : ArenaOk nodes) {fuel i w l r : Nat} (p : BitString)
    (hi : nodes[i]? = some (Node.internal w l r)) (hfuel : i < fuel) : 2 ≤ (leafPaths nodes fuel i p).length := by
  obtain ⟨n, rfl⟩ := Nat.exists_eq_succ_of_ne_zero (Nat.ne_zero_of_lt hfuel)
  obtain ⟨hli, hri⟩ := h.children i w l r hi
  obtain ⟨hl, hr⟩ := h.child_lt hi
  have hleft := (leafPaths_under h (fuel := n) (p ++ [false]) hl (by omega)).nonempty
  have hright := (leafPaths_under h (fuel := n) (p ++ [true]) hr (by omega)).nonempty
  rw [leafPaths_internal hi, List.length_append]
  omega

/-- 42_huffman R184 for the codes of a tree: a full tree fills the code space, a single leaf half of it. -/
theorem kraftSum_treeCodes {t : TreeArena} (h : TreeOk t) :
    (2 ≤ (treeCodes t).length → kraftSum 255 (treeCodes t) = 2 ^ 255) ∧
    ((treeCodes t).length = 1 → kraftSum 255 (treeCodes t) = 2 ^ 254) := by
  have hlengths := (prefixCode_treeCodes h).lengths
  cases hroot : t.root with
  | none => simp [treeCodes_none hroot]
  | some r =>
    cases hr : t.nodes[r]? with
    | none => simp [treeCodes_outside hroot hr]
    | some node =>
      cases node with
      | leaf c w => simp [treeCodes_leaf hroot hr, kraftSum]
      | internal w a b =>
        have hlt := (List.getElem?_eq_some_iff.mp hr).1
        have htwo := two_le_leafPaths_internal h.arenaOk [] hr hlt
        rw [treeCodes_internal hroot hr] at hlengths ⊢
        exact ⟨fun _ => kraftSum_leafPaths h.arenaOk [] hlt hlt fun e he => (hlengths e he).2,
          fun hone => absurd hone (Nat.ne_of_gt htwo)⟩

/-- Settles O17: the table of HUFF_CODES fills what the codes of the tree fill (`kraftSum_treeCodes`). -/
theorem huffmanCodesMeetKraftEquality : Obligations.HuffmanCodesMeetKraftEquality := by
  intro s t htree hexec
  obtain rfl := Host.Outcome.next.inj ((execHuffCodes_eq s).symm.trans hexec)
  have hcodes := prefixCode_treeCodes htree
  have hkraft := kraftSum_treeCodes htree
  rwa [← hcodes.length_assignCodes, ← hcodes.kraftSum_eq] at hkraft

end Sys2Proof.Machine
end

section
/-! PROOFS of 42_huffman.md, sections 3 and 4: ENCODE concatenates the codes of the text (R186), DECODE parses them back
and drops the rest (R190 to R192), and together they restore the text (R194). -/

namespace Sys2Proof.Machine

/-! ## ENCODE -/

theorem exec_encode_of_error {s : State} {code : ErrCode} {info : Nat} (h : encodeRun s = .error (.error code info)) :
    exec .encode s = .next (completeError code info 0x08 0x08 s) :=
  execEncode_next.mpr (.inr ⟨_, _, h, rfl⟩)

/-- 42_huffman R186: a text that passes every check is encoded as the concatenation of its codes. -/
theorem encodeRun_of_inText {s : State} {x : List Byte} (hx : inText s x) (hcap : x.length ≤ s.caps.inCap)
    (hmapped : ∀ c ∈ x, codeOf s.ctab c ≠ []) (hbits : (x.flatMap (codeOf s.ctab)).length ≤ s.caps.bitsCap) :
    encodeRun s = .ok (x.flatMap (codeOf s.ctab)) := by
  rw [encodeRun_eq, hx.1, if_pos hcap]
  exact encodeLoop_ok.mpr ⟨x, rfl, hx.2, hmapped, rfl, fun _ => by rwa [Nat.zero_add]⟩

/-- What ENCODE's success leaves, for any string: BITS holds it, zero-filled, and nothing else changes. -/
theorem exec_encode_stores {s : State} {b : BitString} (h : encodeRun s = .ok b) (hb : b.length < 2 ^ 32) :
    ∃ t, exec .encode s = .next t ∧ succeeded t ∧ bitTextZeroFilled t b ∧
      (∀ a, ceilDiv8 b.length ≤ a → Memory.get t.bits.mem a = Memory.get s.bits.mem a) ∧
      ∀ p, p ≠ .bits → Part.same s t p := by
  have hexec : exec .encode s = .next (completeOk (storeBits s b)) := execEncode_next.mpr (.inl ⟨b, h, rfl⟩)
  have hfilled := storeBits_bitTextZeroFilled s hb
  have hbeyond := storeBits_keepsBeyond s hb .bits
  obtain ⟨hframe, -⟩ := commandsKeepStateOutsideTheirWriteSet _ _ _ hexec
  exact ⟨_, hexec, succeeded_completeOk _, hfilled, fun a ha => hbeyond a (by rwa [hfilled.1.1]),
    fun p hp => hframe p (by simpa [writeSet] using hp)⟩

/-- The checking pass at a symbol: its two checks in order (42_huffman R186). -/
theorem encodeLoop_succ {s : State} {i : Nat} {c : Byte} (hread : readIn s i = .ok c) (n total : Nat) :
    encodeLoop s (n + 1) i total =
      if codeOf s.ctab c = [] then .error (.error .unmappedSymbol i)
      else if total + (codeOf s.ctab c).length ≤ s.caps.bitsCap then
        encodeLoop s n (i + 1) (total + (codeOf s.ctab c).length) >>= fun rest => .ok (codeOf s.ctab c ++ rest)
      else .error (.error .capacityExceeded i) := by
  simp only [encodeLoop, hread, run_ok_bind, check_bind, run_pure, decide_eq_true_eq, ne_eq, List.length_eq_zero_iff,
    ite_not]

/-- The checking pass over symbols that pass leaves the error to the symbols after them (42_huffman R186). -/
theorem encodeLoop_error_after {s : State} {n i total : Nat} {x : List Byte} {e : Stop}
    (hx : Memory.holds s.inp.mem i x) (hmapped : ∀ c ∈ x, codeOf s.ctab c ≠ [])
    (hbits : total + (x.flatMap (codeOf s.ctab)).length ≤ s.caps.bitsCap)
    (h : encodeLoop s n (i + x.length) (total + (x.flatMap (codeOf s.ctab)).length) = .error e) :
    encodeLoop s (x.length + n) i total = .error e := by
  induction x generalizing i total with
  | nil => simpa using h
  | cons c x ih =>
    obtain ⟨hget, hx⟩ := hx
    simp only [List.flatMap_cons, List.length_append, List.length_cons] at hbits h ⊢
    have hrest := ih hx (fun d hd => hmapped d (List.mem_cons_of_mem c hd)) (total := total + (codeOf s.ctab c).length)
      (by omega) (by rwa [Nat.add_assoc total, Nat.add_right_comm i])
    rw [Nat.add_right_comm x.length, encodeLoop_succ ((readIn_ok s i c).mpr hget),
      if_neg (hmapped c List.mem_cons_self), if_pos (by omega), hrest, run_error_bind]

section
variable {s : State} {x : List Byte} {c : Byte} (hx : Memory.holds s.inp.mem 0 (x ++ [c]))
  (hlen : x.length < s.inp.len.toNat) (hcap : s.inp.len.toNat ≤ s.caps.inCap)
  (hmapped : ∀ d ∈ x, codeOf s.ctab d ≠ []) (hbits : (x.flatMap (codeOf s.ctab)).length ≤ s.caps.bitsCap)
include hx hlen hcap hmapped hbits

/-- 42_huffman R186: ENCODE's error is that of the first symbol that does not pass. -/
theorem encodeRun_error_at {e : Stop}
    (h : ∀ n, readIn s x.length = .ok c →
      encodeLoop s (n + 1) x.length (x.flatMap (codeOf s.ctab)).length = .error e) :
    encodeRun s = .error e := by
  obtain ⟨htext, hget, -⟩ := (Memory.holds_append _ _ _ _).mp hx
  rw [Nat.zero_add] at hget
  obtain ⟨n, hn⟩ : ∃ n, s.inp.len.toNat = x.length + (n + 1) := ⟨s.inp.len.toNat - x.length - 1, by omega⟩
  rw [encodeRun_eq, if_pos hcap, hn]
  refine encodeLoop_error_after htext hmapped (by rwa [Nat.zero_add]) ?_
  rw [Nat.zero_add, Nat.zero_add]
  exact h n ((readIn_ok s _ c).mpr hget)

theorem encodeRun_unmapped (hc : codeOf s.ctab c = []) :
    encodeRun s = .error (.error .unmappedSymbol x.length) :=
  encodeRun_error_at hx hlen hcap hmapped hbits fun n hread => by
    rw [encodeLoop_succ hread, if_pos hc]

theorem encodeRun_full (hc : codeOf s.ctab c ≠ [])
    (hfull : s.caps.bitsCap < (x.flatMap (codeOf s.ctab)).length + (codeOf s.ctab c).length) :
    encodeRun s = .error (.error .capacityExceeded x.length) :=
  encodeRun_error_at hx hlen hcap hmapped hbits fun n hread => by
    rw [encodeLoop_succ hread, if_neg hc, if_neg (Nat.not_le.mpr hfull)]

end

/-- Settles O20: ENCODE computes the concatenation (`encodeRun_of_inText`) and stores it with zeros to the byte boundary
(`exec_encode_stores`); each error is the check that fails first. -/
theorem encodeConcatenatesTheCodes : Obligations.EncodeConcatenatesTheCodes := by
  refine ⟨fun s x hx hcap hmapped hbits hbound => ?_, fun s hcap => ?_, fun s x c hx hlen hcap hmapped hbits hc => ?_,
    fun s x c hx hlen hcap hmapped hbits hc hfull => ?_⟩
  · exact exec_encode_stores (encodeRun_of_inText hx hcap hmapped hbits) (Nat.lt_of_le_of_lt hbits hbound)
  · exact exec_encode_of_error (by rw [encodeRun_eq, if_neg (Nat.not_le.mpr hcap)])
  · exact exec_encode_of_error (encodeRun_unmapped hx hlen hcap hmapped hbits hc)
  · exact exec_encode_of_error (encodeRun_full hx hlen hcap hmapped hbits hc hfull)

/-! ## Bits read in order -/

/-- BITS reads as the string `b` from bit `i` on. -/
def readsBits (s : State) : Nat → BitString → Prop
  | _, [] => True
  | i, b :: bs => readBit s i = .ok b ∧ readsBits s (i + 1) bs

theorem readsBits_iff (s : State) (i : Nat) (b : BitString) :
    readsBits s i b ↔ ∀ k, k < b.length → readBit s (i + k) = .ok (b.getD k false) := by
  induction b generalizing i with
  | nil => simp [readsBits]
  | cons c b ih =>
    rw [readsBits, ih]
    constructor
    · rintro ⟨hhead, htail⟩ k hk
      cases k with
      | zero => exact hhead
      | succ k => simpa [Nat.add_assoc, Nat.add_comm 1] using htail k (by simpa using hk)
    · intro h
      refine ⟨h 0 (by simp), fun k hk => ?_⟩
      simpa [Nat.add_assoc, Nat.add_comm 1] using h (k + 1) (by simpa using hk)

theorem readsBits_of_bitText {s : State} {b : BitString} (h : bitText s b) : readsBits s 0 b :=
  (readsBits_iff s 0 b).mpr fun k hk => by simpa using readBit_of_bitText h hk

theorem readsBits_append (s : State) (i : Nat) (b d : BitString) :
    readsBits s i (b ++ d) ↔ readsBits s i b ∧ readsBits s (i + b.length) d := by
  induction b generalizing i with
  | nil => simp [readsBits]
  | cons c b ih => simp [readsBits, ih, and_assoc, Nat.add_assoc, Nat.add_comm 1]

/-! ## DECODE -/

/-- No symbol's code is a proper beginning of another code (10_state R50). -/
theorem symbolOf_eq_none_of_prefix {t : CodeTable} (ht : CtabOk t) {c : Byte} {p q : BitString} (hq : q ≠ [])
    (hc : p ++ q = codeOf t c) : symbolOf t p = none := by
  refine (symbolOf_eq_none ht).mpr fun d hd hp => ?_
  have hpre : codeOf t d <+: codeOf t c := by rw [hp, ← hc]; exact List.prefix_append p q
  have hcne : codeOf t c ≠ [] := by simp [← hc, hq]
  rw [codeOf_prefixFree ht hd hcne hpre, ← hc] at hp
  exact hq (by simpa using hp)

section
variable {s : State} (ht : CtabOk s.ctab)
include ht

/-- 42_huffman R190: the scan emits a symbol at the last bit of its code, if OUT has room for it (R192). -/
theorem decodeLoop_code {c : Byte} {n i o : Nat} {p q : BitString} (hq : q ≠ []) (hc : p ++ q = codeOf s.ctab c)
    (hread : readsBits s i q) :
    decodeLoop s (q.length + n) i p o = (do
      check (decide (o ≠ s.caps.outCap)) .capacityExceeded (i + q.length - 1)
      let rest ← decodeLoop s n (i + q.length) [] (o + 1)
      return c :: rest) := by
  induction q generalizing i p with
  | nil => exact absurd rfl hq
  | cons b q ih =>
    obtain ⟨hbit, hread⟩ := hread
    rw [List.length_cons, Nat.add_right_comm, decodeLoop, hbit, run_ok_bind]
    cases q with
    | nil =>
      have hsym : symbolOf s.ctab (p ++ [b]) = some c := (symbolOf_eq_some ht).mpr ⟨hc.symm, by simp⟩
      simp [hsym]
    | cons b' q =>
      have hc' : (p ++ [b]) ++ b' :: q = codeOf s.ctab c := by simpa using hc
      have hnone := symbolOf_eq_none_of_prefix ht (List.cons_ne_nil b' q) hc'
      simp only [hnone]
      rw [ih (List.cons_ne_nil b' q) hc' hread, Nat.add_assoc i 1, Nat.add_comm 1]

/-- 42_huffman R190: over the codes of a text the scan emits the text. -/
theorem decodeLoop_text {n i o : Nat} {x : List Byte} (hmapped : ∀ c ∈ x, codeOf s.ctab c ≠ [])
    (hread : readsBits s i (x.flatMap (codeOf s.ctab))) (hout : o + x.length ≤ s.caps.outCap) :
    decodeLoop s ((x.flatMap (codeOf s.ctab)).length + n) i [] o =
      decodeLoop s n (i + (x.flatMap (codeOf s.ctab)).length) [] (o + x.length) >>= fun rest => .ok (x ++ rest) := by
  induction x generalizing i o with
  | nil =>
    simp only [List.flatMap_nil, List.length_nil, Nat.zero_add, Nat.add_zero, List.nil_append]
    cases decodeLoop s n i [] o <;> rfl
  | cons c x ih =>
    rw [List.flatMap_cons, readsBits_append] at hread
    obtain ⟨hcode, hread⟩ := hread
    rw [List.length_cons] at hout
    have hroom : o ≠ s.caps.outCap := by omega
    rw [List.flatMap_cons, List.length_append, Nat.add_assoc,
      decodeLoop_code ht (hmapped c List.mem_cons_self) (List.nil_append _) hcode,
      ih (fun d hd => hmapped d (List.mem_cons_of_mem c hd)) hread (by omega), List.length_cons, Nat.add_assoc i,
      Nat.add_assoc o, Nat.add_comm 1]
    simp only [decide_eq_true hroom, check_true, run_ok_bind, run_pure]
    cases decodeLoop s n _ [] _ <;> rfl

/-- 42_huffman R191: the scan emits nothing over bits that complete no code. -/
theorem decodeLoop_rest {i o : Nat} {p rest : BitString} (hread : readsBits s i rest)
    (hnone : ∀ q, q <+: rest → ∀ c, codeOf s.ctab c ≠ [] → codeOf s.ctab c ≠ p ++ q) :
    decodeLoop s rest.length i p o = .ok [] := by
  induction rest generalizing i p with
  | nil => rfl
  | cons b rest ih =>
    obtain ⟨hbit, hread⟩ := hread
    have hsym : symbolOf s.ctab (p ++ [b]) = none := (symbolOf_eq_none ht).mpr (hnone [b] (by simp))
    rw [List.length_cons, decodeLoop, hbit, run_ok_bind]
    simp only [hsym]
    exact ih hread fun q hq => by simpa using hnone (b :: q) (List.cons_prefix_cons.mpr ⟨rfl, hq⟩)

/-- 42_huffman R190, R191: the text of a bit string that starts with its codes. -/
theorem decodeLoop_of_bitText {x : List Byte} {rest : BitString} (hmapped : ∀ c ∈ x, codeOf s.ctab c ≠ [])
    (hrest : ∀ p, p <+: rest → ∀ c, codeOf s.ctab c ≠ [] → codeOf s.ctab c ≠ p)
    (hbits : bitText s (x.flatMap (codeOf s.ctab) ++ rest)) (hout : x.length ≤ s.caps.outCap) :
    decodeLoop s s.bits.len.toNat 0 [] 0 = .ok x := by
  obtain ⟨htext, hread⟩ := (readsBits_append _ _ _ _).mp (readsBits_of_bitText hbits)
  rw [hbits.1, List.length_append, decodeLoop_text ht hmapped htext (by omega),
    decodeLoop_rest ht hread (by simpa using hrest), run_ok_bind, List.append_nil]

/-- 42_huffman R192: a full OUT stops the scan at the last bit of the next code. -/
theorem decodeLoop_full {x : List Byte} {c : Byte} {rest : BitString} (hmapped : ∀ d ∈ x ++ [c], codeOf s.ctab d ≠ [])
    (hbits : bitText s ((x ++ [c]).flatMap (codeOf s.ctab) ++ rest)) (hout : x.length = s.caps.outCap) :
    decodeLoop s s.bits.len.toNat 0 [] 0 =
      .error (.error .capacityExceeded (((x ++ [c]).flatMap (codeOf s.ctab)).length - 1)) := by
  have hflat : (x ++ [c]).flatMap (codeOf s.ctab) = x.flatMap (codeOf s.ctab) ++ codeOf s.ctab c := by simp
  rw [hflat] at hbits ⊢
  have hread := readsBits_of_bitText hbits
  rw [List.append_assoc, readsBits_append, readsBits_append] at hread
  obtain ⟨htext, hcode, -⟩ := hread
  rw [hbits.1, List.append_assoc, List.length_append, List.length_append (bs := rest),
    decodeLoop_text ht (fun d hd => hmapped d (by simp [hd])) htext (by omega),
    decodeLoop_code ht (hmapped c (by simp)) (List.nil_append _) hcode]
  simp [hout]

end

/-- Every code of a text has a bit, so the text is no longer than its codes. -/
theorem length_le_flatMap_codeOf {t : CodeTable} {x : List Byte} (hmapped : ∀ c ∈ x, codeOf t c ≠ []) :
    x.length ≤ (x.flatMap (codeOf t)).length := by
  rw [List.length_flatMap]
  simpa using List.card_nsmul_le_sum (x.map fun c => (codeOf t c).length) 1 (by
    simpa [Nat.one_le_iff_ne_zero] using hmapped)

/-- What DECODE's success leaves (42_huffman R190). -/
theorem exec_decode_stores {s : State} {x : List Byte} (hbits : s.bits.len.toNat ≤ s.caps.bitsCap)
    (h : decodeLoop s s.bits.len.toNat 0 [] 0 = .ok x) (hx : x.length < 2 ^ 32) :
    ∃ t, exec .decode s = .next t ∧ succeeded t ∧ outText t x ∧ ∀ p, p ≠ .out → Part.same s t p := by
  have hexec : exec .decode s = .next (completeOk (storeOut s x)) :=
    execDecode_next.mpr (.inl ⟨hbits, .inl ⟨x, h, rfl⟩⟩)
  obtain ⟨hframe, -⟩ := commandsKeepStateOutsideTheirWriteSet _ _ _ hexec
  exact ⟨_, hexec, succeeded_completeOk _, ⟨ofNat_toNat_of_lt hx, Memory.holds_cells 0 x⟩,
    fun p hp => hframe p (by simpa [writeSet] using hp)⟩

/-- 42_huffman R190, R191: DECODE of the codes of a text and a rest that completes no code. -/
theorem exec_decode_of_bitText {s : State} {x : List Byte} {rest : BitString} (ht : CtabOk s.ctab)
    (hmapped : ∀ c ∈ x, codeOf s.ctab c ≠ [])
    (hrest : ∀ p, p <+: rest → ∀ c, codeOf s.ctab c ≠ [] → codeOf s.ctab c ≠ p)
    (hbits : bitText s (x.flatMap (codeOf s.ctab) ++ rest)) (hcap : s.bits.len.toNat ≤ s.caps.bitsCap)
    (hout : x.length ≤ s.caps.outCap) :
    ∃ t, exec .decode s = .next t ∧ succeeded t ∧ outText t x ∧ ∀ p, p ≠ .out → Part.same s t p := by
  refine exec_decode_stores hcap (decodeLoop_of_bitText ht hmapped hrest hbits hout) ?_
  have hlen := hbits.1
  rw [List.length_append] at hlen
  have hword := s.bits.len.isLt
  have hsymbols := length_le_flatMap_codeOf hmapped
  omega

/-- Settles O21: the scan emits the text (`decodeLoop_text`) and nothing over the rest (`decodeLoop_rest`); with a full
OUT it stops at the last bit of the next code (`decodeLoop_full`). -/
theorem decodeParsesAndDropsTheRest : Obligations.DecodeParsesAndDropsTheRest := by
  refine ⟨fun s x rest ht hmapped hrest hbits hcap hout => exec_decode_of_bitText ht hmapped hrest hbits hcap hout,
    fun s hcap => execDecode_next.mpr (.inr ⟨hcap, rfl⟩), fun s x c rest ht hmapped hout hbits hcap => ?_⟩
  have hexec : exec .decode s = _ :=
    execDecode_next.mpr (.inl ⟨hcap, .inr ⟨_, _, decodeLoop_full ht hmapped hbits hout, rfl⟩⟩)
  obtain ⟨hframe, -⟩ := commandsKeepStateOutsideTheirWriteSet _ _ _ hexec
  refine ⟨_, hexec, rfl, satWord_toNat _ ?_, rfl, fun p hp => hframe p (by simpa [writeSet] using hp)⟩
  have hlen := hbits.1
  rw [List.length_append] at hlen
  have hword := s.bits.len.isLt
  omega

/-! ## The round trip -/

/-- 42_huffman R186: what the success of ENCODE says of the text. -/
theorem encodeRun_ok {s : State} {x : List Byte} {b : BitString} (hx : inText s x) (h : encodeRun s = .ok b) :
    b = x.flatMap (codeOf s.ctab) ∧ ∀ c ∈ x, codeOf s.ctab c ≠ [] := by
  rw [encodeRun_eq] at h
  split at h
  · obtain ⟨y, hy, hholds, hmapped, hb, -⟩ := encodeLoop_ok.mp h
    obtain rfl := Memory.holds_unique hholds hx.2 (hy.trans hx.1)
    exact ⟨hb, hmapped⟩
  · cases h

/-- Settles O22: a successful ENCODE leaves the codes of the text in BITS (`encodeRun_ok`, `exec_encode_stores`) and the
table alone, so DECODE reads them back with an empty rest (`exec_decode_of_bitText`). -/
theorem encodeThenDecodeRoundTrip : Obligations.EncodeThenDecodeRoundTrip := by
  intro s t x hwf ht hx hexec hok hout
  obtain ⟨-, -, hcap, -⟩ := Caps.wf_lt hwf
  obtain ⟨b, hrun, rfl⟩ | ⟨code, info, hrun, rfl⟩ := execEncode_next.mp hexec
  · have hbits := encodeRun_ok_length hrun
    obtain ⟨rfl, hmapped⟩ := encodeRun_ok hx hrun
    have htext := (storeBits_bitTextZeroFilled s (Nat.lt_of_le_of_lt hbits hcap)).1
    obtain ⟨u, hdecode, hsucc, hu, -⟩ := exec_decode_of_bitText (s := completeOk (storeBits s _)) (x := x) (rest := [])
      ht hmapped (fun p hp c hc hcp => hc (hcp.trans (List.prefix_nil.mp hp))) (by rwa [List.append_nil])
      (htext.1.trans_le hbits) hout
    exact ⟨u, hdecode, hsucc, hu⟩
  · obtain rfl : code = .none := congrArg ErrorReg.code hok
    exact absurd (encodeRun_raises s _ _ hrun) (by decide)

end Sys2Proof.Machine
end

section
/-! PROOFS of 43_shannon_fano.md, the split point: the greedy scan stops at the least minimum (R211 to R213). -/

namespace Sys2Proof.Machine

/-! ## The least minimum -/

/-- Among `f 0` to `f n` the least value is `f k`, and no earlier one equals it. -/
structure LeastMinimum (f : Nat → Nat) (n k : Nat) : Prop where
  le : k ≤ n
  minimum : ∀ m ≤ n, f k ≤ f m
  least : ∀ m < k, f k < f m

theorem LeastMinimum.zero {f : Nat → Nat} {n : Nat} (h : ∀ m ≤ n, f 0 ≤ f m) : LeastMinimum f n 0 :=
  ⟨Nat.zero_le n, h, by simp⟩

theorem LeastMinimum.congr {f g : Nat → Nat} {n k : Nat} (h : LeastMinimum f n k) (hfg : ∀ m ≤ n, f m = g m) :
    LeastMinimum g n k := by
  have hk := hfg k h.le
  refine ⟨h.le, fun m hm => ?_, fun m hm => ?_⟩
  · rw [← hk, ← hfg m hm]
    exact h.minimum m hm
  · rw [← hk, ← hfg m (hm.le.trans h.le)]
    exact h.least m hm

/-- The least minimum from index 1 on is that of the whole range, if index 1 is better than index 0. -/
theorem LeastMinimum.succ {f : Nat → Nat} {n k : Nat} (h : LeastMinimum (fun m => f (m + 1)) n k)
    (hbetter : f 1 < f 0) : LeastMinimum f (n + 1) (k + 1) := by
  have hzero : f (k + 1) < f 0 := (h.minimum 0 (Nat.zero_le n)).trans_lt hbetter
  refine ⟨Nat.succ_le_succ h.le, fun m hm => ?_, fun m hm => ?_⟩
  · cases m with
    | zero => exact hzero.le
    | succ m => exact h.minimum m (Nat.le_of_succ_le_succ hm)
  · cases m with
    | zero => exact hzero
    | succ m => exact h.least m (Nat.lt_of_succ_lt_succ hm)

/-! ## The difference of the two parts -/

theorem splitDiff_eq_natAbs (total sum : Nat) : splitDiff total sum = (2 * (sum : Int) - total).natAbs := by
  unfold splitDiff
  split <;> omega

/-- 43_shannon_fano R213: once a larger left part is not better, no still larger one is. -/
theorem splitDiff_le_of_not_better {total a b c : Nat} (hab : a < b) (hbc : b ≤ c)
    (h : splitDiff total a ≤ splitDiff total b) : splitDiff total a ≤ splitDiff total c := by
  simp only [splitDiff_eq_natAbs] at h ⊢
  omega

/-! ## The scan -/

/-- 43_shannon_fano R212, R213: the scan stops at the least minimum of what it can reach. -/
theorem splitScan_leastMinimum (total k sum : Nat) {cs : List Nat} (hcs : ∀ c ∈ cs, 1 ≤ c) :
    ∃ j, splitScan total k (splitDiff total sum) (k + 1) sum cs = k + j ∧
      LeastMinimum (fun m => splitDiff total (sum + (cs.take m).sum)) cs.length j := by
  induction cs generalizing k sum with
  | nil => exact ⟨0, rfl, .zero fun m _ => by simp⟩
  | cons c cs ih =>
    have hc : 1 ≤ c := hcs c List.mem_cons_self
    rw [splitScan]
    split
    case isTrue hbetter =>
      obtain ⟨j, hj, hmin⟩ := ih (k + 1) (sum + c) fun d hd => hcs d (List.mem_cons_of_mem c hd)
      refine ⟨j + 1, by rw [hj]; omega, .succ ?_ (by simpa using hbetter)⟩
      simpa [Nat.add_assoc] using hmin
    case isFalse hstop =>
      refine ⟨0, rfl, .zero fun m _ => ?_⟩
      cases m with
      | zero => exact le_rfl
      | succ m =>
        refine splitDiff_le_of_not_better (b := sum + c) ?_ ?_ ?_
        · simp; omega
        · simp
        · simpa using hstop

/-- 43_shannon_fano R213: the split point, counted from the first place where the list can be split. -/
theorem splitPoint_leastMinimum {cs : List Nat} (hlen : 2 ≤ cs.length) (hcs : ∀ c ∈ cs, 1 ≤ c) :
    ∃ j, splitPoint cs = j + 1 ∧
      LeastMinimum (fun m => splitDiff cs.sum (cs.take (m + 1)).sum) (cs.length - 2) j := by
  match cs with
  | c :: l =>
    obtain ⟨j, hj, hmin⟩ := splitScan_leastMinimum (c :: l).sum 1 c (cs := l.dropLast)
      fun d hd => hcs d (List.mem_cons_of_mem c (List.mem_of_mem_dropLast hd))
    have hrange : l.dropLast.length = (c :: l).length - 2 := by simp
    have hpart : ∀ m ≤ l.dropLast.length, c + (l.dropLast.take m).sum = ((c :: l).take (m + 1)).sum := fun m hm => by
      rw [List.length_dropLast] at hm
      simp [List.dropLast_eq_take, List.take_take, Nat.min_eq_left hm]
    refine ⟨j, hj.trans (Nat.add_comm 1 j), ?_⟩
    rw [← hrange]
    exact hmin.congr fun m hm => congrArg (splitDiff (c :: l).sum) (hpart m hm)

/-- Settles O18: the scan's least minimum (`splitPoint_leastMinimum`), read from index 1 on. -/
theorem splitPointIsTheLeastMinimum : Obligations.SplitPointIsTheLeastMinimum := by
  intro cs hlen hcs
  obtain ⟨j, hj, hle, hmin, hleast⟩ := splitPoint_leastMinimum hlen hcs
  simp only [← splitDiff_eq_natAbs, hj]
  refine ⟨by omega, by omega, fun k hk hkn => ?_, fun k hk hkj => ?_⟩
  · obtain ⟨m, rfl⟩ := Nat.exists_eq_add_of_le' hk
    exact hmin m (by omega)
  · obtain ⟨m, rfl⟩ := Nat.exists_eq_add_of_le' hk
    exact hleast m (by omega)

end Sys2Proof.Machine
end

section
/-! PROOFS of 43_shannon_fano.md, SF_CODES: the recursion splits the ranked list at the split point (R214 to R217). -/

namespace Sys2Proof.Machine

/-! ## The entries whose codes begin alike -/

/-- The entries whose code begins with `q`, in list order. -/
def sharing (code : Byte → BitString) (q : BitString) (es : List RankEntry) : List RankEntry :=
  es.filter fun e => q.isPrefixOf (code e.sym)

/-- 43_shannon_fano R214: an entry alone with the stem `q` has it as its code; of more the first splitPoint ones go
on with 0 and the others with 1. -/
def SplitsAt (code : Byte → BitString) (q : BitString) (es : List RankEntry) : Prop :=
  (∀ e, es = [e] → code e.sym = q) ∧
  (2 ≤ es.length → ∀ i e, es[i]? = some e →
    (code e.sym)[q.length]? = some (decide (splitPoint (es.map RankEntry.count) ≤ i)))

section
variable {code : Byte → BitString} {p q : BitString} {es as bs : List RankEntry}

theorem sharing_append : sharing code q (as ++ bs) = sharing code q as ++ sharing code q bs := by
  simp [sharing]

theorem sharing_eq_self (h : ∀ e ∈ es, q <+: code e.sym) : sharing code q es = es := by
  simpa [sharing, List.filter_eq_self] using h

/-- No code below a stem that goes on otherwise begins with `q`. -/
theorem sharing_eq_nil_of_split {x y : Bool} (hxy : x ≠ y) (hq : p ++ [x] <+: q)
    (h : ∀ e ∈ es, p ++ [y] <+: code e.sym) : sharing code q es = [] := by
  simpa [sharing, List.filter_eq_nil_iff] using fun e he => not_prefix_of_split hxy hq (h e he)

theorem getElem?_length_of_prefix {b : Bool} {l : BitString} (h : p ++ [b] <+: l) : l[p.length]? = some b := by
  obtain ⟨d, rfl⟩ := h
  simp

/-- An entry alone with its code; no longer string begins the code. -/
theorem splitsAt_single {e : RankEntry} (he : code e.sym = p) (d : BitString) :
    SplitsAt code (p ++ d) (sharing code (p ++ d) [e]) := by
  cases d with
  | nil => simp [sharing, SplitsAt, he]
  | cons b d =>
    have hlonger : ¬ p ++ b :: d <+: code e.sym := fun h => by simpa [he] using h.length_le
    simp [sharing, SplitsAt, hlonger]

section
variable (has : ∀ e ∈ as, p ++ [false] <+: code e.sym) (hbs : ∀ e ∈ bs, p ++ [true] <+: code e.sym)
  (htwo : 2 ≤ (as ++ bs).length) (hsplit : splitPoint ((as ++ bs).map RankEntry.count) = as.length)
include has hbs htwo hsplit

/-- Codes that continue their stem with 0 before the split point and with 1 from it on. -/
theorem splitsAt_append : SplitsAt code p (as ++ bs) := by
  refine ⟨fun e he => by simp [he] at htwo, fun _ i e he => ?_⟩
  rw [hsplit]
  by_cases hi : i < as.length
  · rw [List.getElem?_append_left hi] at he
    rw [getElem?_length_of_prefix (has e (List.mem_of_getElem? he)), decide_eq_false (Nat.not_le.mpr hi)]
  · rw [List.getElem?_append_right (Nat.le_of_not_lt hi)] at he
    rw [getElem?_length_of_prefix (hbs e (List.mem_of_getElem? he)), decide_eq_true (Nat.le_of_not_lt hi)]

/-- 43_shannon_fano R214: a list split at the stem `p`, whose halves are split at every string from their own stems on,
is split at every string from `p` on: a longer string begins codes of one half only. -/
theorem splitsAt_sharing_append
    (hleft : ∀ d, SplitsAt code (p ++ [false] ++ d) (sharing code (p ++ [false] ++ d) as))
    (hright : ∀ d, SplitsAt code (p ++ [true] ++ d) (sharing code (p ++ [true] ++ d) bs)) (d : BitString) :
    SplitsAt code (p ++ d) (sharing code (p ++ d) (as ++ bs)) := by
  match d with
  | [] =>
    have hall : ∀ e ∈ as ++ bs, p <+: code e.sym := fun e he =>
      (List.mem_append.mp he).elim (fun h => (List.prefix_append p _).trans (has e h))
        fun h => (List.prefix_append p _).trans (hbs e h)
    rw [List.append_nil, sharing_eq_self hall]
    exact splitsAt_append has hbs htwo hsplit
  | false :: d =>
    rw [List.append_cons, sharing_append, sharing_eq_nil_of_split (by decide) (List.prefix_append _ d) hbs,
      List.append_nil]
    exact hleft d
  | true :: d =>
    rw [List.append_cons, sharing_append, sharing_eq_nil_of_split (by decide) (List.prefix_append _ d) has,
      List.nil_append]
    exact hright d

end

end

/-! ## The recursion -/

theorem buildCodes_of_two_le {fuel : Nat} {es : List RankEntry} {p : BitString} (h : 2 ≤ es.length) :
    buildCodes (fuel + 1) es p =
      buildCodes fuel (es.take (splitPoint (es.map RankEntry.count))) (p ++ [false]) ++
        buildCodes fuel (es.drop (splitPoint (es.map RankEntry.count))) (p ++ [true]) := by
  match es, h with
  | _ :: _ :: _, _ => rfl

section
variable {code : Byte → BitString}

/-- The codes that the recursion gives are below its stem (43_shannon_fano R214). -/
theorem prefix_of_buildCodes {fuel : Nat} {es : List RankEntry} {p : BitString} (hne : es ≠ [])
    (hfuel : es.length ≤ fuel) (hcode : ∀ a ∈ buildCodes fuel es p, code a.1 = a.2) :
    ∀ e ∈ es, p <+: code e.sym := by
  intro e he
  obtain ⟨hunder, hsyms⟩ := buildCodes_under p hne hfuel
  obtain ⟨a, ha, hsym⟩ := List.mem_map.mp (hsyms ▸ List.mem_map_of_mem he)
  rw [← hsym, hcode a ha]
  exact hunder.under a ha

/-- 43_shannon_fano R214: the recursion splits the entries at every string `p ++ d` from its stem on. -/
theorem buildCodes_splitsAt {fuel : Nat} {es : List RankEntry} (p d : BitString) (hne : es ≠ [])
    (hfuel : es.length ≤ fuel) (hcode : ∀ a ∈ buildCodes fuel es p, code a.1 = a.2) :
    SplitsAt code (p ++ d) (sharing code (p ++ d) es) := by
  induction fuel generalizing es p d with
  | zero => exact absurd (List.length_eq_zero_iff.mp (Nat.le_zero.mp hfuel)) hne
  | succ fuel ih =>
    obtain hone | htwo : es.length = 1 ∨ 2 ≤ es.length := by
      have := List.length_pos_iff.mpr hne
      omega
    · obtain ⟨e, rfl⟩ := List.length_eq_one_iff.mp hone
      exact splitsAt_single (hcode (e.sym, p) (List.mem_singleton_self _)) d
    · obtain ⟨hpos, hlt⟩ := splitPoint_bounds (counts := es.map RankEntry.count) (by simpa using htwo)
      rw [List.length_map] at hlt
      rw [buildCodes_of_two_le htwo] at hcode
      generalize hk : splitPoint (es.map RankEntry.count) = k at hpos hlt hcode
      have hes : es.take k ++ es.drop k = es := List.take_append_drop k es
      have hlenLeft : (es.take k).length = k := List.length_take_of_le hlt.le
      have hlenRight : (es.drop k).length = es.length - k := List.length_drop
      have hneLeft : es.take k ≠ [] := List.ne_nil_of_length_pos (by omega)
      have hneRight : es.drop k ≠ [] := List.ne_nil_of_length_pos (by omega)
      have hcodeLeft := fun a ha => hcode a (List.mem_append_left _ ha)
      have hcodeRight := fun a ha => hcode a (List.mem_append_right _ ha)
      have hsplits := splitsAt_sharing_append (prefix_of_buildCodes hneLeft (by omega) hcodeLeft)
        (prefix_of_buildCodes hneRight (by omega) hcodeRight) (by rwa [hes]) (by rw [hes, hk, hlenLeft])
        (fun d => ih _ d hneLeft (by omega) hcodeLeft) (fun d => ih _ d hneRight (by omega) hcodeRight) d
      rwa [hes] at hsplits

end

/-! ## SF_CODES -/

theorem rankCodes_symbols (es : List RankEntry) : (rankCodes es).map Prod.fst = es.map RankEntry.sym := by
  match es with
  | [] => rfl
  | [e] => rfl
  | e :: f :: l => exact (buildCodes_under [] (List.cons_ne_nil e _) le_rfl).2

theorem rankCodes_of_two_le {es : List RankEntry} (h : 2 ≤ es.length) : rankCodes es = buildCodes es.length es [] := by
  match es, h with
  | _ :: _ :: _, _ => rfl

/-- The symbols with a code are those of the pairs. -/
theorem PrefixCode.codeOf_ne_nil_iff {pairs : List (Byte × BitString)} (h : PrefixCode pairs) {n : Word} {c : Byte} :
    codeOf ⟨assignCodes pairs, n⟩ c ≠ [] ↔ c ∈ pairs.map Prod.fst := by
  constructor
  · intro hne
    exact List.mem_map_of_mem (h.codeOf_iff.mp ⟨rfl, hne⟩)
  · intro hc
    obtain ⟨⟨c, p⟩, hmem, rfl⟩ := List.mem_map.mp hc
    obtain ⟨hcode, hne⟩ := h.codeOf_iff.mpr hmem
    exact hcode.trans_ne hne

theorem PrefixCode.codeOf_of_mem {pairs : List (Byte × BitString)} (h : PrefixCode pairs) {n : Word}
    {a : Byte × BitString} (ha : a ∈ pairs) : codeOf ⟨assignCodes pairs, n⟩ a.1 = a.2 :=
  (h.codeOf_iff.mpr ha).1

/-- 43_shannon_fano R216: of `n` codes, two or more, each has fewer than `n` bits. -/
theorem length_lt_of_mem_rankCodes {es : List RankEntry} (h : 2 ≤ es.length) {a : Byte × BitString}
    (ha : a ∈ rankCodes es) : a.2.length < es.length := by
  have hne : es ≠ [] := List.ne_nil_of_length_pos (by omega)
  rw [rankCodes_of_two_le h] at ha
  obtain ⟨hunder, hsyms⟩ := buildCodes_under [] hne le_rfl
  have hlen := congrArg List.length hsyms
  have hshort := hunder.short a ha
  rw [List.length_map, List.length_map] at hlen
  rwa [List.length_nil, Nat.zero_add, hlen] at hshort

/-- Settles O19: SF_CODES stores the table of `rankCodes`, a `PrefixCode` (`prefixCode_rankCodes`) that lists the ranked
symbols; the recursion splits at every string (`buildCodes_splitsAt`). -/
theorem sfCodesSplitTheRankedList : Obligations.SfCodesSplitTheRankedList := by
  intro s hrank
  have hcodes := prefixCode_rankCodes hrank.symbols
  have hexec : exec .sfCodes s = _ := execSfCodes_eq s
  rw [hrank.number, List.take_length] at hexec
  obtain ⟨hframe, -⟩ := commandsKeepStateOutsideTheirWriteSet _ _ _ hexec
  have hlen : (rankCodes s.rank.entries).length = s.rank.entries.length := by
    simpa using congrArg List.length (rankCodes_symbols s.rank.entries)
  refine ⟨_, hexec, succeeded_completeOk _, ?count, fun c => ?symbols, fun e he => ?single, fun htwo p => ?split,
    fun htwo c => ?bound, hcodes.ctabOk, fun p hp => hframe p (by simpa [writeSet] using hp)⟩
  case count =>
    show BitVec.ofNat 32 (rankCodes s.rank.entries).length = s.rank.rankN
    rw [hlen, ← hrank.number, BitVec.ofNat_toNat, BitVec.setWidth_eq]
  case symbols =>
    rw [← rankCodes_symbols]
    exact hcodes.codeOf_ne_nil_iff
  case single => exact hcodes.codeOf_of_mem (a := (e.sym, [false])) (by simp [he, rankCodes])
  case split =>
    refine buildCodes_splitsAt [] p (List.ne_nil_of_length_pos (by omega)) le_rfl fun a ha => ?_
    exact hcodes.codeOf_of_mem (rankCodes_of_two_le htwo ▸ ha)
  case bound =>
    by_cases hc : codeOf (storeCodeTable s (rankCodes s.rank.entries)).ctab c = []
    · exact (congrArg List.length hc).trans_le (Nat.zero_le _)
    · exact Nat.le_sub_one_of_lt (length_lt_of_mem_rankCodes htwo (hcodes.codeOf_iff.mp ⟨rfl, hc⟩))

end Sys2Proof.Machine
end

section
/-! PROOFS of 44_lzw.md, section 1: what the strings of the codes are in a dictionary with ordered parents, that a
longer dictionary keeps them (R230), and that distinct entries have distinct strings (R231, R235). -/

namespace Sys2Proof.Machine

variable {d d' : List DictEntry}

/-! ## The strings -/

@[simp] theorem nextFree_nil : nextFree [] = 256 := rfl

/-- Every longer dictionary gives the known codes the same strings, whatever fuel suffices. -/
theorem stringFrom_prefix (hp : ParentsOk d) (hd : d <+: d') {n m k : Nat} (hk : k < nextFree d) (hn : k < 256 + n)
    (hm : k < 256 + m) : stringFrom d' (m + 1) k = stringFrom d (n + 1) k := by
  induction n generalizing k m with
  | zero => simp only [stringFrom, if_pos hn]
  | succ n ih =>
    by_cases hseed : k < 256
    · simp only [stringFrom, if_pos hseed]
    · obtain ⟨m, rfl⟩ : ∃ l, m = l + 1 := ⟨m - 1, by omega⟩
      have hi : k - 256 < d.length := by unfold nextFree at hk; omega
      have he := List.getElem?_eq_getElem hi
      have he' := List.prefix_iff_getElem?.mp hd _ hi
      generalize d[k - 256] = e at he he'
      have hparent := hp _ e he
      have hstring := ih (m := m) (k := e.parent) (by omega) (by omega) (by omega)
      rw [stringFrom, stringFrom, if_neg hseed, if_neg hseed, he, he']
      exact congrArg (· ++ [e.byte]) hstring

/-- 44_lzw R230: an insertion keeps the strings of the known codes. -/
theorem stringOf_prefix (hp : ParentsOk d) (hd : d <+: d') {k : Nat} (hk : k < nextFree d) :
    stringOf d' k = stringOf d k := by
  have hlen := hd.length_le
  have hk' : k < 256 + d.length := hk
  exact stringFrom_prefix hp hd hk hk' (by omega)

theorem stringOf_seed (d : List DictEntry) {k : Nat} (hk : k < 256) : stringOf d k = [BitVec.ofNat 8 k] := by
  rw [stringOf, stringFrom, if_pos hk]

@[simp] theorem stringOf_byte (d : List DictEntry) (c : Byte) : stringOf d c.toNat = [c] := by
  rw [stringOf_seed d c.isLt, BitVec.ofNat_toNat, BitVec.setWidth_eq]

/-- 44_lzw R230: an entry's string is its parent's and its byte. -/
theorem stringOf_entry (hp : ParentsOk d) {i : Nat} {e : DictEntry} (hi : d[i]? = some e) :
    stringOf d (256 + i) = stringOf d e.parent ++ [e.byte] := by
  have hparent := hp i e hi
  have hlen : i < d.length := (List.getElem?_eq_some_iff.mp hi).1
  obtain ⟨n, hn⟩ : ∃ n, d.length = n + 1 := ⟨d.length - 1, by omega⟩
  have hfuel : stringFrom d (d.length + 1) e.parent = stringFrom d (n + 1) e.parent :=
    stringFrom_prefix hp (List.prefix_refl d) (by unfold nextFree; omega) (by omega) (by omega)
  rw [stringOf, stringOf, hfuel, stringFrom, if_neg (by omega), Nat.add_sub_cancel_left, hi, hn]

/-- A known code is a byte or an entry of the dictionary (44_lzw R230). -/
theorem seed_or_entry {k : Nat} (hk : k < nextFree d) :
    (∃ c : Byte, k = c.toNat) ∨ ∃ i e, k = 256 + i ∧ d[i]? = some e := by
  by_cases hseed : k < 256
  · exact .inl ⟨BitVec.ofNat 8 k, by simp; omega⟩
  · have hi : k - 256 < d.length := by unfold nextFree at hk; omega
    exact .inr ⟨k - 256, d[k - 256], by omega, List.getElem?_eq_getElem hi⟩

theorem stringOf_ne_nil (hp : ParentsOk d) {k : Nat} (hk : k < nextFree d) : stringOf d k ≠ [] := by
  obtain ⟨c, rfl⟩ | ⟨i, e, rfl, hi⟩ := seed_or_entry hk
  · simp
  · simp [stringOf_entry hp hi]

/-- The string of an entry has two bytes or more. -/
theorem stringOf_entry_ne_byte (hp : ParentsOk d) {i : Nat} {e : DictEntry} (hi : d[i]? = some e) (c : Byte) :
    stringOf d (256 + i) ≠ stringOf d c.toNat := by
  have hlen : i < d.length := (List.getElem?_eq_some_iff.mp hi).1
  have hparent : e.parent < nextFree d := (hp i e hi).trans (Nat.add_lt_add_left hlen 256)
  rw [stringOf_entry hp hi, stringOf_byte]
  exact fun h => stringOf_ne_nil hp hparent (List.append_eq_singleton_iff.mp h |>.resolve_right (by simp)).1

/-- 44_lzw R235: a dictionary that lists no (parent, byte) pair twice gives distinct codes distinct strings. -/
theorem stringOf_injective (hp : ParentsOk d) (hnodup : d.Nodup) {i j : Nat} (hi : i < nextFree d)
    (hj : j < nextFree d) (h : stringOf d i = stringOf d j) : i = j := by
  induction i using Nat.strong_induction_on generalizing j with
  | h i ih =>
    obtain ⟨c, rfl⟩ | ⟨a, ⟨p, x⟩, rfl, ha⟩ := seed_or_entry hi
    · obtain ⟨c', rfl⟩ | ⟨b, f, rfl, hb⟩ := seed_or_entry hj
      · exact congrArg BitVec.toNat (by simpa using h)
      · exact absurd h.symm (stringOf_entry_ne_byte hp hb c)
    · obtain ⟨c', rfl⟩ | ⟨b, ⟨q, y⟩, rfl, hb⟩ := seed_or_entry hj
      · exact absurd h (stringOf_entry_ne_byte hp ha c')
      · rw [stringOf_entry hp ha, stringOf_entry hp hb] at h
        obtain ⟨hstring, hbyte⟩ := List.append_inj' h rfl
        have hplt : p < 256 + a := hp a _ ha
        have hqlt : q < 256 + b := hp b _ hb
        obtain rfl : p = q := ih p hplt (by omega) (by omega) hstring
        obtain rfl : x = y := List.singleton_inj.mp hbyte
        have halen : a < d.length := (List.getElem?_eq_some_iff.mp ha).1
        rw [(List.getElem?_inj halen hnodup).mp (ha.trans hb.symm)]

/-! ## The pair lookup and the lists of codes -/

/-- 44_lzw R231: a pair that is found is an entry. -/
theorem findEntry_eq_some {w k : Nat} {c : Byte} (h : findEntry d w c = some k) :
    ∃ i, k = 256 + i ∧ d[i]? = some ⟨w, c⟩ := by
  obtain ⟨i, hi, rfl⟩ := Option.map_eq_some_iff.mp h
  obtain ⟨hlen, hpair, -⟩ := List.findIdx?_eq_some_iff_getElem.mp hi
  obtain ⟨hparent, hbyte⟩ : d[i].parent = w ∧ d[i].byte = c := by simpa using hpair
  exact ⟨i, rfl, by rw [List.getElem?_eq_getElem hlen, ← hparent, ← hbyte]⟩

theorem findEntry_eq_none {w : Nat} {c : Byte} (h : findEntry d w c = none) : ⟨w, c⟩ ∉ d := fun hmem => by
  have hnone := List.findIdx?_eq_none_iff.mp (Option.map_eq_none_iff.mp h) _ hmem
  simp at hnone

/-- 44_lzw R240: the parents of the entries that resolvable codes define are known codes. -/
theorem parentsOk_of_lzwDict {ws : List Nat} (hres : lzwResolvable ws) (hd : lzwDict ws d) :
    ParentsOk d := fun i e hi => by
  obtain ⟨k, k', hk, -, he⟩ := hd.2 i (List.getElem?_eq_some_iff.mp hi).1
  obtain rfl := Option.some.inj (hi.symm.trans he)
  exact Nat.lt_of_le_of_lt (hres i k hk) (by omega)

/-- Codes with a string each spell a text at least as long as their list. -/
theorem length_le_flatMap_stringOf (hp : ParentsOk d) {ws : List Nat} (hws : ∀ w ∈ ws, w < nextFree d) :
    ws.length ≤ (ws.flatMap (stringOf d)).length := by
  rw [List.length_flatMap]
  simpa using List.card_nsmul_le_sum (ws.map fun w => (stringOf d w).length) 1 (by
    simpa [Nat.one_le_iff_ne_zero] using fun w hw => stringOf_ne_nil hp (hws w hw))

end Sys2Proof.Machine
end

section
/-! PROOFS of 44_lzw.md, section 2: LZW_COMPRESS emits the codes of the greedy parse of the text as long as the codes
and the dictionary have room (R233, R236), and what the parse's codes and dictionary are (R235, R237). -/

namespace Sys2Proof.Machine

/-! ## The greedy parse -/

/-- The scan of 44_lzw R233 over the rest of a text without any bound: `w` is the code of the match buffer. The result
is the codes from here on and the dictionary. -/
def greedyFrom : List DictEntry → Nat → List Byte → List Nat × List DictEntry
  | d, w, [] => ([w], d)
  | d, w, c :: x =>
    match findEntry d w c with
    | some k => greedyFrom d k x
    | none =>
      let r := greedyFrom (d ++ [⟨w, c⟩]) c.toNat x
      (w :: r.1, r.2)

/-- The greedy parse of a text: its codes and its dictionary (44_lzw R233, R237). -/
def greedyParse : List Byte → List Nat × List DictEntry
  | [] => ([], [])
  | c :: x => greedyFrom [] c.toNat x

section
variable {d : List DictEntry} {w : Nat}

@[simp] theorem greedyFrom_nil (d : List DictEntry) (w : Nat) : greedyFrom d w [] = ([w], d) := rfl

theorem greedyFrom_found {k : Nat} {c : Byte} (h : findEntry d w c = some k) (x : List Byte) :
    greedyFrom d w (c :: x) = greedyFrom d k x := by
  simp only [greedyFrom, h]

theorem greedyFrom_new {c : Byte} (h : findEntry d w c = none) (x : List Byte) :
    greedyFrom d w (c :: x) =
      (w :: (greedyFrom (d ++ [⟨w, c⟩]) c.toNat x).1, (greedyFrom (d ++ [⟨w, c⟩]) c.toNat x).2) := by
  simp only [greedyFrom, h]

/-- A pair that is not found is inserted once only (44_lzw R235). -/
theorem nodup_insert {c : Byte} (hnodup : d.Nodup) (h : findEntry d w c = none) :
    (d ++ [(⟨w, c⟩ : DictEntry)]).Nodup := by
  rw [← List.concat_eq_append]
  exact hnodup.concat (findEntry_eq_none h)

/-- What the scan adds when the match buffer has the known code `w`, and a text `x` is still to come: the codes `ws` and
the dictionary `d'` (44_lzw R235). -/
structure ParsesFrom (d : List DictEntry) (w : Nat) (x : List Byte) (ws : List Nat) (d' : List DictEntry) : Prop where
  grows : d <+: d'
  parents : ParentsOk d'
  nodup : d'.Nodup
  length : d'.length + 1 = d.length + ws.length
  bounds : ∀ j k, ws[j]? = some k → k < nextFree d + j
  entries : ∀ j k k', ws[j]? = some k → ws[j + 1]? = some k' →
    d'[d.length + j]? = some ⟨k, (stringOf d' k').headD 0⟩
  spells : ws.flatMap (stringOf d') = stringOf d' w ++ x

namespace ParsesFrom

variable {d' : List DictEntry} {x : List Byte} {ws : List Nat} {c : Byte}

/-- 44_lzw R234: every code of the parse is below NEXT_CODE. -/
theorem known (h : ParsesFrom d w x ws d') {k : Nat} (hk : k ∈ ws) : k < nextFree d' := by
  obtain ⟨j, hj⟩ := List.mem_iff_getElem?.mp hk
  have hbound := h.bounds j k hj
  have hlen := h.length
  have hlt : j < ws.length := (List.getElem?_eq_some_iff.mp hj).1
  unfold nextFree at hbound ⊢
  omega

/-- The strings of the first codes begin with the first byte of what is spelled. -/
theorem head_of_spells (h : ParsesFrom d w x ws d') {b : Byte} {y : List Byte} (hy : ws.flatMap (stringOf d') = b :: y)
    {k : Nat} (hk : ws[0]? = some k) : (stringOf d' k).headD 0 = b := by
  obtain ⟨rest, rfl⟩ : ∃ rest, ws = k :: rest := List.head?_eq_some_iff.mp (by rwa [← List.head?_eq_getElem?] at hk)
  obtain ⟨a, z, hstring⟩ := List.exists_cons_of_ne_nil (stringOf_ne_nil h.parents (h.known List.mem_cons_self))
  rw [List.flatMap_cons, hstring, List.cons_append] at hy
  rw [hstring, List.headD_cons]
  exact (List.cons.inj hy).1

/-- The end of the text: the final emit. -/
theorem final (hp : ParentsOk d) (hnodup : d.Nodup) (hw : w < nextFree d) : ParsesFrom d w [] [w] d where
  grows := List.prefix_refl d
  parents := hp
  nodup := hnodup
  length := rfl
  bounds := fun j k hj => by
    obtain rfl : k = w := by simpa using List.mem_of_getElem? hj
    exact hw.trans_le (Nat.le_add_right _ j)
  entries := fun j k k' _ hj => by simp at hj
  spells := by simp

/-- A symbol that goes on with the match. -/
theorem found {k : Nat} (hk : findEntry d w c = some k) (h : ParsesFrom d k x ws d') :
    ParsesFrom d w (c :: x) ws d' where
  grows := h.grows
  parents := h.parents
  nodup := h.nodup
  length := h.length
  bounds := h.bounds
  entries := h.entries
  spells := by
    obtain ⟨i, rfl, hi⟩ := findEntry_eq_some hk
    obtain ⟨rest, rfl⟩ := h.grows
    have hi' : (d ++ rest)[i]? = some ⟨w, c⟩ := by
      rwa [List.getElem?_append_left (List.getElem?_eq_some_iff.mp hi).1]
    rw [h.spells, stringOf_entry h.parents hi', List.append_assoc, List.singleton_append]

/-- A symbol that ends the match: an emit and an insertion. -/
theorem new (hw : w < nextFree d) (h : ParsesFrom (d ++ [⟨w, c⟩]) c.toNat x ws d') :
    ParsesFrom d w (c :: x) (w :: ws) d' where
  grows := (List.prefix_append d _).trans h.grows
  parents := h.parents
  nodup := h.nodup
  length := by
    have hlen := h.length
    simp only [List.length_append, List.length_cons, List.length_nil] at hlen ⊢
    omega
  bounds := fun j k hj => by
    cases j with
    | zero =>
      cases hj
      exact hw
    | succ j =>
      have hbound := h.bounds j k hj
      rw [nextFree_append] at hbound
      omega
  entries := fun j k k' hj hj' => by
    cases j with
    | zero =>
      cases hj
      have hspells := h.spells
      rw [stringOf_byte] at hspells
      rw [h.head_of_spells hspells hj']
      obtain ⟨rest, rfl⟩ := h.grows
      simp
    | succ j =>
      have hentry := h.entries j k k' hj hj'
      rwa [List.length_append, List.length_singleton, Nat.add_assoc, Nat.add_comm 1] at hentry
  spells := by rw [List.flatMap_cons, h.spells, stringOf_byte, List.singleton_append]

end ParsesFrom

/-- 44_lzw R235 for the scan from any point on. -/
theorem parsesFrom_greedyFrom (hp : ParentsOk d) (hnodup : d.Nodup) (hw : w < nextFree d) (x : List Byte) :
    ParsesFrom d w x (greedyFrom d w x).1 (greedyFrom d w x).2 := by
  induction x generalizing d w with
  | nil => exact .final hp hnodup hw
  | cons c x ih =>
    cases h : findEntry d w c with
    | some k =>
      rw [greedyFrom_found h]
      exact .found h (ih hp hnodup (findEntry_lt h))
    | none =>
      rw [greedyFrom_new h]
      exact .new hw (ih (hp.append hw c) (nodup_insert hnodup h) (byte_lt_nextFree c _))

end

/-- 44_lzw R235: a scan that starts with a first symbol alone in the match buffer parses the text. -/
theorem ParsesFrom.parse {c : Byte} {x : List Byte} {ws : List Nat} {d : List DictEntry}
    (h : ParsesFrom [] c.toNat x ws d) : lzwParse (c :: x) ws d := by
  have hlen : d.length = ws.length - 1 := by
    have hcount := h.length
    rw [List.length_nil] at hcount
    omega
  refine ⟨⟨hlen, fun j hj => ?entry⟩, h.bounds,
    fun i j hi hj hne heq => hne (stringOf_injective h.parents h.nodup hi hj heq), ?spells⟩
  case entry =>
    have hj₀ : ws[j]? = some ws[j] := List.getElem?_eq_getElem (by omega)
    have hj₁ : ws[j + 1]? = some ws[j + 1] := List.getElem?_eq_getElem (by omega)
    exact ⟨_, _, hj₀, hj₁, by simpa using h.entries j _ _ hj₀ hj₁⟩
  case spells => rw [h.spells, stringOf_byte, List.singleton_append]

theorem lzwParse_nil : lzwParse [] [] [] :=
  ⟨⟨rfl, by simp⟩, by simp, fun i j hi hj hne h => hne (stringOf_injective parentsOk_nil List.nodup_nil hi hj h), rfl⟩

/-- 44_lzw R235, R237: the greedy parse is one. -/
theorem lzwParse_greedyParse (x : List Byte) : lzwParse x (greedyParse x).1 (greedyParse x).2 := by
  cases x with
  | nil => exact lzwParse_nil
  | cons c x => exact (parsesFrom_greedyFrom parentsOk_nil List.nodup_nil (byte_lt_nextFree c []) x).parse

section
variable {x : List Byte} {ws : List Nat} {d : List DictEntry} (h : lzwParse x ws d)
include h

theorem lzwParse.dict : lzwDict ws d := h.1

theorem lzwParse.bounds {j k : Nat} (hj : ws[j]? = some k) : k < 256 + j := h.2.1 j k hj

theorem lzwParse.spells : ws.flatMap (stringOf d) = x := by
  obtain ⟨-, -, -, hspells⟩ := h
  exact hspells

theorem lzwParse.resolvable : lzwResolvable ws := fun j k hj => by
  have hbound := h.bounds hj
  omega

theorem lzwParse.known {k : Nat} (hk : k ∈ ws) : k < nextFree d := by
  have hlen := h.dict.1
  obtain ⟨j, hj⟩ := List.mem_iff_getElem?.mp hk
  have hbound := h.bounds hj
  have hlt : j < ws.length := (List.getElem?_eq_some_iff.mp hj).1
  unfold nextFree
  omega

/-- A text has at most one code a symbol. -/
theorem lzwParse.length_le : ws.length ≤ x.length := by
  have hle := length_le_flatMap_stringOf (parentsOk_of_lzwDict h.resolvable h.dict) fun _ => h.known
  rwa [h.spells] at hle

/-- 44_lzw R234: the codes fit 32-bit words. -/
theorem lzwParse.code_lt (hws : ws.length ≤ 2 ^ 30) : ∀ w ∈ ws, w < 2 ^ 32 := fun w hw => by
  have hknown := h.known hw
  have hlen := h.dict.1
  unfold nextFree at hknown
  omega

end

/-! ## The scan -/

/-- The number of bytes that the first `n` codes of a parse spell: the input index of emit `n - 1` (44_lzw R233). -/
def spelledLength (r : List Nat × List DictEntry) (n : Nat) : Nat := ((r.1.take n).flatMap (stringOf r.2)).length

theorem spelledLength_one {r : List Nat × List DictEntry} {w : Nat} {ws : List Nat} (h : r.1 = w :: ws) :
    spelledLength r 1 = (stringOf r.2 w).length := by
  simp [spelledLength, h]

theorem spelledLength_cons (w : Nat) (ws : List Nat) (d : List DictEntry) (n : Nat) :
    spelledLength (w :: ws, d) (n + 1) = (stringOf d w).length + spelledLength (ws, d) n := by
  simp [spelledLength]

section
variable {s : State} {d : List DictEntry} {i o w : Nat} {c : Byte}

/-- The scan's final emit (44_lzw R233). -/
theorem compressLoop_final (s : State) (i : Nat) (d : List DictEntry) (w m : Nat) :
    compressLoop s 0 i d (some w) m =
      if m ≠ s.caps.codesCap then .ok ([w], d) else .error (.error .capacityExceeded i) := by
  simp only [compressLoop, check_bind, run_pure, decide_eq_true_eq]

theorem compressLoop_found {n m k : Nat} (hread : readIn s i = .ok c) (h : findEntry d w c = some k) :
    compressLoop s (n + 1) i d (some w) m = compressLoop s n (i + 1) d (some k) m := by
  simp only [compressLoop, hread, run_ok_bind, h]

theorem compressLoop_new {n m : Nat} (hread : readIn s i = .ok c) (h : findEntry d w c = none) :
    compressLoop s (n + 1) i d (some w) m =
      if m ≠ s.caps.codesCap then
        if d.length ≠ s.caps.dictCap then
          compressLoop s n (i + 1) (d ++ [⟨w, c⟩]) (some c.toNat) (m + 1) >>= fun r => .ok (w :: r.1, r.2)
        else .error (.error .capacityExceeded i)
      else .error (.error .capacityExceeded i) := by
  simp only [compressLoop, hread, run_ok_bind, h, check_bind, run_pure, decide_eq_true_eq, nextFree, ne_eq,
    Nat.add_left_cancel_iff]

/-- 44_lzw R233, R236: the scan gives the greedy parse, if the codes and the insertions have room; otherwise it fails at
the first emit without it, at the input index behind the bytes `o` spelled before and those that the codes up to it
spell. -/
theorem compressLoop_eq {x : List Byte} (hx : Memory.holds s.inp.mem i x) (hp : ParentsOk d) (hnodup : d.Nodup)
    (hw : w < nextFree d) (hcodes : d.length ≤ s.caps.codesCap) (hdict : d.length ≤ s.caps.dictCap)
    (hi : i = o + (stringOf d w).length) :
    compressLoop s x.length i d (some w) d.length =
      if d.length + (greedyFrom d w x).1.length ≤ s.caps.codesCap ∧
          d.length + (greedyFrom d w x).1.length ≤ s.caps.dictCap + 1 then
        .ok (greedyFrom d w x)
      else .error (.error .capacityExceeded
        (o + spelledLength (greedyFrom d w x) (min s.caps.codesCap s.caps.dictCap + 1 - d.length))) := by
  induction x generalizing i o d w with
  | nil =>
    rw [List.length_nil, compressLoop_final, greedyFrom_nil]
    by_cases hfull : d.length = s.caps.codesCap
    · rw [if_neg (by simpa using hfull), if_neg (by simp; omega), Nat.min_eq_left (by omega), ← hfull,
        Nat.add_sub_cancel_left, spelledLength_one rfl, hi]
    · rw [if_pos hfull, if_pos (by simp; omega)]
  | cons c x ih =>
    obtain ⟨hget, hx⟩ := hx
    have hread := (readIn_ok s i c).mpr hget
    cases h : findEntry d w c with
    | some k =>
      obtain ⟨a, rfl, ha⟩ := findEntry_eq_some h
      rw [List.length_cons, compressLoop_found hread h, greedyFrom_found h]
      refine ih hx hp hnodup (findEntry_lt h) hcodes hdict ?_
      rw [stringOf_entry hp ha, List.length_append, List.length_singleton, hi, Nat.add_assoc]
    | none =>
      have hp' := hp.append hw c
      have hnodup' := nodup_insert hnodup h
      have hrest := parsesFrom_greedyFrom hp' hnodup' (byte_lt_nextFree c _) x
      rw [List.length_cons, compressLoop_new hread h, greedyFrom_new h]
      have hrun := ih (i := i + 1) (o := o + (stringOf d w).length) hx hp' hnodup' (byte_lt_nextFree c _)
      generalize greedyFrom (d ++ [⟨w, c⟩]) c.toNat x = r at hrest hrun ⊢
      obtain ⟨ws, d'⟩ := r
      have hlen := hrest.length
      have hgrows := hrest.grows.length_le
      have hown : stringOf d' w = stringOf d w :=
        stringOf_prefix hp ((List.prefix_append d _).trans hrest.grows) hw
      simp only [List.length_append, List.length_cons, List.length_nil, Nat.zero_add, stringOf_byte,
        Nat.add_sub_add_right]
        at hlen hgrows hrun ⊢
      by_cases hroom : d.length < min s.caps.codesCap s.caps.dictCap
      · rw [if_pos (by omega), if_pos (by omega), hrun (by omega) (by omega) (by omega), Nat.sub_add_comm (by omega),
          spelledLength_cons, hown]
        simp only [Nat.add_assoc, Nat.add_comm 1]
        split <;> rfl
      · have hnone : min s.caps.codesCap s.caps.dictCap + 1 - d.length = 1 := by omega
        rw [hnone, spelledLength_one rfl, hown, ← hi, if_neg (c := _ ∧ _) (by omega)]
        by_cases hcap : d.length = s.caps.codesCap
        · rw [if_neg (by simpa using hcap)]
        · rw [if_pos hcap, if_neg (by omega)]

end

/-- An input index within the text. -/
theorem lzwParse.spelledLength_le {x : List Byte} {ws : List Nat} {d : List DictEntry} (h : lzwParse x ws d) (n : Nat) :
    spelledLength (ws, d) n ≤ x.length := by
  rw [← h.spells, ← List.take_append_drop n ws, List.flatMap_append, List.length_append, List.take_append_drop]
  exact Nat.le_add_right _ _

section
variable {s t : State} {x : List Byte} (hx : inText s x)
include hx

/-- 44_lzw R233, R237: the scan of a whole text. -/
theorem compressLoop_of_inText :
    compressLoop s s.inp.len.toNat 0 [] none 0 =
      if (greedyParse x).1.length ≤ s.caps.codesCap ∧ (greedyParse x).1.length ≤ s.caps.dictCap + 1 then
        .ok (greedyParse x)
      else .error (.error .capacityExceeded
        (spelledLength (greedyParse x) (min s.caps.codesCap s.caps.dictCap + 1))) := by
  rw [hx.1]
  obtain ⟨-, hx⟩ := hx
  cases x with
  | nil => simp [compressLoop, greedyParse]
  | cons c x =>
    obtain ⟨hget, hx⟩ := hx
    have hrun := compressLoop_eq (d := []) (o := 0) hx parentsOk_nil List.nodup_nil (byte_lt_nextFree c [])
      (Nat.zero_le _) (Nat.zero_le _) (by simp)
    simp only [List.length_nil, Nat.zero_add, Nat.sub_zero] at hrun
    rw [List.length_cons, compressLoop, (readIn_ok s 0 c).mpr hget, run_ok_bind]
    exact hrun

/-- The greedy parse is stored when it has room (44_lzw R233). -/
theorem exec_lzwCompress_stores (hcap : x.length ≤ s.caps.inCap) (hcodes : (greedyParse x).1.length ≤ s.caps.codesCap)
    (hdict : (greedyParse x).1.length ≤ s.caps.dictCap + 1) :
    exec .lzwCompress s = .next (completeOk (storeCompressed s (greedyParse x).1 (greedyParse x).2)) :=
  execLzwCompress_next.mpr (.inl ⟨hx.1.trans_le hcap,
    .inl ⟨_, (compressLoop_of_inText hx).trans (if_pos ⟨hcodes, hdict⟩), rfl⟩⟩)

/-- The first emit without room stops the command (44_lzw R233, R236). -/
theorem exec_lzwCompress_full (hcap : x.length ≤ s.caps.inCap)
    (hfull : s.caps.codesCap < (greedyParse x).1.length ∨ s.caps.dictCap + 1 < (greedyParse x).1.length) :
    exec .lzwCompress s = .next (completeError .capacityExceeded
      (spelledLength (greedyParse x) (min s.caps.codesCap s.caps.dictCap + 1)) 0x0A 0x0A (scrubCompressed s)) :=
  execLzwCompress_next.mpr (.inl ⟨hx.1.trans_le hcap,
    .inr ⟨_, _, (compressLoop_of_inText hx).trans (if_neg (by omega)), rfl⟩⟩)

/-- Every success of LZW_COMPRESS stores the greedy parse of the text. -/
theorem exec_lzwCompress_ok (hexec : exec .lzwCompress s = .next t) (hok : t.ctl.error = noError) :
    (greedyParse x).1.length ≤ s.caps.codesCap ∧ (greedyParse x).1.length ≤ s.caps.dictCap + 1 ∧
    t = completeOk (storeCompressed s (greedyParse x).1 (greedyParse x).2) := by
  obtain ⟨-, ⟨r, hrun, rfl⟩ | ⟨code, info, hrun, rfl⟩⟩ | ⟨-, rfl⟩ := execLzwCompress_next.mp hexec
  · rw [compressLoop_of_inText hx] at hrun
    split at hrun
    · rename_i hroom
      cases hrun
      exact ⟨hroom.1, hroom.2, rfl⟩
    · cases hrun
  · obtain ⟨rfl, -⟩ := compressLoop_error hrun
    cases hok
  · cases hok

end

/-! ## What the command leaves -/

/-- The codes of a parse as words of CODES (44_lzw R234). -/
theorem toNat_of_codeWords {ws : List Nat} (h : ∀ w ∈ ws, w < 2 ^ 32) :
    (ws.map (BitVec.ofNat 32)).map BitVec.toNat = ws := by
  rw [List.map_map]
  exact (List.map_congr_left fun w hw => ofNat_toNat_of_lt (h w hw)).trans (List.map_id ws)

theorem codeAt_of_get {s : State} {j : Nat} {w : Word} (h : Memory.get s.codes.mem j = some w) :
    codeAt s j = some w := by
  rw [codeAt, h]

theorem storeCompressed_codeList (s : State) {ws : List Nat} (d : List DictEntry) (hws : ws.length < 2 ^ 32) :
    codeList (completeOk (storeCompressed s ws d)) (ws.map (BitVec.ofNat 32)) := by
  refine ⟨?_, fun j hj => ?_⟩
  · rw [List.length_map]
    exact ofNat_toNat_of_lt hws
  · have hget := Memory.get_write_inside s.codes.mem 0 _ j hj
    rw [Nat.zero_add] at hget
    exact (codeAt_of_get hget).trans (List.getElem?_eq_getElem hj).symm

theorem storeCompressed_get_outside (s : State) (ws : List Nat) (d : List DictEntry) {a : Nat} (ha : ws.length ≤ a) :
    Memory.get (completeOk (storeCompressed s ws d)).codes.mem a = Memory.get s.codes.mem a :=
  Memory.get_write_outside _ _ _ _ (.inr (by rw [List.length_map]; omega))

/-- After a failed compression every word of CODES holds a value (44_lzw R236). -/
theorem scrubCompressed_codeAt (s : State) (j : Nat) : ∃ w, codeAt (scrubCompressed s) j = some w :=
  ⟨Config.scrubbedWord s.resetCount (s.scrubs + 1) j, if_neg (t := none) (Nat.succ_ne_zero s.scrubs)⟩

/-- Settles O23: a success stores the greedy parse (`exec_lzwCompress_ok`), which has the properties of R235
(`lzwParse_greedyParse`) and no more codes than symbols (`lzwParse.length_le`). -/
theorem lzwCompressParsesTheText : Obligations.LzwCompressParsesTheText := by
  refine ⟨fun s x hwf hx hcap hcodes hdict => ?room, fun s hcap => execLzwCompress_next.mpr (.inr ⟨hcap, rfl⟩),
    fun s t x hwf hx hexec hok => ?parse⟩
  case room =>
    have hlen := (lzwParse_greedyParse x).length_le
    exact ⟨_, exec_lzwCompress_stores hx hcap (hlen.trans hcodes) (hlen.trans hdict), succeeded_completeOk _⟩
  case parse =>
    obtain ⟨-, -, -, -, hwords, -⟩ := Caps.wf_lt hwf
    obtain ⟨hcodes, -, rfl⟩ := exec_lzwCompress_ok hx hexec hok
    have hparse := lzwParse_greedyParse x
    have hback := toNat_of_codeWords (hparse.code_lt (by omega))
    obtain ⟨hdict, hbounds, hdistinct, hspells⟩ := hparse
    refine ⟨(greedyParse x).1.map (BitVec.ofNat 32), storeCompressed_codeList s _ (by omega), ?empty, ?nonempty, ?next,
      by rwa [hback], fun j w hw => ?bound, hdistinct, ?spells, fun a ha => ?rest⟩
    case empty =>
      rintro rfl
      rfl
    case nonempty =>
      intro hne h
      rw [List.map_eq_nil_iff.mp h] at hspells
      exact hne hspells.symm
    case next =>
      rw [List.length_map, ← hdict.1]
      have hlen := hdict.1
      exact ofNat_toNat_of_lt (by unfold nextFree; omega)
    case bound => exact hbounds j _ (by rw [← hback, List.getElem?_map, hw, Option.map_some])
    case spells =>
      rw [← List.flatMap_map, hback]
      exact hspells
    case rest => exact storeCompressed_get_outside s _ _ (by rwa [List.length_map] at ha)

/-- Settles O24: LZW_COMPRESS stores the greedy parse or stops at its first emit without room
(`exec_lzwCompress_stores`, `exec_lzwCompress_full`); `compressLoop_error` bounds the info of every failure. -/
theorem lzwCompressErrorState : Obligations.LzwCompressErrorState := by
  refine ⟨fun s x hwf hx hcap => ⟨_, _, lzwParse_greedyParse x, fun hcodes hdict => ?_, fun hfull => ?_⟩,
    fun s t hcap hexec herror => ?_⟩
  · obtain ⟨-, -, -, -, hwords, -⟩ := Caps.wf_lt hwf
    exact ⟨_, exec_lzwCompress_stores hx hcap hcodes hdict, succeeded_completeOk _,
      storeCompressed_codeList s _ (by omega), rfl⟩
  · refine ⟨_, exec_lzwCompress_full hx hcap hfull, rfl, satWord_toNat _ ?_⟩
    have hinfo := (lzwParse_greedyParse x).spelledLength_le (min s.caps.codesCap s.caps.dictCap + 1)
    exact Nat.lt_of_le_of_lt (hinfo.trans_eq hx.1.symm) s.inp.len.isLt
  · obtain ⟨-, ⟨r, -, rfl⟩ | ⟨code, info, hrun, rfl⟩⟩ | ⟨hcap', -⟩ := execLzwCompress_next.mp hexec
    · exact absurd rfl herror
    · obtain ⟨rfl, -, hinfo⟩ := compressLoop_error hrun
      rw [Nat.zero_add] at hinfo
      obtain ⟨hframe, -⟩ := commandsKeepStateOutsideTheirWriteSet _ _ _ hexec
      refine ⟨rfl, ?_, rfl, rfl, rfl, scrubCompressed_codeAt s, fun p hcodes hdict =>
        hframe p (by simp [writeSet, hcodes, hdict])⟩
      exact (satWord_toNat _ (Nat.lt_of_le_of_lt hinfo s.inp.len.isLt)).trans_le hinfo
    · exact absurd hcap (Nat.not_le.mpr hcap')

end Sys2Proof.Machine
end

section
/-! PROOFS of 44_lzw.md, sections 3 and 4: LZW_DECOMPRESS of resolvable codes writes their strings and rebuilds the
dictionary they define (R241, R242), every other code stops it (R243, R244), and it restores what LZW_COMPRESS
compressed (R245, R246). -/

namespace Sys2Proof.Machine

/-! ## The dictionary that a list of codes defines -/

theorem ParentsOk.of_prefix {d d' : List DictEntry} (hp : ParentsOk d') (hd : d <+: d') : ParentsOk d := fun i e hi =>
  hp i e (by
    obtain ⟨rest, rfl⟩ := hd
    rwa [List.getElem?_append_left (List.getElem?_eq_some_iff.mp hi).1])

theorem lt_length_of_lzwDict {ws : List Nat} {d : List DictEntry} (hd : lzwDict ws d) {j k : Nat}
    (hk : ws[j + 1]? = some k) : j < d.length := by
  have hlt : j + 1 < ws.length := (List.getElem?_eq_some_iff.mp hk).1
  have hlen := hd.1
  omega

section
variable {ws : List Nat} {d : List DictEntry} {j w k : Nat}

/-- 44_lzw R240: the entry that the step from code `w` to code `k` inserts. -/
theorem entry_of_lzwDict (hd : lzwDict ws d) (hw : ws[j]? = some w) (hk : ws[j + 1]? = some k) :
    d[j]? = some ⟨w, (stringOf d k).headD 0⟩ := by
  obtain ⟨l, l', hl, hl', he⟩ := hd.2 j (lt_length_of_lzwDict hd hk)
  obtain rfl := Option.some.inj (hw.symm.trans hl)
  obtain rfl := Option.some.inj (hk.symm.trans hl')
  exact he

theorem take_succ_of_lzwDict (hd : lzwDict ws d) (hw : ws[j]? = some w) (hk : ws[j + 1]? = some k) :
    d.take (j + 1) = d.take j ++ [⟨w, (stringOf d k).headD 0⟩] := by
  rw [List.take_add_one, entry_of_lzwDict hd hw hk, Option.toList_some]

/-- 44_lzw R241, R242: the entry of a known or next-free code is its string in the dictionary that the list defines. -/
theorem entryFor_of_lzwDict (hres : lzwResolvable ws) (hd : lzwDict ws d) (hw : ws[j]? = some w)
    (hk : ws[j + 1]? = some k) : entryFor (d.take j) w k = stringOf d k := by
  have hp := parentsOk_of_lzwDict hres hd
  have hj := lt_length_of_lzwDict hd hk
  have hnext : nextFree (d.take j) = 256 + j := by rw [nextFree, List.length_take_of_le hj.le]
  have hkeep : ∀ a < 256 + j, stringOf (d.take j) a = stringOf d a := fun a ha =>
    (stringOf_prefix (hp.of_prefix (d.take_prefix j)) (d.take_prefix j) (hnext ▸ ha)).symm
  have hwlt : w < 256 + j := Nat.lt_of_le_of_lt (hres j w hw) (by omega)
  rw [entryFor, hnext]
  split
  case isTrue hknown => exact hkeep k hknown
  case isFalse hnew =>
    have hle := hres (j + 1) k hk
    obtain rfl : k = 256 + j := by omega
    have hstring := stringOf_entry hp (entry_of_lzwDict hd hw hk)
    obtain ⟨b, y, hb⟩ := List.exists_cons_of_ne_nil (stringOf_ne_nil hp (hwlt.trans (Nat.add_lt_add_left hj 256)))
    have hhead : (stringOf d (256 + j)).headD 0 = b := by rw [hstring, hb]; rfl
    rw [hkeep w hwlt, hstring, hhead, hb]
    rfl

end

/-- A known or next-free code goes on with a resolvable list (44_lzw R241). -/
theorem lzwResolvable.concat {ws : List Nat} (hres : lzwResolvable ws) {k : Nat} (hk : k ≤ 255 + ws.length) :
    lzwResolvable (ws ++ [k]) := fun j l hj => by
  obtain h | ⟨rfl, rfl⟩ := getElem?_concat_eq_some.mp hj
  · exact hres j l h
  · exact hk

/-! ## The steps -/

section
variable {s : State} {j n o w : Nat} {kw : Word}

/-- One step of LZW_DECOMPRESS: its three checks in order (44_lzw R241). -/
theorem decompressLoop_succ (hread : codeAt s j = some kw) (d : List DictEntry) :
    decompressLoop s (n + 1) j d w o =
      if kw.toNat ≤ nextFree d then
        if o + (entryFor d w kw.toNat).length ≤ s.caps.outCap then
          if d.length ≠ s.caps.dictCap then
            decompressLoop s n (j + 1) (d ++ [⟨w, (entryFor d w kw.toNat).headD 0⟩]) kw.toNat
              (o + (entryFor d w kw.toNat).length) >>= fun r => .ok (entryFor d w kw.toNat ++ r.1, r.2)
          else .error (.error .capacityExceeded j)
        else .error (.error .capacityExceeded j)
      else .error (.error .corruptData j) := by
  have hfull : nextFree d ≠ 256 + s.caps.dictCap ↔ d.length ≠ s.caps.dictCap := by
    rw [nextFree, ne_eq, Nat.add_left_cancel_iff]
  simp only [decompressLoop, (readCode_ok s j kw).mpr hread, run_ok_bind, check_bind, run_pure, decide_eq_true_eq,
    hfull]

/-- A step at a known or next-free code of the list that defines the dictionary (44_lzw R241, R242). -/
theorem decompressLoop_code {ws : List Nat} {d : List DictEntry} (hres : lzwResolvable ws) (hd : lzwDict ws d)
    (hw : ws[j]? = some w) (hk : ws[j + 1]? = some kw.toNat) (hread : codeAt s (j + 1) = some kw) :
    decompressLoop s (n + 1) (j + 1) (d.take j) w o =
      if o + (stringOf d kw.toNat).length ≤ s.caps.outCap then
        if j ≠ s.caps.dictCap then
          decompressLoop s n (j + 1 + 1) (d.take (j + 1)) kw.toNat (o + (stringOf d kw.toNat).length) >>= fun r =>
            .ok (stringOf d kw.toNat ++ r.1, r.2)
        else .error (.error .capacityExceeded (j + 1))
      else .error (.error .capacityExceeded (j + 1)) := by
  have hlen : (d.take j).length = j := List.length_take_of_le (lt_length_of_lzwDict hd hk).le
  have hle := hres (j + 1) _ hk
  rw [decompressLoop_succ hread, entryFor_of_lzwDict hres hd hw hk, ← take_succ_of_lzwDict hd hw hk, hlen,
    if_pos (by rw [nextFree, hlen]; omega)]

end

/-- What a list of codes spells in a dictionary (44_lzw R241). -/
def spelled (d : List DictEntry) (ws : List Word) : List Byte := ws.flatMap fun w => stringOf d w.toNat

@[simp] theorem spelled_nil (d : List DictEntry) : spelled d [] = [] := rfl

@[simp] theorem spelled_cons (d : List DictEntry) (w : Word) (ws : List Word) :
    spelled d (w :: ws) = stringOf d w.toNat ++ spelled d ws := rfl

theorem spelled_concat (d : List DictEntry) (ws : List Word) (w : Word) :
    spelled d (ws ++ [w]) = spelled d ws ++ stringOf d w.toNat := by simp [spelled]

/-- Bytes written before a computation that itself continues one. -/
theorem run_append_append (r : Run (List Byte × List DictEntry)) (x y : List Byte) :
    ((r >>= fun q => .ok (y ++ q.1, q.2)) >>= fun q => (.ok (x ++ q.1, q.2) : Run (List Byte × List DictEntry))) =
      r >>= fun q => .ok (x ++ y ++ q.1, q.2) := by
  cases r <;> simp

section
variable {s : State} {d : List DictEntry} {ws : List Word} (hres : lzwResolvable (ws.map BitVec.toNat))
  (hd : lzwDict (ws.map BitVec.toNat) d)
include hres hd

/-- The steps over codes of the list write their strings (44_lzw R241); what comes after them is still to be run. -/
theorem decompressLoop_codes {us ks rest : List Word} {w : Word} {n o : Nat} (hws : us ++ w :: (ks ++ rest) = ws)
    (hread : ∀ j, j < us.length + 1 + ks.length → codeAt s j = ws[j]?)
    (hout : o + (spelled d ks).length ≤ s.caps.outCap) (hdict : us.length + ks.length ≤ s.caps.dictCap) :
    decompressLoop s (ks.length + n) (us.length + 1) (d.take us.length) w.toNat o =
      decompressLoop s n (us.length + 1 + ks.length) (d.take (us.length + ks.length)) (ks.getLastD w).toNat
        (o + (spelled d ks).length) >>= fun r => .ok (spelled d ks ++ r.1, r.2) := by
  induction ks generalizing us w o with
  | nil =>
    simp only [List.length_nil, Nat.zero_add, Nat.add_zero, spelled_nil, List.nil_append, List.getLastD_nil]
    cases decompressLoop s n _ _ _ o <;> rfl
  | cons k ks ih =>
    have hwget : ws[us.length]? = some w := by simp [← hws]
    have hkget : ws[us.length + 1]? = some k := by simp [← hws]
    have hreadk : codeAt s (us.length + 1) = some k := (hread _ (by simp)).trans hkget
    have hrest := ih (us := us ++ [w]) (w := k) (o := o + (stringOf d k.toNat).length) (by simpa using hws)
    simp only [List.length_append, List.length_cons, List.length_nil, Nat.zero_add, spelled_cons]
      at hrest hout hdict hread ⊢
    rw [Nat.add_right_comm ks.length, decompressLoop_code hres hd (by simp [hwget]) (by simp [hkget]) hreadk,
      if_pos (by omega), if_pos (by omega), hrest (fun j hj => hread j (by omega)) (by omega) (by omega)]
    rw [run_append_append, List.getLastD_cons, Nat.add_assoc (us.length + 1) 1, Nat.add_assoc us.length 1 ks.length,
      Nat.add_comm 1, Nat.add_assoc o]

/-- LZW_DECOMPRESS over the first codes of the list (44_lzw R241). -/
theorem decompressRun_codes {ks rest : List Word} {w : Word} {n : Nat} (hws : w :: (ks ++ rest) = ws)
    (hread : ∀ j, j < ks.length + 1 → codeAt s j = ws[j]?) (hout : (spelled d (w :: ks)).length ≤ s.caps.outCap)
    (hdict : ks.length ≤ s.caps.dictCap) :
    decompressRun s (ks.length + 1 + n) =
      decompressLoop s n (ks.length + 1) (d.take ks.length) (ks.getLastD w).toNat
        (spelled d (w :: ks)).length >>= fun r => .ok (spelled d (w :: ks) ++ r.1, r.2) := by
  have hseed : w.toNat < 256 := Nat.lt_of_le_of_lt (hres 0 w.toNat (by simp [← hws])) (by omega)
  have hreadw : codeAt s 0 = some w := (hread 0 (by omega)).trans (by simp [← hws])
  have hrest := decompressLoop_codes (s := s) hres hd (us := []) (n := n) (o := (stringOf d w.toNat).length) hws
  simp only [spelled_cons, List.length_append, List.length_nil, Nat.zero_add, List.take_zero] at hrest hout ⊢
  rw [Nat.add_right_comm]
  simp only [decompressRun, (readCode_ok s 0 w).mpr hreadw, run_ok_bind, check_bind, run_pure, decide_eq_true_eq]
  rw [if_pos hseed, stringOf_seed [] hseed, ← stringOf_seed d hseed, if_pos (by omega),
    hrest (fun j hj => hread j (by omega)) hout hdict, run_append_append, Nat.add_comm 1]

end

/-! ## What the command leaves -/

section
variable {s : State}

/-- What LZW_DECOMPRESS's success leaves (44_lzw R241). -/
theorem exec_lzwDecompress_stores {x : List Byte} {d : List DictEntry} (hcap : s.codes.len.toNat ≤ s.caps.codesCap)
    (h : decompressRun s s.codes.len.toNat = .ok (x, d)) (hx : x.length < 2 ^ 32) :
    ∃ t, exec .lzwDecompress s = .next t ∧ succeeded t ∧ outText t x ∧ t.dict = dictionary d ∧
      ∀ p, p ≠ .out → p ≠ .dict → Part.same s t p := by
  have hexec : exec .lzwDecompress s = .next (completeOk (storeDecompressed s x d)) :=
    execLzwDecompress_next.mpr (.inl ⟨hcap, .inl ⟨_, h, rfl⟩⟩)
  obtain ⟨hframe, -⟩ := commandsKeepStateOutsideTheirWriteSet _ _ _ hexec
  exact ⟨_, hexec, succeeded_completeOk _, ⟨ofNat_toNat_of_lt hx, Memory.holds_cells 0 x⟩, rfl,
    fun p hout hdict => hframe p (by simp [writeSet, hout, hdict])⟩

/-- What LZW_DECOMPRESS's errors behind the first check leave (44_lzw R244). -/
theorem exec_lzwDecompress_fails {code : ErrCode} {info : Nat} (hcap : s.codes.len.toNat ≤ s.caps.codesCap)
    (h : decompressRun s s.codes.len.toNat = .error (.error code info)) (hinfo : info < s.codes.len.toNat) :
    ∃ t, exec .lzwDecompress s = .next t ∧ t.ctl.error = ⟨code, 0x0B, 0x0B⟩ ∧ t.ctl.errInfo.toNat = info ∧
      t.out.len = 0 ∧ t.dict.nextCode = 256 ∧ ∀ p, p ≠ .out → p ≠ .dict → Part.same s t p := by
  have hexec : exec .lzwDecompress s = .next (completeError code info 0x0B 0x0B (storeDecompressed s [] [])) :=
    execLzwDecompress_next.mpr (.inl ⟨hcap, .inr ⟨_, _, h, rfl⟩⟩)
  obtain ⟨hframe, -⟩ := commandsKeepStateOutsideTheirWriteSet _ _ _ hexec
  exact ⟨_, hexec, rfl, satWord_toNat _ (hinfo.trans s.codes.len.isLt), rfl, rfl,
    fun p hout hdict => hframe p (by simp [writeSet, hout, hdict])⟩

/-- 44_lzw R241: the run over the whole list that defines the dictionary. -/
theorem decompressRun_of_codeList {ws : List Word} {d : List DictEntry} (hlist : codeList s ws)
    (hres : lzwResolvable (ws.map BitVec.toNat)) (hd : lzwDict (ws.map BitVec.toNat) d)
    (hdict : ws.length ≤ s.caps.dictCap + 1) (hout : (spelled d ws).length ≤ s.caps.outCap) :
    decompressRun s s.codes.len.toNat = .ok (spelled d ws, d) := by
  obtain ⟨hlen, hread⟩ := hlist
  have hd1 := hd.1
  rw [hlen]
  cases ws with
  | nil =>
    obtain rfl : d = [] := List.length_eq_zero_iff.mp hd1
    rfl
  | cons w ks =>
    simp only [List.length_map, List.length_cons, Nat.add_sub_cancel] at hd1 hdict hread ⊢
    rw [decompressRun_codes (n := 0) (rest := []) hres hd (by simp) hread hout (by omega), decompressLoop,
      List.take_of_length_le hd1.le, run_ok_bind, List.append_nil]

/-- 44_lzw R241: LZW_DECOMPRESS of resolvable codes with room. -/
theorem exec_lzwDecompress_of_codeList {ws : List Word} {d : List DictEntry} (hwf : s.caps.wf = true)
    (hlist : codeList s ws) (hres : lzwResolvable (ws.map BitVec.toNat)) (hd : lzwDict (ws.map BitVec.toNat) d)
    (hcap : ws.length ≤ s.caps.codesCap) (hdict : ws.length ≤ s.caps.dictCap + 1)
    (hout : (spelled d ws).length ≤ s.caps.outCap) :
    ∃ t, exec .lzwDecompress s = .next t ∧ succeeded t ∧ outText t (spelled d ws) ∧ t.dict = dictionary d ∧
      ∀ p, p ≠ .out → p ≠ .dict → Part.same s t p := by
  obtain ⟨-, houtcap, -⟩ := Caps.wf_lt hwf
  exact exec_lzwDecompress_stores (hlist.1.trans_le hcap) (decompressRun_of_codeList hlist hres hd hdict hout)
    (Nat.lt_of_le_of_lt hout houtcap)

end

/-! ## The code that stops the command -/

section
variable {s : State} {ws : List Word} {k : Word} {d : List DictEntry} {n : Nat}
  (hread : ∀ j, j < (ws ++ [k]).length → codeAt s j = (ws ++ [k])[j]?)
  (hout : (spelled d ws).length ≤ s.caps.outCap)
include hread hout

/-- 44_lzw R243: a code that is neither known nor next-free, or a first code that is no seed code. -/
theorem decompressRun_corrupt (hres : lzwResolvable (ws.map BitVec.toNat)) (hd : lzwDict (ws.map BitVec.toNat) d)
    (hdict : d.length ≤ s.caps.dictCap) (hk : 255 + ws.length < k.toNat) :
    decompressRun s (ws.length + (n + 1)) = .error (.error .corruptData ws.length) := by
  have hreadk : codeAt s ws.length = some k := (hread _ (by simp)).trans (by simp)
  cases ws with
  | nil =>
    rw [List.length_nil] at hreadk hk
    rw [List.length_nil, Nat.zero_add]
    simp only [decompressRun, (readCode_ok s 0 k).mpr hreadk, run_ok_bind, check_bind, run_pure, decide_eq_true_eq]
    exact if_neg (by omega)
  | cons w ks =>
    have hd1 : d.length = ks.length := by simpa using hd.1
    rw [List.length_cons] at hk hreadk ⊢
    rw [decompressRun_codes (rest := []) hres hd (by simp) (fun j hj => ?_) hout (by omega),
      decompressLoop_succ hreadk, if_neg, run_error_bind]
    · rw [nextFree, List.length_take_of_le hd1.ge]
      omega
    · rw [hread j (by simp; omega), List.getElem?_append_left (by simp; omega)]

/-- 44_lzw R241: a known or next-free code whose string does not fit OUT, or that finds the dictionary full. -/
theorem decompressRun_full (hne : ws ≠ []) (hres : lzwResolvable (ws.map BitVec.toNat))
    (hd : lzwDict ((ws ++ [k]).map BitVec.toNat) d) (hk : k.toNat ≤ 255 + ws.length)
    (hdict : d.length ≤ s.caps.dictCap + 1)
    (hfull : s.caps.outCap < (spelled d (ws ++ [k])).length ∨ d.length = s.caps.dictCap + 1) :
    decompressRun s (ws.length + (n + 1)) = .error (.error .capacityExceeded ws.length) := by
  have hreadk : codeAt s ws.length = some k := (hread _ (by simp)).trans (by simp)
  have hres' : lzwResolvable ((ws ++ [k]).map BitVec.toNat) := by
    rw [List.map_append]
    exact hres.concat (by rwa [List.length_map])
  obtain ⟨w, ks, rfl⟩ := List.exists_cons_of_ne_nil hne
  have hd1 : d.length = ks.length + 1 := by simpa using hd.1
  have hlast : (w :: ks)[ks.length]? = some (ks.getLastD w) := by
    rw [List.getLastD_eq_getLast?, ← List.getLast?_cons, List.getLast?_eq_getElem?]
    rfl
  have hlast' : ((w :: ks ++ [k]).map BitVec.toNat)[ks.length]? = some (ks.getLastD w).toNat := by
    rw [List.getElem?_map, List.getElem?_append_left (by simp), hlast, Option.map_some]
  rw [spelled_concat, List.length_append] at hfull
  rw [List.length_cons] at hreadk ⊢
  rw [decompressRun_codes (rest := [k]) hres' hd rfl (fun j hj => hread j (by simp; omega)) hout (by omega),
    decompressLoop_code hres' hd hlast' (by simp) hreadk]
  split
  · rw [if_neg (by omega), run_error_bind]
  · rw [run_error_bind]

end

/-- Settles O25: over resolvable codes the steps write the strings of the dictionary that the list defines
(`decompressLoop_codes`), so the whole list succeeds (`exec_lzwDecompress_of_codeList`); the next code stops the run
when it is corrupt (`decompressRun_corrupt`) or finds OUT or the dictionary full (`decompressRun_full`). -/
theorem lzwDecompressWritesTheStrings : Obligations.LzwDecompressWritesTheStrings := by
  refine ⟨fun s ws d hwf hlist hres hd hcap hdict hout => ?strings,
    fun s hcap => execLzwDecompress_next.mpr (.inr ⟨hcap, rfl⟩), fun s ws k hwf hcap hlen hread hres => ?stops⟩
  case strings =>
    obtain ⟨t, hexec, hsucc, htext, hdic, hframe⟩ := exec_lzwDecompress_of_codeList hwf hlist hres hd hcap hdict hout
    obtain ⟨-, -, -, -, hwords, -⟩ := Caps.wf_lt hwf
    have hd1 : d.length = ws.length - 1 := by simpa using hd.1
    refine ⟨t, hexec, hsucc, htext, congrArg Dictionary.entries hdic, ?_, hframe⟩
    rw [hdic, ← hd1]
    exact ofNat_toNat_of_lt (by unfold nextFree; omega)
  case stops =>
    obtain ⟨n, hn⟩ : ∃ n, s.codes.len.toNat = ws.length + (n + 1) := ⟨s.codes.len.toNat - ws.length - 1, by omega⟩
    refine ⟨fun d hd hdict hout hk => ?_, fun d hd hne hk hdict hout => ⟨fun hfull => ?_, fun _ hfull => ?_⟩⟩
    · exact exec_lzwDecompress_fails hcap (hn ▸ decompressRun_corrupt hread hout hres hd hdict hk) hlen
    · exact exec_lzwDecompress_fails hcap (hn ▸ decompressRun_full hread hout hne hres hd hk hdict (.inl hfull)) hlen
    · exact exec_lzwDecompress_fails hcap (hn ▸ decompressRun_full hread hout hne hres hd hk hdict (.inr hfull)) hlen

/-- Settles O26: the codes that LZW_COMPRESS stores are resolvable and define its dictionary (`lzwParse_greedyParse`),
so LZW_DECOMPRESS spells them in that dictionary (`exec_lzwDecompress_of_codeList`). -/
theorem lzwRoundTrip : Obligations.LzwRoundTrip := by
  intro s t x hwf hx hne hexec hok hout
  obtain ⟨-, -, -, -, hwords, -⟩ := Caps.wf_lt hwf
  obtain ⟨hcodes, hdict, rfl⟩ := exec_lzwCompress_ok hx hexec hok
  have hparse := lzwParse_greedyParse x
  have hback := toNat_of_codeWords (hparse.code_lt (by omega))
  have htext : spelled (greedyParse x).2 ((greedyParse x).1.map (BitVec.ofNat 32)) = x := by
    rw [spelled, ← List.flatMap_map, hback]
    exact hparse.spells
  have hlist := storeCompressed_codeList s (greedyParse x).2 (ws := (greedyParse x).1) (by omega)
  obtain ⟨u, hdecompress, hsucc, hu, hdic, -⟩ := exec_lzwDecompress_of_codeList
    (s := completeOk (storeCompressed s (greedyParse x).1 (greedyParse x).2)) (d := (greedyParse x).2) hwf hlist
    (hback.symm ▸ hparse.resolvable) (hback.symm ▸ hparse.dict)
    (by rwa [List.length_map]) (by rwa [List.length_map]) (by rwa [htext])
  exact ⟨u, hdecompress, hsucc, htext ▸ hu, hdic⟩

end Sys2Proof.Machine
end

section
/-! PROOFS of 45_container.md, sections 1 and 2: the layouts of the two kinds of artifact (R260 to R265) and the
SERIALIZE commands, which write them or raise their errors in order (R266, R267). -/

namespace Sys2Proof.Machine

/-! ## The artifacts -/

/-- The TAG 1 or 2 artifact of a table and a payload (45_container R260, R262). -/
def tableArtifact (tag : Byte) (pad : BitVec 3) (t : Memory BitString) (x : List Byte) : List Byte :=
  headerBytes tag (pad.setWidth 8) x.length ++ be16 t.length ++ tableBytes t ++ x

/-- The TAG 3 artifact of a code list (45_container R260, R264). -/
def codesArtifact (ws : List Word) : List Byte := headerBytes 0x03 0 (4 * ws.length) ++ codeListBytes ws

@[simp] theorem headerBytes_length (tag pad : Byte) (len : Nat) : (headerBytes tag pad len).length = 9 := rfl

/-- 45_container R265, TAG 1 and 2. -/
theorem tableArtifact_length (tag : Byte) (pad : BitVec 3) (t : Memory BitString) (x : List Byte) :
    (tableArtifact tag pad t x).length = 11 + (t.map fun c => 2 + ceilDiv8 c.2.length).sum + x.length := by
  simp only [tableArtifact, List.length_append, headerBytes_length, be16_length, tableBytes_length]

/-- 45_container R265, TAG 3. -/
theorem codesArtifact_length (ws : List Word) : (codesArtifact ws).length = 9 + 4 * ws.length := by
  simp only [codesArtifact, List.length_append, headerBytes_length, codeListBytes_length]

theorem tableArtifact_eq (tag : Byte) (pad : BitVec 3) (t : Memory BitString) (x : List Byte) :
    tableArtifact tag pad t x = [0x44, 0x43, 0x01, tag, pad.setWidth 8] ++ be32 x.length ++ be16 t.length ++
      (t.flatMap fun c => BitVec.ofNat 8 c.1 :: BitVec.ofNat 8 c.2.length :: packBytes ((c.2.length + 7) / 8) c.2) ++
      x := by
  rw [tableArtifact, tableBytes_eq_flatMap]
  rfl

theorem codesArtifact_eq (ws : List Word) :
    codesArtifact ws =
      [0x44, 0x43, 0x01, 0x03, 0x00] ++ be32 (4 * ws.length) ++ ws.flatMap fun w => be32 w.toNat := by
  rw [codesArtifact, codeListBytes_eq_flatMap]
  rfl

/-- What SERIALIZE's checks 1 to 3 and DESERIALIZE's checks 9, 22 and 25 ask of the parts of a TAG 1 or 2 artifact
(45_container R266, R271), for a PAYLOAD of `cap` bytes. -/
structure PartsOk (cap : Nat) (pad : BitVec 3) (t : Memory BitString) (x : List Byte) : Prop where
  fits : x.length ≤ cap
  pad : x = [] → pad = 0
  table : t = [] → x = []

/-! ## SERIALIZE.HUF and SERIALIZE.SF -/

/-- A check that refuses `p ≠ 0` beside `m = 0`. -/
theorem zeroCheck_eq_true (m p : Nat) : (!(decide (m = 0) && decide (p ≠ 0))) = true ↔ (m = 0 → p = 0) := by
  by_cases hm : m = 0 <;> simp [hm]

theorem toNat_eq_zero {w : Nat} (v : BitVec w) : v.toNat = 0 ↔ v = 0 :=
  ⟨fun h => BitVec.eq_of_toNat_eq (by simpa using h), fun h => by simp [h]⟩

/-- 45_container R266: the four checks in order, and the artifact. -/
theorem serializeTableRun_eq (tag : Byte) (s : State) :
    serializeTableRun tag s =
      if s.payload.len.toNat ≤ s.caps.payloadCap then
        if s.payload.len = 0 → s.pad = 0 then
          if s.ctab.ctabN = 0 → s.payload.len = 0 then
            if 11 + (s.ctab.codes.map fun c => 2 + ceilDiv8 c.2.length).sum + s.payload.len.toNat ≤ s.caps.outCap then
              readPayload s s.payload.len.toNat >>= fun x =>
                .ok (headerBytes tag (BitVec.ofNat 8 s.pad.toNat) s.payload.len.toNat ++ be16 s.ctab.ctabN.toNat ++
                  tableBytes s.ctab.codes ++ x)
            else .error (.error .capacityExceeded
              (11 + (s.ctab.codes.map fun c => 2 + ceilDiv8 c.2.length).sum + s.payload.len.toNat))
          else .error (.error .formatError 9)
        else .error (.error .formatError 4)
      else .error (.error .capacityExceeded s.payload.len.toNat) := by
  simp only [serializeTableRun, check_bind, decide_eq_true_eq, zeroCheck_eq_true]
  simp only [toNat_eq_zero]
  rfl

section
variable {tag : Byte} {s : State} (hcount : s.ctab.ctabN.toNat = s.ctab.codes.length)
include hcount

/-- 45_container R266: from a table and a payload whose checks pass SERIALIZE computes their artifact. -/
theorem serializeTableRun_of_payloadText {x : List Byte} (hx : payloadText s x)
    (hparts : PartsOk s.caps.payloadCap s.pad s.ctab.codes x)
    (hroom : (tableArtifact tag s.pad s.ctab.codes x).length ≤ s.caps.outCap) :
    serializeTableRun tag s = .ok (tableArtifact tag s.pad s.ctab.codes x) := by
  have hempty : s.payload.len = 0 ↔ x = [] := by rw [← toNat_eq_zero, hx.1, List.length_eq_zero_iff]
  have hnone : s.ctab.ctabN = 0 ↔ s.ctab.codes = [] := by rw [← toNat_eq_zero, hcount, List.length_eq_zero_iff]
  have hpadByte : BitVec.ofNat 8 s.pad.toNat = s.pad.setWidth 8 := BitVec.ofNat_toNat 8 s.pad
  rw [tableArtifact_length] at hroom
  rw [serializeTableRun_eq, hx.1, hcount, hpadByte, if_pos hparts.fits, if_pos fun h => hparts.pad (hempty.mp h),
    if_pos fun h => hempty.mpr (hparts.table (hnone.mp h)), if_pos hroom, readPayload_of_payloadText hx, run_ok_bind,
    tableArtifact]

/-- 45_container R266: SERIALIZE computes nothing but the artifact of its operands, once its checks have passed. -/
theorem tableArtifact_of_serializeTableRun {a : List Byte} (h : serializeTableRun tag s = .ok a) :
    ∃ x, payloadText s x ∧ PartsOk s.caps.payloadCap s.pad s.ctab.codes x ∧
      a = tableArtifact tag s.pad s.ctab.codes x := by
  have hchecks := h
  simp only [serializeTableRun, run_bind_ok, check_ok, decide_eq_true_eq, zeroCheck_eq_true] at hchecks
  obtain ⟨-, hcap, -, hpad, -, htable, -, hroom, x, hread, -⟩ := hchecks
  obtain ⟨hlen, hholds⟩ := readRange_ok hread
  have hx : payloadText s x := ⟨hlen.symm, hholds⟩
  rw [← hlen, List.length_eq_zero_iff] at hpad htable
  rw [hcount, List.length_eq_zero_iff] at htable
  have hparts : PartsOk s.caps.payloadCap s.pad s.ctab.codes x :=
    ⟨hlen ▸ hcap, fun hnil => (toNat_eq_zero _).mp (hpad hnil), htable⟩
  have hrun := serializeTableRun_of_payloadText (tag := tag) hcount hx hparts (by rwa [tableArtifact_length, hlen])
  exact ⟨x, hx, hparts, Except.ok.inj (h.symm.trans hrun)⟩

end

/-- SERIALIZE.HUF and SERIALIZE.SF differ in the tag alone (45_container R261, R266). -/
theorem exec_serializeTable (s : State) {i : Instr} {tag : Byte}
    (hi : i = .serializeHuf ∧ tag = 1 ∨ i = .serializeSf ∧ tag = 2) :
    exec i s = complete 0x0C (Ending.ofRun 0x0C s (serializeTableRun tag s) fun a => storeArtifact s tag a) := by
  obtain ⟨rfl, rfl⟩ | ⟨rfl, rfl⟩ := hi <;> rfl

/-! ## What the SERIALIZE commands leave -/

/-- An error of a command other than NOP names its opcode (10_state R27). -/
theorem completeError_ne_noError {opc : Byte} (hopc : opc ≠ 0) (code : ErrCode) (info : Nat) (sub : Byte) (s : State) :
    (completeError code info opc sub s).ctl.error ≠ noError := fun h => hopc (congrArg ErrorReg.opc h)

section
variable {s : State} {r : Run (List Byte)} {tag : Byte} {i : Instr}
  (hexec : exec i s = complete 0x0C (Ending.ofRun 0x0C s r fun a => storeArtifact s tag a))
include hexec

theorem exec_serialize_of_error {code : ErrCode} {info : Nat} (h : r = .error (.error code info)) :
    exec i s = .next (completeError code info 0x0C 0x0C s) := by
  rw [hexec, h, ofRun_error, complete_raised]

/-- 45_container R266, R267: the success of a SERIALIZE leaves the artifact in OUT, and its tag. -/
theorem exec_serialize_stores {a : List Byte} (h : r = .ok a) (ha : a.length < 2 ^ 32) :
    ∃ t, exec i s = .next t ∧ succeeded t ∧ outText t a ∧ t.artKind = tag ∧
      ∀ p, p ≠ .out → p ≠ .artKind → Part.same s t p := by
  have hdone : exec i s = .next (completeOk (storeArtifact s tag a)) := by rw [hexec, h, ofRun_ok, complete_done]
  obtain ⟨hframe, -⟩ := (storeArtifact_keepsOutside s tag a).completed rfl rfl rfl
  exact ⟨_, hdone, succeeded_completeOk _, ⟨ofNat_toNat_of_lt ha, Memory.holds_cells 0 a⟩, rfl,
    fun p hout hkind => hframe p (by simp [hout, hkind])⟩

/-- What OUT holds after a SERIALIZE without an error is what its computation answered. -/
theorem ok_of_exec_serialize {t : State} {b : List Byte} (hnext : exec i s = .next t) (hok : t.ctl.error = noError)
    (hout : outText t b) (hsmall : ∀ a, r = .ok a → a.length < 2 ^ 32) : r = .ok b := by
  rw [hexec] at hnext
  obtain ⟨a, ha, rfl⟩ | ⟨code, info, -, rfl⟩ := complete_ofRun_next.mp hnext
  · obtain ⟨hlen, hholds⟩ := hout
    have hsame : a.length = b.length := (ofNat_toNat_of_lt (hsmall a ha)).symm.trans hlen
    rw [ha, Memory.holds_unique (Memory.holds_cells 0 a) hholds hsame]
  · exact (completeError_ne_noError (by decide) _ _ _ _ hok).elim

end

/-- Settles O27: the checks of `serializeTableRun_eq` in order, and the artifact of
`serializeTableRun_of_payloadText`. -/
theorem serializeTableWritesTheArtifact : Obligations.SerializeTableWritesTheArtifact := by
  intro s i tag hi
  have hexec := exec_serializeTable s hi
  refine ⟨fun x hctab hx hcap hpad htable hroom hout => ?artifact, fun hcap => ?_, fun hempty hpad => ?_,
    fun hne hcap hnone => ?_, fun hcap hpad hnone hroom => ?_⟩
  case artifact =>
    have hlen := tableArtifact_length tag s.pad s.ctab.codes x
    have hfits : (tableArtifact tag s.pad s.ctab.codes x).length ≤ s.caps.outCap := by rwa [hlen]
    have hrun := serializeTableRun_of_payloadText hctab.count hx ⟨hcap, hpad, htable⟩ hfits
    obtain ⟨t, hnext, hok, htext, hkind, hframe⟩ := exec_serialize_stores hexec hrun (Nat.lt_of_le_of_lt hfits hout)
    exact ⟨t, _, hnext, hok, htext, hkind, tableArtifact_eq _ _ _ _, hlen, hframe⟩
  all_goals refine exec_serialize_of_error hexec ?_
  all_goals rw [serializeTableRun_eq]
  · rw [if_neg (by omega)]
  · rw [if_pos (by rw [hempty]; exact Nat.zero_le _), if_neg fun h => hpad (h hempty)]
  · rw [if_pos hcap, if_pos fun h => absurd h hne, if_neg fun h => hne (h hnone)]
  · rw [if_pos hcap, if_pos hpad, if_pos hnone]
    exact if_neg (Nat.not_le.mpr hroom)

/-! ## SERIALIZE.LZW -/

/-- 45_container R267: the two checks in order, and the artifact. -/
theorem serializeLzwRun_eq (s : State) :
    serializeLzwRun s =
      if s.codes.len.toNat ≤ s.caps.codesCap then
        if 9 + 4 * s.codes.len.toNat ≤ s.caps.outCap then
          readCodes s 0 s.codes.len.toNat >>= fun ws =>
            .ok (headerBytes 0x03 0 (4 * s.codes.len.toNat) ++ codeListBytes ws)
        else .error (.error .capacityExceeded (9 + 4 * s.codes.len.toNat))
      else .error (.error .capacityExceeded s.codes.len.toNat) := by
  simp only [serializeLzwRun, check_bind, decide_eq_true_eq]
  rfl

theorem serializeLzwRun_of_codeList {s : State} {ws : List Word} (hws : codeList s ws)
    (hcap : ws.length ≤ s.caps.codesCap) (hroom : (codesArtifact ws).length ≤ s.caps.outCap) :
    serializeLzwRun s = .ok (codesArtifact ws) := by
  rw [codesArtifact_length] at hroom
  rw [serializeLzwRun_eq, hws.1, if_pos hcap, if_pos hroom, readCodes_of_codeList hws, run_ok_bind, codesArtifact]

theorem exec_serializeLzw (s : State) :
    exec .serializeLzw s = complete 0x0C (Ending.ofRun 0x0C s (serializeLzwRun s) fun a => storeArtifact s 0x03 a) :=
  rfl

/-- Settles O28: the checks of `serializeLzwRun_eq` in order, and the artifact of `serializeLzwRun_of_codeList`. -/
theorem serializeLzwWritesTheArtifact : Obligations.SerializeLzwWritesTheArtifact := by
  refine ⟨fun s ws hws hcap hroom hout => ?_, fun s hcap => ?_, fun s hcap hroom => ?_⟩
  · have hfits : (codesArtifact ws).length ≤ s.caps.outCap := by rwa [codesArtifact_length]
    obtain ⟨t, hnext, hok, htext, hkind, hframe⟩ := exec_serialize_stores (exec_serializeLzw s)
      (serializeLzwRun_of_codeList hws hcap hfits) (Nat.lt_of_le_of_lt hfits hout)
    exact ⟨t, hnext, hok, hkind, codesArtifact_eq ws ▸ htext, hframe⟩
  · exact exec_serialize_of_error (exec_serializeLzw s) (by rw [serializeLzwRun_eq, if_neg (by omega)])
  · exact exec_serialize_of_error (exec_serializeLzw s) (by
      rw [serializeLzwRun_eq, if_pos hcap, if_neg (Nat.not_le.mpr hroom)])

end Sys2Proof.Machine
end

section
/-! PROOFS of 45_container.md, section 3, the header: DESERIALIZE's checks 1 to 13 in order (R270, R271). -/

namespace Sys2Proof.Machine

/-! ## Reading IN at a place of its text -/

section
variable {s : State} {front : List Byte}

theorem readIn_at {b : Byte} {more : List Byte} (h : inText s (front ++ b :: more)) :
    readIn s front.length = .ok b :=
  readIn_of_inText h (by simp)

theorem readInRange_at {mid more : List Byte} (h : inText s (front ++ (mid ++ more))) :
    readInRange s front.length mid.length = .ok mid := by
  rw [readInRange_of_inText h (by simp), List.drop_left, List.take_left]

end

/-! ## The header -/

/-- The header as it lies in IN (45_container R260), whatever its bytes. -/
abbrev rawHeader (b0 b1 b2 tag pad l0 l1 l2 l3 : Byte) : List Byte := [b0, b1, b2, tag, pad, l0, l1, l2, l3]

/-- 45_container R271, checks 7 to 9: the conditions on PAD. -/
abbrev PadOk (tag pad : Byte) (len : Nat) : Prop := pad.toNat ≤ 7 ∧ (tag = 3 → pad = 0) ∧ (len = 0 → pad = 0)

theorem tagCheck_eq_true (tag : Byte) :
    (tag == 0x01 || tag == 0x02 || tag == 0x03) = true ↔ tag.toNat ∈ [1, 2, 3] := by
  simp [BitVec.toNat_eq, or_assoc]

theorem lzwPadCheck_eq_true (tag pad : Byte) :
    (!(tag == 0x03 && decide (pad.toNat ≠ 0))) = true ↔ (tag = 3 → pad = 0) := by
  by_cases htag : tag = 3#8 <;> simp [htag, toNat_eq_zero]

theorem parseHeader_overlong {s : State} (h : s.caps.inCap < s.inp.len.toNat) :
    parseHeader s = .error (.error .capacityExceeded s.inp.len.toNat) := by
  simp only [parseHeader, check_bind, decide_eq_true_eq]
  exact if_neg (Nat.not_le.mpr h)

theorem parseHeader_short {s : State} (hcap : s.inp.len.toNat ≤ s.caps.inCap) (h : s.inp.len.toNat < 9) :
    parseHeader s = .error (.error .formatError s.inp.len.toNat) := by
  simp only [parseHeader, check_bind, decide_eq_true_eq]
  rw [if_pos hcap, if_neg (Nat.not_le.mpr h)]

section
variable {s : State} {b0 b1 b2 tag pad l0 l1 l2 l3 : Byte} {more : List Byte}

/-- 45_container R271: checks 3 to 9 in order, over the bytes of the header. -/
theorem parseHeader_eq (h : inText s (rawHeader b0 b1 b2 tag pad l0 l1 l2 l3 ++ more))
    (hcap : s.inp.len.toNat ≤ s.caps.inCap) :
    parseHeader s =
      if b0 = 0x44 then if b1 = 0x43 then if b2 = 0x01 then if tag.toNat ∈ [1, 2, 3] then
        if PadOk tag pad (beNat [l0, l1, l2, l3]) then .ok (tag, pad.toNat, beNat [l0, l1, l2, l3])
        else .error (.error .formatError 4)
      else .error (.error .formatError 3) else .error (.error .formatError 2)
      else .error (.error .formatError 1) else .error (.error .formatError 0) := by
  have hnine : 9 ≤ s.inp.len.toNat := by rw [h.1]; simp
  have hlen : readInRange s 5 4 = .ok [l0, l1, l2, l3] :=
    readInRange_at (front := [b0, b1, b2, tag, pad]) (mid := [l0, l1, l2, l3]) h
  simp only [parseHeader, check_bind, decide_eq_true_eq, if_pos hcap, if_pos hnine, readIn_of_inText h (i := 0) rfl,
    readIn_of_inText h (i := 1) rfl, readIn_of_inText h (i := 2) rfl, readIn_of_inText h (i := 3) rfl,
    readIn_of_inText h (i := 4) rfl, hlen, run_ok_bind, beq_iff_eq, tagCheck_eq_true, lzwPadCheck_eq_true,
    zeroCheck_eq_true]
  simp only [toNat_eq_zero, ite_and]
  rfl

/-- 45_container R270: a header that passes the checks 1 to 9. -/
theorem parseHeader_of_padOk (h : inText s (rawHeader 0x44 0x43 0x01 tag pad l0 l1 l2 l3 ++ more))
    (hcap : s.inp.len.toNat ≤ s.caps.inCap) (htag : tag.toNat ∈ [1, 2, 3])
    (hpad : PadOk tag pad (beNat [l0, l1, l2, l3])) :
    parseHeader s = .ok (tag, pad.toNat, beNat [l0, l1, l2, l3]) := by
  rw [parseHeader_eq h hcap, if_pos rfl, if_pos rfl, if_pos rfl, if_pos htag, if_pos hpad]

end

/-! ## The rule, by the header's answer -/

theorem exec_deserialize_of_error {s : State} {code : ErrCode} {info : Nat}
    (h : deserializeRun s = .error (.error code info)) :
    exec .deserialize s = .next (completeError code info 0x0D 0x0D s) :=
  execDeserialize_next.mpr (.inr ⟨_, _, h, rfl⟩)

section
variable {s : State} {e : Stop} {tag : Byte} {pad len : Nat}

theorem deserializeRun_of_header_error (h : parseHeader s = .error e) : deserializeRun s = .error e := by
  rw [deserializeRun, h, run_error_bind]

theorem deserializeRun_codeList (h : parseHeader s = .ok (3, pad, len)) :
    deserializeRun s = parseCodeList s len >>= fun ws => .ok (storeParsedCodes s ws) := by
  rw [deserializeRun, h, run_ok_bind]
  exact if_pos rfl

theorem deserializeRun_table (h : parseHeader s = .ok (tag, pad, len)) (htag : tag ≠ 3) :
    deserializeRun s = parseTable s len >>= fun r => .ok (storeParsedTable s tag pad r.1 r.2) := by
  rw [deserializeRun, h, run_ok_bind]
  exact if_neg htag

end

/-- 45_container R271, TAG 3: checks 10 to 13 in order. -/
theorem parseCodeList_eq (s : State) (len : Nat) :
    parseCodeList s len =
      if len % 4 = 0 then if 9 + len ≤ s.inp.len.toNat then if s.inp.len.toNat ≤ 9 + len then
        if len / 4 ≤ s.caps.codesCap then parseCodes s 9 (len / 4)
        else .error (.error .capacityExceeded (len / 4))
      else .error (.error .formatError (9 + len)) else .error (.error .formatError s.inp.len.toNat)
      else .error (.error .formatError 5) := by
  simp only [parseCodeList, check_bind, decide_eq_true_eq]

/-- Settles O30: the checks of `parseHeader_eq` in order, then those of `parseCodeList_eq`. -/
theorem deserializeHeaderChecksInOrder : Obligations.DeserializeHeaderChecksInOrder := by
  refine ⟨fun s hlong => ?_, fun s hcap hshort => ?_, ?_⟩
  · exact exec_deserialize_of_error (deserializeRun_of_header_error (parseHeader_overlong hlong))
  · exact exec_deserialize_of_error (deserializeRun_of_header_error (parseHeader_short hcap hshort))
  intro s b0 b1 b2 tag pad l0 l1 l2 l3 more hcap htext len fails
  have hhead := parseHeader_eq htext hcap
  rw [show beNat [l0, l1, l2, l3] = len from beNat_four l0 l1 l2 l3] at hhead
  have headerFails {info : Nat} (h : parseHeader s = .error (.error .formatError info)) : fails .formatError info :=
    exec_deserialize_of_error (deserializeRun_of_header_error h)
  refine ⟨fun h0 => headerFails ?_, fun h0 h1 => headerFails ?_, fun h0 h1 h2 => headerFails ?_,
    fun h0 h1 h2 htag => headerFails ?_, fun h0 h1 h2 htag hpad => headerFails ?_, fun h0 h1 h2 htag hpad => ?_⟩
  · rw [hhead, if_neg h0]
  · rw [hhead, if_pos h0, if_neg h1]
  · rw [hhead, if_pos h0, if_pos h1, if_neg h2]
  · rw [hhead, if_pos h0, if_pos h1, if_pos h2, if_neg htag]
  · have hbad : ¬PadOk tag pad len := by
      rintro ⟨hseven, hlzw, hempty⟩
      obtain h | ⟨h3, hne⟩ | ⟨hzero, hne⟩ := hpad
      · omega
      · exact hne (hlzw h3)
      · exact hne (hempty hzero)
    rw [hhead, if_pos h0, if_pos h1, if_pos h2, if_pos htag, if_neg hbad]
  · subst htag hpad
    rw [if_pos h0, if_pos h1, if_pos h2, if_pos (by decide), if_pos (by simp [PadOk])] at hhead
    have listFails {code : ErrCode} {info : Nat} (h : parseCodeList s len = .error (.error code info)) :
        fails code info :=
      exec_deserialize_of_error (by rw [deserializeRun_codeList hhead, h, run_error_bind])
    refine ⟨fun h4 => listFails ?_, fun h4 hshort => listFails ?_, fun h4 hlong => listFails ?_,
      fun h4 hlen hroom => listFails ?_⟩
    · rw [parseCodeList_eq, if_neg h4]
    · rw [parseCodeList_eq, if_pos h4, if_neg (Nat.not_le.mpr hshort)]
    · rw [parseCodeList_eq, if_pos h4, if_pos hlong.le, if_neg (Nat.not_le.mpr hlong)]
    · rw [parseCodeList_eq, if_pos h4, if_pos hlen.ge, if_pos hlen.le, if_neg (Nat.not_le.mpr hroom)]

end Sys2Proof.Machine
end

section
/-! PROOFS of 45_container.md, section 3, the table: DESERIALIZE reads the entries that SERIALIZE writes, and its checks
14 to 25 stop it in order (R262, R263, R270, R271). -/

namespace Sys2Proof.Machine

/-! ## The checks on an entry -/

/-- 45_container R271, check 17. -/
theorem aboveLast_eq_true {t : Memory BitString} (ht : Memory.wf t) (sym : Byte) :
    aboveLast t sym = true ↔ ∀ e ∈ t, e.1 < sym.toNat := by
  refine ⟨fun h e he => lt_of_aboveLast ht h he, fun h => ?_⟩
  obtain rfl | ⟨init, e, rfl⟩ := List.eq_nil_or_concat t
  · rfl
  · simpa [aboveLast] using h e (by simp)

/-- 45_container R271, check 21. -/
theorem prefixFreeWith_eq_true (t : Memory BitString) (c : BitString) :
    prefixFreeWith t c = true ↔ ∀ e ∈ t, ¬(e.2 <+: c ∨ c <+: e.2) := by
  simp [prefixFreeWith, ← List.isPrefixOf_iff_prefix]

/-- 45_container R271, check 20. -/
theorem all_not_eq_true (b : BitString) : b.all (!·) = true ↔ true ∉ b := by
  simp

section
variable {s : State} {front : List Byte} {t : Memory BitString} {count : Nat}

/-- 45_container R271: check 16. -/
theorem parseEntries_truncated {tail : List Byte} (h : inText s (front ++ tail)) (htail : tail.length < 2) :
    parseEntries s s.inp.len.toNat (count + 1) front.length t = .error (.error .formatError s.inp.len.toNat) := by
  have hn : s.inp.len.toNat = front.length + tail.length := h.1.trans List.length_append
  simp only [parseEntries, check_bind, decide_eq_true_eq]
  exact if_neg (by omega)

/-- 45_container R271: checks 17 to 21 in order, over the bytes of an entry, whose code bits are `bits`. -/
theorem parseEntries_entry {sym size : Byte} {tail : List Byte} (h : inText s (front ++ sym :: size :: tail))
    (ht : Memory.wf t) {bits : BitString} (hbits : bits = bitsOfBytes (tail.take (ceilDiv8 size.toNat))) :
    parseEntries s s.inp.len.toNat (count + 1) front.length t =
      if ∀ e ∈ t, e.1 < sym.toNat then if size ≠ 0 then if ceilDiv8 size.toNat ≤ tail.length then
        if true ∉ bits.drop size.toNat then
          if ∀ e ∈ t, ¬(e.2 <+: bits.take size.toNat ∨ bits.take size.toNat <+: e.2) then
            parseEntries s s.inp.len.toNat count (front.length + 2 + ceilDiv8 size.toNat)
              (t ++ [(sym.toNat, bits.take size.toNat)])
          else .error (.error .formatError front.length)
        else .error (.error .formatError (front.length + 1 + ceilDiv8 size.toNat))
      else .error (.error .formatError s.inp.len.toNat) else .error (.error .formatError (front.length + 1))
      else .error (.error .formatError front.length) := by
  have hn : s.inp.len.toNat = front.length + 2 + tail.length := h.1.trans (by simp; omega)
  have hsym : readIn s front.length = .ok sym := readIn_at h
  have hsize : readIn s (front.length + 1) = .ok size := by
    have hat := readIn_at (front := front ++ [sym]) (by simpa using h)
    rwa [List.length_append] at hat
  have hroom : front.length + 2 + ceilDiv8 size.toNat ≤ s.inp.len.toNat ↔ ceilDiv8 size.toNat ≤ tail.length := by omega
  have hread (hlen : ceilDiv8 size.toNat ≤ tail.length) :
      readInRange s (front.length + 2) (ceilDiv8 size.toNat) = .ok (tail.take (ceilDiv8 size.toNat)) := by
    have hat := readInRange_at (front := front ++ [sym, size]) (mid := tail.take (ceilDiv8 size.toNat))
      (more := tail.drop (ceilDiv8 size.toNat)) (by simpa using h)
    rwa [List.length_append, List.length_take_of_le hlen] at hat
  simp only [parseEntries, check_bind, decide_eq_true_eq, if_pos (show front.length + 2 ≤ s.inp.len.toNat by omega),
    hsym, hsize, run_ok_bind, aboveLast_eq_true ht, prefixFreeWith_eq_true, all_not_eq_true, hroom]
  by_cases hlen : ceilDiv8 size.toNat ≤ tail.length
  · simp only [if_pos hlen, hread hlen, run_ok_bind, hbits]
  · simp only [if_neg hlen]

end

/-! ## The entries that SERIALIZE writes -/

theorem exists_cons_cons {x : List Byte} (h : ¬x.length < 2) : ∃ a b more, x = a :: b :: more := by
  match x, h with
  | a :: b :: more, _ => exact ⟨a, b, more, rfl⟩
  | [], h => exact absurd (by decide) h
  | [_], h => exact absurd (by simp) h

@[simp] theorem codeBytes_length (code : BitString) : (codeBytes code).length = ceilDiv8 code.length :=
  packBytes_length _ _

/-- Code bytes whose bits beyond the length are 0 are the bytes of the code (45_container R263). -/
theorem codeBytes_take {x : List Byte} {n : Nat} (hx : x.length = ceilDiv8 n)
    (hzero : true ∉ (bitsOfBytes x).drop n) : codeBytes ((bitsOfBytes x).take n) = x := by
  have hroom := le_ceilDiv8 n
  have hlen : ((bitsOfBytes x).take n).length = n := List.length_take_of_le (by rw [bitsOfBytes_length]; omega)
  obtain ⟨k, hk⟩ : ∃ k, (bitsOfBytes x).drop n = List.replicate k false :=
    ⟨_, List.eq_replicate_length.mpr fun b hb => by simpa using ne_of_mem_of_not_mem hb hzero⟩
  rw [codeBytes, hlen, ← hx, ← packBytes_append_zeros _ k, ← hk, List.take_append_drop, packBytes_bitsOfBytes]

/-- The bytes of an entry that passes the checks 19 and 20 are those of its code (45_container R262). -/
theorem exists_entry {size : Byte} {tail : List Byte} (hlen : ceilDiv8 size.toNat ≤ tail.length)
    (hzero : true ∉ (bitsOfBytes (tail.take (ceilDiv8 size.toNat))).drop size.toNat) (sym : Byte) :
    ∃ code, (bitsOfBytes (tail.take (ceilDiv8 size.toNat))).take size.toNat = code ∧ code.length = size.toNat ∧
      sym :: size :: tail = tableBytes [(sym.toNat, code)] ++ tail.drop (ceilDiv8 size.toNat) := by
  have hbytes := List.length_take_of_le hlen
  have hroom := le_ceilDiv8 size.toNat
  have hcode : ((bitsOfBytes (tail.take (ceilDiv8 size.toNat))).take size.toNat).length = size.toNat :=
    List.length_take_of_le (by rw [bitsOfBytes_length]; omega)
  refine ⟨_, rfl, hcode, ?_⟩
  simp [tableBytes, codeBytes_take hbytes hzero, hcode]

theorem CodesOk.of_sublist {t u : Memory BitString} (h : CodesOk u) (hs : t.Sublist u) : CodesOk t :=
  ⟨h.canon.sublist hs, fun c hc => h.symbols c (hs.subset hc), fun c hc => h.lengths c (hs.subset hc),
    fun a ha b hb => h.free a (hs.subset ha) b (hs.subset hb)⟩

/-- 45_container R262: the entry of a code reads back as its length, its bits and zeros. -/
theorem entryBits {code : BitString} (hlen : code.length ≤ 255) (more : List Byte) :
    (BitVec.ofNat 8 code.length).toNat = code.length ∧
    bitsOfBytes ((codeBytes code ++ more).take (ceilDiv8 code.length)) =
      code ++ List.replicate (8 * ceilDiv8 code.length - code.length) false := by
  refine ⟨by rw [BitVec.toNat_ofNat]; omega, ?_⟩
  rw [List.take_left' (codeBytes_length code), codeBytes, bitsOfBytes_packBytes _ _ (le_ceilDiv8 _)]

section
variable {s : State} {front tail : List Byte} {t u : Memory BitString} {count : Nat}

/-- 45_container R270: an entry that SERIALIZE wrote passes the checks 16 to 21 and is read back. -/
theorem parseEntries_written {c : Nat} {code : BitString}
    (h : inText s (front ++ (tableBytes [(c, code)] ++ tail))) (hok : CodesOk (t ++ [(c, code)])) :
    parseEntries s s.inp.len.toNat (count + 1) front.length t =
      parseEntries s s.inp.len.toNat count (front ++ tableBytes [(c, code)]).length (t ++ [(c, code)]) := by
  obtain ⟨hcanon, hsymbols, hlengths, hfree⟩ := hok
  obtain ⟨hpos, hmax⟩ : 1 ≤ code.length ∧ code.length ≤ 255 := hlengths (c, code) (by simp)
  have hc : c < 256 := hsymbols (c, code) (by simp)
  have hcanon' := List.pairwise_append.mp hcanon
  have habove : ∀ e ∈ t, e.1 < c := fun e he => hcanon'.2.2 e he (c, code) (by simp)
  have hfree' : ∀ e ∈ t, ¬(e.2 <+: code ∨ code <+: e.2) := by
    intro e he hpre
    have hne := (habove e he).ne
    exact hpre.elim (hfree e (by simp [he]) (c, code) (by simp) hne)
      (hfree (c, code) (by simp) e (by simp [he]) hne.symm)
  obtain ⟨hsize, hbits⟩ := entryBits hmax tail
  have hsym : (BitVec.ofNat 8 c).toNat = c := by rw [BitVec.toNat_ofNat]; omega
  have hne : BitVec.ofNat 8 code.length ≠ 0 := by
    rw [ne_eq, ← toNat_eq_zero, hsize]
    omega
  have hentry := parseEntries_entry (count := count) (sym := BitVec.ofNat 8 c) (size := BitVec.ofNat 8 code.length)
    (tail := codeBytes code ++ tail) (by simpa [tableBytes] using h) hcanon'.1 rfl
  rw [hsize, hsym, hbits, List.take_left' rfl, List.drop_left' rfl, if_pos habove, if_pos hne,
    if_pos (by simp), if_pos (by simp), if_pos hfree'] at hentry
  rw [hentry, List.length_append, tableBytes_length]
  simp [Nat.add_assoc]

/-- 45_container R270: the entries that SERIALIZE wrote are read back; what comes after them is still to be read. -/
theorem parseEntries_tableBytes (h : inText s (front ++ (tableBytes u ++ tail))) (hok : CodesOk (t ++ u)) :
    parseEntries s s.inp.len.toNat (u.length + count) front.length t =
      parseEntries s s.inp.len.toNat count (front ++ tableBytes u).length (t ++ u) := by
  induction u generalizing front t with
  | nil => simp [tableBytes]
  | cons e u ih =>
    obtain ⟨c, code⟩ := e
    have hsplit : tableBytes ((c, code) :: u) = tableBytes [(c, code)] ++ tableBytes u :=
      tableBytes_append [(c, code)] u
    have hcons : t ++ (c, code) :: u = t ++ [(c, code)] ++ u := (List.append_cons ..)
    rw [hsplit, List.append_assoc] at h
    rw [hcons] at hok ⊢
    have hfirst : CodesOk (t ++ [(c, code)]) := hok.of_sublist (List.sublist_append_left _ u)
    rw [List.length_cons, Nat.add_right_comm, parseEntries_written h hfirst,
      ih (by rwa [List.append_assoc]) hok, hsplit, List.append_assoc]

/-- 45_container R275: what the entry loop of R270 has read are the entries that SERIALIZE writes for its table. -/
theorem tableBytes_of_parseEntries {r : Memory BitString × Nat} (h : inText s (front ++ tail)) (ht : CodesOk t)
    (hr : parseEntries s s.inp.len.toNat count front.length t = .ok r) :
    ∃ u more, tail = tableBytes u ++ more ∧ u.length = count ∧ r = (t ++ u, (front ++ tableBytes u).length) := by
  induction count generalizing front tail t with
  | zero =>
    cases hr
    exact ⟨[], tail, rfl, rfl, by simp [tableBytes]⟩
  | succ count ih =>
    have htail : ¬tail.length < 2 := fun hshort => by
      rw [parseEntries_truncated h hshort] at hr
      cases hr
    obtain ⟨sym, size, tail, rfl⟩ := exists_cons_cons htail
    rw [parseEntries_entry h ht.canon rfl] at hr
    split_ifs at hr with habove hsize hlen hzero hfree
    obtain ⟨code, hcode, hcodeLen, hentry⟩ := exists_entry hlen hzero sym
    rw [hcode] at hfree hr
    have hmax := size.isLt
    have hpos : size.toNat ≠ 0 := fun h0 => hsize ((toNat_eq_zero size).mp h0)
    have hnext := ht.append ((aboveLast_eq_true ht.canon sym).mpr habove) (by omega)
      ((prefixFreeWith_eq_true _ _).mpr hfree)
    have hpos' : front.length + 2 + ceilDiv8 size.toNat = (front ++ tableBytes [(sym.toNat, code)]).length := by
      rw [List.length_append, tableBytes_length, List.map_singleton, List.sum_singleton, hcodeLen, Nat.add_assoc]
    rw [hentry, ← List.append_assoc] at h
    obtain ⟨u, more, hmore, hu, rfl⟩ := ih h hnext (hpos' ▸ hr)
    refine ⟨(sym.toNat, code) :: u, more, ?_, by rw [List.length_cons, hu], ?_⟩
    · rw [hentry, hmore, ← List.append_assoc, ← tableBytes_append, List.singleton_append]
    · rw [List.append_assoc, List.append_assoc, ← tableBytes_append, List.singleton_append]

end

end Sys2Proof.Machine
end

section
/-! PROOFS of 45_container.md R271: the checks 14 to 25 of DESERIALIZE, over a text whose header passed and whose first
entries form a table. -/

namespace Sys2Proof.Machine

/-- 45_container R270, checks 22 to 25: what is left to do after the entries `r.1`, which end at offset `r.2`. -/
def parseBody (s : State) (count len : Nat) (r : Memory BitString × Nat) : Run (Memory BitString × List Byte) :=
  if count = 0 → len = 0 then if r.2 + len ≤ s.inp.len.toNat then if s.inp.len.toNat ≤ r.2 + len then
    if len ≤ s.caps.payloadCap then readInRange s r.2 len >>= fun x => .ok (r.1, x)
    else .error (.error .capacityExceeded len)
  else .error (.error .formatError (r.2 + len)) else .error (.error .formatError s.inp.len.toNat)
  else .error (.error .formatError 9)

section
variable {s : State} {front tail : List Byte} {count : Nat}

/-- 45_container R270: the bytes after the entries are the payload. -/
theorem parseBody_of_inText (h : inText s (front ++ tail)) (hnone : count = 0 → tail = [])
    (hroom : tail.length ≤ s.caps.payloadCap) (tab : Memory BitString) :
    parseBody s count tail.length (tab, front.length) = .ok (tab, tail) := by
  have hend : s.inp.len.toNat = front.length + tail.length := h.1.trans List.length_append
  have hread : readInRange s front.length tail.length = .ok tail :=
    readInRange_at (more := []) (by rwa [List.append_nil])
  rw [parseBody, if_pos fun h0 => List.length_eq_zero_iff.mpr (hnone h0), if_pos hend.ge, if_pos hend.le, if_pos hroom,
    hread, run_ok_bind]

theorem parseBody_ok {len : Nat} {tab : Memory BitString} {r : Memory BitString × List Byte}
    (h : inText s (front ++ tail)) (hr : parseBody s count len (tab, front.length) = .ok r) :
    (count = 0 → tail = []) ∧ tail.length = len ∧ tail.length ≤ s.caps.payloadCap := by
  have hend : s.inp.len.toNat = front.length + tail.length := h.1.trans List.length_append
  rw [parseBody] at hr
  split_ifs at hr with hnone hshort hlong hroom
  obtain rfl : tail.length = len := by omega
  exact ⟨fun h0 => List.length_eq_zero_iff.mp (hnone h0), rfl, hroom⟩

end

theorem parseTable_short {s : State} (h : s.inp.len.toNat < 11) (len : Nat) :
    parseTable s len = .error (.error .formatError s.inp.len.toNat) := by
  simp only [parseTable, check_bind, decide_eq_true_eq]
  exact if_neg (Nat.not_le.mpr h)

theorem CtabOk.codesOk {t : CodeTable} (h : CtabOk t) : CodesOk t.codes :=
  ⟨h.canon, h.symbols, h.lengths, h.free⟩

section
variable {s : State} {front : List Byte} {c0 c1 : Byte} (hfront : front.length = 9)
include hfront

/-- 45_container R270: check 15, the entries, and what comes after them. -/
theorem parseTable_eq {more : List Byte} (h : inText s (front ++ c0 :: c1 :: more)) (len : Nat) :
    parseTable s len =
      if beNat [c0, c1] ≤ 256 then
        parseEntries s s.inp.len.toNat (beNat [c0, c1]) 11 [] >>= parseBody s (beNat [c0, c1]) len
      else .error (.error .formatError 9) := by
  have heleven : 11 ≤ s.inp.len.toNat := by rw [h.1]; simp; omega
  have hcount : readInRange s 9 2 = .ok [c0, c1] := hfront ▸ readInRange_at (mid := [c0, c1]) h
  simp only [parseTable, check_bind, decide_eq_true_eq, zeroCheck_eq_true, if_pos heleven, hcount, run_ok_bind]
  rfl

section
variable {tab : Memory BitString} {tail : List Byte}
  (h : inText s (front ++ c0 :: c1 :: (tableBytes tab ++ tail))) (htab : CodesOk tab) (hmax : beNat [c0, c1] ≤ 256)
include h htab hmax

/-- 45_container R270: the entries of the table are read; those that COUNT announces beyond it come next. -/
theorem parseTable_tableBytes {k : Nat} (hk : beNat [c0, c1] = tab.length + k) (len : Nat) :
    parseTable s len =
      parseEntries s s.inp.len.toNat k (front ++ c0 :: c1 :: tableBytes tab).length tab >>=
        parseBody s (beNat [c0, c1]) len := by
  have hentries := parseEntries_tableBytes (front := front ++ [c0, c1]) (t := []) (count := k) (by simpa using h) htab
  have heleven : (front ++ [c0, c1]).length = 11 := by rw [List.length_append, hfront]; rfl
  rw [heleven, List.append_assoc, List.nil_append] at hentries
  rw [parseTable_eq hfront h, if_pos hmax, hk, hentries]
  rfl

/-- An entry beyond the table stops the command with its error. -/
theorem parseTable_entry_error {e : Stop} (hlt : tab.length < beNat [c0, c1])
    (he : ∀ k, parseEntries s s.inp.len.toNat (k + 1) (front ++ c0 :: c1 :: tableBytes tab).length tab = .error e)
    (len : Nat) : parseTable s len = .error e := by
  rw [parseTable_tableBytes hfront h htab hmax (k := beNat [c0, c1] - tab.length - 1 + 1) (by omega), he,
    run_error_bind]

theorem parseTable_entries (hlen : tab.length = beNat [c0, c1]) (len : Nat) :
    parseTable s len = parseBody s tab.length len (tab, (front ++ c0 :: c1 :: tableBytes tab).length) := by
  rw [parseTable_tableBytes hfront h htab hmax (k := 0) (by omega), hlen]
  rfl

end
end

/-- Settles O31: checks 14 and 15 by `parseTable_eq`, checks 16 to 21 of the entry after the table by
`parseEntries_truncated` and `parseEntries_entry`, checks 22 to 25 by `parseBody`. -/
theorem deserializeTableChecksInOrder : Obligations.DeserializeTableChecksInOrder := by
  intro s tag pad l0 l1 l2 l3 more hcap htext htag hpad len n fails hempty
  have hlen : beNat [l0, l1, l2, l3] = len := beNat_four l0 l1 l2 l3
  have hne : tag ≠ 3 := by obtain rfl | rfl := htag <;> decide
  have hheader := parseHeader_of_padOk htext hcap (by obtain rfl | rfl := htag <;> decide)
    ⟨hpad, fun h => absurd h hne, hlen.symm ▸ hempty⟩
  rw [hlen] at hheader
  have tableFails {code : ErrCode} {info : Nat} (h : parseTable s len = .error (.error code info)) : fails code info :=
    exec_deserialize_of_error (by rw [deserializeRun_table hheader hne, h, run_error_bind])
  refine ⟨fun hshort => tableFails (parseTable_short hshort len), ?_⟩
  rintro c0 c1 rest rfl count
  have hcount : beNat [c0, c1] = count := beNat_two c0 c1
  refine ⟨fun hbig => tableFails ?_, ?_⟩
  · rw [parseTable_eq rfl htext, hcount, if_neg (Nat.not_le.mpr hbig)]
  intro tab tail hmax htab hrest pos
  replace htab := htab.codesOk
  obtain rfl : rest = tableBytes tab ++ tail := hrest.trans (by rw [tableBytes_eq_flatMap]; rfl)
  have hpos : ([0x44, 0x43, 0x01, tag, pad, l0, l1, l2, l3] ++ c0 :: c1 :: tableBytes tab).length = pos := by
    simp only [List.length_append, List.length_cons, List.length_nil, tableBytes_length, pos, ceilDiv8]
    omega
  have hsplit : inText s (([0x44, 0x43, 0x01, tag, pad, l0, l1, l2, l3] ++ c0 :: c1 :: tableBytes tab) ++ tail) := by
    simpa using htext
  rw [← hcount] at hmax ⊢
  refine ⟨fun hlt => ?entry, fun heq => ?body⟩
  case entry =>
    have entryFails {code : ErrCode} {info : Nat}
        (he : ∀ k, parseEntries s n (k + 1) pos tab = .error (.error code info)) : fails code info :=
      tableFails (parseTable_entry_error rfl htext htab hmax hlt (hpos ▸ he) len)
    refine ⟨fun htail => entryFails fun k => hpos ▸ parseEntries_truncated hsplit htail, ?_⟩
    rintro sym size tail rfl bytes bits
    have hentry (k : Nat) := hpos ▸ parseEntries_entry (count := k) hsplit htab.canon (bits := bits) rfl
    refine ⟨fun ⟨e, he, hle⟩ => entryFails fun k => ?_, fun habove => ⟨fun hzero => entryFails fun k => ?_,
      fun hsize (htrunc : tail.length < ceilDiv8 size.toNat) => entryFails fun k => ?_,
      fun hsize (hroom : ceilDiv8 size.toNat ≤ tail.length) hbits => entryFails fun k => ?_,
      fun hsize (hroom : ceilDiv8 size.toNat ≤ tail.length) hbits ⟨e, he, hpre⟩ => entryFails fun k => ?_⟩⟩
    · rw [hentry, if_neg fun habove => Nat.not_le.mpr (habove e he) hle]
    · rw [hentry, if_pos habove, if_neg (not_not.mpr hzero)]
    · rw [hentry, if_pos habove, if_pos hsize, if_neg (Nat.not_le.mpr htrunc)]
    · rw [hentry, if_pos habove, if_pos hsize, if_pos hroom, if_neg (not_not.mpr hbits)]
      rfl
    · rw [hentry, if_pos habove, if_pos hsize, if_pos hroom, if_pos hbits, if_neg fun hfree => hfree e he hpre]
  case body =>
    have hend : s.inp.len.toNat = pos + tail.length := by rw [hsplit.1, List.length_append, hpos]
    rw [parseTable_entries rfl htext htab hmax heq, hpos, parseBody, heq] at tableFails
    refine ⟨fun hnone hsome => tableFails ?_, fun hnone => ⟨fun htrunc => tableFails ?_, fun hlong => tableFails ?_,
      fun hfit hcap => tableFails ?_⟩⟩
    · rw [if_neg fun h => hsome (h hnone)]
    · rw [if_pos hnone, if_neg (by omega)]
    · rw [if_pos hnone, if_pos (by omega), if_neg (by omega)]
    · rw [if_pos hnone, if_pos (by omega), if_pos (by omega), if_neg (Nat.not_le.mpr hcap)]

end Sys2Proof.Machine
end

section
/-! PROOFS of 45_container.md, sections 3 and 4: DESERIALIZE accepts exactly the artifacts that SERIALIZE can produce
and restores their parts (R272, R274, R275). -/

namespace Sys2Proof.Machine

/-! ## What DESERIALIZE computes from an artifact -/

/-- 45_container R270: the header that SERIALIZE writes passes the checks 1 to 9. -/
theorem parseHeader_headerBytes {s : State} {tag pad : Byte} {len : Nat} {more : List Byte}
    (h : inText s (headerBytes tag pad len ++ more)) (hcap : s.inp.len.toNat ≤ s.caps.inCap)
    (htag : tag.toNat ∈ [1, 2, 3]) (hpad : PadOk tag pad len) (hlen : len < 2 ^ 32) :
    parseHeader s = .ok (tag, pad.toNat, len) := by
  have hhead := parseHeader_of_padOk h hcap htag
  have hbytes : beNat [BitVec.ofNat 8 (len / 16777216), BitVec.ofNat 8 (len / 65536), BitVec.ofNat 8 (len / 256),
    BitVec.ofNat 8 len] = len := beNat_be32 len hlen
  rw [hbytes] at hhead
  exact hhead hpad

/-- 45_container R264: the words that SERIALIZE wrote are read back. -/
theorem parseCodes_codeListBytes {s : State} {front more : List Byte} {ws : List Word}
    (h : inText s (front ++ (codeListBytes ws ++ more))) : parseCodes s front.length ws.length = .ok ws := by
  induction ws generalizing front with
  | nil => rfl
  | cons w ws ih =>
    rw [codeListBytes, List.append_assoc] at h
    have hword : readInRange s front.length 4 = .ok (be32 w.toNat) := readInRange_at h
    have hrest := ih (front := front ++ be32 w.toNat) (by rwa [List.append_assoc])
    rw [List.length_append, be32_length] at hrest
    rw [List.length_cons, parseCodes, hword, run_ok_bind, hrest, run_ok_bind, beNat_be32 _ w.isLt, BitVec.ofNat_toNat,
      BitVec.setWidth_eq, run_pure]

theorem deserializeRun_of_codesArtifact {s : State} {ws : List Word} (h : inText s (codesArtifact ws))
    (hcap : s.inp.len.toNat ≤ s.caps.inCap) (hroom : ws.length ≤ s.caps.codesCap) :
    deserializeRun s = .ok (storeParsedCodes s ws) := by
  have hsize : s.inp.len.toNat = 9 + 4 * ws.length := h.1.trans (codesArtifact_length ws)
  have hmax := s.inp.len.isLt
  have hheader := parseHeader_headerBytes h hcap (by decide) ⟨by decide, fun _ => rfl, fun _ => rfl⟩ (by omega)
  have hwords : parseCodes s 9 ws.length = .ok ws :=
    parseCodes_codeListBytes (more := []) (by rwa [List.append_nil])
  rw [deserializeRun_codeList hheader, parseCodeList_eq, if_pos (by omega), if_pos (by omega), if_pos (by omega),
    Nat.mul_div_cancel_left _ (by decide), if_pos hroom, hwords, run_ok_bind]

theorem CodesOk.length_le {t : Memory BitString} (h : CodesOk t) : t.length ≤ 256 :=
  Memory.length_le_of_below h.canon h.symbols

theorem deserializeRun_of_tableArtifact {s : State} {tag : Byte} {pad : BitVec 3} {t : Memory BitString}
    {x : List Byte} (h : inText s (tableArtifact tag pad t x)) (hcap : s.inp.len.toNat ≤ s.caps.inCap)
    (htag : tag = 1 ∨ tag = 2) (ht : CodesOk t) (hparts : PartsOk s.caps.payloadCap pad t x) :
    deserializeRun s = .ok (storeParsedTable s tag pad.toNat t x) := by
  have hsize : s.inp.len.toNat = 11 + (t.map fun c => 2 + ceilDiv8 c.2.length).sum + x.length :=
    h.1.trans (tableArtifact_length tag pad t x)
  have hmax := s.inp.len.isLt
  have hpadLt := pad.isLt
  have hpadByte : (pad.setWidth 8).toNat = pad.toNat := by rw [BitVec.toNat_setWidth]; omega
  have hcount := beNat_be16 t.length (Nat.lt_of_le_of_lt ht.length_le (by decide))
  have hne : tag ≠ 3 := by obtain rfl | rfl := htag <;> decide
  rw [tableArtifact, List.append_assoc, List.append_assoc] at h
  have hheader := parseHeader_headerBytes h hcap (by obtain rfl | rfl := htag <;> decide)
    ⟨by omega, fun h3 => absurd h3 hne, fun h0 => by rw [hparts.pad (List.length_eq_zero_iff.mp h0)]; rfl⟩ (by omega)
  have hentries := parseTable_entries (headerBytes_length _ _ _) h ht (hcount.trans_le ht.length_le) hcount.symm
    x.length
  have hbody := parseBody_of_inText (count := t.length)
    (front := headerBytes tag (pad.setWidth 8) x.length ++ (be16 t.length ++ tableBytes t)) (by simpa using h)
    (fun h0 => hparts.table (List.length_eq_zero_iff.mp h0)) hparts.fits t
  have htable : parseTable s x.length = .ok (t, x) := hentries.trans hbody
  rw [deserializeRun_table hheader hne, htable, run_ok_bind, hpadByte]

/-! ## What DESERIALIZE accepts -/

theorem exists_codeListBytes (n : Nat) {x : List Byte} (hx : x.length = 4 * n) :
    ∃ ws, ws.length = n ∧ x = codeListBytes ws := by
  induction n generalizing x with
  | zero => exact ⟨[], rfl, List.length_eq_zero_iff.mp hx⟩
  | succ n ih =>
    match x, hx with
    | a :: b :: c :: d :: x, hx =>
      obtain ⟨ws, hws, rfl⟩ := ih (x := x) (by simp only [List.length_cons] at hx; omega)
      refine ⟨BitVec.ofNat 32 (beNat [a, b, c, d]) :: ws, by rw [List.length_cons, hws], ?_⟩
      have hlt : beNat [a, b, c, d] < 2 ^ 32 := by rw [beNat_four]; omega
      rw [codeListBytes, ofNat_toNat_of_lt hlt, be32_beNat]
      rfl

theorem exists_rawHeader {a : List Byte} (h : 9 ≤ a.length) :
    ∃ b0 b1 b2 tag pad l0 l1 l2 l3 more, a = rawHeader b0 b1 b2 tag pad l0 l1 l2 l3 ++ more := by
  match a, h with
  | b0 :: b1 :: b2 :: tag :: pad :: l0 :: l1 :: l2 :: l3 :: more, _ => exact ⟨_, _, _, _, _, _, _, _, _, _, rfl⟩

/-- 45_container R275: a header that passes the checks 1 to 9 is one that SERIALIZE writes. -/
theorem parseHeader_ok_headerBytes {s : State} {a : List Byte} {hd : Byte × Nat × Nat} (h : inText s a)
    (hr : parseHeader s = .ok hd) :
    s.inp.len.toNat ≤ s.caps.inCap ∧ ∃ tag pad len more, hd = (tag, pad.toNat, len) ∧ tag.toNat ∈ [1, 2, 3] ∧
      PadOk tag pad len ∧ a = headerBytes tag pad len ++ more := by
  have hcap : s.inp.len.toNat ≤ s.caps.inCap := by
    by_contra hlong
    rw [parseHeader_overlong (Nat.not_le.mp hlong)] at hr
    cases hr
  obtain ⟨b0, b1, b2, tag, pad, l0, l1, l2, l3, more, rfl⟩ := exists_rawHeader (h.1 ▸ (parseHeader_ok hr).1)
  rw [parseHeader_eq h hcap] at hr
  split_ifs at hr with h0 h1 h2 htag hpad
  cases hr
  subst h0 h1 h2
  refine ⟨hcap, tag, pad, _, more, rfl, htag, hpad, ?_⟩
  rw [headerBytes, be32_beNat]

theorem codesArtifact_of_parseCodeList {s : State} {len : Nat} {more : List Byte} {ws : List Word}
    (h : inText s (headerBytes 3 0 len ++ more)) (hr : parseCodeList s len = .ok ws) :
    ∃ us, headerBytes 3 0 len ++ more = codesArtifact us ∧ us.length ≤ s.caps.codesCap := by
  have hend : s.inp.len.toNat = 9 + more.length := h.1.trans List.length_append
  rw [parseCodeList_eq] at hr
  split_ifs at hr with h4 hshort hlong hroom
  obtain ⟨us, hus, rfl⟩ := exists_codeListBytes (len / 4) (x := more) (by omega)
  refine ⟨us, ?_, hus ▸ hroom⟩
  rw [codesArtifact, hus, Nat.mul_div_cancel' (Nat.dvd_of_mod_eq_zero h4)]

theorem tableArtifact_of_parseTable {s : State} {tag pad : Byte} {len : Nat} {more : List Byte}
    {r : Memory BitString × List Byte} (h : inText s (headerBytes tag pad len ++ more)) (hpad : PadOk tag pad len)
    (hr : parseTable s len = .ok r) :
    ∃ t x, CodesOk t ∧ PartsOk s.caps.payloadCap (pad.setWidth 3) t x ∧
      headerBytes tag pad len ++ more = tableArtifact tag (pad.setWidth 3) t x := by
  have hend : s.inp.len.toNat = 9 + more.length := h.1.trans List.length_append
  obtain ⟨c0, c1, rest, rfl⟩ := exists_cons_cons (x := more) fun hshort => by
    rw [parseTable_short (by omega)] at hr
    cases hr
  rw [parseTable_eq (headerBytes_length _ _ _) h] at hr
  split_ifs at hr with hmax
  obtain ⟨q, hq, hbody⟩ := (run_bind_ok _ _ _).mp hr
  have hsplit : inText s ((headerBytes tag pad len ++ [c0, c1]) ++ rest) := by simpa using h
  have hcodes := parseEntries_ok hq codesOk_nil
  obtain ⟨t, x, rfl, hcount, rfl⟩ := tableBytes_of_parseEntries hsplit codesOk_nil hq
  rw [← List.append_assoc] at hsplit
  obtain ⟨hnone, hlen, hroom⟩ := parseBody_ok hsplit hbody
  obtain ⟨hseven, -, hempty⟩ := hpad
  have hpadByte : (pad.setWidth 3).setWidth 8 = pad :=
    BitVec.eq_of_toNat_eq (by rw [BitVec.toNat_setWidth, BitVec.toNat_setWidth]; omega)
  refine ⟨t, x, hcodes, ⟨hroom, fun hnil => ?_, fun hnil => hnone ?_⟩, ?_⟩
  · rw [hempty (hlen ▸ List.length_eq_zero_iff.mpr hnil)]
    rfl
  · rw [← hcount, List.length_eq_zero_iff, hnil]
  · rw [tableArtifact, hpadByte, hlen, hcount, be16_beNat]
    simp

/-- 45_container R275: what DESERIALIZE accepts is an artifact whose parts meet SERIALIZE's checks. -/
theorem artifact_of_deserializeRun {s u : State} {a : List Byte} (h : inText s a) (hr : deserializeRun s = .ok u) :
    s.inp.len.toNat ≤ s.caps.inCap ∧
    ((∃ ws, a = codesArtifact ws ∧ ws.length ≤ s.caps.codesCap) ∨
     ∃ tag pad t x, (tag = 1 ∨ tag = 2) ∧ CodesOk t ∧ PartsOk s.caps.payloadCap pad t x ∧
       a = tableArtifact tag pad t x) := by
  obtain ⟨hd, hhd, -⟩ := (run_bind_ok _ _ _).mp hr
  obtain ⟨hcap, tag, pad, len, more, rfl, htag, hpad, rfl⟩ := parseHeader_ok_headerBytes h hhd
  refine ⟨hcap, ?_⟩
  by_cases h3 : tag = 3
  · obtain rfl : pad = 0 := hpad.2.1 h3
    subst h3
    rw [deserializeRun_codeList hhd] at hr
    obtain ⟨ws, hws, -⟩ := (run_bind_ok _ _ _).mp hr
    exact .inl (codesArtifact_of_parseCodeList h hws)
  · have hcases : (tag = 1 ∨ tag = 2) ∨ tag = 3 := by simpa using (tagCheck_eq_true tag).mpr htag
    rw [deserializeRun_table hhd h3] at hr
    obtain ⟨r, hr, -⟩ := (run_bind_ok _ _ _).mp hr
    obtain ⟨t, x, ht, hparts, hart⟩ := tableArtifact_of_parseTable h hpad hr
    exact .inr ⟨tag, _, t, x, hcases.resolve_right h3, ht, hparts, hart⟩

/-! ## What DESERIALIZE leaves -/

theorem exec_deserialize_of_ok {s u : State} (h : deserializeRun s = .ok u) :
    exec .deserialize s = .next (completeOk u) :=
  execDeserialize_next.mpr (.inl ⟨u, h, rfl⟩)

theorem ok_of_exec_deserialize {s t : State} (hnext : exec .deserialize s = .next t) (hok : t.ctl.error = noError) :
    ∃ u, deserializeRun s = .ok u := by
  obtain ⟨u, hu, -⟩ | ⟨code, info, -, rfl⟩ := execDeserialize_next.mp hnext
  · exact ⟨u, hu⟩
  · exact (completeError_ne_noError (by decide) _ _ _ _ hok).elim

theorem storeParsedTable_payloadText (s : State) (tag : Byte) (pad : Nat) (t : Memory BitString) {x : List Byte}
    (hx : x.length < 2 ^ 32) : payloadText (completeOk (storeParsedTable s tag pad t x)) x :=
  ⟨ofNat_toNat_of_lt hx, Memory.holds_write _ _ _⟩

theorem storeParsedCodes_codeList (s : State) {ws : List Word} (hws : ws.length < 2 ^ 32) :
    codeList (completeOk (storeParsedCodes s ws)) ws := by
  refine ⟨ofNat_toNat_of_lt hws, fun j hj => ?_⟩
  have hget := Memory.get_write_inside s.codes.mem 0 ws j hj
  rw [Nat.zero_add] at hget
  exact (codeAt_of_get hget).trans (List.getElem?_eq_getElem hj).symm

/-- 45_container R270, R272: DESERIALIZE of a TAG 1 or 2 artifact. -/
theorem exec_deserialize_tableArtifact {s : State} {tag : Byte} {pad : BitVec 3} {t : Memory BitString} {x : List Byte}
    (h : inText s (tableArtifact tag pad t x)) (hcap : s.inp.len.toNat ≤ s.caps.inCap) (htag : tag = 1 ∨ tag = 2)
    (ht : CodesOk t) (hparts : PartsOk s.caps.payloadCap pad t x) :
    ∃ v, exec .deserialize s = .next v ∧ succeeded v ∧ v.ctab = ⟨t, BitVec.ofNat 32 t.length⟩ ∧ v.pad = pad ∧
      payloadText v x ∧ v.artKind = tag ∧
      (∀ a, x.length ≤ a → Memory.get v.payload.mem a = Memory.get s.payload.mem a) ∧
      ∀ p, p ≠ .ctab → p ≠ .pad → p ≠ .payload → p ≠ .artKind → Part.same s v p := by
  have hsize := h.1.trans (tableArtifact_length tag pad t x)
  have hmax := s.inp.len.isLt
  have hexec := exec_deserialize_of_ok (deserializeRun_of_tableArtifact h hcap htag ht hparts)
  obtain ⟨hframe, -⟩ := (storeParsedTable_keepsOutside s tag pad.toNat t x).completed rfl rfl rfl
  have hpad : BitVec.ofNat 3 pad.toNat = pad := (BitVec.ofNat_toNat 3 pad).trans (BitVec.setWidth_eq pad)
  exact ⟨_, hexec, succeeded_completeOk _, rfl, hpad, storeParsedTable_payloadText s _ _ _ (by omega), rfl,
    fun a ha => Memory.get_write_outside _ _ _ _ (.inr (by omega)),
    fun p hctab hpad hpayload hkind => hframe p (by simp [hctab, hpad, hpayload, hkind])⟩

/-- 45_container R270, R272: DESERIALIZE of a TAG 3 artifact. -/
theorem exec_deserialize_codesArtifact {s : State} {ws : List Word} (h : inText s (codesArtifact ws))
    (hcap : s.inp.len.toNat ≤ s.caps.inCap) (hroom : ws.length ≤ s.caps.codesCap) :
    ∃ v, exec .deserialize s = .next v ∧ succeeded v ∧ codeList v ws ∧ v.pad = 0 ∧ v.artKind = 3 ∧
      (∀ a, ws.length ≤ a → Memory.get v.codes.mem a = Memory.get s.codes.mem a) ∧
      ∀ p, p ≠ .codes → p ≠ .pad → p ≠ .artKind → Part.same s v p := by
  have hsize := h.1.trans (codesArtifact_length ws)
  have hmax := s.inp.len.isLt
  have hexec := exec_deserialize_of_ok (deserializeRun_of_codesArtifact h hcap hroom)
  obtain ⟨hframe, -⟩ := (storeParsedCodes_keepsOutside s ws).completed rfl rfl rfl
  exact ⟨_, hexec, succeeded_completeOk _, storeParsedCodes_codeList s (by omega), rfl, rfl,
    fun a ha => Memory.get_write_outside _ _ _ _ (.inr (by omega)),
    fun p hcodes hpad hkind => hframe p (by simp [hcodes, hpad, hkind])⟩

theorem CtabOk.eq_of_codes {t : CodeTable} (h : CtabOk t) : ⟨t.codes, BitVec.ofNat 32 t.codes.length⟩ = t := by
  obtain ⟨codes, n⟩ := t
  have hn : n.toNat = codes.length := h.count
  rw [← hn, BitVec.ofNat_toNat, BitVec.setWidth_eq]

/-- Settles O29: DESERIALIZE of the two kinds of artifact (`exec_deserialize_tableArtifact`,
`exec_deserialize_codesArtifact`). -/
theorem deserializeRestoresTheParts : Obligations.DeserializeRestoresTheParts := by
  refine ⟨fun s tag pad tab x htag htab hpad htable hroom hcap h => ?_, fun s ws hroom hcap h => ?_⟩
  · rw [← tableArtifact_eq] at h
    obtain ⟨v, hexec, hok, hctab, hrest⟩ :=
      exec_deserialize_tableArtifact h hcap htag htab.codesOk ⟨hroom, hpad, htable⟩
    exact ⟨v, hexec, hok, hctab.trans htab.eq_of_codes, hrest⟩
  · rw [← codesArtifact_eq] at h
    exact exec_deserialize_codesArtifact h hcap hroom

/-! ## The laws of the family -/

theorem payloadText.get {s : State} {x : List Byte} (h : payloadText s x) {j : Nat} (hj : j < x.length) :
    Memory.get s.payload.mem j = x[j]? := by
  simpa using (Memory.holds_iff _ _ _).mp h.2 j hj

section
variable {s t : State} {a : List Byte} (hs : Inv s) (hok : t.ctl.error = noError) (hout : outText t a)
include hs hok hout

/-- 45_container R266: what SERIALIZE.HUF and SERIALIZE.SF wrote is the artifact of a table and a payload. -/
theorem tableArtifact_of_exec_serialize {i : Instr} {k : Byte}
    (hi : i = .serializeHuf ∧ k = 1 ∨ i = .serializeSf ∧ k = 2) (hexec : exec i s = .next t) :
    ∃ x, payloadText s x ∧ PartsOk s.caps.payloadCap s.pad s.ctab.codes x ∧
      a = tableArtifact k s.pad s.ctab.codes x := by
  obtain ⟨-, hcap, -⟩ := Caps.wf_lt hs.caps
  have hrun := ok_of_exec_serialize (exec_serializeTable s hi) hexec hok hout fun b hb => by
    obtain ⟨-, hroom, -⟩ := serializeTableRun_ok hb
    omega
  exact tableArtifact_of_serializeTableRun hs.ctab.count hrun

/-- 45_container R267: what SERIALIZE.LZW wrote is the artifact of a code list. -/
theorem codesArtifact_of_exec_serialize (hexec : exec .serializeLzw s = .next t) :
    ∃ ws, codeList s ws ∧ ws.length ≤ s.caps.codesCap ∧ a = codesArtifact ws := by
  obtain ⟨-, hcap, -⟩ := Caps.wf_lt hs.caps
  have hrun := ok_of_exec_serialize (exec_serializeLzw s) hexec hok hout fun b hb => by
    obtain ⟨-, -, -, -, -, hroom, -⟩ := serializeLzwRun_ok hb
    omega
  obtain ⟨ws, hlen, hcodes, hart, -, -, hfits⟩ := serializeLzwRun_ok hrun
  exact ⟨ws, ⟨hlen.symm, hcodes⟩, hfits, hart⟩

end

/-- Settles O32: what a SERIALIZE wrote is the artifact of its operands (`tableArtifact_of_exec_serialize`,
`codesArtifact_of_exec_serialize`), whose parts DESERIALIZE restores (`exec_deserialize_tableArtifact`,
`exec_deserialize_codesArtifact`). -/
theorem serializeThenDeserialize : Obligations.SerializeThenDeserialize := by
  intro i k hi s t u a hs hexec hok hout hcaps hin hfit
  have hcap : u.inp.len.toNat ≤ u.caps.inCap := by rwa [hin.1, hcaps]
  rw [← or_assoc] at hi
  obtain hi | ⟨rfl, rfl⟩ := hi
  · obtain ⟨x, hx, hparts, rfl⟩ := tableArtifact_of_exec_serialize hs hok hout hi hexec
    have hk : k = 1 ∨ k = 2 := hi.imp And.right And.right
    obtain ⟨v, hexec', hok', hctab, hpad, hpayload, hkind, -⟩ :=
      exec_deserialize_tableArtifact hin hcap hk hs.ctab.codesOk (hcaps ▸ hparts)
    refine ⟨v, hexec', hok', hkind, fun _ => ⟨hctab.trans hs.ctab.eq_of_codes, hpad,
      BitVec.eq_of_toNat_eq (hpayload.1.trans hx.1.symm), fun j hj => ?_⟩, fun h3 => ?_⟩
    · have hj' : j < x.length := hx.1 ▸ hj
      rw [hpayload.get hj', hx.get hj']
    · obtain rfl | rfl := hk <;> cases h3
  · obtain ⟨ws, hws, hroom, rfl⟩ := codesArtifact_of_exec_serialize hs hok hout hexec
    obtain ⟨v, hexec', hok', hlist, hpad, hkind, -⟩ := exec_deserialize_codesArtifact hin hcap (hcaps ▸ hroom)
    refine ⟨v, hexec', hok', hkind, fun h3 => absurd rfl h3, fun _ =>
      ⟨BitVec.eq_of_toNat_eq (hlist.1.trans hws.1.symm), hpad, fun j hj => ?_⟩⟩
    have hj' : j < ws.length := hws.1 ▸ hj
    rw [hlist.2 j hj', hws.2 j hj']

/-- Settles O33: DESERIALIZE accepts what a SERIALIZE wrote (`serializeThenDeserialize`); what it accepts is an artifact
(`artifact_of_deserializeRun`), which SERIALIZE computes again from the parts it restored
(`exec_deserialize_tableArtifact`, `exec_deserialize_codesArtifact`). -/
theorem deserializeThenSerialize : Obligations.DeserializeThenSerialize := by
  refine ⟨fun s t u i a hs hi hexec hok hout hcaps hin hfit => ?_, fun s t a hwf hin hexec hok hfit => ?_⟩
  · obtain ⟨k, hk⟩ : ∃ k : Byte, i = .serializeHuf ∧ k = 1 ∨ i = .serializeSf ∧ k = 2 ∨ i = .serializeLzw ∧ k = 3 := by
      obtain rfl | rfl | rfl := hi
      · exact ⟨1, .inl ⟨rfl, rfl⟩⟩
      · exact ⟨2, .inr (.inl ⟨rfl, rfl⟩)⟩
      · exact ⟨3, .inr (.inr ⟨rfl, rfl⟩)⟩
    obtain ⟨v, hexec', hok', -⟩ := serializeThenDeserialize i k hk s t u a hs hexec hok hout hcaps hin hfit
    exact ⟨v, hexec', hok'⟩
  · obtain ⟨-, hout, -⟩ := Caps.wf_lt hwf
    obtain ⟨-, -, -, -, hcaps, -⟩ := commandsKeepStateOutsideTheirWriteSet _ _ _ hexec
    obtain ⟨u, hrun⟩ := ok_of_exec_deserialize hexec hok
    obtain ⟨hcap, ⟨ws, rfl, hroom⟩ | ⟨tag, pad, tab, x, htag, htab, hparts, rfl⟩⟩ := artifact_of_deserializeRun hin hrun
    all_goals rw [← hcaps] at hfit hout
    · obtain ⟨v, hnext, -, hlist, -, hkind, -⟩ := exec_deserialize_codesArtifact hin hcap hroom
      obtain rfl : t = v := Host.Outcome.next.inj (hexec.symm.trans hnext)
      have hser := serializeLzwRun_of_codeList hlist (hcaps ▸ hroom) hfit
      obtain ⟨w, hwrites, hok', htext, -⟩ := exec_serialize_stores (exec_serializeLzw t) hser (by omega)
      exact ⟨_, w, .inr (.inr ⟨rfl, hkind⟩), hwrites, hok', htext⟩
    · obtain ⟨v, hnext, -, hctab, rfl, hpayload, hkind, -⟩ := exec_deserialize_tableArtifact hin hcap htag htab hparts
      obtain rfl : t = v := Host.Outcome.next.inj (hexec.symm.trans hnext)
      have hcount : t.ctab.ctabN.toNat = t.ctab.codes.length := by rw [hctab]; exact htab.ctabOk.count
      obtain rfl : t.ctab.codes = tab := congrArg CodeTable.codes hctab
      have hser := serializeTableRun_of_payloadText hcount hpayload (hcaps ▸ hparts) hfit
      obtain ⟨i, hi⟩ : ∃ i : Instr, i = .serializeHuf ∧ tag = 1 ∨ i = .serializeSf ∧ tag = 2 :=
        htag.elim (fun h => ⟨_, .inl ⟨rfl, h⟩⟩) (fun h => ⟨_, .inr ⟨rfl, h⟩⟩)
      obtain ⟨w, hwrites, hok', htext, -⟩ := exec_serialize_stores (exec_serializeTable t hi) hser (by omega)
      exact ⟨i, w, by rw [hkind]; tauto, hwrites, hok', htext⟩

end Sys2Proof.Machine
end

section
/-! PROOFS for 46_top_level.md, what the rules read: two states that agree on the groups of state a computation reads,
each buffer below its length, make it answer alike (10_state R41 to R52, 20_memory R94). -/

namespace Sys2Proof.Machine

/-! ## Agreement on what a command can read -/

/-- Two states hold the same in a group of state, as far as a command can read it: of a buffer, its length and the
storage below it. -/
def Part.agree (s s' : State) : Part → Prop
  | .inp => s'.inp.len = s.inp.len ∧ ∀ a, a < s.inp.len.toNat → Memory.get s'.inp.mem a = Memory.get s.inp.mem a
  | .bits => s'.bits.len = s.bits.len ∧
      ∀ a, a < ceilDiv8 s.bits.len.toNat → Memory.get s'.bits.mem a = Memory.get s.bits.mem a
  | .payload => s'.payload.len = s.payload.len ∧
      ∀ a, a < s.payload.len.toNat → Memory.get s'.payload.mem a = Memory.get s.payload.mem a
  | .codes => s'.codes.len = s.codes.len ∧ ∀ a, a < s.codes.len.toNat → codeAt s' a = codeAt s a
  | p => Part.same s s' p

section
variable {α β : Type}

theorem run_bind_congr {x x' : Run α} {f f' : α → Run β} (hx : x' = x) (hf : ∀ a, x = .ok a → f' a = f a) :
    (x' >>= f') = (x >>= f) := by
  subst hx
  cases x' with
  | ok a => exact hf a rfl
  | error e => rfl

/-- What follows a check matters only when the check passes. -/
theorem check_bind_congr {ok : Bool} {code : ErrCode} {info : Nat} {f f' : Unit → Run β}
    (hf : ok = true → f' () = f ()) : (check ok code info >>= f') = (check ok code info >>= f) :=
  run_bind_congr rfl fun _ h => hf ((check_ok ..).mp h)

theorem readRange_congr {m m' : Memory α} (bad : Nat → Fault) {a n : Nat}
    (h : ∀ b, a ≤ b → b < a + n → Memory.get m' b = Memory.get m b) : readRange m' bad a n = readRange m bad a n := by
  induction n generalizing a with
  | zero => rfl
  | succ n ih =>
    have hrest := ih (a := a + 1) fun b hb hb' => h b (by omega) (by omega)
    simp only [readRange, h a le_rfl (by omega), hrest]

end

/-! ## Single reads -/

section
variable {s s' : State}

section
variable (hinp : Part.agree s s' .inp)
include hinp

theorem readIn_agree {i : Nat} (hi : i < s.inp.len.toNat) : readIn s' i = readIn s i := by
  simp only [readIn, hinp.2 i hi]

theorem readInRange_agree {a n : Nat} (h : a + n ≤ s.inp.len.toNat) : readInRange s' a n = readInRange s a n :=
  readRange_congr _ fun b _ hb => hinp.2 b (by omega)

end

theorem readBit_agree (hbits : Part.agree s s' .bits) {i : Nat} (hi : i < s.bits.len.toNat) :
    readBit s' i = readBit s i := by
  simp only [readBit, hbits.2 (i / 8) (by unfold ceilDiv8; omega)]

theorem readBitString_agree (hbits : Part.agree s s' .bits) :
    readBitString s' s.bits.len.toNat = readBitString s s.bits.len.toNat :=
  run_bind_congr (readRange_congr _ fun b _ hb => hbits.2 b (by omega)) fun _ _ => rfl

theorem readPayload_agree (hpayload : Part.agree s s' .payload) :
    readPayload s' s.payload.len.toNat = readPayload s s.payload.len.toNat :=
  readRange_congr _ fun b _ hb => hpayload.2 b (by omega)

section
variable (hcodes : Part.agree s s' .codes)
include hcodes

theorem readCode_agree {j : Nat} (hj : j < s.codes.len.toNat) : readCode s' j = readCode s j := by
  simp only [readCode, hcodes.2 j hj]

theorem readCodes_agree {j n : Nat} (h : j + n ≤ s.codes.len.toNat) : readCodes s' j n = readCodes s j n := by
  induction n generalizing j with
  | zero => rfl
  | succ n ih =>
    have hrest := ih (j := j + 1) (by omega)
    simp only [readCodes, readCode_agree hcodes (show j < s.codes.len.toNat by omega), hrest]

end

/-! ## The computations of the commands -/

section
variable (hcaps : s'.caps = s.caps)
include hcaps

theorem packRun_agree (hbits : Part.agree s s' .bits) : packRun s' = packRun s := by
  simp only [packRun_eq, hcaps, hbits.1, readBitString_agree hbits]

theorem unpackRun_agree (hpayload : Part.agree s s' .payload) (hpad : Part.agree s s' .pad) :
    unpackRun s' = unpackRun s := by
  simp only [unpackRun_eq, hcaps, hpayload.1, show s'.pad = s.pad from hpad, readPayload_agree hpayload]

theorem analyzeRun_agree (hinp : Part.agree s s' .inp) : analyzeRun s' = analyzeRun s := by
  simp only [analyzeRun_eq, hcaps, hinp.1,
    readInRange_agree hinp (show 0 + s.inp.len.toNat ≤ s.inp.len.toNat by omega)]

theorem encodeLoop_agree (hinp : Part.agree s s' .inp) (hctab : Part.agree s s' .ctab) {n i total : Nat}
    (h : i + n ≤ s.inp.len.toNat) : encodeLoop s' n i total = encodeLoop s n i total := by
  induction n generalizing i total with
  | zero => rfl
  | succ n ih =>
    have hrest := fun total => ih (i := i + 1) (total := total) (by omega)
    simp only [encodeLoop, readIn_agree hinp (show i < s.inp.len.toNat by omega), hcaps,
      show s'.ctab = s.ctab from hctab, hrest]

theorem encodeRun_agree (hinp : Part.agree s s' .inp) (hctab : Part.agree s s' .ctab) :
    encodeRun s' = encodeRun s := by
  simp only [encodeRun_eq, hcaps, hinp.1,
    encodeLoop_agree hcaps hinp hctab (show 0 + s.inp.len.toNat ≤ s.inp.len.toNat by omega)]

theorem decodeLoop_agree (hbits : Part.agree s s' .bits) (hctab : Part.agree s s' .ctab) {n i o : Nat} {p : BitString}
    (h : i + n ≤ s.bits.len.toNat) : decodeLoop s' n i p o = decodeLoop s n i p o := by
  induction n generalizing i p o with
  | zero => rfl
  | succ n ih =>
    have hrest := fun p o => ih (i := i + 1) (p := p) (o := o) (by omega)
    simp only [decodeLoop, readBit_agree hbits (show i < s.bits.len.toNat by omega), hcaps,
      show s'.ctab = s.ctab from hctab, hrest]

theorem compressLoop_agree (hinp : Part.agree s s' .inp) {n i m : Nat} {d : List DictEntry} {w : Option Nat}
    (h : i + n ≤ s.inp.len.toNat) : compressLoop s' n i d w m = compressLoop s n i d w m := by
  induction n generalizing i d w m with
  | zero => cases w <;> simp only [compressLoop, hcaps]
  | succ n ih =>
    have hrest := fun d w m => ih (i := i + 1) (d := d) (w := w) (m := m) (by omega)
    have hread := readIn_agree hinp (show i < s.inp.len.toNat by omega)
    cases w <;> simp only [compressLoop, hread, hcaps, hrest]

theorem decompressLoop_agree (hcodes : Part.agree s s' .codes) {n j w o : Nat} {d : List DictEntry}
    (h : j + n ≤ s.codes.len.toNat) : decompressLoop s' n j d w o = decompressLoop s n j d w o := by
  induction n generalizing j d w o with
  | zero => rfl
  | succ n ih =>
    have hrest := fun d w o => ih (j := j + 1) (d := d) (w := w) (o := o) (by omega)
    simp only [decompressLoop, readCode_agree hcodes (show j < s.codes.len.toNat by omega), hcaps, hrest]

theorem decompressRun_agree (hcodes : Part.agree s s' .codes) {m : Nat} (h : m ≤ s.codes.len.toNat) :
    decompressRun s' m = decompressRun s m := by
  cases m with
  | zero => rfl
  | succ n =>
    have hrest := fun d w o => decompressLoop_agree hcaps hcodes (n := n) (j := 1) (d := d) (w := w) (o := o) (by omega)
    simp only [decompressRun, readCode_agree hcodes (show 0 < s.codes.len.toNat by omega), hcaps, hrest]

theorem serializeTableRun_agree (tag : Byte) (hpayload : Part.agree s s' .payload) (hpad : Part.agree s s' .pad)
    (hctab : Part.agree s s' .ctab) : serializeTableRun tag s' = serializeTableRun tag s := by
  simp only [serializeTableRun_eq, hcaps, hpayload.1, show s'.pad = s.pad from hpad,
    show s'.ctab = s.ctab from hctab, readPayload_agree hpayload]

theorem serializeLzwRun_agree (hcodes : Part.agree s s' .codes) : serializeLzwRun s' = serializeLzwRun s := by
  simp only [serializeLzwRun_eq, hcaps, hcodes.1,
    readCodes_agree hcodes (show 0 + s.codes.len.toNat ≤ s.codes.len.toNat by omega)]

/-! ## The parts of DESERIALIZE -/

section
variable (hinp : Part.agree s s' .inp)
include hinp

theorem parseHeader_agree : parseHeader s' = parseHeader s := by
  simp only [parseHeader, hcaps, hinp.1]
  refine check_bind_congr fun _ => check_bind_congr fun hnine => ?_
  have hlen : 9 ≤ s.inp.len.toNat := by simpa using hnine
  have hread := fun i (hi : i < 9) => readIn_agree hinp (hi.trans_le hlen)
  simp only [hread 0 (by decide), hread 1 (by decide), hread 2 (by decide), hread 3 (by decide), hread 4 (by decide),
    readInRange_agree hinp (show 5 + 4 ≤ s.inp.len.toNat by omega)]

omit hcaps in
theorem parseCodes_agree {a n : Nat} (h : a + 4 * n ≤ s.inp.len.toNat) : parseCodes s' a n = parseCodes s a n := by
  induction n generalizing a with
  | zero => rfl
  | succ n ih =>
    simp only [parseCodes, readInRange_agree hinp (show a + 4 ≤ s.inp.len.toNat by omega), ih (a := a + 4) (by omega)]

theorem parseCodeList_agree (len : Nat) : parseCodeList s' len = parseCodeList s len := by
  simp only [parseCodeList_eq, hcaps, hinp.1]
  refine ite_congr rfl (fun h4 => ite_congr rfl (fun hroom => ?_) fun _ => rfl) fun _ => rfl
  rw [parseCodes_agree hinp (by omega)]

omit hcaps in
theorem parseEntries_agree {count pos : Nat} {t : Memory BitString} :
    parseEntries s' s.inp.len.toNat count pos t = parseEntries s s.inp.len.toNat count pos t := by
  induction count generalizing pos t with
  | zero => rfl
  | succ count ih =>
    simp only [parseEntries]
    refine check_bind_congr fun htwo => ?_
    have htwo : pos + 2 ≤ s.inp.len.toNat := by simpa using htwo
    refine run_bind_congr (readIn_agree hinp (by omega)) fun sym _ => ?_
    refine run_bind_congr (readIn_agree hinp (by omega)) fun len _ => ?_
    refine check_bind_congr fun _ => check_bind_congr fun _ => check_bind_congr fun hroom => ?_
    refine run_bind_congr (readInRange_agree hinp (by simpa using hroom)) fun bytes _ => ?_
    exact check_bind_congr fun _ => check_bind_congr fun _ => ih

theorem parseTable_agree (len : Nat) : parseTable s' len = parseTable s len := by
  simp only [parseTable, hcaps, hinp.1]
  refine check_bind_congr fun heleven => ?_
  have heleven : 11 ≤ s.inp.len.toNat := by simpa using heleven
  refine run_bind_congr (readInRange_agree hinp (by omega)) fun bytes _ => check_bind_congr fun _ => ?_
  refine run_bind_congr (parseEntries_agree hinp) fun r _ => ?_
  refine check_bind_congr fun _ => check_bind_congr fun hroom => check_bind_congr fun _ => check_bind_congr fun _ => ?_
  exact run_bind_congr (readInRange_agree hinp (by simpa using hroom)) fun _ _ => rfl

end

end

end

end Sys2Proof.Machine
end

section
/-! PROOFS of 46_top_level.md, the sequence: NOP (R300), a composite is its component commands one after the other
(R301, R302, R305), and only a composite that succeeds writes the sizes (R311). -/

namespace Sys2Proof.Machine

/-- Settles O8: NOP's rule is the state itself (`execNop_eq`). -/
theorem nopOnlyCompletes : Obligations.NopOnlyCompletes := execNop_eq

/-! ## Rules one after the other -/

theorem andThen_assoc (e : Ending) (f g : State → Ending) :
    (e.andThen f).andThen g = e.andThen fun s => (f s).andThen g := by
  cases e <;> rfl

@[simp] theorem andThen_done_right (e : Ending) : e.andThen .done = e := by
  cases e <;> rfl

/-- The rules of a list of commands, each run on the state that the one before it left (46_top_level R301). -/
def stepsRule : List Instr → State → Ending
  | [], s => .done s
  | i :: is, s => (ruleOf i s).andThen (stepsRule is)

theorem stepsRule_keepsOutside {is : List Instr} {ps : List Part} (h : ∀ i ∈ is, writeSet i ⊆ ps) (s : State) :
    (stepsRule is s).keepsOutside ps s := by
  induction is generalizing s with
  | nil => exact Ending.keepsOutside_done (.refl ps s)
  | cons i is ih =>
    obtain ⟨hi, his⟩ := List.forall_mem_cons.mp h
    exact Ending.keepsOutside_andThen ps (Ending.keepsOutside_mono (ruleOf_keepsOutside i s) hi) (ih his)
      (List.Subset.refl ps)

/-- The three COMPRESS commands. -/
abbrev IsCompress (i : Instr) : Prop := i = .compressHuf ∨ i = .compressSf ∨ i = .compressLzw

/-- 46_top_level R302: COMPRESS is its own checks, its component commands, and the sizes. -/
theorem compressRule_eq {i : Instr} (hi : IsCompress i) (s : State) :
    ruleOf i s = ((compressStart s).andThen (stepsRule (compressSteps i))).andThen storeCompressSizes := by
  obtain rfl | rfl | rfl := hi
  · simp only [ruleOf, compressHufRule, compressSteps, stepsRule, andThen_assoc, andThen_done]
  · simp only [ruleOf, compressSfRule, compressSteps, stepsRule, andThen_assoc, andThen_done]
  · simp only [ruleOf, compressLzwRule, compressSteps, stepsRule, andThen_assoc, andThen_done]

/-- 46_top_level R305: what follows DESERIALIZE, by the three kinds of artifact. -/
theorem decompressTail_eq {s : State} (h : s.artKind ∈ [(1 : Byte), 2, 3]) :
    decompressTail s = stepsRule (decompressSteps s.artKind) s := by
  simp only [List.mem_cons, List.not_mem_nil, or_false] at h
  obtain h | h | h := h <;> simp [decompressTail, decompressSteps, stepsRule, ruleOf, h]

/-- 45_container R271, check 6: the tag that a header check has passed. -/
theorem parseHeader_ok_tag {s : State} {hd : Byte × Nat × Nat} (h : parseHeader s = .ok hd) :
    hd.1 ∈ [(1 : Byte), 2, 3] := by
  simp only [parseHeader, run_bind_ok, check_ok, run_pure, Except.ok.injEq] at h
  obtain ⟨-, -, -, -, -, -, -, -, -, -, -, -, -, -, -, -, tag, -, -, htag, -, -, -, -, -, -, -, -, -, -, rfl⟩ := h
  simpa [or_assoc] using htag

theorem deserializeRun_ok_artKind {s u : State} (h : deserializeRun s = .ok u) : u.artKind ∈ [(1 : Byte), 2, 3] := by
  obtain ⟨hd, hhd, h⟩ := (run_bind_ok _ _ _).mp h
  split at h
  · obtain ⟨ws, -, ⟨⟩⟩ := (run_bind_ok _ _ _).mp h
    show (3 : Byte) ∈ [(1 : Byte), 2, 3]
    decide
  · obtain ⟨r, -, ⟨⟩⟩ := (run_bind_ok _ _ _).mp h
    exact parseHeader_ok_tag hhd

/-! ## The component commands -/

/-- The component commands of the composites, DESERIALIZE aside (46_top_level R302, R305). -/
def componentSteps : List Instr :=
  [.analyze, .rank, .huffBuild, .huffCodes, .sfCodes, .encode, .pack, .unpack, .decode, .lzwCompress, .lzwDecompress,
    .serializeHuf, .serializeSf, .serializeLzw]

/-- An ending that is raised by one computation, or by the check before it. -/
theorem sub_of_guarded {α : Type} {p : Prop} [Decidable p] {sub sub' : Byte} {sErr v u : State} {r : Run α}
    {keep : α → State} {code code' : ErrCode} {info info' : Nat}
    (h : (if p then Ending.ofRun sub sErr r keep else .raised code info sub v) = .raised code' info' sub' u) :
    sub' = sub := by
  split at h
  · obtain ⟨-, hsub, -⟩ := ofRun_eq_raised h
    exact hsub
  · cases h
    rfl

/-- 46_top_level R303: a component command that fails names its own opcode. -/
theorem sub_of_component {i : Instr} (hi : i ∈ componentSteps) {s u : State} {code : ErrCode} {info : Nat} {sub : Byte}
    (h : ruleOf i s = .raised code info sub u) : sub = opcOf i := by
  cases i
  case analyze | encode | pack | unpack | serializeHuf | serializeSf | serializeLzw =>
    obtain ⟨-, hsub, -⟩ := ofRun_eq_raised h
    exact hsub
  case rank | huffBuild | huffCodes | sfCodes => cases h
  case decode | lzwCompress | lzwDecompress => exact sub_of_guarded h
  all_goals simp [componentSteps] at hi

theorem opcOf_component_ne {i : Instr} (hi : i ∈ componentSteps) : opcOf i ≠ 0 := by
  revert i
  decide

/-- Completion writes no group of state. -/
theorem completeOk_agree (s : State) (p : Part) : Part.agree s (completeOk s) p := by
  cases p
  case inp | bits | payload | codes => exact ⟨rfl, fun _ _ => rfl⟩
  case pad => rfl
  all_goals exact rfl

/-- An error completion writes the registers that a success completion writes. -/
theorem completeError_congr {e e' : State} (h : completeOk e' = completeOk e) (code : ErrCode) (info : Nat)
    (opc sub : Byte) : completeError code info opc sub e' = completeError code info opc sub e :=
  show completeError code info opc sub (completeOk e') = completeError code info opc sub (completeOk e) by rw [h]

section
variable {α : Type} {opc sub : Byte} {e e' : State} {r r' : Run α} {keep keep' : α → State} (hr : r' = r)
  (hErr : completeOk e' = completeOk e) (hOk : ∀ a, completeOk (keep' a) = completeOk (keep a))
include hr hErr hOk

/-- A rule of one computation completes alike from states that differ in the status only. -/
theorem complete_ofRun_congr :
    complete opc (Ending.ofRun sub e' r' keep') = complete opc (Ending.ofRun sub e r keep) := by
  subst hr
  cases r' with
  | ok a => rw [ofRun_ok, ofRun_ok, complete_done, complete_done, hOk]
  | error stop =>
    cases stop with
    | error code info => rw [ofRun_error, ofRun_error, complete_raised, complete_raised, completeError_congr hErr]
    | fault f => rfl

theorem complete_guarded_congr {p : Prop} [Decidable p] {v v' : State} {code : ErrCode} {info : Nat}
    (hv : completeOk v' = completeOk v) :
    complete opc (if p then Ending.ofRun sub e' r' keep' else .raised code info sub v') =
      complete opc (if p then Ending.ofRun sub e r keep else .raised code info sub v) := by
  split
  · exact complete_ofRun_congr hr hErr hOk
  · rw [complete_raised, complete_raised, completeError_congr hv]

end

/-- A component command reads and keeps no control register that a completion writes. -/
theorem exec_completeOk {i : Instr} (hi : i ∈ componentSteps) (s : State) : exec i (completeOk s) = exec i s := by
  have hagree := completeOk_agree s
  have hcaps := completeOk_caps s
  cases i
  case analyze => exact complete_ofRun_congr (analyzeRun_agree hcaps (hagree .inp)) rfl fun _ => rfl
  case rank | huffBuild | huffCodes | sfCodes => rfl
  case encode => exact complete_ofRun_congr (encodeRun_agree hcaps (hagree .inp) (hagree .ctab)) rfl fun _ => rfl
  case pack => exact complete_ofRun_congr (packRun_agree hcaps (hagree .bits)) rfl fun _ => rfl
  case unpack => exact complete_ofRun_congr (unpackRun_agree hcaps (hagree .payload) (hagree .pad)) rfl fun _ => rfl
  case decode =>
    simp only [exec_eq, ruleOf, decodeRule, completeOk_bits, completeOk_caps]
    apply complete_guarded_congr
    exacts [decodeLoop_agree hcaps (hagree .bits) (hagree .ctab) (Nat.zero_add _).le, rfl, fun _ => rfl, rfl]
  case lzwCompress =>
    simp only [exec_eq, ruleOf, lzwCompressRule, completeOk_inp, completeOk_caps]
    apply complete_guarded_congr
    exacts [compressLoop_agree hcaps (hagree .inp) (Nat.zero_add _).le, rfl, fun _ => rfl, rfl]
  case lzwDecompress =>
    simp only [exec_eq, ruleOf, lzwDecompressRule, completeOk_codes, completeOk_caps]
    apply complete_guarded_congr
    exacts [decompressRun_agree hcaps (hagree .codes) le_rfl, rfl, fun _ => rfl, rfl]
  case serializeHuf | serializeSf =>
    exact complete_ofRun_congr (serializeTableRun_agree hcaps _ (hagree .payload) (hagree .pad) (hagree .ctab)) rfl
      fun _ => rfl
  case serializeLzw => exact complete_ofRun_congr (serializeLzwRun_agree hcaps (hagree .codes)) rfl fun _ => rfl
  all_goals simp [componentSteps] at hi

/-- A component command's completion names the step that failed twice, as OPC and as SUB. -/
theorem exec_component {i : Instr} (hi : i ∈ componentSteps) (s : State) :
    exec i s = complete ((ruleOf i s).sub?.getD 0) (ruleOf i s) := by
  rw [exec_eq]
  cases h : ruleOf i s with
  | done u => rfl
  | raised code info sub u => rw [← sub_of_component hi h]; rfl
  | fault f => rfl

/-! ## Commands issued one after the other -/

section
variable {is : List Instr} (his : ∀ i ∈ is, i ∈ componentSteps)
include his

theorem stepsRule_sub_ne {s u : State} {code : ErrCode} {info : Nat} {sub : Byte}
    (h : stepsRule is s = .raised code info sub u) : sub ≠ 0 := by
  induction is generalizing s with
  | nil => cases h
  | cons i is ih =>
    obtain ⟨hi, his⟩ := List.forall_mem_cons.mp his
    obtain h | ⟨v, -, h⟩ := andThen_eq_raised h
    · exact sub_of_component hi h ▸ opcOf_component_ne hi
    · exact ih his h

theorem runCommands_completeOk (s : State) :
    runCommands is (completeOk s) = complete ((stepsRule is s).sub?.getD 0) (stepsRule is s) := by
  induction is generalizing s with
  | nil => rfl
  | cons i is ih =>
    obtain ⟨hi, his⟩ := List.forall_mem_cons.mp his
    rw [runCommands, exec_completeOk hi, exec_component hi, stepsRule]
    cases h : ruleOf i s with
    | done u => exact (if_pos rfl).trans (ih his u)
    | raised code info sub u =>
      have hsub : sub ≠ 0 := sub_of_component hi h ▸ opcOf_component_ne hi
      exact if_neg (completeError_ne_noError hsub _ _ _ _)
    | fault f => rfl

/-- 46_top_level R301: component commands issued one after the other do what their rules do in sequence. -/
theorem runCommands_eq (hne : is ≠ []) (s : State) :
    runCommands is s = complete ((stepsRule is s).sub?.getD 0) (stepsRule is s) := by
  rw [← runCommands_completeOk his]
  cases is with
  | nil => exact absurd rfl hne
  | cons i is => rw [runCommands, runCommands, exec_completeOk (his i List.mem_cons_self)]

end

/-- A composite against its steps (46_top_level R301, R303): the steps' end is the composite's, with its own OPC when
they fail and with the sizes set when they succeed. -/
theorem composite_of_steps {opc : Byte} {e : Ending} {store : State → Ending} {sizes : Word → Sizes}
    {r : Host.Outcome State Fault Refusal} (hr : r = complete (e.sub?.getD 0) e)
    (hsub : ∀ code info sub u, e = .raised code info sub u → sub ≠ 0)
    (hstore : ∀ v, e = .done v → store v = .done { v with sizes := sizes v.out.len }) :
    (∀ t, r = .next t → t.ctl.error = noError →
      complete opc (e.andThen store) = .next { t with sizes := sizes t.out.len }) ∧
    (∀ t, r = .next t → t.ctl.error ≠ noError → complete opc (e.andThen store) =
      .next { t with ctl := { t.ctl with error := { t.ctl.error with opc := opc } } }) ∧
    ∀ f, r = .fault f → complete opc (e.andThen store) = .fault f := by
  subst hr
  cases e with
  | done v =>
    refine ⟨?_, ?_, ?_⟩
    · rintro _ ⟨⟩ -
      rw [andThen_done, hstore v rfl]
      rfl
    · rintro _ ⟨⟩ herror
      exact absurd rfl herror
    · rintro _ ⟨⟩
  | raised code info sub u =>
    refine ⟨?_, ?_, ?_⟩
    · rintro _ ⟨⟩ hok
      exact absurd hok (completeError_ne_noError (hsub _ _ _ _ rfl) _ _ _ _)
    · rintro _ ⟨⟩ -
      rfl
    · rintro _ ⟨⟩
  | fault f =>
    refine ⟨?_, ?_, ?_⟩
    · rintro _ ⟨⟩
    · rintro _ ⟨⟩
    · rintro _ ⟨⟩
      rfl

/-! ## COMPRESS -/

theorem compressChecks_eq (s : State) :
    compressChecks s =
      if s.inp.len.toNat ≤ s.caps.inCap then if s.inp.len ≠ 0 then .ok () else .error (.error .emptyInput 0)
      else .error (.error .capacityExceeded s.inp.len.toNat) := by
  simp only [compressChecks, check_bind, decide_eq_true_eq]
  simp only [check, decide_eq_true_eq, ne_eq, toNat_eq_zero]

theorem compressStart_overlong {s : State} (h : s.caps.inCap < s.inp.len.toNat) :
    compressStart s = .raised .capacityExceeded s.inp.len.toNat 0x10 s := by
  rw [compressStart, compressChecks_eq, if_neg (Nat.not_le.mpr h), ofRun_error]

theorem compressStart_empty {s : State} (h : s.inp.len = 0) : compressStart s = .raised .emptyInput 0 0x10 s := by
  rw [compressStart, compressChecks_eq, if_pos (by rw [h]; exact Nat.zero_le _), if_neg (not_not.mpr h), ofRun_error]

theorem compressStart_done {s : State} (hcap : s.inp.len.toNat ≤ s.caps.inCap) (hne : s.inp.len ≠ 0) :
    compressStart s = .done s := by
  rw [compressStart, compressChecks_eq, if_pos hcap, if_pos hne, ofRun_ok]

section
variable {i : Instr} (hi : IsCompress i)
include hi

theorem opcOf_compress : opcOf i = 0x10 := by
  obtain rfl | rfl | rfl := hi <;> rfl

theorem compressSteps_component : ∀ j ∈ compressSteps i, j ∈ componentSteps := by
  obtain rfl | rfl | rfl := hi <;> decide

theorem compressSteps_ne_nil : compressSteps i ≠ [] := by
  obtain rfl | rfl | rfl := hi <;> decide

/-- The component commands of COMPRESS write what COMPRESS writes but the sizes (10_state R52). -/
theorem compressSteps_writeSet : ∀ j ∈ compressSteps i, writeSet j ⊆ (writeSet i).erase .sizes := by
  obtain rfl | rfl | rfl := hi <;> decide

/-- What a COMPRESS does once its own checks pass. -/
theorem exec_compress_of_checks {s : State} (hcap : s.inp.len.toNat ≤ s.caps.inCap) (hne : s.inp.len ≠ 0) :
    exec i s = complete 0x10 ((stepsRule (compressSteps i) s).andThen storeCompressSizes) := by
  rw [exec_eq, opcOf_compress hi, compressRule_eq hi, compressStart_done hcap hne, andThen_done]

theorem exec_compress_of_raised {s : State} {code : ErrCode} {info : Nat}
    (h : compressStart s = .raised code info 0x10 s) : exec i s = .next (completeError code info 0x10 0x10 s) := by
  rw [exec_eq, opcOf_compress hi, compressRule_eq hi, h]
  rfl

theorem compressSteps_keep_inp {s v : State} (h : stepsRule (compressSteps i) s = .done v) : v.inp = s.inp := by
  have hkeep := stepsRule_keepsOutside (compressSteps_writeSet hi) s
  rw [h] at hkeep
  exact (hkeep v rfl).parts .inp (by obtain rfl | rfl | rfl := hi <;> decide)

end

/-! ## DECOMPRESS -/

theorem decompressSteps_component (kind : Byte) : ∀ j ∈ decompressSteps kind, j ∈ componentSteps := by
  unfold decompressSteps
  split <;> decide

/-- Settles O36: a composite's rule is its own checks and its steps' rules in sequence (`compressRule_eq`,
`decompressTail_eq`), which is what issuing the steps does (`runCommands_eq`), up to the OPC of an error and the sizes
of a success (`composite_of_steps`). -/
theorem compositeIsTheSequenceOfItsSteps : Obligations.CompositeIsTheSequenceOfItsSteps := by
  refine ⟨fun s i hi => ⟨fun hlong => ?_, fun hempty => ?_, fun hcap hne => ?compress⟩, fun s t hnext => ?decompress⟩
  · exact exec_compress_of_raised hi (compressStart_overlong hlong)
  · exact exec_compress_of_raised hi (compressStart_empty hempty)
  case compress =>
    have hsteps := compressSteps_component hi
    rw [exec_compress_of_checks hi hcap hne]
    refine composite_of_steps (sizes := fun n => ⟨s.inp.len, n⟩) (runCommands_eq hsteps (compressSteps_ne_nil hi) s)
      (fun _ _ _ _ => stepsRule_sub_ne hsteps) fun v hv => ?_
    rw [storeCompressSizes, compressSteps_keep_inp hi hv]
  case decompress =>
    have hrule : exec .decompress s =
      complete 0x11 (((deserializeRule s).andThen decompressTail).andThen storeDecompressSizes) := rfl
    obtain ⟨u, hu, rfl⟩ | ⟨code, info, herror, rfl⟩ := execDeserialize_next.mp hnext
    · refine ⟨fun h => absurd rfl h, fun _ => ?_⟩
      have hsteps := decompressSteps_component u.artKind
      have hinp : u.inp = s.inp := by
        have hkeep := deserializeRule_keepsOutside s
        rw [deserializeRule, hu] at hkeep
        exact (hkeep u rfl).parts .inp (by decide)
      rw [hrule, deserializeRule, hu, ofRun_ok, andThen_done, id, decompressTail_eq (deserializeRun_ok_artKind hu)]
      refine composite_of_steps (sizes := fun n => ⟨n, s.inp.len⟩) (runCommands_completeOk hsteps u)
        (fun _ _ _ _ => stepsRule_sub_ne hsteps) fun v hv => ?_
      have hkeep := decompressTail_keepsOutside u
      rw [decompressTail_eq (deserializeRun_ok_artKind hu), hv] at hkeep
      rw [storeDecompressSizes, show v.inp = u.inp from (hkeep v rfl).parts .inp (by decide), hinp]
    · refine ⟨fun _ => ?_, fun h => absurd h (completeError_ne_noError (by decide) _ _ _ _)⟩
      rw [hrule, deserializeRule, herror]
      rfl

/-! ## The sizes -/

/-- ORIG_SIZE and COMP_SIZE are written behind the last step that can fail (46_top_level R311). -/
theorem sizes_of_raised_andThen {ps : List Part} {e : Ending} {store : State → Ending} {sizes : State → Sizes}
    {s u : State} {code : ErrCode} {info : Nat} {sub : Byte} (he : e.keepsOutside ps s) (hps : .sizes ∉ ps)
    (hstore : ∀ v, store v = .done { v with sizes := sizes v }) (h : e.andThen store = .raised code info sub u) :
    u.sizes = s.sizes := by
  obtain h | ⟨v, -, h⟩ := andThen_eq_raised h
  · rw [h] at he
    exact (he u rfl).parts .sizes hps
  · rw [hstore] at h
    cases h

theorem sizes_mem_writeSet_iff (i : Instr) : .sizes ∈ writeSet i ↔ IsCompress i ∨ i = .decompress := by
  cases i <;> decide

/-- The step that ends a COMPRESS leaves an artifact of at least the 9 bytes of a header in OUT (45_container R265). -/
theorem compressRule_done {i : Instr} (hi : IsCompress i) {s u : State} (h : ruleOf i s = .done u) :
    ∃ w a tag, 9 ≤ a.length ∧ a.length ≤ w.caps.outCap ∧
      u = { storeArtifact w tag a with sizes := ⟨w.inp.len, (outBuffer a).len⟩ } := by
  obtain rfl | rfl | rfl := hi <;> obtain ⟨v, hsteps, ⟨⟩⟩ := andThen_eq_done h <;>
    obtain ⟨w, -, hserialize⟩ := andThen_eq_done hsteps <;> obtain ⟨a, ha, rfl⟩ := ofRun_eq_done hserialize
  case inl | inr.inl =>
    obtain ⟨hlen, hcap, -⟩ := serializeTableRun_ok ha
    exact ⟨w, a, _, by omega, hcap, rfl⟩
  case inr.inr =>
    obtain ⟨ws, -, -, -, hlen, hcap, -⟩ := serializeLzwRun_ok ha
    exact ⟨w, a, _, by omega, hcap, rfl⟩

/-- A successful DECOMPRESS read at least a header (45_container R270). -/
theorem decompressRule_done {s u : State} (h : decompressRule s = .done u) :
    u.sizes = ⟨u.out.len, u.inp.len⟩ ∧ 9 ≤ s.inp.len.toNat := by
  obtain ⟨v, htail, ⟨⟩⟩ := andThen_eq_done h
  obtain ⟨w, hdeserialize, -⟩ := andThen_eq_done htail
  obtain ⟨w, hw, -⟩ := ofRun_eq_done hdeserialize
  obtain ⟨hnine, -⟩ := deserializeRun_ok hw
  exact ⟨rfl, hnine⟩

section
variable {i : Instr} {s u : State}

/-- A command that fails leaves the sizes (46_top_level R311). -/
theorem sizes_of_raised (hwf : s.caps.wf = true) {code : ErrCode} {info : Nat} {sub : Byte}
    (h : ruleOf i s = .raised code info sub u) : u.sizes = s.sizes := by
  by_cases hi : IsCompress i
  · rw [compressRule_eq hi] at h
    have hsteps := stepsRule_keepsOutside (compressSteps_writeSet hi)
    have hfront := Ending.keepsOutside_andThen _ (compressStart_keepsOutside _ s) hsteps (List.Subset.refl _)
    exact sizes_of_raised_andThen hfront (by obtain rfl | rfl | rfl := hi <;> decide) (fun _ => rfl) h
  by_cases hd : i = .decompress
  · subst hd
    have hfront := (deserializeRule_staysWithin hwf).andThen
      (fun _ hcaps => decompressTail_staysWithin (hcaps ▸ hwf)) (by decide)
    exact sizes_of_raised_andThen hfront.outside (by decide) (fun _ => rfl) h
  · have hkeep := ruleOf_keepsOutside i s
    rw [h] at hkeep
    exact (hkeep u rfl).parts .sizes fun hmem => ((sizes_mem_writeSet_iff i).mp hmem).elim hi hd

theorem sizes_of_compress_done (hi : IsCompress i) (hwf : s.caps.wf = true) (h : ruleOf i s = .done u) :
    u.sizes = ⟨s.inp.len, u.out.len⟩ ∧ 9 ≤ u.sizes.comp.toNat := by
  have hkeep := ruleOf_keepsOutside i s
  rw [h] at hkeep
  have hinp := (hkeep u rfl).parts .inp (by obtain rfl | rfl | rfl := hi <;> decide)
  have hcaps := (hkeep u rfl).caps
  obtain ⟨-, hout, -⟩ := Caps.wf_lt hwf
  obtain ⟨w, a, tag, hnine, hcap, rfl⟩ := compressRule_done hi h
  rw [← show w.inp = s.inp from hinp]
  rw [← show w.caps = s.caps from hcaps] at hout
  exact ⟨rfl, hnine.trans_eq (ofNat_toNat_of_lt (by omega)).symm⟩

theorem sizes_of_decompress_done (h : ruleOf .decompress s = .done u) :
    u.sizes = ⟨u.out.len, s.inp.len⟩ ∧ 9 ≤ u.sizes.comp.toNat := by
  have hkeep := decompressRule_keepsOutside s
  obtain ⟨hsizes, hnine⟩ := decompressRule_done h
  rw [show decompressRule s = .done u from h] at hkeep
  rw [show u.inp = s.inp from (hkeep u rfl).parts .inp (by decide)] at hsizes
  exact ⟨hsizes, by rwa [hsizes]⟩

end

/-- A completion names its error: NOP, whose opcode is 0, raises none. -/
theorem completeError_ne_noError_of_raised {i : Instr} {s u : State} {code : ErrCode} {info : Nat} {sub : Byte}
    (h : ruleOf i s = .raised code info sub u) : (completeError code info (opcOf i) sub u).ctl.error ≠ noError := by
  refine completeError_ne_noError ?_ _ _ _ _
  cases i
  case nop => cases h
  all_goals decide

/-- Settles O38: a rule that fails leaves the sizes (`sizes_of_raised`); one that succeeds is a composite, which ends in
its sizes (`sizes_of_compress_done`, `sizes_of_decompress_done`), or does not write them. -/
theorem onlySuccessfulCompositesWriteTheSizes : Obligations.OnlySuccessfulCompositesWriteTheSizes := by
  intro i s t hwf hexec
  obtain ⟨hframe, -⟩ := commandsKeepStateOutsideTheirWriteSet _ _ _ hexec
  obtain ⟨u, hu, rfl⟩ | ⟨code, info, sub, u, hu, rfl⟩ := exec_next hexec
  · refine ⟨fun h => absurd rfl h, fun _ => ⟨fun hi => ?compress, fun hi => ?decompress, fun h1 h2 h3 h4 => ?other⟩⟩
    case compress => exact sizes_of_compress_done (u := u) hi hwf hu
    case decompress =>
      subst hi
      exact sizes_of_decompress_done (u := u) hu
    case other =>
      refine hframe .sizes fun hmem => ?_
      obtain (h | h | h) | h := (sizes_mem_writeSet_iff i).mp hmem
      exacts [h1 h, h2 h, h3 h, h4 h]
  · have hsizes := sizes_of_raised hwf hu
    exact ⟨fun _ => hsizes, fun hok => absurd hok (completeError_ne_noError_of_raised hu)⟩

end Sys2Proof.Machine
end

section
/-! PROOFS of 46_top_level.md, leftover state: a composite run from two states that agree on its input and the
capacities makes them agree on everything it writes (R308, R310). -/

namespace Sys2Proof.Machine

/-! ## States and endings that agree -/

/-- Two states with the same capacities agree on the groups `ps`. -/
structure AgreeOn (ps : List Part) (s s' : State) : Prop where
  caps : s'.caps = s.caps
  parts : ∀ p ∈ ps, Part.agree s s' p

/-- Two rules end alike: both succeed, in states related by `R`, or both stop with the same error or fault. -/
inductive Ending.Agrees (R : State → State → Prop) : Ending → Ending → Prop where
  | done {t t' : State} (h : R t t') : Agrees R (.done t) (.done t')
  | raised (code : ErrCode) (info : Nat) (sub : Byte) (t t' : State) :
      Agrees R (.raised code info sub t) (.raised code info sub t')
  | fault (f : Fault) : Agrees R (.fault f) (.fault f)

theorem Part.agree_of_same {s s' t t' : State} {p : Part} (h : Part.agree s s' p) (hst : Part.same s t p)
    (hst' : Part.same s' t' p) (hreset : t.resetCount = s.resetCount) (hreset' : t'.resetCount = s'.resetCount) :
    Part.agree t t' p := by
  cases p
  case codes =>
    refine ⟨by rw [hst.1, hst'.1, h.1], fun a ha => ?_⟩
    rw [codeAt_congr hst hreset, codeAt_congr hst' hreset']
    exact h.2 a (hst.1 ▸ ha)
  all_goals
    simp only [Part.agree, Part.same] at h hst hst' ⊢
    rwa [hst, hst']

/-- Changes outside which two states agree already leave the changed groups to look at. -/
theorem AgreeOn.written {ps ws : List Part} {s s' t t' : State} (h : AgreeOn ps s s') (hkeep : KeepsOutside ws s t)
    (hkeep' : KeepsOutside ws s' t') (hws : ∀ p ∈ ws, Part.agree t t' p) : AgreeOn (ws ++ ps) t t' := by
  refine ⟨by rw [hkeep.caps, hkeep'.caps, h.caps], fun p hp => ?_⟩
  by_cases hw : p ∈ ws
  · exact hws p hw
  · have hps := (List.mem_append.mp hp).resolve_left hw
    exact Part.agree_of_same (h.parts p hps) (hkeep.parts p hw) (hkeep'.parts p hw) hkeep.resetCount hkeep'.resetCount

theorem AgreeOn.mono {ps qs : List Part} {s s' : State} (h : AgreeOn ps s s') (hsub : qs ⊆ ps) : AgreeOn qs s s' :=
  ⟨h.caps, fun p hp => h.parts p (hsub hp)⟩

section
variable {R Q : State → State → Prop}

theorem Ending.agrees_ofRun {α : Type} {sub : Byte} {e e' : State} {r r' : Run α} {keep keep' : α → State}
    (hr : r' = r) (hOk : ∀ a, R (keep a) (keep' a)) :
    Agrees R (Ending.ofRun sub e r keep) (Ending.ofRun sub e' r' keep') := by
  subst hr
  obtain ⟨a, rfl, -⟩ | ⟨code, info, rfl, -⟩ | ⟨f, rfl, -⟩ := ofRun_cases sub e r' keep
  · exact .done (hOk a)
  · exact .raised code info sub e e'
  · exact .fault f

theorem Ending.Agrees.andThen {e e' : Ending} {f f' : State → Ending} (h : Agrees R e e')
    (hf : ∀ t t', R t t' → Agrees Q (f t) (f' t')) : Agrees Q (e.andThen f) (e'.andThen f') := by
  cases h with
  | done h => exact hf _ _ h
  | raised code info sub t t' => exact .raised code info sub t t'
  | fault x => exact .fault x

theorem Ending.Agrees.mono {e e' : Ending} (h : Agrees R e e') (hRQ : ∀ t t', R t t' → Q t t') : Agrees Q e e' := by
  cases h with
  | done h => exact .done (hRQ _ _ h)
  | raised code info sub t t' => exact .raised code info sub t t'
  | fault x => exact .fault x

end

/-! ## The writes -/

/-- Values stored in the first places of a buffer read alike, whatever the buffer held. -/
theorem get_store_congr {α : Type} (b b' : Buffer α) (xs : List α) (n : Nat) {a : Nat} (ha : a < xs.length) :
    Memory.get (Buffer.store b' xs n).mem a = Memory.get (Buffer.store b xs n).mem a := by
  rw [Buffer.store, Buffer.store, Memory.get_write, Memory.get_write, if_pos (by omega), if_pos (by omega)]

theorem ofNat_toNat_le (n : Nat) : (BitVec.ofNat 32 n).toNat ≤ n := (BitVec.toNat_ofNat n 32).trans_le (Nat.mod_le _ _)

section
variable {s s' t t' : State}

theorem agree_payload_of_store {xs : List Byte} (ht : t.payload = Buffer.store s.payload xs xs.length)
    (ht' : t'.payload = Buffer.store s'.payload xs xs.length) : Part.agree t t' .payload := by
  refine ⟨by rw [ht, ht']; rfl, fun a ha => ?_⟩
  rw [ht] at ha ⊢
  rw [ht']
  exact get_store_congr _ _ _ _ (Nat.lt_of_lt_of_le ha (ofNat_toNat_le _))

theorem agree_bits_storeBits (s s' : State) (b : BitString) : Part.agree (storeBits s b) (storeBits s' b) .bits := by
  refine ⟨rfl, fun a ha => get_store_congr _ _ _ _ ?_⟩
  have hlen : (storeBits s b).bits.len.toNat ≤ b.length := ofNat_toNat_le _
  rw [packBytes_length]
  unfold ceilDiv8 at ha ⊢
  omega

theorem agree_codes_of_store {ws : List Word} (ht : t.codes = Buffer.store s.codes ws ws.length)
    (ht' : t'.codes = Buffer.store s'.codes ws ws.length) : Part.agree t t' .codes := by
  have hread : ∀ {u : State} (b : Buffer Word), u.codes = Buffer.store b ws ws.length → ∀ a, a < ws.length →
      codeAt u a = ws[a]? := fun b hu a ha => by
    have hget := Memory.get_write_inside b.mem 0 ws a ha
    rw [Nat.zero_add] at hget
    exact (codeAt_of_get (by rw [hu]; exact hget)).trans (List.getElem?_eq_getElem ha).symm
  refine ⟨by rw [ht, ht']; rfl, fun a ha => ?_⟩
  rw [ht] at ha
  have ha := Nat.lt_of_lt_of_le ha (ofNat_toNat_le ws.length)
  rw [hread _ ht a ha, hread _ ht' a ha]

end

/-! ## The rules -/

section
variable {ps : List Part} {s s' : State} (h : AgreeOn ps s s')
include h

theorem compressStart_agrees (hinp : .inp ∈ ps) : Ending.Agrees (AgreeOn ps) (compressStart s) (compressStart s') := by
  refine Ending.agrees_ofRun ?_ fun _ => h
  rw [compressChecks_eq, compressChecks_eq, h.caps, (h.parts .inp hinp).1]

theorem analyzeRule_agrees (hinp : .inp ∈ ps) :
    Ending.Agrees (AgreeOn (.freq :: ps)) (analyzeRule s) (analyzeRule s') := by
  have hagree := h.parts .inp hinp
  refine Ending.agrees_ofRun (analyzeRun_agree h.caps hagree) fun t => ?_
  refine h.written (ws := [.freq]) (freq_update_keepsOutside s _) (freq_update_keepsOutside s' _) ?_
  simp [Part.agree, Part.same, hagree.1]

theorem rankRule_agrees (hfreq : .freq ∈ ps) : Ending.Agrees (AgreeOn (.rank :: ps)) (rankRule s) (rankRule s') := by
  have hagree : s'.freq = s.freq := h.parts .freq hfreq
  refine .done (h.written (ws := [.rank]) (rank_update_keepsOutside s _) (rank_update_keepsOutside s' _) ?_)
  simp [Part.agree, Part.same, hagree]

theorem huffBuildRule_agrees (hfreq : .freq ∈ ps) :
    Ending.Agrees (AgreeOn (.tree :: ps)) (huffBuildRule s) (huffBuildRule s') := by
  have hagree : s'.freq = s.freq := h.parts .freq hfreq
  refine .done (h.written (ws := [.tree]) (tree_update_keepsOutside s _) (tree_update_keepsOutside s' _) ?_)
  simp [Part.agree, Part.same, hagree]

theorem storeCodeTable_agreeOn (pairs : List (Byte × BitString)) :
    AgreeOn (.ctab :: ps) (storeCodeTable s pairs) (storeCodeTable s' pairs) := by
  refine h.written (ws := [.ctab]) (storeCodeTable_keepsOutside s _) (storeCodeTable_keepsOutside s' _) ?_
  simp [Part.agree, Part.same, storeCodeTable]

theorem huffCodesRule_agrees (htree : .tree ∈ ps) :
    Ending.Agrees (AgreeOn (.ctab :: ps)) (huffCodesRule s) (huffCodesRule s') := by
  rw [huffCodesRule, huffCodesRule, show s'.tree = s.tree from h.parts .tree htree]
  exact .done (storeCodeTable_agreeOn h _)

theorem sfCodesRule_agrees (hrank : .rank ∈ ps) :
    Ending.Agrees (AgreeOn (.ctab :: ps)) (sfCodesRule s) (sfCodesRule s') := by
  rw [sfCodesRule, sfCodesRule, show s'.rank = s.rank from h.parts .rank hrank]
  exact .done (storeCodeTable_agreeOn h _)

theorem storeBits_agreeOn (b : BitString) : AgreeOn (.bits :: ps) (storeBits s b) (storeBits s' b) :=
  h.written (ws := [.bits]) (storeBits_keepsOutside s _) (storeBits_keepsOutside s' _)
    (by simpa using agree_bits_storeBits s s' b)

theorem encodeRule_agrees (hinp : .inp ∈ ps) (hctab : .ctab ∈ ps) :
    Ending.Agrees (AgreeOn (.bits :: ps)) (encodeRule s) (encodeRule s') :=
  Ending.agrees_ofRun (encodeRun_agree h.caps (h.parts _ hinp) (h.parts _ hctab)) (storeBits_agreeOn h)

theorem unpackRule_agrees (hpayload : .payload ∈ ps) (hpad : .pad ∈ ps) :
    Ending.Agrees (AgreeOn (.bits :: ps)) (unpackRule s) (unpackRule s') :=
  Ending.agrees_ofRun (unpackRun_agree h.caps (h.parts _ hpayload) (h.parts _ hpad)) (storeBits_agreeOn h)

theorem packRule_agrees (hbits : .bits ∈ ps) :
    Ending.Agrees (AgreeOn (.payload :: .pad :: ps)) (packRule s) (packRule s') := by
  refine Ending.agrees_ofRun (packRun_agree h.caps (h.parts _ hbits)) fun r => ?_
  refine h.written (ws := [.payload, .pad]) (storePacked_keepsOutside s _ _) (storePacked_keepsOutside s' _ _) ?_
  simpa using ⟨agree_payload_of_store (s := s) (s' := s') rfl rfl, rfl⟩

theorem storeArtifact_agreeOn (tag : Byte) (a : List Byte) :
    AgreeOn (.out :: .artKind :: ps) (storeArtifact s tag a) (storeArtifact s' tag a) := by
  refine h.written (ws := [.out, .artKind]) (storeArtifact_keepsOutside s _ _) (storeArtifact_keepsOutside s' _ _) ?_
  simp [Part.agree, Part.same]

theorem serializeTable_agrees (tag : Byte) (hpayload : .payload ∈ ps) (hpad : .pad ∈ ps) (hctab : .ctab ∈ ps) :
    Ending.Agrees (AgreeOn (.out :: .artKind :: ps))
      (Ending.ofRun 0x0C s (serializeTableRun tag s) fun a => storeArtifact s tag a)
      (Ending.ofRun 0x0C s' (serializeTableRun tag s') fun a => storeArtifact s' tag a) :=
  Ending.agrees_ofRun (serializeTableRun_agree h.caps tag (h.parts _ hpayload) (h.parts _ hpad) (h.parts _ hctab))
    (storeArtifact_agreeOn h tag)

theorem serializeLzwRule_agrees (hcodes : .codes ∈ ps) :
    Ending.Agrees (AgreeOn (.out :: .artKind :: ps)) (serializeLzwRule s) (serializeLzwRule s') :=
  Ending.agrees_ofRun (serializeLzwRun_agree h.caps (h.parts _ hcodes)) (storeArtifact_agreeOn h 0x03)

theorem lzwCompressRule_agrees (hinp : .inp ∈ ps) :
    Ending.Agrees (AgreeOn (.codes :: .dict :: ps)) (lzwCompressRule s) (lzwCompressRule s') := by
  have hagree := h.parts .inp hinp
  simp only [lzwCompressRule, h.caps, hagree.1]
  split
  · refine Ending.agrees_ofRun (compressLoop_agree h.caps hagree (Nat.zero_add _).le) fun r => ?_
    refine h.written (ws := [.codes, .dict]) (storeCompressed_keepsOutside s _ _)
      (storeCompressed_keepsOutside s' _ _) ?_
    have hcodes : Part.agree (storeCompressed s r.1 r.2) (storeCompressed s' r.1 r.2) .codes :=
      agree_codes_of_store (s := s) (s' := s') (ws := r.1.map (BitVec.ofNat 32)) (by simp) (by simp)
    simpa using ⟨hcodes, rfl⟩
  · exact .raised ..

theorem decodeRule_agrees (hbits : .bits ∈ ps) (hctab : .ctab ∈ ps) :
    Ending.Agrees (AgreeOn (.out :: ps)) (decodeRule s) (decodeRule s') := by
  have hagree := h.parts .bits hbits
  simp only [decodeRule, h.caps, hagree.1]
  split
  · refine Ending.agrees_ofRun (decodeLoop_agree h.caps hagree (h.parts _ hctab) (Nat.zero_add _).le) fun x => ?_
    exact h.written (ws := [.out]) (storeOut_keepsOutside s _) (storeOut_keepsOutside s' _)
      (by simp [Part.agree, Part.same])
  · exact .raised ..

theorem lzwDecompressRule_agrees (hcodes : .codes ∈ ps) :
    Ending.Agrees (AgreeOn (.out :: .dict :: ps)) (lzwDecompressRule s) (lzwDecompressRule s') := by
  have hagree := h.parts .codes hcodes
  simp only [lzwDecompressRule, h.caps, hagree.1]
  split
  · refine Ending.agrees_ofRun (decompressRun_agree h.caps hagree le_rfl) fun r => ?_
    exact h.written (ws := [.out, .dict]) (storeDecompressed_keepsOutside s _ _)
      (storeDecompressed_keepsOutside s' _ _) (by simp [Part.agree, Part.same])
  · exact .raised ..

theorem storeCompressSizes_agrees (hinp : .inp ∈ ps) (hout : .out ∈ ps) :
    Ending.Agrees (AgreeOn (.sizes :: ps)) (storeCompressSizes s) (storeCompressSizes s') := by
  have hlen := (h.parts .inp hinp).1
  have houts : s'.out = s.out := h.parts .out hout
  refine .done (h.written (ws := [.sizes]) (sizes_update_keepsOutside s _) (sizes_update_keepsOutside s' _) ?_)
  simp [Part.agree, Part.same, hlen, houts]

theorem storeDecompressSizes_agrees (hinp : .inp ∈ ps) (hout : .out ∈ ps) :
    Ending.Agrees (AgreeOn (.sizes :: ps)) (storeDecompressSizes s) (storeDecompressSizes s') := by
  have hlen := (h.parts .inp hinp).1
  have houts : s'.out = s.out := h.parts .out hout
  refine .done (h.written (ws := [.sizes]) (sizes_update_keepsOutside s _) (sizes_update_keepsOutside s' _) ?_)
  simp [Part.agree, Part.same, hlen, houts]

end

/-! ## DESERIALIZE and what follows it -/

/-- The groups that DESERIALIZE sets, by the ART_KIND it sets (45_container R270), beside IN. -/
def parsedParts (kind : Byte) : List Part :=
  if kind = 3 then [.codes, .pad, .artKind, .inp] else [.ctab, .payload, .pad, .artKind, .inp]

/-- Two states that DESERIALIZE left alike. -/
def ParsedAlike (s s' : State) : Prop := s'.artKind = s.artKind ∧ AgreeOn (parsedParts s.artKind) s s'

theorem ofRun_bind_ok {α : Type} (sub : Byte) (e : State) (r : Run α) (keep : α → State) :
    Ending.ofRun sub e (r >>= fun a => .ok (keep a)) id = Ending.ofRun sub e r keep := by
  obtain ⟨a, rfl, -⟩ | ⟨code, info, rfl, -⟩ | ⟨f, rfl, -⟩ := ofRun_cases sub e r keep <;> rfl

section
variable {s s' : State} (h : AgreeOn [.inp] s s')
include h

theorem storeParsedCodes_alike (ws : List Word) : ParsedAlike (storeParsedCodes s ws) (storeParsedCodes s' ws) := by
  refine ⟨rfl, h.written (ws := [.codes, .pad, .artKind]) (storeParsedCodes_keepsOutside s _)
    (storeParsedCodes_keepsOutside s' _) ?_⟩
  have hcodes : Part.agree (storeParsedCodes s ws) (storeParsedCodes s' ws) .codes :=
    agree_codes_of_store (s := s) (s' := s') rfl rfl
  simpa using ⟨hcodes, rfl, rfl⟩

theorem storeParsedTable_alike {tag : Byte} (htag : tag ≠ 3) (pad : Nat) (t : Memory BitString) (x : List Byte) :
    ParsedAlike (storeParsedTable s tag pad t x) (storeParsedTable s' tag pad t x) := by
  refine ⟨rfl, ?_⟩
  rw [parsedParts, storeParsedTable_artKind, if_neg htag]
  refine h.written (ws := [.ctab, .payload, .pad, .artKind]) (storeParsedTable_keepsOutside s _ _ _ _)
    (storeParsedTable_keepsOutside s' _ _ _ _) ?_
  have hpayload : Part.agree (storeParsedTable s tag pad t x) (storeParsedTable s' tag pad t x) .payload :=
    agree_payload_of_store (s := s) (s' := s') rfl rfl
  simpa using ⟨rfl, hpayload, rfl, rfl⟩

theorem deserializeRule_agrees : Ending.Agrees ParsedAlike (deserializeRule s) (deserializeRule s') := by
  have hinp := h.parts .inp (List.mem_singleton_self _)
  have hheader := parseHeader_agree h.caps hinp
  rw [deserializeRule, deserializeRule]
  cases hhead : parseHeader s with
  | error e =>
    rw [deserializeRun_of_header_error hhead, deserializeRun_of_header_error (hheader.trans hhead)]
    cases e with
    | error code info => exact .raised ..
    | fault f => exact .fault f
  | ok hd =>
    obtain ⟨tag, pad, len⟩ := hd
    by_cases h3 : tag = 3
    · subst h3
      rw [deserializeRun_codeList hhead, deserializeRun_codeList (hheader.trans hhead), ofRun_bind_ok, ofRun_bind_ok]
      exact Ending.agrees_ofRun (parseCodeList_agree h.caps hinp len) (storeParsedCodes_alike h)
    · rw [deserializeRun_table hhead h3, deserializeRun_table (hheader.trans hhead) h3, ofRun_bind_ok, ofRun_bind_ok]
      exact Ending.agrees_ofRun (parseTable_agree h.caps hinp len) fun r => storeParsedTable_alike h h3 pad r.1 r.2

omit h in
theorem decompressTail_agrees (h : ParsedAlike s s') :
    Ending.Agrees (AgreeOn [.out, .artKind, .inp]) (decompressTail s) (decompressTail s') := by
  obtain ⟨hkind, hagree⟩ := h
  rw [decompressTail, decompressTail, hkind]
  by_cases h3 : s.artKind = 3
  · rw [parsedParts, if_pos h3] at hagree
    rw [if_pos h3, if_pos h3]
    exact (lzwDecompressRule_agrees hagree (by decide)).mono fun _ _ hR => hR.mono (by decide)
  · rw [parsedParts, if_neg h3] at hagree
    rw [if_neg h3, if_neg h3]
    exact (unpackRule_agrees hagree (by decide) (by decide)).andThen fun _ _ hR =>
      (decodeRule_agrees hR (by decide) (by decide)).mono fun _ _ hR => hR.mono (by decide)

/-! ## The composites -/

/-- 46_top_level R308: COMPRESS from two states that agree on IN. -/
theorem compressRule_agrees {i : Instr} (hi : IsCompress i) :
    Ending.Agrees (AgreeOn (writeSet i)) (ruleOf i s) (ruleOf i s') := by
  have hstart := compressStart_agrees h (by decide)
  obtain rfl | rfl | rfl := hi
  · have hend := hstart
      |>.andThen (fun _ _ hR => analyzeRule_agrees hR (by decide))
      |>.andThen (fun _ _ hR => huffBuildRule_agrees hR (by decide))
      |>.andThen (fun _ _ hR => huffCodesRule_agrees hR (by decide))
      |>.andThen (fun _ _ hR => encodeRule_agrees hR (by decide) (by decide))
      |>.andThen (fun _ _ hR => packRule_agrees hR (by decide))
      |>.andThen (fun _ _ hR => serializeTable_agrees hR 0x01 (by decide) (by decide) (by decide))
      |>.andThen (fun _ _ hR => storeCompressSizes_agrees hR (by decide) (by decide))
    exact hend.mono fun _ _ hR => hR.mono (by decide)
  · have hend := hstart
      |>.andThen (fun _ _ hR => analyzeRule_agrees hR (by decide))
      |>.andThen (fun _ _ hR => rankRule_agrees hR (by decide))
      |>.andThen (fun _ _ hR => sfCodesRule_agrees hR (by decide))
      |>.andThen (fun _ _ hR => encodeRule_agrees hR (by decide) (by decide))
      |>.andThen (fun _ _ hR => packRule_agrees hR (by decide))
      |>.andThen (fun _ _ hR => serializeTable_agrees hR 0x02 (by decide) (by decide) (by decide))
      |>.andThen (fun _ _ hR => storeCompressSizes_agrees hR (by decide) (by decide))
    exact hend.mono fun _ _ hR => hR.mono (by decide)
  · have hend := hstart
      |>.andThen (fun _ _ hR => lzwCompressRule_agrees hR (by decide))
      |>.andThen (fun _ _ hR => serializeLzwRule_agrees hR (by decide))
      |>.andThen (fun _ _ hR => storeCompressSizes_agrees hR (by decide) (by decide))
    exact hend.mono fun _ _ hR => hR.mono (by decide)

/-- 46_top_level R308: DECOMPRESS from two states that agree on IN. -/
theorem decompressRule_agrees :
    Ending.Agrees (AgreeOn [.out, .artKind, .sizes]) (decompressRule s) (decompressRule s') :=
  (deserializeRule_agrees h)
    |>.andThen (fun _ _ hR => decompressTail_agrees hR)
    |>.andThen (fun _ _ hR => storeDecompressSizes_agrees hR (by decide) (by decide))
    |>.mono fun _ _ hR => hR.mono (by decide)

end

theorem agreeOn_of_inText {s s' : State} {x : List Byte} (hcaps : s'.caps = s.caps) (hs : inText s x)
    (hs' : inText s' x) : AgreeOn [.inp] s s' := by
  refine ⟨hcaps, fun p hp => ?_⟩
  obtain rfl := List.mem_singleton.mp hp
  refine ⟨BitVec.eq_of_toNat_eq (hs'.1.trans hs.1.symm), fun a ha => ?_⟩
  have hget := (Memory.holds_iff _ _ _).mp hs.2 a (hs.1 ▸ ha)
  have hget' := (Memory.holds_iff _ _ _).mp hs'.2 a (hs.1 ▸ ha)
  rw [Nat.zero_add] at hget hget'
  rw [hget, hget']

/-- What the completion of two rules that end alike shows. -/
theorem exec_agrees {i : Instr} {R : State → State → Prop} {s s' t : State} (hnext : exec i s = .next t)
    (h : Ending.Agrees R (ruleOf i s) (ruleOf i s')) :
    ∃ t', exec i s' = .next t' ∧ t'.ctl.error = t.ctl.error ∧ t'.ctl.errInfo = t.ctl.errInfo ∧
      (t.ctl.error = noError → ∃ u u', R u u' ∧ t = completeOk u ∧ t' = completeOk u') := by
  rw [exec_eq i s']
  obtain ⟨u, hu, rfl⟩ | ⟨code, info, sub, u, hu, rfl⟩ := exec_next hnext
  · rw [hu] at h
    generalize ruleOf i s' = e' at h ⊢
    cases h with
    | done hR => exact ⟨_, rfl, rfl, rfl, fun _ => ⟨_, _, hR, rfl, rfl⟩⟩
  · have herror := completeError_ne_noError_of_raised hu
    rw [hu] at h
    generalize ruleOf i s' = e' at h ⊢
    cases h with
    | raised => exact ⟨_, rfl, rfl, rfl, fun hok => absurd hok herror⟩

/-- Outside the buffers that keep later storage, agreement is equality. -/
theorem Part.same_of_agree {s s' : State} {p : Part} (h : Part.agree s s' p) (hinp : p ≠ .inp) (hbits : p ≠ .bits)
    (hpayload : p ≠ .payload) (hcodes : p ≠ .codes) : Part.same s s' p := by
  cases p
  case inp => exact absurd rfl hinp
  case bits => exact absurd rfl hbits
  case payload => exact absurd rfl hpayload
  case codes => exact absurd rfl hcodes
  all_goals exact h

/-- Settles O40: the rules of the composites end alike from states that agree on IN and the capacities
(`compressRule_agrees`, `decompressRule_agrees`), and the completion adds only the status (`exec_agrees`). -/
theorem compositesIgnoreLeftoverState : Obligations.CompositesIgnoreLeftoverState := by
  intro i hi s s' t x hwf hcaps hs hs' hnext
  have hinp := agreeOn_of_inText hcaps hs hs'
  by_cases hd : i = .decompress
  · subst hd
    obtain ⟨t', hnext', herror, hinfo, hsucc⟩ := exec_agrees hnext (decompressRule_agrees hinp)
    refine ⟨t', hnext', herror, hinfo, fun hok => ?_, fun _ hne => absurd rfl hne⟩
    obtain ⟨u, u', hR, rfl, rfl⟩ := hsucc hok
    exact ⟨hR.parts .out (by decide), hR.parts .artKind (by decide), hR.parts .sizes (by decide)⟩
  · have hi : IsCompress i := by tauto
    obtain ⟨t', hnext', herror, hinfo, hsucc⟩ := exec_agrees hnext (compressRule_agrees hinp hi)
    have hwrites : .out ∈ writeSet i ∧ .artKind ∈ writeSet i ∧ .sizes ∈ writeSet i ∧ .inp ∉ writeSet i := by
      obtain rfl | rfl | rfl := hi <;> decide
    obtain ⟨hout, hkind, hsizes, hno⟩ := hwrites
    refine ⟨t', hnext', herror, hinfo, fun hok => ?_, fun hok _ => ?_⟩
    all_goals obtain ⟨u, u', hR, rfl, rfl⟩ := hsucc hok
    · exact ⟨hR.parts _ hout, hR.parts _ hkind, hR.parts _ hsizes⟩
    · refine ⟨fun p hp hbits hpayload hcodes => ?_, hR.parts .bits, hR.parts .payload, hR.parts .codes⟩
      have hsame := Part.same_of_agree (hR.parts p hp) (ne_of_mem_of_not_mem hp hno) hbits hpayload hcodes
      cases p <;> exact hsame

end Sys2Proof.Machine
end

section
/-! PROOFS of 46_top_level.md, COMPRESS.HUF and COMPRESS.SF of a text: the code tables that they build from it (R302,
R309), what they leave when its bits and its artifact have room, and the step that fails when they have none (R302,
R304, R311). -/

namespace Sys2Proof.Machine

/-! ## The symbols of the tree of a text -/

/-- A merge puts the symbols below two queued nodes below one (42_huffman R175). -/
theorem Forest.merge_symbols {n : Nat} {nodes : List Node} {a b : QueueKey} {q : List QueueKey}
    (h : Forest n nodes (a :: b :: q)) :
    ((insertSorted keyBefore (a.1 + b.1, nodes.length) q).flatMap fun k =>
      symbolsUnder (nodes ++ [.internal (a.1 + b.1) a.2 b.2]) k.2).Perm
      ((a :: b :: q).flatMap fun k => symbolsUnder nodes k.2) := by
  have hkeep : ∀ k ∈ a :: b :: q,
      symbolsUnder (nodes ++ [.internal (a.1 + b.1) a.2 b.2]) k.2 = symbolsUnder nodes k.2 := fun k hk => by
    obtain ⟨nd, hnd, -⟩ := h.keys k hk
    exact symbolsUnder_append h.arena _ (List.getElem?_eq_some_iff.mp hnd).1
  have hparent := symbolsUnder_internal h.merge.arena List.getElem?_concat_length
  rw [hkeep a (by simp), hkeep b (by simp)] at hparent
  refine ((insertSorted_perm _ _ q).flatMap_right _).trans (List.Perm.of_eq ?_)
  rw [List.flatMap_cons, hparent, List.flatMap_congr fun k hk => hkeep k (by simp [hk]), List.append_assoc]
  rfl

/-- The merge loop keeps the symbols below the queued nodes (42_huffman R176). -/
theorem mergeLoop_symbols {n fuel : Nat} {nodes : List Node} {q : List QueueKey} (h : Forest n nodes q) :
    ((mergeLoop fuel nodes q).2.flatMap fun k => symbolsUnder (mergeLoop fuel nodes q).1 k.2).Perm
      (q.flatMap fun k => symbolsUnder nodes k.2) := by
  induction fuel generalizing nodes q with
  | zero => exact .refl _
  | succ fuel ih =>
    match q with
    | [] | [_] => exact .refl _
    | a :: b :: q => exact (ih h.merge).trans h.merge_symbols

/-- 42_huffman R177: the leaves below the root of a table's tree are those of its symbols. -/
theorem treeSymbols_buildTree_perm {t : Memory FreqEntry} (hwf : Memory.wf t) (hb : Memory.below t 256) (hne : t ≠ [])
    (n : Word) : (treeSymbols ⟨(buildTree t).1, n, (buildTree t).2⟩).Perm (t.map fun e => BitVec.ofNat 8 e.1) := by
  have hforest := forest_leaves hwf hb hne
  have hfuel : (queueFrom 0 (leavesOf t)).length ≤ (leavesOf t).length + 1 := by
    rw [(queueFrom_perm _ _).length_eq, List.length_map, List.length_zipIdx]
    omega
  obtain ⟨k, hk, -⟩ := mergeLoop_forest hforest hfuel
  have hsymbols := mergeLoop_symbols (fuel := (leavesOf t).length) hforest
  have hroot : (buildTree t).2 = some k.2 := by simp [buildTree, hk]
  rw [hk, List.flatMap_singleton] at hsymbols
  rw [hroot, treeSymbols_some]
  refine hsymbols.trans (((queueFrom_perm 0 (leavesOf t)).flatMap_right _).trans ?_)
  rw [List.flatMap_map, leaves_symbolsUnder]
  exact (sortBy_perm firstBefore t).map _

/-! ## The code tables of a text -/

/-- The (symbol, code) pairs that COMPRESS.HUF makes from a text (46_top_level R302). -/
def hufPairs (x : List Byte) : List (Byte × BitString) :=
  treeCodes ⟨(buildTree (freqTable x)).1, BitVec.ofNat 32 (buildTree (freqTable x)).1.length,
    (buildTree (freqTable x)).2⟩

/-- The (symbol, code) pairs that COMPRESS.SF makes from a text (46_top_level R302). -/
def sfPairs (x : List Byte) : List (Byte × BitString) := rankCodes (rankedList (freqTable x))

/-- A code, none the beginning of another, for exactly the symbols of a text. -/
structure CodesText (x : List Byte) (pairs : List (Byte × BitString)) : Prop where
  code : PrefixCode pairs
  symbols : ∀ c, c ∈ pairs.map Prod.fst ↔ c ∈ x

section
variable {x : List Byte}

theorem mem_freqTable_symbols (c : Byte) : c ∈ (freqTable x).map (fun e => BitVec.ofNat 8 e.1) ↔ c ∈ x := by
  rw [(freqTable_symbols_perm x).mem_iff, List.mem_dedup]

theorem freqOk_of_length_lt (hx : x.length < 2 ^ 32) :
    FreqOk ⟨freqTable x, BitVec.ofNat 32 (freqTable x).length, BitVec.ofNat 32 x.length⟩ :=
  freqOk_freqTable (ofNat_toNat_of_lt hx)

theorem freqTable_ne_nil (hne : x ≠ []) : freqTable x ≠ [] := by
  obtain ⟨c, hc⟩ := List.exists_mem_of_ne_nil x hne
  have hmem := (mem_freqTable_symbols c).mpr hc
  intro hnil
  rw [hnil] at hmem
  cases hmem

theorem codesText_hufPairs (hx : x.length < 2 ^ 32) (hne : x ≠ []) : CodesText x (hufPairs x) := by
  refine ⟨prefixCode_treeCodes (treeOk_buildTree (freqOk_of_length_lt hx)), fun c => ?_⟩
  have hperm := treeSymbols_buildTree_perm (freqTable_wf x) (freqTable_below x) (freqTable_ne_nil hne)
  rw [hufPairs, treeCodes_symbols, (hperm _).mem_iff, mem_freqTable_symbols]

theorem codesText_sfPairs (hx : x.length < 2 ^ 32) : CodesText x (sfPairs x) := by
  refine ⟨prefixCode_rankCodes (rankOk_rankedList (freqOk_of_length_lt hx)).symbols, fun c => ?_⟩
  rw [sfPairs, rankCodes_symbols, (rankedList_symbols_perm _).mem_iff, mem_freqTable_symbols]

end

/-- The code table that a COMPRESS with TAG 1 (HUF) or 2 (SF) makes from a text. -/
def textPairs (tag : Byte) (x : List Byte) : List (Byte × BitString) := if tag = 1 then hufPairs x else sfPairs x

/-- CTAB and CTAB_N of a text. -/
def textTable (tag : Byte) (x : List Byte) : CodeTable :=
  ⟨assignCodes (textPairs tag x), BitVec.ofNat 32 (textPairs tag x).length⟩

/-- The encoded text (46_top_level R302). -/
def textBits (tag : Byte) (x : List Byte) : BitString := x.flatMap (codeOf (textTable tag x))

/-- The packed encoded text. -/
def textPayload (tag : Byte) (x : List Byte) : List Byte :=
  packBytes (ceilDiv8 (textBits tag x).length) (textBits tag x)

/-- The padding count of the encoded text. -/
def textPad (tag : Byte) (x : List Byte) : BitVec 3 := BitVec.ofNat 3 (padCount (textBits tag x).length)

/-- The artifact of a text (46_top_level R302, 45_container R260). -/
def textArtifact (tag : Byte) (x : List Byte) : List Byte :=
  tableArtifact tag (textPad tag x) (textTable tag x).codes (textPayload tag x)

theorem codeOf_length_le {t : CodeTable} (ht : CtabOk t) (c : Byte) : (codeOf t c).length ≤ 255 := by
  unfold codeOf
  cases h : Memory.get t.codes c.toNat with
  | none => exact Nat.zero_le _
  | some p => exact (ht.lengths _ (Memory.get_mem h)).2

section
variable {x : List Byte} (hx : x.length < 2 ^ 32) (hne : x ≠ []) (tag : Byte)
include hx hne

theorem codesText_textPairs : CodesText x (textPairs tag x) := by
  unfold textPairs
  split
  · exact codesText_hufPairs hx hne
  · exact codesText_sfPairs hx

theorem ctabOk_textTable : CtabOk (textTable tag x) := (codesText_textPairs hx hne tag).code.ctabOk

theorem codeOf_textTable_ne_nil_iff (c : Byte) : codeOf (textTable tag x) c ≠ [] ↔ c ∈ x := by
  have hcodes := codesText_textPairs hx hne tag
  rw [← hcodes.symbols]
  exact hcodes.code.codeOf_ne_nil_iff

theorem textTable_codes_ne_nil : (textTable tag x).codes ≠ [] := by
  obtain ⟨c, hc⟩ := List.exists_mem_of_ne_nil x hne
  have hcode := (codeOf_textTable_ne_nil_iff hx hne tag c).mpr hc
  intro hnil
  exact hcode (by rw [codeOf, hnil]; rfl)

/-- 45_container R266: the artifact's parts pass SERIALIZE's checks, when the bits fit PAYLOAD. -/
theorem partsOk_text {cap : Nat} (hfits : ceilDiv8 (textBits tag x).length ≤ cap) :
    PartsOk cap (textPad tag x) (textTable tag x).codes (textPayload tag x) := by
  refine ⟨by rwa [textPayload, packBytes_length], fun hnil => ?_, fun h => absurd h (textTable_codes_ne_nil hx hne tag)⟩
  have hbytes := congrArg List.length hnil
  rw [textPayload, packBytes_length, List.length_nil] at hbytes
  have hroom := le_ceilDiv8 (textBits tag x).length
  rw [textPad, show (textBits tag x).length = 0 by omega]
  rfl

/-- 10_state R50: no code has more than 255 bits. -/
theorem textBits_length_le : (textBits tag x).length ≤ 255 * x.length := by
  have hsum := List.sum_le_card_nsmul (x.map fun c => (codeOf (textTable tag x) c).length) 255 fun n hn => by
    obtain ⟨c, -, rfl⟩ := List.mem_map.mp hn
    exact codeOf_length_le (ctabOk_textTable hx hne tag) c
  rw [textBits, List.length_flatMap]
  simpa [Nat.mul_comm] using hsum

/-- 45_container R265 with at most 256 entries of at most 34 bytes. -/
theorem textArtifact_length_le : (textArtifact tag x).length ≤ 8715 + 32 * x.length := by
  have htab := ctabOk_textTable hx hne tag
  have hbits := textBits_length_le hx hne tag
  have hentries := List.sum_le_card_nsmul ((textTable tag x).codes.map fun c => 2 + ceilDiv8 c.2.length) 34
    fun n hn => by
    obtain ⟨c, hc, rfl⟩ := List.mem_map.mp hn
    have hlen := (htab.lengths c hc).2
    unfold ceilDiv8
    omega
  have hcount := htab.codesOk.length_le
  rw [List.length_map, smul_eq_mul] at hentries
  rw [textArtifact, tableArtifact_length, textPayload, packBytes_length]
  unfold ceilDiv8 at hentries ⊢
  omega

end

/-! ## The steps behind the code table -/

/-- A text whose symbols all have a code is encoded, or BITS has no room for it (42_huffman R186). -/
theorem encodeLoop_of_mapped {s : State} {x : List Byte} {i total : Nat} (hx : Memory.holds s.inp.mem i x)
    (hmapped : ∀ c ∈ x, codeOf s.ctab c ≠ []) :
    (∃ b, encodeLoop s x.length i total = .ok b) ∨
      ∃ info, encodeLoop s x.length i total = .error (.error .capacityExceeded info) := by
  induction x generalizing i total with
  | nil => exact .inl ⟨[], rfl⟩
  | cons c x ih =>
    obtain ⟨hget, hx⟩ := hx
    obtain ⟨hc, hmapped⟩ := List.forall_mem_cons.mp hmapped
    rw [List.length_cons, encodeLoop_succ ((readIn_ok s i c).mpr hget), if_neg hc]
    split
    · obtain ⟨b, hb⟩ | ⟨info, hinfo⟩ := ih (total := total + (codeOf s.ctab c).length) hx hmapped
      · exact .inl ⟨codeOf s.ctab c ++ b, by rw [hb, run_ok_bind]⟩
      · exact .inr ⟨info, by rw [hinfo, run_error_bind]⟩
    · exact .inr ⟨i, rfl⟩

/-- 45_container R266, the fourth check: OUT has no room for the artifact. -/
theorem serializeTableRun_full {tag : Byte} {s : State} {x : List Byte}
    (hcount : s.ctab.ctabN.toNat = s.ctab.codes.length) (hx : payloadText s x)
    (hparts : PartsOk s.caps.payloadCap s.pad s.ctab.codes x)
    (hfull : s.caps.outCap < (tableArtifact tag s.pad s.ctab.codes x).length) :
    serializeTableRun tag s =
      .error (.error .capacityExceeded (tableArtifact tag s.pad s.ctab.codes x).length) := by
  have hempty : s.payload.len = 0 ↔ x = [] := by rw [← toNat_eq_zero, hx.1, List.length_eq_zero_iff]
  have hnone : s.ctab.ctabN = 0 ↔ s.ctab.codes = [] := by rw [← toNat_eq_zero, hcount, List.length_eq_zero_iff]
  rw [tableArtifact_length] at hfull ⊢
  rw [serializeTableRun_eq, hx.1, if_pos hparts.fits, if_pos fun h => hparts.pad (hempty.mp h),
    if_pos fun h => hempty.mpr (hparts.table (hnone.mp h)), if_neg (Nat.not_le.mpr hfull)]

/-- The steps of COMPRESS.HUF and COMPRESS.SF behind the code table (46_top_level R302). -/
def tableTail (tag : Byte) (s : State) : Ending :=
  (((encodeRule s).andThen packRule).andThen fun u =>
    Ending.ofRun 0x0C u (serializeTableRun tag u) fun a => storeArtifact u tag a).andThen storeCompressSizes

/-- What a COMPRESS with TAG 1 or 2 leaves of a text (46_top_level R302, R311). -/
structure TextCompressed (tag : Byte) (x : List Byte) (u : State) : Prop where
  ctab : u.ctab = textTable tag x
  bits : bitText u (textBits tag x)
  pad : u.pad = textPad tag x
  kind : u.artKind = tag
  out : u.out = outBuffer (textArtifact tag x)

section
variable {s : State} {tag : Byte} {x : List Byte} (hx : inText s x) (hne : x ≠ []) (hwf : s.caps.wf = true)
  (hcap : x.length ≤ s.caps.inCap)

section
variable (hctab : s.ctab = textTable tag x)
include hx hne hcap hctab

/-- ENCODE with the table of the text itself: every symbol has a code (46_top_level R304). -/
theorem encodeRule_of_textTable :
    ((textBits tag x).length ≤ s.caps.bitsCap ∧ encodeRule s = .done (storeBits s (textBits tag x))) ∨
      (s.caps.bitsCap < (textBits tag x).length ∧ ∃ info, encodeRule s = .raised .capacityExceeded info 0x08 s) := by
  have hlen : x.length < 2 ^ 32 := hx.1 ▸ s.inp.len.isLt
  have hmapped : ∀ c ∈ x, codeOf s.ctab c ≠ [] := fun c hc =>
    hctab ▸ (codeOf_textTable_ne_nil_iff hlen hne tag c).mpr hc
  have hbits : x.flatMap (codeOf s.ctab) = textBits tag x := by rw [hctab, textBits]
  by_cases hroom : (textBits tag x).length ≤ s.caps.bitsCap
  · have hrun := encodeRun_of_inText hx hcap hmapped (hbits.symm ▸ hroom)
    exact .inl ⟨hroom, by rw [encodeRule, hrun, ofRun_ok, hbits]⟩
  · refine .inr ⟨Nat.not_le.mp hroom, ?_⟩
    have hrun : encodeRun s = encodeLoop s x.length 0 0 := by rw [encodeRun_eq, hx.1, if_pos hcap]
    obtain ⟨b, hb⟩ | ⟨info, hinfo⟩ := encodeLoop_of_mapped (total := 0) hx.2 hmapped
    · obtain ⟨rfl, -⟩ := encodeRun_ok hx (hrun.trans hb)
      exact absurd (encodeRun_ok_length (hrun.trans hb)) (hbits.symm ▸ hroom)
    · exact ⟨info, by rw [encodeRule, hrun, hinfo, ofRun_error]⟩

/-- The steps behind the code table, over the state that holds the text and its table: PACK always has room (00_scope
R9), and SERIALIZE's format checks pass (46_top_level R304). -/
theorem tableTail_cases (hwf : s.caps.wf = true) :
    ((textBits tag x).length ≤ s.caps.bitsCap ∧ (textArtifact tag x).length ≤ s.caps.outCap ∧
      ∃ u, tableTail tag s = .done u ∧ TextCompressed tag x u) ∨
    (s.caps.bitsCap < (textBits tag x).length ∧ ∃ info u, tableTail tag s = .raised .capacityExceeded info 0x08 u) ∨
    (s.caps.outCap < (textArtifact tag x).length ∧
      ∃ info u, tableTail tag s = .raised .capacityExceeded info 0x0C u) := by
  have hlen : x.length < 2 ^ 32 := hx.1 ▸ s.inp.len.isLt
  obtain ⟨-, -, hbitsCap, hpayloadCap, -⟩ := Caps.wf_lt hwf
  obtain ⟨hbits, hencode⟩ | ⟨hbits, info, hencode⟩ := encodeRule_of_textTable hx hne hcap hctab
  · have hfits := Caps.ceilDiv8_le_payloadCap hwf hbits
    have hstored := (storeBits_bitTextZeroFilled s (Nat.lt_of_le_of_lt hbits hbitsCap)).1
    let v := storePacked (storeBits s (textBits tag x)) (textPayload tag x) (padCount (textBits tag x).length)
    have hpack : packRule (storeBits s (textBits tag x)) = .done v := by
      rw [packRule, packRun_of_bitText hstored hbits hfits, ofRun_ok]
      rfl
    have hpayload : payloadText v (textPayload tag x) :=
      storePacked_payloadText _ _ (by rw [textPayload, packBytes_length]; omega)
    have hv : v.ctab = textTable tag x := hctab
    have hcount : v.ctab.ctabN.toNat = v.ctab.codes.length := hv ▸ (ctabOk_textTable hlen hne tag).count
    have hparts : PartsOk v.caps.payloadCap v.pad v.ctab.codes (textPayload tag x) := by
      rw [hv]
      exact partsOk_text hlen hne tag hfits
    have hart : tableArtifact tag v.pad v.ctab.codes (textPayload tag x) = textArtifact tag x := by
      rw [hv]
      rfl
    simp only [tableTail, hencode, andThen_done, hpack]
    by_cases hroom : (textArtifact tag x).length ≤ s.caps.outCap
    · refine .inl ⟨hbits, hroom, ?_⟩
      rw [serializeTableRun_of_payloadText hcount hpayload hparts (hart.symm ▸ hroom), hart]
      exact ⟨_, rfl, hctab, hstored, rfl, rfl, rfl⟩
    · refine .inr (.inr ⟨Nat.not_le.mp hroom, ?_⟩)
      rw [serializeTableRun_full hcount hpayload hparts (hart.symm ▸ Nat.not_le.mp hroom)]
      exact ⟨_, _, rfl⟩
  · refine .inr (.inl ⟨hbits, info, s, ?_⟩)
    rw [tableTail, hencode]
    rfl

end

/-! ## COMPRESS.HUF and COMPRESS.SF -/

/-- The command with its TAG (45_container R261). -/
abbrev CompressesTable (i : Instr) (tag : Byte) : Prop := i = .compressHuf ∧ tag = 1 ∨ i = .compressSf ∧ tag = 2

theorem CompressesTable.isCompress {i : Instr} (hi : CompressesTable i tag) : IsCompress i := by
  obtain ⟨rfl, -⟩ | ⟨rfl, -⟩ := hi
  exacts [.inl rfl, .inr (.inl rfl)]

include hx hne hcap in
theorem compressStart_of_inText : compressStart s = .done s :=
  compressStart_done (hx.1.trans_le hcap) fun h => hne (List.length_eq_zero_iff.mp (by rw [← hx.1, h]; rfl))

section
variable {i : Instr} (hi : CompressesTable i tag)
include hi

include hx hne hcap in
/-- ANALYZE and the code builders leave the table of the text (46_top_level R302). -/
theorem compressTable_front :
    ∃ u, ruleOf i s = tableTail tag u ∧ inText u x ∧ u.caps = s.caps ∧ u.ctab = textTable tag x := by
  have hstart := compressStart_of_inText hx hne hcap
  have hanalyze : analyzeRule s =
      .done { s with freq := ⟨freqTable x, BitVec.ofNat 32 (freqTable x).length, s.inp.len⟩ } := by
    rw [analyzeRule, analyzeRun_of_inText hx hcap, ofRun_ok]
  obtain ⟨rfl, rfl⟩ | ⟨rfl, rfl⟩ := hi
  · refine ⟨storeCodeTable
        { s with
          freq := ⟨freqTable x, BitVec.ofNat 32 (freqTable x).length, s.inp.len⟩
          tree := ⟨(buildTree (freqTable x)).1, BitVec.ofNat 32 (buildTree (freqTable x)).1.length,
            (buildTree (freqTable x)).2⟩ } (hufPairs x), ?_, hx, rfl, rfl⟩
    show compressHufRule s = _
    rw [compressHufRule, hstart, andThen_done, hanalyze]
    rfl
  · have hnumber := (rankOk_rankedList (freqOk_of_length_lt (hx.1 ▸ s.inp.len.isLt))).number
    refine ⟨storeCodeTable
        { s with
          freq := ⟨freqTable x, BitVec.ofNat 32 (freqTable x).length, s.inp.len⟩
          rank := ⟨rankedList (freqTable x), BitVec.ofNat 32 (rankedList (freqTable x)).length⟩ } (sfPairs x),
      ?_, hx, rfl, rfl⟩
    show compressSfRule s = _
    rw [compressSfRule, hstart, andThen_done, hanalyze, andThen_done, rankRule, andThen_done, sfCodesRule,
      andThen_done]
    dsimp only
    rw [hnumber, List.take_length]
    rfl

include hx hne hcap hwf in
/-- What COMPRESS.HUF and COMPRESS.SF of a text do (46_top_level R302, R304). -/
theorem compressTable_cases :
    ((textBits tag x).length ≤ s.caps.bitsCap ∧ (textArtifact tag x).length ≤ s.caps.outCap ∧
      ∃ u, ruleOf i s = .done u ∧ TextCompressed tag x u) ∨
    (s.caps.bitsCap < (textBits tag x).length ∧ ∃ info u, ruleOf i s = .raised .capacityExceeded info 0x08 u) ∨
    (s.caps.outCap < (textArtifact tag x).length ∧ ∃ info u, ruleOf i s = .raised .capacityExceeded info 0x0C u) := by
  obtain ⟨u, hrule, htext, hcaps, hctab⟩ := compressTable_front hx hne hcap hi
  rw [hrule, ← hcaps]
  exact tableTail_cases htext hne (hcaps ▸ hcap) hctab (hcaps ▸ hwf)

end

/-- The bytes that a buffer of fewer than 2^32 holds. -/
theorem outText_unique {t : State} {a b : List Byte} (h : t.out = outBuffer a) (ha : a.length < 2 ^ 32)
    (hb : outText t b) : b = a := by
  obtain ⟨hlen, hholds⟩ := hb
  rw [h] at hlen hholds
  exact Memory.holds_unique hholds (Memory.holds_cells 0 a) (hlen.symm.trans (ofNat_toNat_of_lt ha))

end

theorem exec_of_done {i : Instr} {s u : State} (h : ruleOf i s = .done u) : exec i s = .next (completeOk u) := by
  rw [exec_eq, h]
  rfl

/-- Settles O34: the bounds leave the success of `compressTable_cases` alone. -/
theorem compressTableCompletes : Obligations.CompressTableCompletes := by
  intro s i tag x hi hwf hx hne hcap hbits hout
  have hlen : x.length < 2 ^ 32 := hx.1 ▸ s.inp.len.isLt
  have hbitsLe := textBits_length_le hlen hne tag
  have hartLe := textArtifact_length_le hlen hne tag
  obtain ⟨-, hroom, u, hrule, hu⟩ | ⟨hfull, -⟩ | ⟨hfull, -⟩ := compressTable_cases hx hne hwf hcap hi
  · obtain ⟨hsizes, -⟩ := sizes_of_compress_done (CompressesTable.isCompress hi) hwf hrule
    obtain ⟨-, houtCap, -⟩ := Caps.wf_lt hwf
    refine ⟨_, exec_of_done hrule, succeeded_completeOk u, congrArg Sizes.orig hsizes, congrArg Sizes.comp hsizes,
      hu.kind, fun c => ?codes, ?bits, fun a ha => ?header⟩
    case codes =>
      show codeOf u.ctab c ≠ [] ↔ c ∈ x
      rw [hu.ctab]
      exact codeOf_textTable_ne_nil_iff hlen hne tag c
    case bits =>
      show bitText u (x.flatMap (codeOf u.ctab))
      rw [hu.ctab]
      exact hu.bits
    case header =>
      show a.take 5 = [0x44, 0x43, 0x01, tag, u.pad.setWidth 8]
      rw [outText_unique (t := u) hu.out (by omega) ha, hu.pad]
      rfl
  · omega
  · omega

end Sys2Proof.Machine
end

section
/-! PROOFS of 46_top_level.md, COMPRESS.LZW of a text (R302, R311), and the errors of the three COMPRESS (R304). -/

namespace Sys2Proof.Machine

/-! ## COMPRESS.LZW -/

/-- The artifact that COMPRESS.LZW makes of a text (46_top_level R302). -/
def lzwArtifact (x : List Byte) : List Byte := codesArtifact ((greedyParse x).1.map (BitVec.ofNat 32))

/-- The state that COMPRESS.LZW of a text leaves (46_top_level R302, R311). -/
def lzwCompressed (s : State) (x : List Byte) : State :=
  { storeArtifact (storeCompressed s (greedyParse x).1 (greedyParse x).2) 0x03 (lzwArtifact x) with
    sizes := ⟨s.inp.len, (outBuffer (lzwArtifact x)).len⟩ }

theorem lzwArtifact_length (x : List Byte) : (lzwArtifact x).length = 9 + 4 * (greedyParse x).1.length := by
  rw [lzwArtifact, codesArtifact_length, List.length_map]

section
variable {s : State} {x : List Byte} (hx : inText s x) (hne : x ≠ []) (hcap : x.length ≤ s.caps.inCap)
include hx hne hcap

/-- 46_top_level R302: the parse of a text with its room, and then the artifact with its room. -/
theorem compressLzwRule_of_inText :
    (((greedyParse x).1.length ≤ s.caps.codesCap ∧ (greedyParse x).1.length ≤ s.caps.dictCap + 1) ∧
      (lzwArtifact x).length ≤ s.caps.outCap ∧ compressLzwRule s = .done (lzwCompressed s x)) ∨
    ∃ info sub u, compressLzwRule s = .raised .capacityExceeded info sub u ∧
      ¬(((greedyParse x).1.length ≤ s.caps.codesCap ∧ (greedyParse x).1.length ≤ s.caps.dictCap + 1) ∧
        (lzwArtifact x).length ≤ s.caps.outCap) := by
  have hscan : lzwCompressRule s = Ending.ofRun 0x0A (scrubCompressed s) (compressLoop s s.inp.len.toNat 0 [] none 0)
      fun r => storeCompressed s r.1 r.2 := if_pos (hx.1.trans_le hcap)
  rw [compressLoop_of_inText hx] at hscan
  rw [compressLzwRule, compressStart_of_inText hx hne hcap, andThen_done, hscan]
  by_cases hparse : (greedyParse x).1.length ≤ s.caps.codesCap ∧ (greedyParse x).1.length ≤ s.caps.dictCap + 1
  · rw [if_pos hparse, ofRun_ok, andThen_done, serializeLzwRule]
    have hle := (lzwParse_greedyParse x).length_le
    have hlist := storeCompressed_codeList s (ws := (greedyParse x).1) (greedyParse x).2
      (Nat.lt_of_le_of_lt (hle.trans_eq hx.1.symm) s.inp.len.isLt)
    by_cases hroom : (lzwArtifact x).length ≤ s.caps.outCap
    · have hrun : serializeLzwRun (storeCompressed s (greedyParse x).1 (greedyParse x).2) = .ok (lzwArtifact x) :=
        serializeLzwRun_of_codeList hlist (by rw [List.length_map]; exact hparse.1) hroom
      exact .inl ⟨hparse, hroom, by rw [hrun]; rfl⟩
    · refine .inr ⟨9 + 4 * (greedyParse x).1.length, 0x0C, storeCompressed s (greedyParse x).1 (greedyParse x).2, ?_,
        fun h => hroom h.2⟩
      have hlen : (storeCompressed s (greedyParse x).1 (greedyParse x).2).codes.len.toNat = (greedyParse x).1.length :=
        hlist.1.trans (List.length_map _)
      rw [serializeLzwRun_eq, hlen, storeCompressed_caps, if_pos hparse.1, if_neg (lzwArtifact_length x ▸ hroom)]
      rfl
  · rw [if_neg hparse]
    exact .inr ⟨_, _, _, rfl, fun h => hparse h.1⟩

/-- What a successful COMPRESS.LZW leaves (46_top_level R302). -/
theorem compressLzwRule_done {u : State} (h : compressLzwRule s = .done u) :
    ((greedyParse x).1.length ≤ s.caps.codesCap ∧ (greedyParse x).1.length ≤ s.caps.dictCap + 1) ∧
      (lzwArtifact x).length ≤ s.caps.outCap ∧ u = lzwCompressed s x := by
  obtain ⟨hparse, hroom, hrule⟩ | ⟨_, _, _, hrule, -⟩ := compressLzwRule_of_inText hx hne hcap
  · exact ⟨hparse, hroom, Ending.done.inj (h.symm.trans hrule)⟩
  · rw [h] at hrule
    cases hrule

end

/-- Settles O35: the greedy parse has no more codes than the text has symbols (`lzwParse.length_le`), so the bounds
leave the success of `compressLzwRule_of_inText` alone. -/
theorem compressLzwCompletes : Obligations.CompressLzwCompletes := by
  intro s x hwf hx hne hcap hcodes hdict hout
  have hle := (lzwParse_greedyParse x).length_le
  have hart := lzwArtifact_length x
  obtain ⟨-, hroom, hrule⟩ | ⟨_, _, _, -, hfull⟩ := compressLzwRule_of_inText hx hne hcap
  · obtain ⟨hsizes, -⟩ := sizes_of_compress_done (i := .compressLzw) (.inr (.inr rfl)) hwf hrule
    obtain ⟨-, houtCap, -⟩ := Caps.wf_lt hwf
    have hlen : x.length < 2 ^ 32 := hx.1 ▸ s.inp.len.isLt
    refine ⟨_, exec_of_done (i := .compressLzw) hrule, succeeded_completeOk _, congrArg Sizes.orig hsizes,
      congrArg Sizes.comp hsizes, rfl, ?_⟩
    have houtLen : (lzwCompressed s x).out.len.toNat = (lzwArtifact x).length := ofNat_toNat_of_lt (by omega)
    have hcodesLen : (lzwCompressed s x).codes.len.toNat = (greedyParse x).1.length := ofNat_toNat_of_lt (by omega)
    exact houtLen.trans (hart.trans (congrArg (9 + 4 * ·) hcodesLen.symm))
  · exact absurd ⟨⟨hle.trans hcodes, hle.trans hdict⟩, by omega⟩ hfull

/-! ## The errors of COMPRESS -/

section
variable {i : Instr} {s u : State} {code : ErrCode} {info : Nat} {sub : Byte}

/-- ANALYZE reads all of the text: a COMPRESS.HUF or COMPRESS.SF that does not fault found it written
(70_reset R376). -/
theorem inText_of_compressTable {tag : Byte} (hi : CompressesTable i tag) (hcap : s.inp.len.toNat ≤ s.caps.inCap)
    (hne : s.inp.len ≠ 0) (h : ruleOf i s = .raised code info sub u) : ∃ x, inText s x := by
  obtain ⟨x, -, hlen, hx⟩ | ⟨b, -, -, -, hread⟩ := readRange_cases s.inp.mem .unwrittenIn 0 s.inp.len.toNat
  · exact ⟨x, hlen.symm, hx⟩
  · have hanalyze : analyzeRule s = .fault (.unwrittenIn b) := by
      rw [analyzeRule, analyzeRun_eq, if_pos hcap, readInRange, hread]
      rfl
    have hfault : ruleOf i s = .fault (.unwrittenIn b) := by
      obtain ⟨rfl, -⟩ | ⟨rfl, -⟩ := hi
      · show compressHufRule s = _
        rw [compressHufRule, compressStart_done hcap hne, andThen_done, hanalyze]
        rfl
      · show compressSfRule s = _
        rw [compressSfRule, compressStart_done hcap hne, andThen_done, hanalyze]
        rfl
    rw [h] at hfault
    cases hfault

theorem compressTable_raised {tag : Byte} (hi : CompressesTable i tag) (hwf : s.caps.wf = true)
    (hcap : s.inp.len.toNat ≤ s.caps.inCap) (hne : s.inp.len ≠ 0) (h : ruleOf i s = .raised code info sub u) :
    code = .capacityExceeded ∧ (sub = 0x08 ∨ sub = 0x0C) := by
  obtain ⟨x, hx⟩ := inText_of_compressTable hi hcap hne h
  have hx' : x ≠ [] := fun hnil => hne (BitVec.eq_of_toNat_eq (by rw [hx.1, hnil]; rfl))
  obtain ⟨-, -, _, hrule, -⟩ | ⟨-, _, _, hrule⟩ | ⟨-, _, _, hrule⟩ :=
    compressTable_cases hx hx' hwf (hx.1 ▸ hcap) hi
  all_goals
    rw [h] at hrule
    cases hrule
  · exact ⟨rfl, .inl rfl⟩
  · exact ⟨rfl, .inr rfl⟩

theorem compressLzw_raised (hcap : s.inp.len.toNat ≤ s.caps.inCap) (hne : s.inp.len ≠ 0)
    (h : compressLzwRule s = .raised code info sub u) :
    code = .capacityExceeded ∧ (sub = 0x0A ∨ sub = 0x0C) := by
  obtain h | ⟨_, -, ⟨⟩⟩ := andThen_eq_raised h
  obtain h | ⟨v, -, h⟩ := andThen_eq_raised h
  · rw [compressStart_done hcap hne, andThen_done, lzwCompressRule, if_pos hcap] at h
    obtain ⟨hloop, rfl, -⟩ := ofRun_eq_raised h
    exact ⟨(compressLoop_error hloop).1, .inl rfl⟩
  · obtain ⟨hrun, rfl, -⟩ := ofRun_eq_raised h
    exact ⟨serializeLzwRun_error hrun, .inr rfl⟩

end

/-- Settles O42: the two checks of R302 fail with SUB = 0x10; behind them the table codecs raise what ENCODE and
SERIALIZE raise of a text (`compressTable_raised`), and LZW what LZW_COMPRESS and SERIALIZE raise
(`compressLzw_raised`). -/
theorem compressErrorsAreCapacityErrors : Obligations.CompressErrorsAreCapacityErrors := by
  intro i s t hi hwf hexec hfail
  by_cases hcap : s.inp.len.toNat ≤ s.caps.inCap
  case neg =>
    cases hexec.symm.trans (exec_compress_of_raised hi (compressStart_overlong (Nat.not_le.mp hcap)))
    simp [completeError]
  by_cases hempty : s.inp.len = 0
  case pos =>
    cases hexec.symm.trans (exec_compress_of_raised hi (compressStart_empty hempty))
    simp [completeError]
  obtain ⟨u, -, rfl⟩ | ⟨code, info, sub, u, hrule, rfl⟩ := exec_next hexec
  · exact absurd rfl hfail
  · obtain rfl | rfl | rfl := hi
    · obtain ⟨rfl, rfl | rfl⟩ := compressTable_raised (.inl ⟨rfl, rfl⟩) hwf hcap hempty hrule <;> simp [completeError]
    · obtain ⟨rfl, rfl | rfl⟩ := compressTable_raised (.inr ⟨rfl, rfl⟩) hwf hcap hempty hrule <;> simp [completeError]
    · obtain ⟨rfl, rfl | rfl⟩ := compressLzw_raised hcap hempty hrule <;> simp [completeError]

end Sys2Proof.Machine
end

section
/-! PROOFS of 46_top_level.md, DECOMPRESS: what it makes of an artifact (R305, R311), and that it restores what COMPRESS
compressed (R306, R309). -/

namespace Sys2Proof.Machine

/-! ## DECOMPRESS of an artifact -/

section
variable {s : State}

/-- 46_top_level R305, R311: what a DECOMPRESS whose steps all succeed leaves. -/
theorem exec_decompress_of_done {u : State} {x : List Byte} (h : decompressRule s = .done u)
    (hout : u.out = outBuffer x) (hx : x.length < 2 ^ 32) :
    ∃ t, exec .decompress s = .next t ∧ succeeded t ∧ outText t x ∧ t.sizes = ⟨t.out.len, s.inp.len⟩ := by
  refine ⟨_, exec_of_done (i := .decompress) h, succeeded_completeOk u, ?_,
    (sizes_of_decompress_done (u := u) h).1⟩
  show u.out.len.toNat = x.length ∧ Memory.holds u.out.mem 0 x
  rw [hout]
  exact ⟨ofNat_toNat_of_lt hx, Memory.holds_cells 0 x⟩

/-- 46_top_level R305: UNPACK and DECODE of a payload that starts with the codes of a text. -/
theorem unpackThenDecode_of_payloadText {y x : List Byte} {rest : BitString} (hwf : s.caps.wf = true)
    (htab : CtabOk s.ctab) (hy : payloadText s y) (hparts : PartsOk s.caps.payloadCap s.pad s.ctab.codes y)
    (hbits : (bitsOfBytes y).take (8 * y.length - s.pad.toNat) = x.flatMap (codeOf s.ctab) ++ rest)
    (hmapped : ∀ c ∈ x, codeOf s.ctab c ≠ [])
    (hrest : ∀ p, p <+: rest → ∀ c, codeOf s.ctab c ≠ [] → codeOf s.ctab c ≠ p)
    (hroom : 8 * y.length - s.pad.toNat ≤ s.caps.bitsCap) (hout : x.length ≤ s.caps.outCap) :
    ∃ u, (unpackRule s).andThen decodeRule = .done u ∧ u.out = outBuffer x := by
  obtain ⟨-, -, hbitsCap, -⟩ := Caps.wf_lt hwf
  have hle : (x.flatMap (codeOf s.ctab) ++ rest).length ≤ s.caps.bitsCap :=
    hbits ▸ (List.length_take_le _ _).trans hroom
  have hstored := (storeBits_bitTextZeroFilled s (Nat.lt_of_le_of_lt hle hbitsCap)).1
  have hunpack : unpackRule s = .done (storeBits s (x.flatMap (codeOf s.ctab) ++ rest)) := by
    rw [unpackRule, unpackRun_of_payloadText hy hparts.fits hparts.pad hroom, hbits, ofRun_ok]
  rw [hunpack, andThen_done, decodeRule, storeBits_caps, if_pos (hstored.1.trans_le hle),
    decodeLoop_of_bitText (s := storeBits s _) htab hmapped hrest hstored hout, ofRun_ok]
  exact ⟨_, rfl, rfl⟩

/-- 46_top_level R305: DESERIALIZE, UNPACK and DECODE of a TAG 1 or 2 artifact. -/
theorem decompressRule_of_tableArtifact {tag : Byte} {pad : BitVec 3} {tab : CodeTable} {y x : List Byte}
    {rest : BitString} (hin : inText s (tableArtifact tag pad tab.codes y)) (hcap : s.inp.len.toNat ≤ s.caps.inCap)
    (hwf : s.caps.wf = true) (htag : tag = 1 ∨ tag = 2) (htab : CtabOk tab)
    (hparts : PartsOk s.caps.payloadCap pad tab.codes y)
    (hbits : (bitsOfBytes y).take (8 * y.length - pad.toNat) = x.flatMap (codeOf tab) ++ rest)
    (hmapped : ∀ c ∈ x, codeOf tab c ≠ []) (hrest : ∀ p, p <+: rest → ∀ c, codeOf tab c ≠ [] → codeOf tab c ≠ p)
    (hroom : 8 * y.length - pad.toNat ≤ s.caps.bitsCap) (hout : x.length ≤ s.caps.outCap) :
    ∃ u, decompressRule s = .done u ∧ u.out = outBuffer x := by
  obtain ⟨-, -, -, hpayloadCap, -⟩ := Caps.wf_lt hwf
  let v := storeParsedTable s tag pad.toNat tab.codes y
  have hdeserialize : deserializeRule s = .done v := by
    rw [deserializeRule, deserializeRun_of_tableArtifact hin hcap htag htab.codesOk hparts]
    rfl
  have hpayload : payloadText v y :=
    storeParsedTable_payloadText s tag pad.toNat tab.codes (Nat.lt_of_le_of_lt hparts.fits hpayloadCap)
  have hpad : v.pad = pad := (BitVec.ofNat_toNat 3 pad).trans (BitVec.setWidth_eq pad)
  have hctab : v.ctab = tab := htab.eq_of_codes
  have hkind : v.artKind ≠ 0x03 := by
    show tag ≠ 3
    obtain rfl | rfl := htag <;> decide
  rw [← hctab] at htab hparts hbits hmapped hrest
  rw [← hpad] at hparts hbits hroom
  obtain ⟨u, htail, hu⟩ :=
    unpackThenDecode_of_payloadText (s := v) hwf htab hpayload hparts hbits hmapped hrest hroom hout
  rw [decompressRule, hdeserialize, andThen_done, decompressTail, if_neg hkind, htail]
  exact ⟨_, rfl, hu⟩

/-- 46_top_level R305: DESERIALIZE and LZW_DECOMPRESS of a TAG 3 artifact. -/
theorem decompressRule_of_codesArtifact {ws : List Word} {d : List DictEntry} (hin : inText s (codesArtifact ws))
    (hcap : s.inp.len.toNat ≤ s.caps.inCap) (hcodes : ws.length ≤ s.caps.codesCap)
    (hres : lzwResolvable (ws.map BitVec.toNat)) (hd : lzwDict (ws.map BitVec.toNat) d)
    (hdict : ws.length ≤ s.caps.dictCap + 1) (hout : (spelled d ws).length ≤ s.caps.outCap) :
    ∃ u, decompressRule s = .done u ∧ u.out = outBuffer (spelled d ws) := by
  let v := storeParsedCodes s ws
  have hdeserialize : deserializeRule s = .done v := by
    rw [deserializeRule, deserializeRun_of_codesArtifact hin hcap hcodes]
    rfl
  have hlen : 9 + 4 * ws.length = s.inp.len.toNat := (codesArtifact_length ws).symm.trans hin.1.symm
  have hmax := s.inp.len.isLt
  have hlist : codeList v ws := storeParsedCodes_codeList s (by omega)
  have hdecompress : lzwDecompressRule v = .done (storeDecompressed v (spelled d ws) d) := by
    rw [lzwDecompressRule, if_pos (show v.codes.len.toNat ≤ v.caps.codesCap from hlist.1.trans_le hcodes),
      decompressRun_of_codeList hlist hres hd hdict hout, ofRun_ok]
  rw [decompressRule, hdeserialize, andThen_done, decompressTail, if_pos (show v.artKind = 0x03 from rfl), hdecompress]
  exact ⟨_, rfl, rfl⟩

end

/-- Settles O37: the steps of DECOMPRESS on the two kinds of artifact (`decompressRule_of_tableArtifact`,
`decompressRule_of_codesArtifact`). -/
theorem decompressRestoresTheText : Obligations.DecompressRestoresTheText := by
  refine ⟨fun s tag pad tab y x rest htag hwf htab hpad htable hfits hcap hin hbits hmapped hrest hroom hout => ?_,
    fun s ws d hwf hcodes hcap hin hres hd hdict hout => ?_⟩ <;>
    obtain ⟨-, houtCap, -⟩ := Caps.wf_lt hwf
  · rw [← tableArtifact_eq] at hin
    obtain ⟨u, hrule, hu⟩ := decompressRule_of_tableArtifact hin hcap hwf htag htab ⟨hfits, hpad, htable⟩ hbits hmapped
      hrest hroom hout
    exact exec_decompress_of_done hrule hu (Nat.lt_of_le_of_lt hout houtCap)
  · rw [← codesArtifact_eq] at hin
    obtain ⟨u, hrule, hu⟩ := decompressRule_of_codesArtifact hin hcap hcodes hres hd hdict hout
    exact exec_decompress_of_done hrule hu (Nat.lt_of_le_of_lt hout houtCap)

/-! ## DECOMPRESS of what COMPRESS wrote -/

section
variable {s : State} {x : List Byte}

/-- 46_top_level R306, HUF and SF: the payload, without its padding, is the encoded text. -/
theorem decompressRule_of_textArtifact {tag : Byte} (hin : inText s (textArtifact tag x))
    (hcap : s.inp.len.toNat ≤ s.caps.inCap) (hwf : s.caps.wf = true) (htag : tag = 1 ∨ tag = 2)
    (hx : x.length < 2 ^ 32) (hne : x ≠ []) (hroom : (textBits tag x).length ≤ s.caps.bitsCap)
    (hout : x.length ≤ s.caps.outCap) : ∃ u, decompressRule s = .done u ∧ u.out = outBuffer x := by
  have hbitCount : 8 * (textPayload tag x).length - (textPad tag x).toNat = (textBits tag x).length := by
    rw [textPayload, packBytes_length, textPad, padCount_ofNat_toNat, ceilDiv8_sub_padCount]
  have hbits : (bitsOfBytes (textPayload tag x)).take (8 * (textPayload tag x).length - (textPad tag x).toNat) =
      x.flatMap (codeOf (textTable tag x)) ++ [] := by
    rw [hbitCount, textPayload, bitsOfBytes_packBytes_take, List.append_nil, textBits]
  exact decompressRule_of_tableArtifact hin hcap hwf htag (ctabOk_textTable hx hne tag)
    (partsOk_text hx hne tag (Caps.ceilDiv8_le_payloadCap hwf hroom)) hbits
    (fun c hc => (codeOf_textTable_ne_nil_iff hx hne tag c).mpr hc)
    (fun p hp c hc => List.prefix_nil.mp hp ▸ hc) (hbitCount.trans_le hroom) hout

/-- 46_top_level R306, LZW: the codes of the artifact spell the text. -/
theorem decompressRule_of_lzwArtifact (hin : inText s (lzwArtifact x)) (hcap : s.inp.len.toNat ≤ s.caps.inCap)
    (hcodes : (greedyParse x).1.length ≤ s.caps.codesCap) (hdict : (greedyParse x).1.length ≤ s.caps.dictCap + 1)
    (hout : x.length ≤ s.caps.outCap) : ∃ u, decompressRule s = .done u ∧ u.out = outBuffer x := by
  have hparse := lzwParse_greedyParse x
  have hlen := hin.1.symm.trans_lt s.inp.len.isLt
  rw [lzwArtifact_length] at hlen
  have hwords := toNat_of_codeWords (hparse.code_lt (by omega))
  have hspelled : spelled (greedyParse x).2 ((greedyParse x).1.map (BitVec.ofNat 32)) = x := by
    rw [spelled, ← List.flatMap_map, hwords, hparse.spells]
  obtain ⟨u, hrule, hu⟩ := decompressRule_of_codesArtifact hin hcap (by rwa [List.length_map])
    (hwords.symm ▸ hparse.resolvable) (hwords.symm ▸ hparse.dict) (by rwa [List.length_map]) (hspelled.symm ▸ hout)
  exact ⟨u, hrule, hspelled ▸ hu⟩

end

section
variable {i : Instr} {s t : State} {x : List Byte} (hx : inText s x) (hexec : exec i s = .next t)
  (hok : t.ctl.error = noError)
include hx hexec hok

/-- A COMPRESS without an error passed its first check (46_top_level R302). -/
theorem compress_done_of_noError (hi : IsCompress i) :
    x.length ≤ s.caps.inCap ∧ ∃ u, ruleOf i s = .done u ∧ t = completeOk u := by
  obtain ⟨u, hu, rfl⟩ | ⟨_, _, _, _, hu, rfl⟩ := exec_next hexec
  · refine ⟨?_, u, hu, rfl⟩
    by_contra hlong
    rw [compressRule_eq hi, compressStart_overlong (hx.1.symm ▸ Nat.not_le.mp hlong)] at hu
    cases hu
  · exact absurd hok (completeError_ne_noError_of_raised hu)

variable (hwf : s.caps.wf = true) (hne : x ≠ [])
include hwf hne

/-- What a COMPRESS.HUF or COMPRESS.SF without an error found room for, and what it left (46_top_level R302). -/
theorem textCompressed_of_noError {tag : Byte} (hi : CompressesTable i tag) :
    (textBits tag x).length ≤ s.caps.bitsCap ∧ (textArtifact tag x).length ≤ s.caps.outCap ∧
      ∃ u, t = completeOk u ∧ TextCompressed tag x u := by
  obtain ⟨hcap, u, hu, rfl⟩ := compress_done_of_noError hx hexec hok hi.isCompress
  obtain ⟨hbits, hroom, v, hv, htext⟩ | ⟨-, _, _, hrule⟩ | ⟨-, _, _, hrule⟩ := compressTable_cases hx hne hwf hcap hi
  · obtain rfl : u = v := Ending.done.inj (hu.symm.trans hv)
    exact ⟨hbits, hroom, u, rfl, htext⟩
  all_goals
    rw [hu] at hrule
    cases hrule

/-- The three artifacts: DECOMPRESS of what a COMPRESS wrote gives the text back (46_top_level R306). -/
theorem decompressRule_of_compressed {u : State} {a : List Byte} (hi : IsCompress i) (hout : outText t a)
    (hcaps : u.caps = s.caps) (hin : inText u a) (hcap : a.length ≤ s.caps.inCap) (hroom : x.length ≤ s.caps.outCap) :
    ∃ v, decompressRule u = .done v ∧ v.out = outBuffer x := by
  obtain ⟨-, houtCap, -⟩ := Caps.wf_lt hwf
  have htable : ∀ tag, CompressesTable i tag → ∃ v, decompressRule u = .done v ∧ v.out = outBuffer x := by
    intro tag htag
    obtain ⟨hbits, hart, w, rfl, hw⟩ := textCompressed_of_noError hx hexec hok hwf hne htag
    obtain rfl : a = textArtifact tag x := outText_unique hw.out (Nat.lt_of_le_of_lt hart houtCap) hout
    rw [← hin.1] at hcap
    rw [← hcaps] at hwf hbits hcap hroom
    exact decompressRule_of_textArtifact hin hcap hwf (htag.imp And.right And.right) (hx.1 ▸ s.inp.len.isLt) hne hbits
      hroom
  obtain rfl | rfl | rfl := hi
  · exact htable 1 (.inl ⟨rfl, rfl⟩)
  · exact htable 2 (.inr ⟨rfl, rfl⟩)
  · obtain ⟨hlen, w, hw, rfl⟩ := compress_done_of_noError hx hexec hok (.inr (.inr rfl))
    obtain ⟨⟨hcodes, hdict⟩, hart, rfl⟩ := compressLzwRule_done hx hne hlen hw
    obtain rfl : a = lzwArtifact x := outText_unique rfl (Nat.lt_of_le_of_lt hart houtCap) hout
    rw [← hin.1] at hcap
    rw [← hcaps] at hcodes hdict hcap hroom
    exact decompressRule_of_lzwArtifact hin hcap hcodes hdict hroom

end

/-- Settles O39: what COMPRESS leaves in OUT is the artifact of the text, which DECOMPRESS resolves
(`decompressRule_of_compressed`). -/
theorem wholeStackRoundTrip : Obligations.WholeStackRoundTrip := by
  intro i hi s t u x a hwf hx hne hexec hok hout hcaps hin hcap hroom
  obtain ⟨-, houtCap, -⟩ := Caps.wf_lt hwf
  obtain ⟨v, hrule, hv⟩ := decompressRule_of_compressed hx hexec hok hwf hne hi hout hcaps hin hcap hroom
  obtain ⟨w, hnext, hsucceeded, htext, -⟩ := exec_decompress_of_done hrule hv (Nat.lt_of_le_of_lt hroom houtCap)
  exact ⟨w, hnext, hsucceeded, htext⟩

/-! ## A text of one symbol -/

section
variable (c : Byte) {n : Nat} (hn : 1 ≤ n) (tag : Byte)
include hn

/-- Its frequency table has one entry. -/
theorem freqTable_replicate : ∃ e, freqTable (List.replicate n c) = [e] ∧ BitVec.ofNat 8 e.1 = c := by
  have hperm := freqTable_symbols_perm (List.replicate n c)
  rw [List.replicate_dedup (by omega), List.perm_singleton] at hperm
  obtain ⟨e, htable, hsym⟩ := List.map_eq_singleton_iff.mp hperm
  exact ⟨e, htable, hsym⟩

/-- 46_top_level R309: a tree of one leaf and a ranked list of one entry give the code "0". -/
theorem textPairs_replicate : textPairs tag (List.replicate n c) = [(c, [false])] := by
  obtain ⟨e, htable, rfl⟩ := freqTable_replicate c hn
  have hhuf : hufPairs (List.replicate n (BitVec.ofNat 8 e.1)) = [(BitVec.ofNat 8 e.1, [false])] := by
    rw [hufPairs, htable]
    rfl
  have hsf : sfPairs (List.replicate n (BitVec.ofNat 8 e.1)) = [(BitVec.ofNat 8 e.1, [false])] := by
    rw [sfPairs, htable]
    rfl
  rw [textPairs, hhuf, hsf, ite_self]

theorem codeOf_textTable_replicate : codeOf (textTable tag (List.replicate n c)) c = [false] := by
  rw [textTable, textPairs_replicate c hn tag, codeOf, get_assignCodes [(c, [false])] (List.nodup_singleton c)]
  simp

/-- 46_top_level R309: BITS is as many zero bits. -/
theorem textBits_replicate : textBits tag (List.replicate n c) = List.replicate n false := by
  rw [textBits, List.flatMap_replicate, codeOf_textTable_replicate c hn tag]
  simp

end

/-- Settles O41: the table of the one symbol (`codeOf_textTable_replicate`), and `wholeStackRoundTrip`. -/
theorem singleSymbolGetsCodeZero : Obligations.SingleSymbolGetsCodeZero := by
  intro s t i c n hi hwf hx hn hexec hok
  have hne : List.replicate n c ≠ [] := by simp; omega
  obtain ⟨tag, htag⟩ : ∃ tag, CompressesTable i tag :=
    hi.elim (fun h => ⟨1, .inl ⟨h, rfl⟩⟩) fun h => ⟨2, .inr ⟨h, rfl⟩⟩
  have hroundTrip := fun u a hout hcaps hin hcap hroom =>
    wholeStackRoundTrip i htag.isCompress s t u _ a hwf hx hne hexec hok hout hcaps hin hcap hroom
  obtain ⟨-, -, u, rfl, hu⟩ := textCompressed_of_noError hx hexec hok hwf hne htag
  refine ⟨?_, fun d hd => ?_, ?_, fun v a hout hcaps hin hcap hroom => ?_⟩
  · show codeOf u.ctab c = [false]
    rw [hu.ctab, codeOf_textTable_replicate c hn tag]
  · show codeOf u.ctab d = []
    rw [hu.ctab]
    by_contra hcode
    exact hd (List.eq_of_mem_replicate
      ((codeOf_textTable_ne_nil_iff (hx.1 ▸ s.inp.len.isLt) hne tag d).mp hcode))
  · show bitText u _
    rw [← textBits_replicate c hn tag]
    exact hu.bits
  · exact hroundTrip v a hout hcaps hin hcap (by rwa [List.length_replicate])

end Sys2Proof.Machine
end

section
/-! PROOFS of 60_exceptions.md: which errors a command's rule can raise, and by which of its steps (R330, R333, R341),
acceptance (R340), and what every completion writes to the status (R341). -/

namespace Sys2Proof.Machine

/-! ## The errors of a rule -/

/-- A rule raises no error but one of the block's, by a step whose opcode is one of `subs` (46_top_level R303). -/
def Ending.raisesFrom (subs : List Byte) (e : Ending) : Prop :=
  ∀ code info sub u, e = .raised code info sub u → code ∈ blockErrors ∧ sub ∈ subs

theorem Ending.raisesFrom.mono {subs subs' : List Byte} {e : Ending} (h : e.raisesFrom subs) (hsub : subs ⊆ subs') :
    e.raisesFrom subs' := fun code info sub u he =>
  (h code info sub u he).imp_right (hsub ·)

theorem Ending.raisesFrom_done (subs : List Byte) (s : State) : (Ending.done s).raisesFrom subs := by
  rintro _ _ _ _ ⟨⟩

theorem Ending.raisesFrom_ofRun {α : Type} {sub : Byte} {sErr : State} {r : Run α} {keep : α → State}
    (h : raisesOnly blockErrors r) : (Ending.ofRun sub sErr r keep).raisesFrom [sub] := by
  intro code info sub' u he
  obtain ⟨hr, rfl, -⟩ := ofRun_eq_raised he
  exact ⟨h code info hr, List.mem_singleton_self _⟩

/-- A rule whose first check has an ending of its own. -/
theorem Ending.raisesFrom_guarded {α : Type} {p : Prop} [Decidable p] {sub : Byte} {sErr v : State} {r : Run α}
    {keep : α → State} {info : Nat} (h : raisesOnly blockErrors r) :
    (if p then Ending.ofRun sub sErr r keep else .raised .capacityExceeded info sub v).raisesFrom [sub] := by
  split
  · exact raisesFrom_ofRun h
  · rintro _ _ _ _ ⟨⟩
    exact ⟨by decide, List.mem_singleton_self _⟩

theorem Ending.raisesFrom.andThen {subs subs' : List Byte} {e : Ending} {f : State → Ending} (he : e.raisesFrom subs)
    (hf : ∀ a, e = .done a → (f a).raisesFrom subs') : (e.andThen f).raisesFrom (subs ++ subs') := by
  intro code info sub u h
  rw [List.mem_append]
  obtain h | ⟨a, ha, h⟩ := andThen_eq_raised h
  · exact (he code info sub u h).imp_right .inl
  · exact (hf a ha code info sub u h).imp_right .inr

theorem serializeTableRun_raises (tag : Byte) (s : State) : raisesOnly blockErrors (serializeTableRun tag s) :=
  fun _ _ h => by obtain rfl | rfl := serializeTableRun_error h <;> decide

/-- A component command fails with an error of the block's, in its own name. -/
theorem ruleOf_raisesFrom_component {i : Instr} (hi : i ∈ componentSteps) (s : State) :
    (ruleOf i s).raisesFrom [opcOf i] := by
  cases i with
  | analyze => exact Ending.raisesFrom_ofRun fun _ _ h => analyzeRun_error h ▸ by decide
  | encode => exact Ending.raisesFrom_ofRun (encodeRun_raises s)
  | pack => exact Ending.raisesFrom_ofRun fun _ _ h => packRun_error h ▸ by decide
  | unpack => exact Ending.raisesFrom_ofRun fun _ _ h => by obtain rfl | rfl := unpackRun_error h <;> decide
  | decode => exact Ending.raisesFrom_guarded fun _ _ h => (decodeLoop_error h).1 ▸ by decide
  | lzwCompress => exact Ending.raisesFrom_guarded fun _ _ h => (compressLoop_error h).1 ▸ by decide
  | lzwDecompress => exact Ending.raisesFrom_guarded ((decompressRun_raises s _).mono (by decide))
  | serializeHuf | serializeSf => exact Ending.raisesFrom_ofRun (serializeTableRun_raises _ s)
  | serializeLzw => exact Ending.raisesFrom_ofRun fun _ _ h => serializeLzwRun_error h ▸ by decide
  | rank | huffBuild | huffCodes | sfCodes => exact Ending.raisesFrom_done _ _
  | nop | deserialize | compressHuf | compressSf | compressLzw | decompress => simp [componentSteps] at hi

theorem stepsRule_raisesFrom {is : List Instr} (his : ∀ i ∈ is, i ∈ componentSteps) (s : State) :
    (stepsRule is s).raisesFrom (is.map opcOf) := by
  induction is generalizing s with
  | nil => exact Ending.raisesFrom_done _ _
  | cons i is ih =>
    obtain ⟨hi, his⟩ := List.forall_mem_cons.mp his
    exact (ruleOf_raisesFrom_component hi s).andThen fun a _ => ih his a

theorem compressStart_raisesFrom (s : State) : (compressStart s).raisesFrom [0x10] :=
  Ending.raisesFrom_ofRun (by simp [compressChecks, blockErrors])

theorem deserializeRule_raisesFrom (s : State) : (deserializeRule s).raisesFrom [0x0D] :=
  Ending.raisesFrom_ofRun ((deserializeRun_raises s).mono (by decide))

theorem compressRule_raisesFrom {i : Instr} (hi : IsCompress i) (s : State) :
    (ruleOf i s).raisesFrom (stepOpcodes i) := by
  rw [compressRule_eq hi]
  refine (((compressStart_raisesFrom s).andThen fun a _ => stepsRule_raisesFrom (compressSteps_component hi) a).andThen
    (subs' := []) fun a _ => Ending.raisesFrom_done _ _).mono ?_
  obtain rfl | rfl | rfl := hi <;> decide

theorem decompressRule_raisesFrom (s : State) : (decompressRule s).raisesFrom (stepOpcodes .decompress) := by
  have htail (a : State) (ha : deserializeRule s = .done a) : (decompressTail a).raisesFrom [0x02, 0x09, 0x0B] := by
    obtain ⟨_, hu, rfl⟩ := ofRun_eq_done ha
    rw [decompressTail_eq (deserializeRun_ok_artKind hu)]
    refine (stepsRule_raisesFrom (decompressSteps_component a.artKind) a).mono ?_
    unfold decompressSteps
    split <;> decide
  exact (((deserializeRule_raisesFrom s).andThen htail).andThen (subs' := []) fun a _ =>
    Ending.raisesFrom_done _ _).mono (by decide)

/-- 60_exceptions R333, 46_top_level R303: every command's errors are the block's, by one of the command's steps. -/
theorem ruleOf_raisesFrom (i : Instr) (s : State) : (ruleOf i s).raisesFrom (stepOpcodes i) := by
  cases i with
  | nop => exact Ending.raisesFrom_done _ _
  | deserialize => exact deserializeRule_raisesFrom s
  | compressHuf => exact compressRule_raisesFrom (.inl rfl) s
  | compressSf => exact compressRule_raisesFrom (.inr (.inl rfl)) s
  | compressLzw => exact compressRule_raisesFrom (.inr (.inr rfl)) s
  | decompress => exact decompressRule_raisesFrom s
  | _ => exact ruleOf_raisesFrom_component (by decide) s

/-! ## Acceptance and completion -/

/-- Settles O4: the write is `accept` (`memWrite_csr`), which leaves the word in the latch of a busy block, so the Block's
turn is the word's command. -/
theorem acceptanceLatchesTheWord : Obligations.AcceptanceLatchesTheWord :=
  fun s v hidle => ⟨memWrite_csr hidle .cmd v, fun _ _ hd ht =>
    (step_block (s := accept v s) ht).trans (blockStep_legal (accept_ctl_busy v s) hd)⟩

/-- 30_encoding R100: the low byte of a command's word. -/
theorem encode_setWidth (i : Instr) : (encode i).setWidth 8 = opcOf i := by
  cases i <;> rfl

/-- Settles O6: the frame is `commandsKeepStateOutsideTheirWriteSet`; the error of a rule that fails is one of the block's,
by one of the command's steps (`ruleOf_raisesFrom`). -/
theorem everyCompletionWritesTheStatus : Obligations.EveryCompletionWritesTheStatus := by
  intro i s t h
  obtain ⟨hidle, hdone⟩ := exec_next_idle h
  obtain ⟨-, hfixed⟩ := commandsKeepStateOutsideTheirWriteSet i s t h
  refine ⟨hidle, hdone, hfixed, ?_⟩
  obtain ⟨u, -, rfl⟩ | ⟨code, info, sub, u, hrule, rfl⟩ := exec_next h
  · exact .inl ⟨rfl, rfl⟩
  · obtain ⟨hcode, hsub⟩ := ruleOf_raisesFrom i s code info sub u hrule
    have hne : code ≠ .none := fun hnone => absurd (hnone ▸ hcode) (by decide)
    exact .inr ⟨hne, (encode_setWidth i).symm, hsub⟩

/-! ## NOT_FOUND -/

/-- 60_exceptions R333 for one command. -/
theorem exec_ne_notFound {i : Instr} {s t : State} (h : exec i s = .next t) : t.ctl.error.code ≠ .notFound := by
  obtain ⟨u, -, rfl⟩ | ⟨code, info, sub, u, hrule, rfl⟩ := exec_next h
  · rintro ⟨⟩
  · exact fun hfound : code = .notFound => absurd (hfound ▸ (ruleOf_raisesFrom i s code info sub u hrule).1) (by decide)

/-- A transaction leaves ERROR alone or clears it: only an acceptance writes it (60_exceptions R340). -/
theorem busAccess_error (t : Txn) (s : State) :
    (busAccess t s).2.ctl.error = s.ctl.error ∨ (busAccess t s).2.ctl.error = noError := by
  obtain he | ⟨-, he⟩ | ⟨-, -, -, he⟩ := busAccess_cases t s
  · exact .inl (by rw [he])
  · exact .inl (by rw [he, setWbusy_ctl_error])
  · rw [he]
    obtain ⟨-, r, -, hw⟩ | ⟨-, hw⟩ | ⟨-, hw⟩ | ⟨-, hw⟩ | ⟨-, hw⟩ | hw := busWrite_cases s t.space t.off.toNat t.data
    case inl =>
      rw [hw]
      cases r with
      | cmd => exact .inr rfl
      | _ => exact .inl rfl
    all_goals exact .inl (by rw [hw])

theorem hostStep_ne_notFound {s t : State} (hs : s.ctl.error.code ≠ .notFound) (h : hostStep s = .next t) :
    t.ctl.error.code ≠ .notFound := by
  obtain ⟨hst, rfl⟩ | ⟨txn, hst, rfl⟩ := hostStep_cases h
  · exact hs
  · show (busAccess txn s).2.ctl.error.code ≠ .notFound
    obtain he | he := busAccess_error txn s <;> rw [he]
    · exact hs
    · decide

theorem blockStep_ne_notFound {s t : State} (hs : s.ctl.error.code ≠ .notFound) (h : blockStep s = .next t) :
    t.ctl.error.code ≠ .notFound := by
  obtain ⟨-, rfl⟩ | ⟨-, i, -, hexec⟩ | ⟨-, -, rfl⟩ := blockStep_cases h
  · exact hs
  · exact exec_ne_notFound hexec
  · rintro ⟨⟩

/-- Settles O56: a command raises errors of the block's only (`exec_ne_notFound`); the Host's turn keeps or clears ERROR,
an illegal word raises ILLEGAL_COMMAND, and a reset clears ERROR. -/
theorem notFoundIsNeverRaised : Obligations.NotFoundIsNeverRaised := by
  refine ⟨fun i s t h => exec_ne_notFound h, fun s t hs h => ?_⟩
  obtain ⟨ts, hhost⟩ | ⟨ts, hblock⟩ | ⟨hst, ts, rfl⟩ := step_cases h
  · exact hostStep_ne_notFound (s := { s with turns := ts }) hs hhost
  · exact blockStep_ne_notFound (s := { s with turns := ts }) hs hblock
  · rintro ⟨⟩

end Sys2Proof.Machine
end

section
/-! PROOFS of 70_reset_and_hazards.md, the Host while the block is busy (R380, R381). -/

namespace Sys2Proof.Machine

section
variable {s : State} (hbusy : s.ctl.busy = true)
include hbusy

/-- 70_reset R381: every space but the registers is closed while BUSY = 1. -/
theorem busAccess_refused_of_busy {t : Txn} (hspace : t.space ≠ 0) : busAccess t s = (.busError, setWbusy s) := by
  rw [busAccess, (busyRefused_iff s t).mpr ⟨hbusy, hspace⟩, if_pos rfl]

/-- 70_reset R380: a register write while BUSY = 1 is answered OK and ignored. -/
theorem memWrite_csr_of_busy (r : CsrName) (v : Word) : memWrite 0 r.offset .w32 v s = (.ok, setWbusy s) := by
  simp [memWrite, busAccess, busyRefused_csr, badAccess_csr, hbusy]

/-- 70_reset R380: STATUS while BUSY = 1 shows BUSY and WBUSY. -/
theorem statusWord_of_busy (hok : ControlOk s.ctl) : statusWord s.ctl = 1 + if s.ctl.wbusy then 8 else 0 := by
  obtain ⟨hdone, herror, -⟩ := hok.busy hbusy
  cases hw : s.ctl.wbusy <;> simp [statusWord, errFlag, irq, hbusy, hdone, herror, hw, noError]

end

/-- Settles O46: a refused access and an ignored write set WBUSY (`busAccess_refused_of_busy`, `memWrite_csr_of_busy`), a
register read is granted (`memRead_csr`), and the invariant of the control registers says what it shows. -/
theorem busyBlockRefusesTheHost : Obligations.BusyBlockRefusesTheHost := by
  intro s hbusy
  refine ⟨fun t hspace => busAccess_refused_of_busy hbusy hspace, fun r v => memWrite_csr_of_busy hbusy r v,
    fun r => memRead_csr s r, fun hok => ?_⟩
  obtain ⟨-, herror, hinfo⟩ := hok.busy hbusy
  refine ⟨statusWord_of_busy hbusy hok, ?_, hinfo, rfl⟩
  rw [csrRead, herror]
  rfl

end Sys2Proof.Machine
end

section
/-! PROOFS of 70_reset_and_hazards.md R376, the commands that read in place: with the checks before that read passed, the
first unlisted element of IN, BITS, PAYLOAD or CODES stops them with its fault. DESERIALIZE has a section of its own. -/

namespace Sys2Proof.Machine

/-! ## Single reads -/

theorem readIn_unwritten {s : State} {i : Nat} (h : Memory.get s.inp.mem i = none) :
    readIn s i = .error (.fault (.unwrittenIn i)) := by
  rw [readIn, h]

theorem readBit_unwritten {s : State} {i : Nat} (h : Memory.get s.bits.mem (i / 8) = none) :
    readBit s i = .error (.fault (.unwrittenBits (i / 8))) := by
  rw [readBit, h]

theorem readCode_unwritten {s : State} {j : Nat} (h : codeAt s j = none) :
    readCode s j = .error (.fault (.unwrittenCodes j)) := by
  rw [readCode, h]

/-- Storage whose first `a` elements are written holds some list of them. -/
theorem Memory.exists_holds {α : Type} {m : Memory α} {a : Nat} (h : ∀ b, b < a → Memory.get m b ≠ none) :
    ∃ xs, xs.length = a ∧ Memory.holds m 0 xs := by
  induction a with
  | zero => exact ⟨[], rfl, trivial⟩
  | succ a ih =>
    obtain ⟨xs, hlen, hxs⟩ := ih fun b hb => h b (by omega)
    obtain ⟨x, hx⟩ := Option.ne_none_iff_exists'.mp (h a (by omega))
    refine ⟨xs ++ [x], by simp [hlen], (Memory.holds_append _ _ _ _).mpr ⟨hxs, ?_, trivial⟩⟩
    rwa [Nat.zero_add, hlen]

theorem readRange_first_unwritten {α : Type} {m : Memory α} (bad : Nat → Fault) {a n : Nat}
    (hbelow : ∀ b, b < a → Memory.get m b ≠ none) (ha : Memory.get m a = none) (hn : a < n) :
    readRange m bad 0 n = .error (.fault (bad a)) := by
  obtain ⟨xs, rfl, hxs⟩ := Memory.exists_holds hbelow
  have hread := readRange_unwritten m bad 0 n xs hxs
  rw [Nat.zero_add] at hread
  exact hread ha hn

/-! ## From a computation to its command -/

theorem ofRun_of_fault {α : Type} {sub : Byte} {sErr : State} {r : Run α} {keep : α → State} {f : Fault}
    (h : r = .error (.fault f)) : Ending.ofRun sub sErr r keep = .fault f := by
  rw [h, ofRun_fault]

theorem exec_of_ruleOf_fault {i : Instr} {s : State} {f : Fault} (h : ruleOf i s = .fault f) : exec i s = .fault f := by
  rw [exec_eq, h, complete_fault]

/-- A fault of the first component command stops COMPRESS (46_top_level R301, 70_reset R376). -/
theorem exec_compress_of_first_fault {i j : Instr} {is : List Instr} {s : State} {f : Fault} (hi : IsCompress i)
    (hcap : s.inp.len.toNat ≤ s.caps.inCap) (hne : s.inp.len ≠ 0) (hsteps : compressSteps i = j :: is)
    (h : ruleOf j s = .fault f) : exec i s = .fault f := by
  rw [exec_compress_of_checks hi hcap hne, hsteps, stepsRule, h, andThen_fault, andThen_fault, complete_fault]

/-! ## IN -/

/-- The scan of LZW_COMPRESS has emitted fewer codes than it has read bytes, so no emit lacks room before the first
unlisted byte. -/
theorem compressLoop_unwritten {s : State} {x : List Byte} {n i w : Nat} {d : List DictEntry}
    (hx : Memory.holds s.inp.mem i x) (hnone : Memory.get s.inp.mem (i + x.length) = none)
    (hcodes : d.length + x.length ≤ s.caps.codesCap) (hdict : d.length + x.length ≤ s.caps.dictCap) :
    compressLoop s (x.length + (n + 1)) i d (some w) d.length =
      .error (.fault (.unwrittenIn (i + x.length))) := by
  induction x generalizing i w d with
  | nil =>
    show compressLoop s (0 + (n + 1)) i d (some w) d.length = .error (.fault (.unwrittenIn i))
    rw [Nat.zero_add, compressLoop, readIn_unwritten (i := i) hnone, run_error_bind]
  | cons c x ih =>
    obtain ⟨hget, hx⟩ := hx
    have hread := (readIn_ok s i c).mpr hget
    have hnext : i + (c :: x).length = i + 1 + x.length := by rw [List.length_cons]; omega
    rw [hnext] at hnone ⊢
    rw [List.length_cons] at hcodes hdict ⊢
    rw [Nat.add_right_comm]
    cases h : findEntry d w c with
    | some k =>
      rw [compressLoop_found hread h]
      exact ih hx hnone (by omega) (by omega)
    | none =>
      have hrest := ih (d := d ++ [⟨w, c⟩]) (w := c.toNat) hx hnone
      rw [List.length_append, List.length_singleton] at hrest
      rw [compressLoop_new hread h, if_pos (by omega), if_pos (by omega), hrest (by omega) (by omega), run_error_bind]

section
variable {s : State} {x : List Byte} (hx : Memory.holds s.inp.mem 0 x) (hnone : Memory.get s.inp.mem x.length = none)
  (hlen : x.length < s.inp.len.toNat) (hcap : s.inp.len.toNat ≤ s.caps.inCap)
include hx hnone hlen hcap

theorem analyzeRule_unwritten : analyzeRule s = .fault (.unwrittenIn x.length) := by
  have hread := readRange_unwritten s.inp.mem .unwrittenIn 0 s.inp.len.toNat x hx
  rw [Nat.zero_add] at hread
  exact ofRun_of_fault (by rw [analyzeRun_eq, if_pos hcap, readInRange, hread hnone hlen, run_error_bind])

theorem encodeRule_unwritten (hmapped : ∀ c ∈ x, codeOf s.ctab c ≠ [])
    (hbits : (x.flatMap (codeOf s.ctab)).length ≤ s.caps.bitsCap) :
    encodeRule s = .fault (.unwrittenIn x.length) := by
  obtain ⟨n, hn⟩ : ∃ n, s.inp.len.toNat = x.length + (n + 1) := ⟨s.inp.len.toNat - x.length - 1, by omega⟩
  refine ofRun_of_fault ?_
  rw [encodeRun_eq, if_pos hcap, hn]
  refine encodeLoop_error_after hx hmapped (by rwa [Nat.zero_add]) ?_
  rw [Nat.zero_add, encodeLoop, readIn_unwritten hnone, run_error_bind]

theorem lzwCompressRule_unwritten (hcodes : x.length ≤ s.caps.codesCap) (hdict : x.length ≤ s.caps.dictCap) :
    lzwCompressRule s = .fault (.unwrittenIn x.length) := by
  obtain ⟨n, hn⟩ : ∃ n, s.inp.len.toNat = x.length + (n + 1) := ⟨s.inp.len.toNat - x.length - 1, by omega⟩
  rw [lzwCompressRule, if_pos hcap, hn]
  refine ofRun_of_fault ?_
  cases x with
  | nil =>
    rw [List.length_nil] at hnone ⊢
    rw [Nat.zero_add, compressLoop, readIn_unwritten hnone, run_error_bind]
  | cons c x =>
    obtain ⟨hget, hx⟩ := hx
    rw [List.length_cons] at hnone hcodes hdict ⊢
    have hrest := compressLoop_unwritten (n := n) (i := 1) (w := c.toNat) (d := []) hx (by rwa [Nat.add_comm])
    rw [List.length_nil, Nat.zero_add, Nat.add_comm 1] at hrest
    rw [Nat.add_right_comm, compressLoop, (readIn_ok s 0 c).mpr hget, run_ok_bind]
    exact hrest (by omega) (by omega)

end

/-! ## BITS -/

section
variable {s : State} {a : Nat} (hbelow : ∀ b, b < a → Memory.get s.bits.mem b ≠ none)
  (hnone : Memory.get s.bits.mem a = none)
include hbelow hnone

/-- The scan of DECODE has emitted at most a symbol a bit, so OUT is not full before the first unlisted byte. -/
theorem decodeLoop_unwritten {n i o : Nat} {p : BitString} (hi : i ≤ 8 * a) (hn : 8 * a < i + n)
    (hout : o + 8 * a ≤ s.caps.outCap + i) : decodeLoop s n i p o = .error (.fault (.unwrittenBits a)) := by
  induction n generalizing i o p with
  | zero => omega
  | succ n ih =>
    rw [decodeLoop]
    obtain rfl | hlt := Nat.eq_or_lt_of_le hi
    · have hdiv : 8 * a / 8 = a := Nat.mul_div_cancel_left a (by decide)
      rw [readBit_unwritten (by rwa [hdiv]), hdiv, run_error_bind]
    · obtain ⟨y, hy⟩ := Option.ne_none_iff_exists'.mp (hbelow (i / 8) (by omega))
      have hread : readBit s i = .ok (y.getLsbD (7 - i % 8)) := by rw [readBit, hy]
      simp only [hread, run_ok_bind]
      split
      · have hroom : o ≠ s.caps.outCap := by omega
        rw [decide_eq_true hroom, check_true, run_ok_bind, ih (by omega) (by omega) (by omega), run_error_bind]
      · exact ih (by omega) (by omega) (by omega)

variable (hlen : 8 * a < s.bits.len.toNat) (hcap : s.bits.len.toNat ≤ s.caps.bitsCap)
include hlen hcap

theorem packRule_unwritten (hpayload : ceilDiv8 s.bits.len.toNat ≤ s.caps.payloadCap) :
    packRule s = .fault (.unwrittenBits a) := by
  have hread := readRange_first_unwritten .unwrittenBits hbelow hnone (n := ceilDiv8 s.bits.len.toNat)
    (by unfold ceilDiv8; omega)
  refine ofRun_of_fault ?_
  rw [packRun_eq, if_pos hcap, if_pos hpayload, readBitString, hread, run_error_bind, run_error_bind]

theorem decodeRule_unwritten (hout : 8 * a ≤ s.caps.outCap) : decodeRule s = .fault (.unwrittenBits a) := by
  rw [decodeRule, if_pos hcap]
  exact ofRun_of_fault (decodeLoop_unwritten hbelow hnone (Nat.zero_le _) (by omega) (by omega))

end

/-! ## PAYLOAD -/

section
variable {s : State} {a : Nat} (hbelow : ∀ b, b < a → Memory.get s.payload.mem b ≠ none)
  (hnone : Memory.get s.payload.mem a = none) (hlen : a < s.payload.len.toNat)
include hbelow hnone hlen

theorem readPayload_unwritten : readPayload s s.payload.len.toNat = .error (.fault (.unwrittenPayload a)) :=
  readRange_first_unwritten .unwrittenPayload hbelow hnone hlen

variable (hcap : s.payload.len.toNat ≤ s.caps.payloadCap)
include hcap

theorem unpackRule_unwritten (hbits : 8 * s.payload.len.toNat - s.pad.toNat ≤ s.caps.bitsCap) :
    unpackRule s = .fault (.unwrittenPayload a) := by
  refine ofRun_of_fault ?_
  rw [unpackRun_eq, if_pos hcap, if_neg (by omega), if_pos hbits, readPayload_unwritten hbelow hnone hlen, run_error_bind]

theorem serializeTableRun_unwritten (tag : Byte) (hctab : s.ctab.ctabN ≠ 0)
    (hroom : 11 + (s.ctab.codes.map fun c => 2 + ceilDiv8 c.2.length).sum + s.payload.len.toNat ≤ s.caps.outCap) :
    serializeTableRun tag s = .error (.fault (.unwrittenPayload a)) := by
  have hne : s.payload.len ≠ 0 := fun h => by rw [h] at hlen; exact Nat.not_lt_zero _ hlen
  rw [serializeTableRun_eq, if_pos hcap, if_pos fun h => absurd h hne, if_pos fun h => absurd h hctab, if_pos hroom,
    readPayload_unwritten hbelow hnone hlen, run_error_bind]

end

/-! ## CODES -/

theorem readCodes_unwritten {s : State} {ws : List Word} {j n : Nat}
    (hread : ∀ i, i < ws.length → codeAt s (j + i) = ws[i]?) (hnone : codeAt s (j + ws.length) = none)
    (hn : ws.length < n) : readCodes s j n = .error (.fault (.unwrittenCodes (j + ws.length))) := by
  obtain ⟨n, rfl⟩ := Nat.exists_eq_succ_of_ne_zero (Nat.ne_zero_of_lt hn)
  induction ws generalizing j n with
  | nil =>
    rw [List.length_nil, Nat.add_zero] at hnone ⊢
    rw [readCodes, readCode_unwritten hnone, run_error_bind]
  | cons w ws ih =>
    have hnext : j + (w :: ws).length = j + 1 + ws.length := by rw [List.length_cons]; omega
    rw [hnext] at hnone ⊢
    obtain ⟨n, rfl⟩ : ∃ m, n = m + 1 := ⟨n - 1, by simp at hn; omega⟩
    have hrest := ih (j := j + 1) (fun i hi => ?_) hnone n (by simpa using hn)
    · rw [readCodes, (readCode_ok s j w).mpr (hread 0 (by simp)), run_ok_bind, hrest, run_error_bind]
    · simpa [Nat.add_assoc, Nat.add_comm 1] using hread (i + 1) (by simpa using hi)

section
variable {s : State} {ws : List Word} (hread : ∀ j, j < ws.length → codeAt s j = ws[j]?)
  (hnone : codeAt s ws.length = none) (hlen : ws.length < s.codes.len.toNat)
  (hcap : s.codes.len.toNat ≤ s.caps.codesCap)
include hread hnone hlen hcap

theorem serializeLzwRule_unwritten (hroom : 9 + 4 * s.codes.len.toNat ≤ s.caps.outCap) :
    serializeLzwRule s = .fault (.unwrittenCodes ws.length) := by
  have hcodes := readCodes_unwritten (j := 0) (ws := ws) (by simpa using hread) (by rwa [Nat.zero_add]) hlen
  rw [Nat.zero_add] at hcodes
  exact ofRun_of_fault (by rw [serializeLzwRun_eq, if_pos hcap, if_pos hroom, hcodes, run_error_bind])

/-- Over resolvable codes with room every step succeeds, up to the code that nothing has written (44_lzw R241). -/
theorem lzwDecompressRule_unwritten {d : List DictEntry} (hres : lzwResolvable (ws.map BitVec.toNat))
    (hd : lzwDict (ws.map BitVec.toNat) d) (hdict : d.length ≤ s.caps.dictCap)
    (hout : (spelled d ws).length ≤ s.caps.outCap) : lzwDecompressRule s = .fault (.unwrittenCodes ws.length) := by
  obtain ⟨n, hn⟩ : ∃ n, s.codes.len.toNat = ws.length + (n + 1) := ⟨s.codes.len.toNat - ws.length - 1, by omega⟩
  rw [lzwDecompressRule, if_pos hcap, hn]
  refine ofRun_of_fault ?_
  cases ws with
  | nil =>
    rw [List.length_nil] at hnone ⊢
    rw [Nat.zero_add, decompressRun, readCode_unwritten hnone, run_error_bind]
  | cons w ks =>
    have hks : d.length = ks.length := by simpa using hd.1
    rw [List.length_cons] at hread hnone ⊢
    rw [decompressRun_codes (rest := []) hres hd (by simp) hread hout (by omega), decompressLoop,
      readCode_unwritten hnone, run_error_bind, run_error_bind]

end

end Sys2Proof.Machine
end

section
/-! PROOFS of 70_reset_and_hazards.md R376, DESERIALIZE: it reads IN in the order of its offsets, so that an artifact cut
off at the first unlisted byte stops it there (45_container R270). -/

namespace Sys2Proof.Machine

/-! ## Reading in order up to the first unwritten byte -/

/-- What a computation answers that reads IN in order, below offset `j` only, and gives `v` where all of it is written: with
`a` the first unwritten byte, `v` or the fault at `a`. -/
def cutAt {α : Type} (a j : Nat) (v : α) : Run α := if j ≤ a then .ok v else .error (.fault (.unwrittenIn a))

section
variable {α β : Type} {a j k : Nat} {v : α} {w : β}

theorem cutAt_of_le (h : j ≤ a) : cutAt a j v = .ok v := if_pos h

theorem cutAt_of_lt (h : a < j) : cutAt a j v = .error (.fault (.unwrittenIn a)) := if_neg (Nat.not_le.mpr h)

/-- A computation that goes on reading at `j`, behind one that read up to `j`. -/
theorem cutAt_bind {x : Run α} {f : α → Run β} (hx : x = cutAt a j v) (hle : j ≤ k)
    (hf : j ≤ a → f v = cutAt a k w) : (x >>= f) = cutAt a k w := by
  subst hx
  by_cases hj : j ≤ a
  · rw [cutAt_of_le hj, run_ok_bind, hf hj]
  · rw [cutAt_of_lt (Nat.not_le.mp hj), cutAt_of_lt (by omega), run_error_bind]

theorem check_bind_of_true {ok : Bool} {code : ErrCode} {info : Nat} {f : Unit → Run β} {r : Run β} (hok : ok = true)
    (hf : f () = r) : (check ok code info >>= f) = r := by
  rw [hok, check_true, run_ok_bind, hf]

end

/-- IN with other contents and the same length. -/
def State.withInput (s : State) (m : Memory Byte) : State := { s with inp := ⟨m, s.inp.len⟩ }

/-- Byte `a` of IN is not written, and the bytes before it are those of `m`. -/
structure CutOff (s : State) (m : Memory Byte) (a : Nat) : Prop where
  before : ∀ i, i < a → Memory.get s.inp.mem i = Memory.get m i
  unwritten : Memory.get s.inp.mem a = none

section
variable {s : State} {m : Memory Byte} {a : Nat} (hcut : CutOff s m a)
include hcut

theorem CutOff.readRange {i n : Nat} {xs : List Byte} (hi : i ≤ a) (h : readRange m .unwrittenIn i n = .ok xs) :
    readRange s.inp.mem .unwrittenIn i n = cutAt a (i + n) xs := by
  induction n generalizing i xs with
  | zero =>
    cases h
    exact (cutAt_of_le hi).symm
  | succ n ih =>
    obtain rfl | hlt := Nat.eq_or_lt_of_le hi
    · rw [cutAt_of_lt (by omega)]
      simp only [Machine.readRange, hcut.unwritten]
    · cases hget : Memory.get m i with
      | none => simp [Machine.readRange, hget] at h
      | some b =>
        simp only [Machine.readRange, hget, hcut.before i hlt, run_bind_ok, run_pure, Except.ok.injEq] at h ⊢
        obtain ⟨rest, hrest, rfl⟩ := h
        exact cutAt_bind (ih hlt hrest) (by omega) fun hle => (cutAt_of_le (by omega)).symm

theorem CutOff.readInRange {i n : Nat} {xs : List Byte} (h : readInRange (s.withInput m) i n = .ok xs) (hi : i ≤ a) :
    readInRange s i n = cutAt a (i + n) xs :=
  hcut.readRange hi h

theorem CutOff.readIn {i : Nat} {b : Byte} (h : readIn (s.withInput m) i = .ok b) (hi : i ≤ a) :
    readIn s i = cutAt a (i + 1) b := by
  obtain rfl | hlt := Nat.eq_or_lt_of_le hi
  · rw [cutAt_of_lt (by omega), readIn_unwritten hcut.unwritten]
  · rw [cutAt_of_le hlt, readIn_ok, hcut.before i hlt]
    exact (readIn_ok _ i b).mp h

/-! ## The parts of DESERIALIZE -/

theorem CutOff.parseHeader {hd : Byte × Nat × Nat} (h : parseHeader (s.withInput m) = .ok hd) :
    parseHeader s = cutAt a 9 hd := by
  simp only [Machine.parseHeader, run_bind_ok, check_ok, run_pure, Except.ok.injEq] at h ⊢
  obtain ⟨-, hcap, -, hnine, b0, hb0, -, h0, b1, hb1, -, h1, b2, hb2, -, h2, tag, htag, -, h3, pad, hpad, -, h4, -, h5,
    len, hlen, -, h6, rfl⟩ := h
  exact check_bind_of_true hcap <| check_bind_of_true hnine <|
    cutAt_bind (hcut.readIn hb0 (Nat.zero_le a)) (by decide) fun ha => check_bind_of_true h0 <|
    cutAt_bind (hcut.readIn hb1 ha) (by decide) fun ha => check_bind_of_true h1 <|
    cutAt_bind (hcut.readIn hb2 ha) (by decide) fun ha => check_bind_of_true h2 <|
    cutAt_bind (hcut.readIn htag ha) (by decide) fun ha => check_bind_of_true h3 <|
    cutAt_bind (hcut.readIn hpad ha) (by decide) fun ha => check_bind_of_true h4 <| check_bind_of_true h5 <|
    cutAt_bind (hcut.readInRange hlen ha) (by decide) fun ha => check_bind_of_true h6 (cutAt_of_le ha).symm

theorem CutOff.parseCodes {i n : Nat} {ws : List Word} (h : parseCodes (s.withInput m) i n = .ok ws) (hi : i ≤ a) :
    parseCodes s i n = cutAt a (i + 4 * n) ws := by
  induction n generalizing i ws with
  | zero =>
    cases h
    exact (cutAt_of_le hi).symm
  | succ n ih =>
    simp only [Machine.parseCodes, run_bind_ok, run_pure, Except.ok.injEq] at h ⊢
    obtain ⟨bytes, hbytes, rest, hrest, rfl⟩ := h
    exact cutAt_bind (hcut.readInRange hbytes hi) (by omega) fun ha =>
      cutAt_bind (ih hrest ha) (by omega) fun ha => (cutAt_of_le (by omega)).symm

theorem CutOff.parseCodeList {len : Nat} {ws : List Word} (h : parseCodeList (s.withInput m) len = .ok ws)
    (hnine : 9 ≤ a) : parseCodeList s len = cutAt a s.inp.len.toNat ws := by
  simp only [Machine.parseCodeList, run_bind_ok, check_ok] at h ⊢
  obtain ⟨-, h4, -, hshort, -, hlong, -, hroom, hws⟩ := h
  have hend : 9 + 4 * (len / 4) = s.inp.len.toNat := by
    have hwords : len % 4 = 0 := of_decide_eq_true h4
    have hend : 9 + len = s.inp.len.toNat := le_antisymm (of_decide_eq_true hshort) (of_decide_eq_true hlong)
    omega
  exact check_bind_of_true h4 <| check_bind_of_true hshort <| check_bind_of_true hlong <| check_bind_of_true hroom <|
    hend ▸ hcut.parseCodes hws hnine

/-- The entries are read in order, from offset `pos` to the offset that the loop answers. -/
theorem CutOff.parseEntries {n count pos : Nat} {t : Memory BitString} {r : Memory BitString × Nat}
    (h : parseEntries (s.withInput m) n count pos t = .ok r) :
    pos ≤ r.2 ∧ (pos ≤ a → parseEntries s n count pos t = cutAt a r.2 r) := by
  induction count generalizing pos t with
  | zero =>
    cases h
    exact ⟨le_rfl, fun hpos => (cutAt_of_le hpos).symm⟩
  | succ count ih =>
    simp only [Machine.parseEntries, run_bind_ok, check_ok] at h ⊢
    obtain ⟨-, htwo, sym, hsym, len, hlen, -, habove, -, hne, -, hroom, bytes, hbytes, -, hzero, -, hfree, hrest⟩ := h
    obtain ⟨hle, hrest⟩ := ih hrest
    refine ⟨by omega, fun hpos => check_bind_of_true htwo ?_⟩
    exact cutAt_bind (hcut.readIn hsym hpos) (by omega) fun ha => cutAt_bind (hcut.readIn hlen ha) (by omega) fun ha =>
      check_bind_of_true habove <| check_bind_of_true hne <| check_bind_of_true hroom <|
      cutAt_bind (hcut.readInRange hbytes ha) (by omega) fun ha => check_bind_of_true hzero <|
      check_bind_of_true hfree (hrest ha)

theorem CutOff.parseTable {len : Nat} {r : Memory BitString × List Byte}
    (h : parseTable (s.withInput m) len = .ok r) (hnine : 9 ≤ a) : parseTable s len = cutAt a s.inp.len.toNat r := by
  simp only [Machine.parseTable, run_bind_ok, check_ok, run_pure, Except.ok.injEq] at h ⊢
  obtain ⟨-, heleven, count, hcount, -, hmax, q, hq, -, hnone, -, hshort, -, hlong, -, hroom, body, hbody, rfl⟩ := h
  obtain ⟨hle, hentries⟩ := hcut.parseEntries hq
  have hend : q.2 + len = s.inp.len.toNat := le_antisymm (of_decide_eq_true hshort) (of_decide_eq_true hlong)
  exact check_bind_of_true heleven <| cutAt_bind (hcut.readInRange hcount hnine) (by omega) fun ha =>
    check_bind_of_true hmax <| cutAt_bind (hentries ha) (by omega) fun ha => check_bind_of_true hnone <|
    check_bind_of_true hshort <| check_bind_of_true hlong <| check_bind_of_true hroom <|
    cutAt_bind (hcut.readInRange hbody ha) hend.le fun ha => (cutAt_of_le (hend ▸ ha)).symm

/-! ## The command -/

/-- A text that DESERIALIZE accepts when it is written stops it at its first unwritten byte. -/
theorem CutOff.deserializeRule {u : State} (h : deserializeRun (s.withInput m) = .ok u) (ha : a < s.inp.len.toNat) :
    deserializeRule s = .fault (.unwrittenIn a) := by
  refine ofRun_of_fault ?_
  obtain ⟨hd, hhd, hrest⟩ := (run_bind_ok _ _ _).mp h
  have hheader := hcut.parseHeader hhd
  rw [deserializeRun, hheader]
  by_cases hnine : 9 ≤ a
  · rw [cutAt_of_le hnine, run_ok_bind]
    split at hrest
    · rename_i htag
      obtain ⟨ws, hws, -⟩ := (run_bind_ok _ _ _).mp hrest
      rw [if_pos htag, hcut.parseCodeList hws hnine, cutAt_of_lt ha, run_error_bind]
    · rename_i htag
      obtain ⟨r, hr, -⟩ := (run_bind_ok _ _ _).mp hrest
      rw [if_neg htag, hcut.parseTable hr hnine, cutAt_of_lt ha, run_error_bind]
  · rw [cutAt_of_lt (Nat.not_le.mp hnine), run_error_bind]

end

/-- A text that IN holds up to its first unwritten byte. -/
theorem cutOff_of_holds {s : State} {x : List Byte} (hx : Memory.holds s.inp.mem 0 x)
    (hnone : Memory.get s.inp.mem x.length = none) (y : List Byte) : CutOff s (Memory.cells 0 (x ++ y)) x.length := by
  refine ⟨fun i hi => ?_, hnone⟩
  have hget := (Memory.holds_iff _ _ _).mp hx i hi
  have hget' := (Memory.holds_iff _ _ _).mp (Memory.holds_cells 0 (x ++ y)) i (by rw [List.length_append]; omega)
  rw [Nat.zero_add] at hget hget'
  rw [hget, hget', List.getElem?_append_left hi]

/-- 45_container R270, 70_reset R376: an artifact of either kind, cut off at its first unwritten byte. -/
theorem deserializeRule_unwritten {s : State} {x y : List Byte} (hx : Memory.holds s.inp.mem 0 x)
    (hnone : Memory.get s.inp.mem x.length = none) (hy : y ≠ []) (hlen : s.inp.len.toNat = (x ++ y).length)
    (hcap : s.inp.len.toNat ≤ s.caps.inCap)
    (hart : (∃ (tag : Byte) (pad : BitVec 3) (t : Memory BitString) (z : List Byte), (tag = 1 ∨ tag = 2) ∧ CodesOk t ∧
        PartsOk s.caps.payloadCap pad t z ∧ x ++ y = tableArtifact tag pad t z) ∨
      ∃ ws : List Word, ws.length ≤ s.caps.codesCap ∧ x ++ y = codesArtifact ws) :
    deserializeRule s = .fault (.unwrittenIn x.length) := by
  have hcut := cutOff_of_holds hx hnone y
  have htext : inText (s.withInput (Memory.cells 0 (x ++ y))) (x ++ y) := ⟨hlen, Memory.holds_cells 0 (x ++ y)⟩
  have hmore : x.length < s.inp.len.toNat := by
    rw [hlen, List.length_append]
    exact Nat.lt_add_of_pos_right (List.length_pos_iff.mpr hy)
  obtain ⟨tag, pad, t, z, htag, ht, hparts, he⟩ | ⟨ws, hws, he⟩ := hart
  · exact hcut.deserializeRule (deserializeRun_of_tableArtifact (he ▸ htext) hcap htag ht hparts) hmore
  · exact hcut.deserializeRule (deserializeRun_of_codesArtifact (he ▸ htext) hcap hws) hmore

theorem decompressRule_of_deserialize_fault {s : State} {f : Fault} (h : deserializeRule s = .fault f) :
    decompressRule s = .fault f := by
  rw [decompressRule, h, andThen_fault, andThen_fault]

end Sys2Proof.Machine
end

section
/-! PROOFS for 70_reset_and_hazards.md R376, the converse: every fault of a command's computation names an element of the
buffer it reads, below the length register, that holds nothing. -/

namespace Sys2Proof.Machine

/-! ## Elements that hold nothing -/

/-- The fault names a byte of IN that nothing has written. -/
def InUnwritten (s : State) (f : Fault) : Prop :=
  ∃ a, f = .unwrittenIn a ∧ a < s.inp.len.toNat ∧ Memory.get s.inp.mem a = none

/-- The fault names a storage byte of BITS that nothing has written. -/
def BitsUnwritten (s : State) (f : Fault) : Prop :=
  ∃ a, f = .unwrittenBits a ∧ 8 * a < s.bits.len.toNat ∧ Memory.get s.bits.mem a = none

/-- The fault names a byte of PAYLOAD that nothing has written. -/
def PayloadUnwritten (s : State) (f : Fault) : Prop :=
  ∃ a, f = .unwrittenPayload a ∧ a < s.payload.len.toNat ∧ Memory.get s.payload.mem a = none

/-- The fault names a word of CODES that holds nothing. -/
def CodesUnwritten (s : State) (f : Fault) : Prop :=
  ∃ a, f = .unwrittenCodes a ∧ a < s.codes.len.toNat ∧ codeAt s a = none

/-- The fault names an element below its length register that holds nothing (70_reset R376). -/
def OperandUnwritten (s : State) (f : Fault) : Prop :=
  InUnwritten s f ∨ BitsUnwritten s f ∨ PayloadUnwritten s f ∨ CodesUnwritten s f

section
variable {s : State} {f : Fault}

theorem OperandUnwritten.of_in (h : InUnwritten s f) : OperandUnwritten s f := .inl h

theorem OperandUnwritten.of_bits (h : BitsUnwritten s f) : OperandUnwritten s f := .inr (.inl h)

theorem OperandUnwritten.of_payload (h : PayloadUnwritten s f) : OperandUnwritten s f := .inr (.inr (.inl h))

theorem OperandUnwritten.of_codes (h : CodesUnwritten s f) : OperandUnwritten s f := .inr (.inr (.inr h))

end

theorem not_bitsUnwritten_of_bitText {s : State} {b : BitString} (h : bitText s b) (f : Fault) :
    ¬BitsUnwritten s f := by
  rintro ⟨a, -, hlt, hnone⟩
  obtain ⟨y, hy, -⟩ := h.2 (8 * a) (h.1 ▸ hlt)
  rw [Nat.mul_div_cancel_left a (by decide), hnone] at hy
  cases hy

theorem not_payloadUnwritten_of_payloadText {s : State} {x : List Byte} (h : payloadText s x) (f : Fault) :
    ¬PayloadUnwritten s f := by
  rintro ⟨a, -, hlt, hnone⟩
  have hlt' : a < x.length := h.1 ▸ hlt
  rw [h.get hlt', List.getElem?_eq_getElem hlt'] at hnone
  cases hnone

theorem not_codesUnwritten_of_codeList {s : State} {ws : List Word} (h : codeList s ws) (f : Fault) :
    ¬CodesUnwritten s f := by
  rintro ⟨a, -, hlt, hnone⟩
  have hlt' : a < ws.length := h.1 ▸ hlt
  rw [h.2 a hlt', List.getElem?_eq_getElem hlt'] at hnone
  cases hnone

/-! ## The faults of a computation -/

/-- Every fault of the computation is one of `F`; it may also raise an error. -/
def faultsOnly {α : Type} (F : Fault → Prop) (r : Run α) : Prop := ∀ f, r = .error (.fault f) → F f

section
variable {α β : Type} {F : Fault → Prop}

theorem faultsOnly_ok (a : α) : faultsOnly F (.ok a : Run α) := by
  rintro f ⟨⟩

theorem faultsOnly_error (code : ErrCode) (info : Nat) : faultsOnly F (.error (.error code info) : Run α) := by
  rintro f ⟨⟩

theorem faultsOnly_bind {x : Run α} {g : α → Run β} (hx : faultsOnly F x) (hg : ∀ a, x = .ok a → faultsOnly F (g a)) :
    faultsOnly F (x >>= g) := fun f h => by
  obtain hxf | ⟨a, ha, hgf⟩ := (run_bind_error _ _ _).mp h
  · exact hx f hxf
  · exact hg a ha f hgf

/-- What follows a check matters only when the check passes. -/
theorem faultsOnly_check_bind {ok : Bool} {code : ErrCode} {info : Nat} {g : Unit → Run β}
    (hg : ok = true → faultsOnly F (g ())) : faultsOnly F (check ok code info >>= g) := by
  rw [check_bind]
  split
  · rename_i hok
    exact hg hok
  · exact faultsOnly_error _ _

theorem faultsOnly_readRange {m : Memory α} {bad : Nat → Fault} {a n : Nat}
    (h : ∀ b, a ≤ b → b < a + n → Memory.get m b = none → F (bad b)) : faultsOnly F (readRange m bad a n) := by
  intro f hf
  obtain ⟨xs, hr, -, -⟩ | ⟨b, hle, hlt, hnone, hr⟩ := readRange_cases m bad a n <;> rw [hr] at hf <;> cases hf
  exact h b hle hlt hnone

end

section
variable {s : State}

theorem readIn_faultsOnly {i : Nat} (hi : i < s.inp.len.toNat) : faultsOnly (InUnwritten s) (readIn s i) := by
  intro f hf
  cases hget : Memory.get s.inp.mem i with
  | none =>
    rw [readIn_unwritten hget] at hf
    cases hf
    exact ⟨i, rfl, hi, hget⟩
  | some b =>
    rw [(readIn_ok s i b).mpr hget] at hf
    cases hf

theorem readInRange_faultsOnly {a n : Nat} (h : a + n ≤ s.inp.len.toNat) :
    faultsOnly (InUnwritten s) (readInRange s a n) :=
  faultsOnly_readRange fun b _ hb hnone => ⟨b, rfl, by omega, hnone⟩

theorem readBit_faultsOnly {i : Nat} (hi : i < s.bits.len.toNat) : faultsOnly (BitsUnwritten s) (readBit s i) := by
  intro f hf
  cases hget : Memory.get s.bits.mem (i / 8) with
  | none =>
    rw [readBit_unwritten hget] at hf
    cases hf
    exact ⟨i / 8, rfl, by omega, hget⟩
  | some b =>
    rw [readBit, hget] at hf
    cases hf

theorem readPayload_faultsOnly : faultsOnly (PayloadUnwritten s) (readPayload s s.payload.len.toNat) :=
  faultsOnly_readRange fun b _ hb hnone => ⟨b, rfl, by omega, hnone⟩

theorem readCode_faultsOnly {j : Nat} (hj : j < s.codes.len.toNat) : faultsOnly (CodesUnwritten s) (readCode s j) := by
  intro f hf
  cases hget : codeAt s j with
  | none =>
    rw [readCode_unwritten hget] at hf
    cases hf
    exact ⟨j, rfl, hj, hget⟩
  | some w =>
    rw [(readCode_ok s j w).mpr hget] at hf
    cases hf

theorem readCodes_faultsOnly {j n : Nat} (h : j + n ≤ s.codes.len.toNat) :
    faultsOnly (CodesUnwritten s) (readCodes s j n) := by
  induction n generalizing j with
  | zero => exact faultsOnly_ok _
  | succ n ih =>
    exact faultsOnly_bind (readCode_faultsOnly (by omega)) fun _ _ =>
      faultsOnly_bind (ih (by omega)) fun _ _ => faultsOnly_ok _

/-! ## The computations of the commands -/

theorem packRun_faultsOnly (s : State) : faultsOnly (BitsUnwritten s) (packRun s) :=
  faultsOnly_check_bind fun _ => faultsOnly_check_bind fun _ => faultsOnly_bind
    (faultsOnly_bind (faultsOnly_readRange fun b _ hb hnone => ⟨b, rfl, by unfold ceilDiv8 at hb; omega, hnone⟩)
      fun _ _ => faultsOnly_ok _)
    fun _ _ => faultsOnly_ok _

theorem unpackRun_faultsOnly (s : State) : faultsOnly (PayloadUnwritten s) (unpackRun s) :=
  faultsOnly_check_bind fun _ => faultsOnly_check_bind fun _ => faultsOnly_check_bind fun _ =>
    faultsOnly_bind readPayload_faultsOnly fun _ _ => faultsOnly_ok _

theorem analyzeRun_faultsOnly (s : State) : faultsOnly (InUnwritten s) (analyzeRun s) :=
  faultsOnly_check_bind fun _ =>
    faultsOnly_bind (readInRange_faultsOnly (Nat.zero_add _).le) fun _ _ => faultsOnly_ok _

theorem encodeLoop_faultsOnly {n i total : Nat} (h : i + n ≤ s.inp.len.toNat) :
    faultsOnly (InUnwritten s) (encodeLoop s n i total) := by
  induction n generalizing i total with
  | zero => exact faultsOnly_ok _
  | succ n ih =>
    exact faultsOnly_bind (readIn_faultsOnly (by omega)) fun _ _ => faultsOnly_check_bind fun _ =>
      faultsOnly_check_bind fun _ => faultsOnly_bind (ih (by omega)) fun _ _ => faultsOnly_ok _

theorem encodeRun_faultsOnly (s : State) : faultsOnly (InUnwritten s) (encodeRun s) :=
  faultsOnly_check_bind fun _ => encodeLoop_faultsOnly (Nat.zero_add _).le

theorem decodeLoop_faultsOnly {n i o : Nat} {p : BitString} (h : i + n ≤ s.bits.len.toNat) :
    faultsOnly (BitsUnwritten s) (decodeLoop s n i p o) := by
  induction n generalizing i p o with
  | zero => exact faultsOnly_ok _
  | succ n ih =>
    refine faultsOnly_bind (readBit_faultsOnly (by omega)) fun _ _ => ?_
    dsimp only
    split
    · exact faultsOnly_check_bind fun _ => faultsOnly_bind (ih (by omega)) fun _ _ => faultsOnly_ok _
    · exact ih (by omega)

theorem compressLoop_faultsOnly {n i m : Nat} {d : List DictEntry} {w : Option Nat} (h : i + n ≤ s.inp.len.toNat) :
    faultsOnly (InUnwritten s) (compressLoop s n i d w m) := by
  induction n generalizing i d w m with
  | zero =>
    cases w with
    | none => exact faultsOnly_ok _
    | some w => exact faultsOnly_check_bind fun _ => faultsOnly_ok _
  | succ n ih =>
    cases w with
    | none => exact faultsOnly_bind (readIn_faultsOnly (by omega)) fun _ _ => ih (by omega)
    | some w =>
      refine faultsOnly_bind (readIn_faultsOnly (by omega)) fun _ _ => ?_
      split
      · exact ih (by omega)
      · exact faultsOnly_check_bind fun _ => faultsOnly_check_bind fun _ =>
          faultsOnly_bind (ih (by omega)) fun _ _ => faultsOnly_ok _

theorem decompressLoop_faultsOnly {n j w o : Nat} {d : List DictEntry} (h : j + n ≤ s.codes.len.toNat) :
    faultsOnly (CodesUnwritten s) (decompressLoop s n j d w o) := by
  induction n generalizing j d w o with
  | zero => exact faultsOnly_ok _
  | succ n ih =>
    exact faultsOnly_bind (readCode_faultsOnly (by omega)) fun _ _ => faultsOnly_check_bind fun _ =>
      faultsOnly_check_bind fun _ => faultsOnly_check_bind fun _ =>
      faultsOnly_bind (ih (by omega)) fun _ _ => faultsOnly_ok _

theorem decompressRun_faultsOnly {m : Nat} (h : m ≤ s.codes.len.toNat) :
    faultsOnly (CodesUnwritten s) (decompressRun s m) := by
  cases m with
  | zero => exact faultsOnly_ok _
  | succ n =>
    exact faultsOnly_bind (readCode_faultsOnly (by omega)) fun _ _ => faultsOnly_check_bind fun _ =>
      faultsOnly_check_bind fun _ =>
      faultsOnly_bind (decompressLoop_faultsOnly (by omega)) fun _ _ => faultsOnly_ok _

theorem serializeTableRun_faultsOnly (tag : Byte) (s : State) :
    faultsOnly (PayloadUnwritten s) (serializeTableRun tag s) :=
  faultsOnly_check_bind fun _ => faultsOnly_check_bind fun _ => faultsOnly_check_bind fun _ =>
    faultsOnly_check_bind fun _ => faultsOnly_bind readPayload_faultsOnly fun _ _ => faultsOnly_ok _

theorem serializeLzwRun_faultsOnly (s : State) : faultsOnly (CodesUnwritten s) (serializeLzwRun s) :=
  faultsOnly_check_bind fun _ => faultsOnly_check_bind fun _ =>
    faultsOnly_bind (readCodes_faultsOnly (Nat.zero_add _).le) fun _ _ => faultsOnly_ok _

/-! ## DESERIALIZE -/

theorem parseHeader_faultsOnly (s : State) : faultsOnly (InUnwritten s) (parseHeader s) := by
  refine faultsOnly_check_bind fun _ => faultsOnly_check_bind fun hnine => ?_
  have hlen : 9 ≤ s.inp.len.toNat := of_decide_eq_true hnine
  have hread (i : Nat) (hi : i < 9) := readIn_faultsOnly (s := s) (hi.trans_le hlen)
  exact faultsOnly_bind (hread 0 (by decide)) fun _ _ => faultsOnly_check_bind fun _ =>
    faultsOnly_bind (hread 1 (by decide)) fun _ _ => faultsOnly_check_bind fun _ =>
    faultsOnly_bind (hread 2 (by decide)) fun _ _ => faultsOnly_check_bind fun _ =>
    faultsOnly_bind (hread 3 (by decide)) fun _ _ => faultsOnly_check_bind fun _ =>
    faultsOnly_bind (hread 4 (by decide)) fun _ _ => faultsOnly_check_bind fun _ => faultsOnly_check_bind fun _ =>
    faultsOnly_bind (readInRange_faultsOnly hlen) fun _ _ => faultsOnly_check_bind fun _ => faultsOnly_ok _

theorem parseCodes_faultsOnly {a n : Nat} (h : a + 4 * n ≤ s.inp.len.toNat) :
    faultsOnly (InUnwritten s) (parseCodes s a n) := by
  induction n generalizing a with
  | zero => exact faultsOnly_ok _
  | succ n ih =>
    exact faultsOnly_bind (readInRange_faultsOnly (by omega)) fun _ _ =>
      faultsOnly_bind (ih (by omega)) fun _ _ => faultsOnly_ok _

theorem parseCodeList_faultsOnly (s : State) (len : Nat) : faultsOnly (InUnwritten s) (parseCodeList s len) := by
  refine faultsOnly_check_bind fun _ => faultsOnly_check_bind fun hroom => faultsOnly_check_bind fun _ =>
    faultsOnly_check_bind fun _ => parseCodes_faultsOnly ?_
  have hlen : 9 + len ≤ s.inp.len.toNat := of_decide_eq_true hroom
  omega

theorem parseEntries_faultsOnly {count pos : Nat} {t : Memory BitString} :
    faultsOnly (InUnwritten s) (parseEntries s s.inp.len.toNat count pos t) := by
  induction count generalizing pos t with
  | zero => exact faultsOnly_ok _
  | succ count ih =>
    refine faultsOnly_check_bind fun htwo => ?_
    have htwo : pos + 2 ≤ s.inp.len.toNat := of_decide_eq_true htwo
    exact faultsOnly_bind (readIn_faultsOnly (by omega)) fun _ _ => faultsOnly_bind (readIn_faultsOnly htwo) fun _ _ =>
      faultsOnly_check_bind fun _ => faultsOnly_check_bind fun _ => faultsOnly_check_bind fun hroom =>
      faultsOnly_bind (readInRange_faultsOnly (of_decide_eq_true hroom)) fun _ _ => faultsOnly_check_bind fun _ =>
      faultsOnly_check_bind fun _ => ih

theorem parseTable_faultsOnly (s : State) (len : Nat) : faultsOnly (InUnwritten s) (parseTable s len) :=
  faultsOnly_check_bind fun heleven =>
    faultsOnly_bind (readInRange_faultsOnly (of_decide_eq_true heleven)) fun _ _ => faultsOnly_check_bind fun _ =>
    faultsOnly_bind parseEntries_faultsOnly fun _ _ => faultsOnly_check_bind fun _ =>
    faultsOnly_check_bind fun hroom => faultsOnly_check_bind fun _ => faultsOnly_check_bind fun _ =>
    faultsOnly_bind (readInRange_faultsOnly (of_decide_eq_true hroom)) fun _ _ => faultsOnly_ok _

theorem deserializeRun_faultsOnly (s : State) : faultsOnly (InUnwritten s) (deserializeRun s) := by
  refine faultsOnly_bind (parseHeader_faultsOnly s) fun _ _ => ?_
  split
  · exact faultsOnly_bind (parseCodeList_faultsOnly s _) fun _ _ => faultsOnly_ok _
  · exact faultsOnly_bind (parseTable_faultsOnly s _) fun _ _ => faultsOnly_ok _

end

end Sys2Proof.Machine
end

section
/-! PROOFS of 70_reset_and_hazards.md R376, the converse: whatever command faults, it names an element below its length
register that holds nothing. In a composite only IN can be unwritten: what a step reads beside it an earlier step wrote. -/

namespace Sys2Proof.Machine

/-! ## How a rule ends -/

/-- A rule that faults gives one of the faults `F`; one that succeeds leaves a state of `P`. -/
def Ending.faultsOr (F : Fault → Prop) (P : State → Prop) : Ending → Prop
  | .done t => P t
  | .raised _ _ _ _ => True
  | .fault f => F f

section
variable {F G : Fault → Prop} {P Q : State → Prop}

theorem Ending.faultsOr_ofRun {α : Type} {sub : Byte} {sErr : State} {r : Run α} {keep : α → State}
    (hF : faultsOnly F r) (hP : ∀ a, r = .ok a → P (keep a)) : (Ending.ofRun sub sErr r keep).faultsOr F P := by
  obtain ⟨a, hr, he⟩ | ⟨code, info, -, he⟩ | ⟨f, hr, he⟩ := ofRun_cases sub sErr r keep <;> rw [he]
  · exact hP a hr
  · trivial
  · exact hF f hr

theorem Ending.faultsOr.andThen {e : Ending} {f : State → Ending} (he : e.faultsOr F P)
    (hf : ∀ a, P a → (f a).faultsOr F Q) : (e.andThen f).faultsOr F Q := by
  cases e with
  | done a => exact hf a he
  | raised code info sub t => trivial
  | fault x => exact he

theorem Ending.faultsOr.mono {e : Ending} (he : e.faultsOr F P) (hF : ∀ f, F f → G f) (hP : ∀ t, P t → Q t) :
    e.faultsOr G Q := by
  cases e with
  | done a => exact hP a he
  | raised code info sub t => trivial
  | fault x => exact hF x he

theorem Ending.faultsOr.weaken {e : Ending} (he : e.faultsOr F P) (hF : ∀ f, F f → G f) :
    e.faultsOr G fun _ => True :=
  he.mono hF fun _ _ => trivial

/-- A rule all of whose operands are written does not fault. -/
theorem Ending.faultsOr.of_written {e : Ending} (he : e.faultsOr G P) (hG : ∀ f, ¬G f) : e.faultsOr F P :=
  he.mono (fun f h => absurd h (hG f)) fun _ => id

end

/-- The state holds the input and the capacities of `s`. -/
structure SameInput (s t : State) : Prop where
  inp : t.inp = s.inp
  caps : t.caps = s.caps

theorem SameInput.refl (s : State) : SameInput s s := ⟨rfl, rfl⟩

theorem SameInput.inUnwritten {s t : State} (h : SameInput s t) (f : Fault) (hf : InUnwritten t f) :
    InUnwritten s f := by
  unfold InUnwritten at hf ⊢
  rwa [h.inp] at hf

/-- 10_state R52: a rule that does not write IN leaves a state with the same input. -/
theorem SameInput.of_keepsOutside {ps : List Part} {s t : State} (h : KeepsOutside ps s t) (hps : .inp ∉ ps) :
    SameInput s t :=
  ⟨h.parts .inp hps, h.caps⟩

/-! ## The rules that read a buffer of their own -/

section
variable {s : State}

theorem analyzeRule_faultsOr (s : State) : (analyzeRule s).faultsOr (InUnwritten s) (SameInput s) :=
  Ending.faultsOr_ofRun (analyzeRun_faultsOnly s) fun _ _ => .of_keepsOutside (freq_update_keepsOutside s _) (by decide)

/-- What a successful ENCODE leaves in BITS is written. -/
theorem encodeRule_faultsOr (hwf : s.caps.wf = true) :
    (encodeRule s).faultsOr (InUnwritten s) fun t => t.caps = s.caps ∧ ∃ b, bitText t b := by
  obtain ⟨-, -, hcap, -⟩ := Caps.wf_lt hwf
  exact Ending.faultsOr_ofRun (encodeRun_faultsOnly s) fun b hb =>
    ⟨rfl, b, (storeBits_bitTextZeroFilled s (Nat.lt_of_le_of_lt (encodeRun_ok_length hb) hcap)).1⟩

/-- What a successful PACK leaves in PAYLOAD is written. -/
theorem packRule_faultsOr (hwf : s.caps.wf = true) :
    (packRule s).faultsOr (BitsUnwritten s) fun t => ∃ x, payloadText t x := by
  obtain ⟨-, -, -, hcap, -⟩ := Caps.wf_lt hwf
  exact Ending.faultsOr_ofRun (packRun_faultsOnly s) fun r hr =>
    ⟨r.1, storePacked_payloadText s r.2 (Nat.lt_of_le_of_lt (packRun_ok_length hr) hcap)⟩

/-- What a successful UNPACK leaves in BITS is written. -/
theorem unpackRule_faultsOr (hwf : s.caps.wf = true) :
    (unpackRule s).faultsOr (PayloadUnwritten s) fun t => ∃ b, bitText t b := by
  obtain ⟨-, -, hcap, -⟩ := Caps.wf_lt hwf
  exact Ending.faultsOr_ofRun (unpackRun_faultsOnly s) fun b hb =>
    ⟨b, (storeBits_bitTextZeroFilled s (Nat.lt_of_le_of_lt (unpackRun_ok_length hb) hcap)).1⟩

theorem decodeRule_faultsOr (s : State) : (decodeRule s).faultsOr (BitsUnwritten s) fun _ => True := by
  rw [decodeRule]
  split
  · exact Ending.faultsOr_ofRun (decodeLoop_faultsOnly (Nat.zero_add _).le) fun _ _ => trivial
  · trivial

/-- What a successful LZW_COMPRESS leaves in CODES is written. -/
theorem lzwCompressRule_faultsOr (hwf : s.caps.wf = true) :
    (lzwCompressRule s).faultsOr (InUnwritten s) fun t => ∃ ws, codeList t ws := by
  obtain ⟨-, -, -, -, hcap, -⟩ := Caps.wf_lt hwf
  rw [lzwCompressRule]
  split
  · refine Ending.faultsOr_ofRun (compressLoop_faultsOnly (Nat.zero_add _).le) fun r hr => ?_
    obtain ⟨-, hcodes, -⟩ := compressLoop_ok hr parentsOk_nil (by simp) (Nat.zero_le _)
    exact ⟨_, storeCompressed_codeList s r.2 (by omega)⟩
  · trivial

theorem lzwDecompressRule_faultsOr (s : State) :
    (lzwDecompressRule s).faultsOr (CodesUnwritten s) fun _ => True := by
  rw [lzwDecompressRule]
  split
  · exact Ending.faultsOr_ofRun (decompressRun_faultsOnly le_rfl) fun _ _ => trivial
  · trivial

/-- SERIALIZE.HUF and SERIALIZE.SF read PAYLOAD. -/
theorem serializeTable_faultsOr (tag : Byte) (s : State) :
    (Ending.ofRun 0x0C s (serializeTableRun tag s) fun a => storeArtifact s tag a).faultsOr (PayloadUnwritten s)
      fun _ => True :=
  Ending.faultsOr_ofRun (serializeTableRun_faultsOnly tag s) fun _ _ => trivial

theorem serializeLzwRule_faultsOr (s : State) :
    (serializeLzwRule s).faultsOr (CodesUnwritten s) fun _ => True :=
  Ending.faultsOr_ofRun (serializeLzwRun_faultsOnly s) fun _ _ => trivial

/-- What DECOMPRESS goes on with after DESERIALIZE: a code list or a payload that is written (45_container R270). -/
def HoldsParts (t : State) : Prop :=
  (t.artKind = 3 ∧ ∃ ws, codeList t ws) ∨ (t.artKind ≠ 3 ∧ ∃ x, payloadText t x)

theorem deserializeRun_ok_holdsParts {u : State} (hwf : s.caps.wf = true) (h : deserializeRun s = .ok u) :
    HoldsParts u := by
  obtain ⟨-, -, -, hpayload, hcodes, -⟩ := Caps.wf_lt hwf
  obtain ⟨hd, -, h⟩ := (run_bind_ok _ _ _).mp h
  split at h
  · obtain ⟨ws, hws, ⟨⟩⟩ := (run_bind_ok _ _ _).mp h
    have hlen := parseCodeList_ok_length hws
    exact .inl ⟨rfl, ws, storeParsedCodes_codeList s (by omega)⟩
  · rename_i htag
    obtain ⟨r, hr, ⟨⟩⟩ := (run_bind_ok _ _ _).mp h
    exact .inr ⟨htag, r.2, storeParsedTable_payloadText s hd.1 hd.2.1 r.1
      (Nat.lt_of_le_of_lt (parseTable_ok hr).2 hpayload)⟩

theorem deserializeRule_faultsOr (hwf : s.caps.wf = true) :
    (deserializeRule s).faultsOr (InUnwritten s) fun t => t.caps = s.caps ∧ HoldsParts t := by
  refine Ending.faultsOr_ofRun (deserializeRun_faultsOnly s) fun u hu => ⟨?_, deserializeRun_ok_holdsParts hwf hu⟩
  obtain ⟨ws, rfl⟩ | ⟨tag, pad, t, x, rfl⟩ := deserializeRun_ok_stores hu <;> rfl

/-! ## The composites -/

theorem compressStart_faultsOr (F : Fault → Prop) (s : State) : (compressStart s).faultsOr F (SameInput s) :=
  Ending.faultsOr_ofRun (faultsOnly_check_bind fun _ f h => by cases ((check_error ..).mp h).2) fun _ _ => .refl s

/-- ENCODE, PACK and a SERIALIZE after the codes have been built from the input (46_top_level R302). -/
theorem encodeSteps_faultsOr {u : State} (hwf : s.caps.wf = true) (hu : SameInput s u) {serialize : State → Ending}
    (hser : ∀ a, (serialize a).faultsOr (PayloadUnwritten a) fun _ => True) :
    ((encodeRule u).andThen fun a => (packRule a).andThen serialize).faultsOr (InUnwritten s) fun _ => True := by
  have hwf' : u.caps.wf = true := hu.caps ▸ hwf
  refine ((encodeRule_faultsOr hwf').mono hu.inUnwritten fun _ => id).andThen ?_
  rintro a ⟨hcaps, b, hb⟩
  refine ((packRule_faultsOr (hcaps ▸ hwf')).of_written (not_bitsUnwritten_of_bitText hb)).andThen ?_
  rintro c ⟨x, hx⟩
  exact (hser c).of_written (not_payloadUnwritten_of_payloadText hx)

theorem stepsRule_compressHuf_faultsOr (hwf : s.caps.wf = true) :
    (stepsRule (compressSteps .compressHuf) s).faultsOr (InUnwritten s) fun _ => True := by
  simp only [compressSteps, stepsRule, ruleOf, andThen_done_right]
  refine (analyzeRule_faultsOr s).andThen fun a ha => ?_
  rw [huffBuildRule, andThen_done, huffCodesRule, andThen_done]
  refine encodeSteps_faultsOr hwf ?_ (serializeTable_faultsOr 0x01)
  exact ⟨ha.inp, ha.caps⟩

theorem stepsRule_compressSf_faultsOr (hwf : s.caps.wf = true) :
    (stepsRule (compressSteps .compressSf) s).faultsOr (InUnwritten s) fun _ => True := by
  simp only [compressSteps, stepsRule, ruleOf, andThen_done_right]
  refine (analyzeRule_faultsOr s).andThen fun a ha => ?_
  rw [rankRule, andThen_done, sfCodesRule, andThen_done]
  refine encodeSteps_faultsOr hwf ?_ (serializeTable_faultsOr 0x02)
  exact ⟨ha.inp, ha.caps⟩

theorem stepsRule_compressLzw_faultsOr (hwf : s.caps.wf = true) :
    (stepsRule (compressSteps .compressLzw) s).faultsOr (InUnwritten s) fun _ => True := by
  simp only [compressSteps, stepsRule, ruleOf, andThen_done_right]
  refine (lzwCompressRule_faultsOr hwf).andThen ?_
  rintro a ⟨ws, hws⟩
  exact (serializeLzwRule_faultsOr a).of_written (not_codesUnwritten_of_codeList hws)

theorem compressRule_faultsOr {i : Instr} (hi : IsCompress i) (hwf : s.caps.wf = true) :
    (ruleOf i s).faultsOr (InUnwritten s) fun _ => True := by
  rw [compressRule_eq hi]
  refine ((compressStart_faultsOr _ s).andThen fun a ha => ?_).andThen (P := fun _ => True) fun _ _ => trivial
  have hwf' : a.caps.wf = true := ha.caps ▸ hwf
  refine Ending.faultsOr.mono ?_ ha.inUnwritten fun _ => id
  obtain rfl | rfl | rfl := hi
  · exact stepsRule_compressHuf_faultsOr hwf'
  · exact stepsRule_compressSf_faultsOr hwf'
  · exact stepsRule_compressLzw_faultsOr hwf'

/-- Either tail of DECOMPRESS reads what DESERIALIZE has written (46_top_level R305). -/
theorem decompressTail_faultsOr (F : Fault → Prop) (hwf : s.caps.wf = true) (h : HoldsParts s) :
    (decompressTail s).faultsOr F fun _ => True := by
  rw [decompressTail]
  obtain ⟨hkind, ws, hws⟩ | ⟨hkind, x, hx⟩ := h
  · rw [if_pos hkind]
    exact (lzwDecompressRule_faultsOr s).of_written (not_codesUnwritten_of_codeList hws)
  · rw [if_neg hkind]
    refine ((unpackRule_faultsOr hwf).of_written (not_payloadUnwritten_of_payloadText hx)).andThen ?_
    rintro a ⟨b, hb⟩
    exact (decodeRule_faultsOr a).of_written (not_bitsUnwritten_of_bitText hb)

theorem decompressRule_faultsOr (hwf : s.caps.wf = true) :
    (decompressRule s).faultsOr (InUnwritten s) fun _ => True :=
  ((deserializeRule_faultsOr hwf).andThen fun _ ha => decompressTail_faultsOr _ (ha.1 ▸ hwf) ha.2).andThen
    fun _ _ => trivial

/-- 70_reset R376: a command that faults names an element below its length register that holds nothing. -/
theorem ruleOf_faultsOr (i : Instr) (hwf : s.caps.wf = true) :
    (ruleOf i s).faultsOr (OperandUnwritten s) fun _ => True := by
  cases i with
  | nop | rank | huffBuild | huffCodes | sfCodes => trivial
  | pack => exact (packRule_faultsOr hwf).weaken fun _ => .of_bits
  | unpack => exact (unpackRule_faultsOr hwf).weaken fun _ => .of_payload
  | analyze => exact (analyzeRule_faultsOr s).weaken fun _ => .of_in
  | encode => exact (encodeRule_faultsOr hwf).weaken fun _ => .of_in
  | decode => exact (decodeRule_faultsOr s).weaken fun _ => .of_bits
  | lzwCompress => exact (lzwCompressRule_faultsOr hwf).weaken fun _ => .of_in
  | lzwDecompress => exact (lzwDecompressRule_faultsOr s).weaken fun _ => .of_codes
  | serializeHuf => exact (serializeTable_faultsOr 0x01 s).weaken fun _ => .of_payload
  | serializeSf => exact (serializeTable_faultsOr 0x02 s).weaken fun _ => .of_payload
  | serializeLzw => exact (serializeLzwRule_faultsOr s).weaken fun _ => .of_codes
  | deserialize => exact (deserializeRule_faultsOr hwf).weaken fun _ => .of_in
  | compressHuf => exact (compressRule_faultsOr (.inl rfl) hwf).weaken fun _ => .of_in
  | compressSf => exact (compressRule_faultsOr (.inr (.inl rfl)) hwf).weaken fun _ => .of_in
  | compressLzw => exact (compressRule_faultsOr (.inr (.inr rfl)) hwf).weaken fun _ => .of_in
  | decompress => exact (decompressRule_faultsOr hwf).weaken fun _ => .of_in

theorem operandUnwritten_of_exec_fault {i : Instr} {f : Fault} (hwf : s.caps.wf = true) (h : exec i s = .fault f) :
    OperandUnwritten s f := by
  have hrule := ruleOf_faultsOr i hwf
  rw [exec_eq] at h
  cases he : ruleOf i s with
  | done t => rw [he] at h; cases h
  | raised code info sub t => rw [he] at h; cases h
  | fault f' =>
    rw [he] at h hrule
    cases h
    exact hrule

end

end Sys2Proof.Machine
end

section
/-! PROOFS of 70_reset_and_hazards.md R375 and R376: storage that nothing has written answers the Host's reads and stops
the commands that read it, and them only. -/

namespace Sys2Proof.Machine

/-! ## The Host's reads -/

section
variable {s : State} (hidle : s.ctl.busy = false)
include hidle

/-- A byte space answers every read below its bound with a byte, written or not (70_reset R375). -/
theorem memRead_anyByte {space off : Nat} {m : Memory Byte} (hunit : spaceWidth space = some .w8)
    (hbyte : busRead s space off = (hostByte s space m off).setWidth 32) (hbound : off < spaceBound s space)
    (hoff : off < 2 ^ 32) :
    ∃ v, memRead space (BitVec.ofNat 32 off) .w8 s = (.okData v, s) ∧ (Width.w8 = .w8 → v.toNat < 256) := by
  refine ⟨_, memRead_granted hidle hunit (by rintro ⟨⟩) hbound hoff, fun _ => ?_⟩
  rw [hbyte, BitVec.toNat_setWidth_of_le (by decide)]
  exact (hostByte s space m off).isLt

/-- CODES answers every aligned read within the capacity (70_reset R375). -/
theorem memRead_anyCode {j : Nat} (hj : j < s.caps.codesCap) (hcap : 4 * s.caps.codesCap < 2 ^ 32) :
    ∃ v, memRead 5 (BitVec.ofNat 32 (4 * j)) .w32 s = (.okData v, s) ∧ (Width.w32 = .w8 → v.toNat < 256) :=
  ⟨_, memRead_granted hidle rfl (fun _ => Nat.mul_mod_right 4 j) (by simp only [spaceBound]; omega) (by omega),
    by rintro ⟨⟩⟩

end

/-! ## The statement -/

/-- Settles O60: the rules stop at the first unlisted element (`…_unwritten`), in a COMPRESS by its first step and in
DECOMPRESS by DESERIALIZE; every fault names such an element (`operandUnwritten_of_exec_fault`); a Host read while idle
is granted below the capacity. -/
theorem unwrittenStorageStopsCommandsOnly : Obligations.UnwrittenStorageStopsCommandsOnly := by
  refine ⟨fun s x hx hnone hlen hcap => ?inp, fun s x y hx hnone hy hlen hcap hart => ?artifact,
    fun s a hbelow hnone hlen hcap => ⟨fun hpayload => ?_, fun hout => ?_⟩,
    fun s a hbelow hnone hlen hcap => ⟨fun hbits => ?_, fun hctab hroom => ?serialize⟩,
    fun s ws hread hnone hlen hcap => ⟨fun hroom => ?_, fun d hres hd hdict hout => ?_⟩,
    fun i s f hwf h => operandUnwritten_of_exec_fault hwf h, fun s hwf hidle => ?host⟩
  case inp =>
    have hanalyze := analyzeRule_unwritten hx hnone hlen hcap
    have hne : s.inp.len ≠ 0 := fun h => by rw [h] at hlen; exact Nat.not_lt_zero _ hlen
    refine ⟨exec_of_ruleOf_fault hanalyze, exec_compress_of_first_fault (.inl rfl) hcap hne rfl hanalyze,
      exec_compress_of_first_fault (.inr (.inl rfl)) hcap hne rfl hanalyze,
      fun hmapped hbits => exec_of_ruleOf_fault (encodeRule_unwritten hx hnone hlen hcap hmapped hbits),
      fun hcodes hdict => ?_⟩
    have hlzw := lzwCompressRule_unwritten hx hnone hlen hcap hcodes hdict
    exact ⟨exec_of_ruleOf_fault hlzw, exec_compress_of_first_fault (.inr (.inr rfl)) hcap hne rfl hlzw⟩
  case artifact =>
    have hrule := deserializeRule_unwritten hx hnone hy hlen hcap (hart.imp ?_ ?_)
    · exact ⟨exec_of_ruleOf_fault hrule,
        exec_of_ruleOf_fault (i := .decompress) (decompressRule_of_deserialize_fault hrule)⟩
    · rintro ⟨tag, pad, tab, z, htag, htab, hpad, htable, hroom, he⟩
      exact ⟨tag, pad, tab.codes, z, htag, htab.codesOk, ⟨hroom, hpad, htable⟩, he.trans (tableArtifact_eq ..).symm⟩
    · rintro ⟨ws, hroom, he⟩
      exact ⟨ws, hroom, he.trans (codesArtifact_eq ws).symm⟩
  case serialize =>
    have hrun := fun tag => serializeTableRun_unwritten hbelow hnone hlen hcap tag hctab hroom
    exact ⟨exec_of_ruleOf_fault (i := .serializeHuf) (ofRun_of_fault (hrun 0x01)),
      exec_of_ruleOf_fault (i := .serializeSf) (ofRun_of_fault (hrun 0x02))⟩
  case host =>
    obtain ⟨hin, -, hbits, hpayload, hcodes, -⟩ := Caps.wf_lt hwf
    exact ⟨fun o ho => memRead_anyByte hidle rfl rfl ho (by omega),
      fun o ho => memRead_anyByte hidle rfl rfl ho (by omega),
      fun o ho => memRead_anyByte hidle rfl rfl ho (by omega), fun j hj => memRead_anyCode hidle hj hcodes⟩
  · exact exec_of_ruleOf_fault (packRule_unwritten hbelow hnone hlen hcap hpayload)
  · exact exec_of_ruleOf_fault (decodeRule_unwritten hbelow hnone hlen hcap hout)
  · exact exec_of_ruleOf_fault (unpackRule_unwritten hbelow hnone hlen hcap hbits)
  · exact exec_of_ruleOf_fault (serializeLzwRule_unwritten hread hnone hlen hcap hroom)
  · exact exec_of_ruleOf_fault (lzwDecompressRule_unwritten hread hnone hlen hcap hres hd hdict hout)

end Sys2Proof.Machine
end
